-- ==== Sys2Proof/Word.lean ====
section
/-!
DEFINITION. The word types: bytes and 64-bit words.
-/
namespace Sys2Proof

/-- One byte. -/
abbrev Byte := BitVec 8
/-- A 64-bit register or word. -/
abbrev Word := BitVec 64

end Sys2Proof
end

