-- ==== Sys2Proof/Machine/Flags.lean ====
section
/-!
DEFINITION. The sticky flags of FSTK (01 R20) and how they are set and cleared (R21).
-/
namespace Sys2Proof.Machine

/-- The ten sticky flags, in the order of FSTK. -/
abbrev Flags := BitVec 10

/-- No flag. -/
def flNone : Flags := 0
/-- NX: a rounded result differed from its exact value. -/
def flNX : Flags := 0x001
/-- UFL: a result was tiny and inexact, or was flushed. -/
def flUFL : Flags := 0x002
/-- OFL: a result overflowed. -/
def flOFL : Flags := 0x004
/-- INV: a NaN was converted to an integer or to E2M1. -/
def flINV : Flags := 0x008
/-- SAT: a conversion saturated. -/
def flSAT : Flags := 0x010
/-- CLAMP: the M engine read I8 code 0x80. -/
def flCLAMP : Flags := 0x020
/-- QNAN: a scaled block met an infinity or NaN. -/
def flQNAN : Flags := 0x040
/-- QUF: a scale search fell below code 0. -/
def flQUF : Flags := 0x080
/-- QOF: a scale search rose above code 1019. -/
def flQOF : Flags := 0x100
/-- SYMLOSS: a relaxed store broke a declared symmetry. -/
def flSYMLOSS : Flags := 0x200

/-- A flag where a condition holds. -/
def flIf (c : Bool) (f : Flags) : Flags := if c then f else 0

/-- FSTK after an engine sets flags by OR (R21). -/
def fstkSet (fstk : Word) (f : Flags) : Word := fstk ||| f.zeroExtend 64

/-- FSTK after a WSR of `v`: a written one clears its bit, bits [63:10] ignore writes (R20). -/
def fstkWrite (fstk v : Word) : Word := fstk &&& ~~~ (v &&& 0x3FF)

end Sys2Proof.Machine
end

