-- ==== Sys2Proof/Machine/Tbl.lean ====
section
/-!
DEFINITION. Sparse tables: what a register file or a memory holds where it differs from one default value,
as a list of keys and values in one canonical form.
-/
namespace Sys2Proof.Machine

/-- A table from natural keys to values, listing the entries that differ from its default. -/
abbrev Tbl (α : Type) := List (Nat × α)

/-- The value at key `i`, the default `d` where none is listed. -/
def Tbl.get {α : Type} (d : α) : Tbl α → Nat → α
  | [], _ => d
  | (k, v) :: t, i => if k = i then v else Tbl.get d t i

/-- Places `v` at key `k`, before the first greater key. -/
def Tbl.place {α : Type} (k : Nat) (v : α) : Tbl α → Tbl α
  | [] => [(k, v)]
  | (j, w) :: t =>
    if k < j then (k, v) :: (j, w) :: t
    else if k = j then (k, v) :: t
    else (j, w) :: Tbl.place k v t

/-- Removes every entry of key `k`. -/
def Tbl.erase {α : Type} (k : Nat) (t : Tbl α) : Tbl α :=
  t.filter (fun p => !(p.1 == k))

/-- Writes `v` at key `k`; writing the default removes the entry. -/
def Tbl.set {α : Type} [DecidableEq α] (d : α) (t : Tbl α) (k : Nat) (v : α) : Tbl α :=
  if v = d then Tbl.erase k t else Tbl.place k v t

/-- The keys rise strictly. -/
def Tbl.rising {α : Type} : Tbl α → Bool
  | [] => true
  | [_] => true
  | (j, _) :: (k, w) :: t => decide (j < k) && Tbl.rising ((k, w) :: t)

/-- The canonical form: rising keys and no entry equal to the default. -/
def Tbl.wf {α : Type} [DecidableEq α] (d : α) (t : Tbl α) : Bool :=
  Tbl.rising t && t.all (fun p => !(decide (p.2 = d)))

/-- Writes a run of values at rising keys. -/
def Tbl.setRun {α : Type} [DecidableEq α] (d : α) (t : Tbl α) (k : Nat) : List α → Tbl α
  | [] => t
  | v :: vs => Tbl.setRun d (Tbl.set d t k v) (k + 1) vs

/-- The run of `n` values from key `k`. -/
def Tbl.getRun {α : Type} (d : α) (t : Tbl α) (k : Nat) : Nat → List α
  | 0 => []
  | n + 1 => Tbl.get d t k :: Tbl.getRun d t (k + 1) n

/-- Removes every entry with a key in [lo, hi). -/
def Tbl.clearRange {α : Type} (t : Tbl α) (lo hi : Nat) : Tbl α :=
  t.filter (fun p => decide (p.1 < lo) || decide (hi ≤ p.1))

end Sys2Proof.Machine
end

