-- ==== Sys2Proof/Syntax.lean ====
section
/-!
DEFINITION. The instructions of the four streams and the events of the part, one constructor for each
row of the opcode table, with the data an event carries.
-/
namespace Sys2Proof

/-- The four engines, numbered S 0, V 1, M 2, K 3 (03, ".sync"). -/
inductive Eng where
  | s | v | m | k
  deriving DecidableEq, Repr, Inhabited

/-- The header and control word of an M or K command (08 R172, R173). `prof` is bits [26:23]: the
profile of an M command, the notify bit and three zeros of a K command. -/
structure CmdHdr where
  seq : BitVec 8
  dep0 : BitVec 8
  dep1 : BitVec 8
  e : BitVec 5
  prof : BitVec 4
  ta : BitVec 6
  tb : BitVec 6
  tk : BitVec 3
  deriving DecidableEq, Repr, Inhabited

/-- What a fabric packet asks for (17 R335, field op). -/
inductive PacketOp where
  | read
  | write
  | atomic (aop : BitVec 4)
  | cas
  | reduce (rop : BitVec 2)
  | update (aop : BitVec 4) (issuer : BitVec 18) (strm : Bool)
  | close
  | collective
  /-- The resynchronising header of R341. -/
  | resync
  deriving DecidableEq, Repr, Inhabited

/-- A fabric packet (17 R335): header fields, payload bytes and the poison mark of each payload word. -/
structure Packet where
  sdev : BitVec 12
  sdie : BitVec 2
  ddev : BitVec 12
  cls : BitVec 2
  seq : BitVec 24
  afl : BitVec 24
  tag : BitVec 16
  op : PacketOp
  va : BitVec 57
  len : BitVec 13
  payload : List (BitVec 8)
  marks : List Bool
  deriving DecidableEq, Repr, Inhabited

/-- A response (17 R337): the stream and seq it answers, a fault code (0 for none), data and marks. -/
structure Response where
  sdev : BitVec 12
  sdie : BitVec 2
  ddev : BitVec 12
  cls : BitVec 2
  seq : BitVec 24
  code : BitVec 8
  data : List (BitVec 8)
  marks : List Bool
  deriving DecidableEq, Repr, Inhabited

/-- Where the loader puts an object (03 R62: addresses of its choosing): the D address of each text
section, of .rodata, .data and .launch, and whether room was found (03 R68, code 0x0E). -/
structure Placement where
  room : Bool
  text : List Nat
  rodata : Nat
  data : Nat
  launch : Nat
  deriving DecidableEq, Repr, Inhabited

/-- The error banks (20 R374). -/
inductive BankId where
  | core (g : Nat)
  | walker (n : Nat)
  | slice (n : Nat)
  | link (n : Fin 36)
  | sequencer (die : Nat)
  | collective (die : Nat)
  | dispatcher (n : Nat)
  deriving DecidableEq, Repr, Inhabited

/-- A path of a die's route table to a device, numbered 0 to 3, and the link port of the module that it leaves by (00 R1, 17
R340). -/
structure Route where
  die : Nat
  dev : Nat
  path : Nat
  port : Fin 36
  deriving DecidableEq, Repr, Inhabited

/-- The signed platform record (22 R396). -/
structure Platform where
  ownerHash : List (BitVec 8)
  device : BitVec 12
  host : BitVec 12
  station : BitVec 12
  qbase : BitVec 57
  root : BitVec 39
  cew : BitVec 57
  pools : List Nat
  routes : List Route
  deriving DecidableEq, Repr, Inhabited

/-- What stands behind a signature (03 R64): the root public key from which its chain descends, and whether every signature of the chain
verifies. -/
structure Chain where
  root : List (BitVec 8)
  sound : Bool
  deriving DecidableEq, Repr, Inhabited

/-- A module reset: at power-on or, of a management packet, the device that sent it (22 R398); and whether the firmware and the
platform record verify (R396). -/
structure Boot where
  dev : Option Nat
  firmware : Chain
  record : Chain
  deriving DecidableEq, Repr, Inhabited

/-- An arrival at object `b`'s node: of the member itself, or (`group`) of the fabric group's other devices, with their fault and
data flags (15 R327). -/
structure ZenithMessage where
  b : Nat
  group : Option (Bool × Bool)
  deriving DecidableEq, Repr, Inhabited

/-- A close of a tag and the slice whose reduce unit it acts at (18 R358). -/
structure CloseReach where
  tag : BitVec 16
  slice : Nat
  deriving DecidableEq, Repr, Inhabited

/-- Of a lost member of a collective: whether another device reports its die fenced, and how many chunks the members on other devices
have acknowledged (17 R349). -/
structure MemberLoss where
  fenced : Bool
  acked : Nat
  deriving DecidableEq, Repr, Inhabited

/-- A purge of a tag, and the code of the fault on another device that began it, if one did (20 R377). -/
structure PurgeReport where
  tag : BitVec 16
  peer : Option Nat
  deriving DecidableEq, Repr, Inhabited

/-- The die that is fenced, and the error bank of the failing unit, where it has one (20 R379). -/
structure FenceCause where
  die : Nat
  bank : Option BankId
  deriving DecidableEq, Repr, Inhabited

/-- An access to an error bank: by the management station `dev` or, without one, the active Dispatcher; the value written to its EBS,
if one is (20 R374, 22 R398). -/
structure BankAccess where
  dev : Option Nat
  bank : BankId
  write : Option (BitVec 64)
  deriving DecidableEq, Repr, Inhabited

/-- A flit that fails its check on a path's link; `again` where it has failed before (17 R340). -/
structure FlitCheck where
  path : Nat
  again : Bool
  deriving DecidableEq, Repr, Inhabited

/-- Sensor values (22 R397): power in W, inlet temperature in tenths of a degree, coolant flow in tenths
of a litre a minute, junction temperature in tenths of a degree. -/
structure Sensors where
  power : Nat
  inlet : Nat
  flow : Nat
  junction : Nat
  deriving DecidableEq, Repr, Inhabited

/-- One constructor for each row of the opcode table. A stream instruction carries its encoded fields,
an event of the part carries what names its place: a core `g`, a stream `e`, a queue `q`, a die. -/
inductive Instr where
  -- S stream (spec 08 R168, R169, R175; 09)
  | add (sd : BitVec 6) (sa : BitVec 6) (sb : BitVec 6) (pg : BitVec 4) (tk : BitVec 3)  -- R184
  | sub (sd : BitVec 6) (sa : BitVec 6) (sb : BitVec 6) (pg : BitVec 4) (tk : BitVec 3)  -- R184
  | mul (sd : BitVec 6) (sa : BitVec 6) (sb : BitVec 6) (pg : BitVec 4) (tk : BitVec 3)  -- R184
  | mulh (sd : BitVec 6) (sa : BitVec 6) (sb : BitVec 6) (pg : BitVec 4) (tk : BitVec 3)  -- R184
  | mulhn (sd : BitVec 6) (sa : BitVec 6) (sb : BitVec 6) (pg : BitVec 4) (tk : BitVec 3)  -- R184
  | divs (sd : BitVec 6) (sa : BitVec 6) (sb : BitVec 6) (pg : BitVec 4) (tk : BitVec 3)  -- R185
  | divn (sd : BitVec 6) (sa : BitVec 6) (sb : BitVec 6) (pg : BitVec 4) (tk : BitVec 3)  -- R185
  | rems (sd : BitVec 6) (sa : BitVec 6) (sb : BitVec 6) (pg : BitVec 4) (tk : BitVec 3)  -- R185
  | remn (sd : BitVec 6) (sa : BitVec 6) (sb : BitVec 6) (pg : BitVec 4) (tk : BitVec 3)  -- R185
  | and (sd : BitVec 6) (sa : BitVec 6) (sb : BitVec 6) (pg : BitVec 4) (tk : BitVec 3)  -- R184
  | or (sd : BitVec 6) (sa : BitVec 6) (sb : BitVec 6) (pg : BitVec 4) (tk : BitVec 3)  -- R184
  | xor (sd : BitVec 6) (sa : BitVec 6) (sb : BitVec 6) (pg : BitVec 4) (tk : BitVec 3)  -- R184
  | andn (sd : BitVec 6) (sa : BitVec 6) (sb : BitVec 6) (pg : BitVec 4) (tk : BitVec 3)  -- R184
  | shl (sd : BitVec 6) (sa : BitVec 6) (sb : BitVec 6) (pg : BitVec 4) (tk : BitVec 3)  -- R184
  | shrl (sd : BitVec 6) (sa : BitVec 6) (sb : BitVec 6) (pg : BitVec 4) (tk : BitVec 3)  -- R184
  | shra (sd : BitVec 6) (sa : BitVec 6) (sb : BitVec 6) (pg : BitVec 4) (tk : BitVec 3)  -- R184
  | rotl (sd : BitVec 6) (sa : BitVec 6) (sb : BitVec 6) (pg : BitVec 4) (tk : BitVec 3)  -- R184
  | min (sd : BitVec 6) (sa : BitVec 6) (sb : BitVec 6) (pg : BitVec 4) (tk : BitVec 3)  -- R184
  | max (sd : BitVec 6) (sa : BitVec 6) (sb : BitVec 6) (pg : BitVec 4) (tk : BitVec 3)  -- R184
  | minn (sd : BitVec 6) (sa : BitVec 6) (sb : BitVec 6) (pg : BitVec 4) (tk : BitVec 3)  -- R184
  | maxn (sd : BitVec 6) (sa : BitVec 6) (sb : BitVec 6) (pg : BitVec 4) (tk : BitVec 3)  -- R184
  | clz (sd : BitVec 6) (sa : BitVec 6) (pg : BitVec 4) (tk : BitVec 3)  -- R186
  | popc (sd : BitVec 6) (sa : BitVec 6) (pg : BitVec 4) (tk : BitVec 3)  -- R186
  | sext (sd : BitVec 6) (sa : BitVec 6) (n : BitVec 6) (pg : BitVec 4) (tk : BitVec 3)  -- R186
  | zext (sd : BitVec 6) (sa : BitVec 6) (n : BitVec 6) (pg : BitVec 4) (tk : BitVec 3)  -- R186
  | addi (sd : BitVec 6) (sa : BitVec 6) (imm : BitVec 10) (tk : BitVec 3)  -- R187
  | andi (sd : BitVec 6) (sa : BitVec 6) (imm : BitVec 10) (tk : BitVec 3)  -- R187
  | ori (sd : BitVec 6) (sa : BitVec 6) (imm : BitVec 10) (tk : BitVec 3)  -- R187
  | xori (sd : BitVec 6) (sa : BitVec 6) (imm : BitVec 10) (tk : BitVec 3)  -- R187
  | shli (sd : BitVec 6) (sa : BitVec 6) (imm : BitVec 10) (tk : BitVec 3)  -- R187
  | shrli (sd : BitVec 6) (sa : BitVec 6) (imm : BitVec 10) (tk : BitVec 3)  -- R187
  | shrai (sd : BitVec 6) (sa : BitVec 6) (imm : BitVec 10) (tk : BitVec 3)  -- R187
  | ldi (sd : BitVec 6) (imm : BitVec 16) (tk : BitVec 3)  -- R188
  | ldhi (sd : BitVec 6) (imm : BitVec 16) (tk : BitVec 3)  -- R188
  | lea (sd : BitVec 6) (sa : BitVec 6) (imm : BitVec 10) (tk : BitVec 3)  -- R189
  | plc (sd : BitVec 6) (sa : BitVec 6) (dx : BitVec 4) (dy : BitVec 4) (dd : BitVec 2) (tk : BitVec 3)  -- R189
  | cmpeq (pd : BitVec 4) (sa : BitVec 6) (sb : BitVec 6) (pg : BitVec 4) (tk : BitVec 3)  -- R190
  | cmpne (pd : BitVec 4) (sa : BitVec 6) (sb : BitVec 6) (pg : BitVec 4) (tk : BitVec 3)  -- R190
  | cmplt (pd : BitVec 4) (sa : BitVec 6) (sb : BitVec 6) (pg : BitVec 4) (tk : BitVec 3)  -- R190
  | cmple (pd : BitVec 4) (sa : BitVec 6) (sb : BitVec 6) (pg : BitVec 4) (tk : BitVec 3)  -- R190
  | cmpltn (pd : BitVec 4) (sa : BitVec 6) (sb : BitVec 6) (pg : BitVec 4) (tk : BitVec 3)  -- R190
  | cmplen (pd : BitVec 4) (sa : BitVec 6) (sb : BitVec 6) (pg : BitVec 4) (tk : BitVec 3)  -- R190
  | cmpeqi (pd : BitVec 4) (sa : BitVec 6) (imm : BitVec 10) (tk : BitVec 3)  -- R190
  | cmpnei (pd : BitVec 4) (sa : BitVec 6) (imm : BitVec 10) (tk : BitVec 3)  -- R190
  | cmplti (pd : BitVec 4) (sa : BitVec 6) (imm : BitVec 10) (tk : BitVec 3)  -- R190
  | cmplei (pd : BitVec 4) (sa : BitVec 6) (imm : BitVec 10) (tk : BitVec 3)  -- R190
  | cmpltni (pd : BitVec 4) (sa : BitVec 6) (imm : BitVec 10) (tk : BitVec 3)  -- R190
  | cmpleni (pd : BitVec 4) (sa : BitVec 6) (imm : BitVec 10) (tk : BitVec 3)  -- R190
  | pand (pd : BitVec 4) (pa : BitVec 4) (pb : BitVec 4) (pg : BitVec 4) (tk : BitVec 3)  -- R191
  | por (pd : BitVec 4) (pa : BitVec 4) (pb : BitVec 4) (pg : BitVec 4) (tk : BitVec 3)  -- R191
  | pxor (pd : BitVec 4) (pa : BitVec 4) (pb : BitVec 4) (pg : BitVec 4) (tk : BitVec 3)  -- R191
  | pnot (pd : BitVec 4) (pa : BitVec 4) (pg : BitVec 4) (tk : BitVec 3)  -- R191
  | pmov (pd : BitVec 4) (pa : BitVec 4) (pg : BitVec 4) (tk : BitVec 3)  -- R191
  | pset (pd : BitVec 4) (val : BitVec 6) (pg : BitVec 4) (tk : BitVec 3)  -- R191
  | sel (sd : BitVec 6) (sa : BitVec 6) (sb : BitVec 6) (ps : BitVec 4) (tk : BitVec 3)  -- R191
  | ld (sd : BitVec 6) (sa : BitVec 6) (w : BitVec 1) (tk : BitVec 3)  -- R197
  | st (ss : BitVec 6) (sa : BitVec 6) (w : BitVec 1) (tk : BitVec 3)  -- R197
  | ldacq (sd : BitVec 6) (sa : BitVec 6) (obs : BitVec 6) (w : BitVec 1) (tk : BitVec 3)  -- R199
  | strel (ss : BitVec 6) (sa : BitVec 6) (obs : BitVec 6) (w : BitVec 1) (tk : BitVec 3)  -- R199
  | mark (pg : BitVec 4) (tk : BitVec 3)  -- R198
  | fence (obs : BitVec 6) (tk : BitVec 3)  -- R199
  | spl (sd : BitVec 6) (off : BitVec 10) (tk : BitVec 3)  -- R200
  | spr (ss : BitVec 6) (off : BitVec 10) (tk : BitVec 3)  -- R200
  | amo (sd : BitVec 6) (sa : BitVec 6) (obs : BitVec 6) (aop : BitVec 4) (tk : BitVec 3)  -- R201
  | cas (sd : BitVec 6) (sa : BitVec 6) (obs : BitVec 6) (tk : BitVec 3)  -- R202
  | dred (ss : BitVec 6) (sa : BitVec 6) (aop : BitVec 4) (tk : BitVec 3)  -- R204
  | tlk (sd : BitVec 6) (sa : BitVec 6) (tk : BitVec 3)  -- R205
  | tins (sa : BitVec 6) (sb : BitVec 6) (way : BitVec 4) (tk : BitVec 3)  -- R205
  | tinv (sa : BitVec 6) (way : BitVec 4) (tk : BitVec 3)  -- R205
  | trd (sd : BitVec 6) (sa : BitVec 6) (way : BitVec 4) (tk : BitVec 3)  -- R205
  | qpush (sa : BitVec 6) (q : BitVec 3) (e : BitVec 5) (tk : BitVec 3)  -- R206
  | qpop (sd : BitVec 6) (q : BitVec 3) (e : BitVec 5) (tk : BitVec 3)  -- R206
  | bop (pa : BitVec 4) (q : BitVec 3) (e : BitVec 5) (tk : BitVec 3)  -- R206
  | rsr (sd : BitVec 6) (sr : BitVec 12) (tk : BitVec 3)  -- R219
  | wsr (ss : BitVec 6) (sr : BitVec 12) (tk : BitVec 3)  -- R219
  | br (off : BitVec 18) (pg : BitVec 4) (tk : BitVec 3)  -- R192
  | bc (off : BitVec 18) (pc : BitVec 4) (tk : BitVec 3)  -- R192
  | brl (sd : BitVec 6) (off : BitVec 16) (tk : BitVec 3)  -- R192
  | jr (sa : BitVec 6) (pg : BitVec 4) (tk : BitVec 3)  -- R192
  | loop (sa : BitVec 6) (off : BitVec 16) (tk : BitVec 3)  -- R193
  | arr (b : BitVec 6) (obs : BitVec 6) (dam : BitVec 1) (pg : BitVec 4) (tk : BitVec 3)  -- R209
  | wtp (pd : BitVec 4) (b : BitVec 6) (e : BitVec 5) (tk : BitVec 3)  -- R210
  | binit (b : BitVec 6) (sa : BitVec 6) (tk : BitVec 3)  -- R208
  | bexp (b : BitVec 6) (sa : BitVec 6) (tk : BitVec 3)  -- R208
  | wfe (e : BitVec 5) (tk : BitVec 3)  -- R211
  | sev (sa : BitVec 6) (tk : BitVec 3)  -- R211
  | ofopen (sd : BitVec 6) (tk : BitVec 3)  -- R212
  | ofdecl (sh : BitVec 6) (sa : BitVec 6) (sc : BitVec 6) (rw : BitVec 4) (tk : BitVec 3)  -- R213
  | ofsub (sh : BitVec 6) (tk : BitVec 3)  -- R214
  | ofwait (pd : BitVec 4) (sh : BitVec 6) (e : BitVec 5) (tk : BitVec 3)  -- R215
  | ofend (sh : BitVec 6) (tk : BitVec 3)  -- R217
  | trap (code : BitVec 16) (tk : BitVec 3)  -- R195
  | sysc (code : BitVec 16) (tk : BitVec 3)  -- R195
  | uiret (pg : BitVec 4) (tk : BitVec 3)  -- R196
  | nop (pg : BitVec 4) (tk : BitVec 3)  -- R194
  | endS (pg : BitVec 4) (tk : BitVec 3)  -- R194
  -- V stream (spec 08 R170, R171, R176; 11)
  | vadd (vd : BitVec 6) (va : BitVec 6) (vb : BitVec 6) (pg : BitVec 4) (tk : BitVec 3)  -- R247
  | vsub (vd : BitVec 6) (va : BitVec 6) (vb : BitVec 6) (pg : BitVec 4) (tk : BitVec 3)  -- R247
  | vmul (vd : BitVec 6) (va : BitVec 6) (vb : BitVec 6) (pg : BitVec 4) (tk : BitVec 3)  -- R247
  | vfma (vd : BitVec 6) (va : BitVec 6) (vb : BitVec 6) (pg : BitVec 4) (tk : BitVec 3)  -- R247
  | vfms (vd : BitVec 6) (va : BitVec 6) (vb : BitVec 6) (pg : BitVec 4) (tk : BitVec 3)  -- R247
  | vfnma (vd : BitVec 6) (va : BitVec 6) (vb : BitVec 6) (pg : BitVec 4) (tk : BitVec 3)  -- R247
  | vmin (vd : BitVec 6) (va : BitVec 6) (vb : BitVec 6) (pg : BitVec 4) (tk : BitVec 3)  -- R248
  | vmax (vd : BitVec 6) (va : BitVec 6) (vb : BitVec 6) (pg : BitVec 4) (tk : BitVec 3)  -- R248
  | vabs (vd : BitVec 6) (va : BitVec 6) (pg : BitVec 4) (tk : BitVec 3)  -- R248
  | vneg (vd : BitVec 6) (va : BitVec 6) (pg : BitVec 4) (tk : BitVec 3)  -- R248
  | vrcp (vd : BitVec 6) (va : BitVec 6) (pg : BitVec 4) (tk : BitVec 3)  -- R249
  | vrsq (vd : BitVec 6) (va : BitVec 6) (pg : BitVec 4) (tk : BitVec 3)  -- R249
  | vsqrt (vd : BitVec 6) (va : BitVec 6) (pg : BitVec 4) (tk : BitVec 3)  -- R249
  | vexp2 (vd : BitVec 6) (va : BitVec 6) (pg : BitVec 4) (tk : BitVec 3)  -- R249
  | vlog2 (vd : BitVec 6) (va : BitVec 6) (pg : BitVec 4) (tk : BitVec 3)  -- R249
  | vcvt (vd : BitVec 6) (va : BitVec 6) (cf : BitVec 3) (ct : BitVec 3) (pg : BitVec 4) (tk : BitVec 3)  -- R250
  | vdot (vd : BitVec 6) (va : BitVec 6) (vb : BitVec 6) (pg : BitVec 4) (tk : BitVec 3)  -- R251
  | viadd (vd : BitVec 6) (va : BitVec 6) (vb : BitVec 6) (pg : BitVec 4) (tk : BitVec 3)  -- R252
  | visub (vd : BitVec 6) (va : BitVec 6) (vb : BitVec 6) (pg : BitVec 4) (tk : BitVec 3)  -- R252
  | vimul (vd : BitVec 6) (va : BitVec 6) (vb : BitVec 6) (pg : BitVec 4) (tk : BitVec 3)  -- R252
  | vimulh (vd : BitVec 6) (va : BitVec 6) (vb : BitVec 6) (pg : BitVec 4) (tk : BitVec 3)  -- R252
  | vand (vd : BitVec 6) (va : BitVec 6) (vb : BitVec 6) (pg : BitVec 4) (tk : BitVec 3)  -- R252
  | vor (vd : BitVec 6) (va : BitVec 6) (vb : BitVec 6) (pg : BitVec 4) (tk : BitVec 3)  -- R252
  | vxor (vd : BitVec 6) (va : BitVec 6) (vb : BitVec 6) (pg : BitVec 4) (tk : BitVec 3)  -- R252
  | vshl (vd : BitVec 6) (va : BitVec 6) (vb : BitVec 6) (pg : BitVec 4) (tk : BitVec 3)  -- R252
  | vshrl (vd : BitVec 6) (va : BitVec 6) (vb : BitVec 6) (pg : BitVec 4) (tk : BitVec 3)  -- R252
  | vshra (vd : BitVec 6) (va : BitVec 6) (vb : BitVec 6) (pg : BitVec 4) (tk : BitVec 3)  -- R252
  | vpopc (vd : BitVec 6) (va : BitVec 6) (pg : BitVec 4) (tk : BitVec 3)  -- R252
  | vclz (vd : BitVec 6) (va : BitVec 6) (pg : BitVec 4) (tk : BitVec 3)  -- R252
  | vimin (vd : BitVec 6) (va : BitVec 6) (vb : BitVec 6) (pg : BitVec 4) (tk : BitVec 3)  -- R252
  | vimax (vd : BitVec 6) (va : BitVec 6) (vb : BitVec 6) (pg : BitVec 4) (tk : BitVec 3)  -- R252
  | vceq (pd : BitVec 4) (va : BitVec 6) (vb : BitVec 6) (pg : BitVec 4) (tk : BitVec 3)  -- R253
  | vclt (pd : BitVec 4) (va : BitVec 6) (vb : BitVec 6) (pg : BitVec 4) (tk : BitVec 3)  -- R253
  | vcle (pd : BitVec 4) (va : BitVec 6) (vb : BitVec 6) (pg : BitVec 4) (tk : BitVec 3)  -- R253
  | vfceq (pd : BitVec 4) (va : BitVec 6) (vb : BitVec 6) (pg : BitVec 4) (tk : BitVec 3)  -- R253
  | vfclt (pd : BitVec 4) (va : BitVec 6) (vb : BitVec 6) (pg : BitVec 4) (tk : BitVec 3)  -- R253
  | vfcle (pd : BitVec 4) (va : BitVec 6) (vb : BitVec 6) (pg : BitVec 4) (tk : BitVec 3)  -- R253
  | vsel (vd : BitVec 6) (va : BitVec 6) (vb : BitVec 6) (ps : BitVec 4) (tk : BitVec 3)  -- R255
  | vpand (pd : BitVec 4) (pa : BitVec 4) (pb : BitVec 4) (pg : BitVec 4) (tk : BitVec 3)  -- R254
  | vpor (pd : BitVec 4) (pa : BitVec 4) (pb : BitVec 4) (pg : BitVec 4) (tk : BitVec 3)  -- R254
  | vpnot (pd : BitVec 4) (pa : BitVec 4) (pg : BitVec 4) (tk : BitVec 3)  -- R254
  | vmov (vd : BitVec 6) (va : BitVec 6) (pg : BitVec 4) (tk : BitVec 3)  -- R255
  | viota (vd : BitVec 6) (pg : BitVec 4) (tk : BitVec 3)  -- R255
  | vbcs (vd : BitVec 6) (e : BitVec 5) (pg : BitVec 4) (tk : BitVec 3)  -- R255
  | vrotr (vd : BitVec 6) (va : BitVec 6) (n : BitVec 6) (pg : BitVec 4) (tk : BitVec 3)  -- R256
  | vbcr (vd : BitVec 6) (va : BitVec 6) (n : BitVec 6) (pg : BitVec 4) (tk : BitVec 3)  -- R256
  | vredr (vd : BitVec 6) (va : BitVec 6) (rop : BitVec 6) (pg : BitVec 4) (tk : BitVec 3)  -- R257
  | vrotc (vd : BitVec 6) (va : BitVec 6) (n : BitVec 6) (pg : BitVec 4) (tk : BitVec 3)  -- R256
  | vbcc (vd : BitVec 6) (va : BitVec 6) (n : BitVec 6) (pg : BitVec 4) (tk : BitVec 3)  -- R256
  | vredc (vd : BitVec 6) (va : BitVec 6) (rop : BitVec 6) (pg : BitVec 4) (tk : BitVec 3)  -- R257
  | vld (vd : BitVec 6) (e : BitVec 5) (pg : BitVec 4) (tk : BitVec 3)  -- R260
  | vst (va : BitVec 6) (e : BitVec 5) (pg : BitVec 4) (tk : BitVec 3)  -- R260
  | vldx (vd : BitVec 6) (vi : BitVec 6) (e : BitVec 5) (pg : BitVec 4) (tk : BitVec 3)  -- R261
  | vstx (va : BitVec 6) (vi : BitVec 6) (e : BitVec 5) (pg : BitVec 4) (tk : BitVec 3)  -- R261
  | vstc (va : BitVec 6) (e : BitVec 5) (pg : BitVec 4) (tk : BitVec 3)  -- R262
  | vamo (vb : BitVec 6) (vi : BitVec 6) (aop : BitVec 4) (pg : BitVec 4) (tk : BitVec 3)  -- R263
  | vdred (vb : BitVec 6) (vi : BitVec 6) (aop : BitVec 4) (pg : BitVec 4) (tk : BitVec 3)  -- R264
  | vsetf (rm : BitVec 2) (ew : BitVec 2) (tk : BitVec 3)  -- R265
  | vloop (st : BitVec 3) (len : BitVec 9) (e : BitVec 5) (tk : BitVec 3)  -- R266
  | vfork (pa : BitVec 4) (jk : BitVec 3) (off : BitVec 16)  -- R267
  | vjoin (jk : BitVec 3) (e : BitVec 5)  -- R267
  | vbrq (off : BitVec 17) (e : BitVec 5) (tk : BitVec 3)  -- R268
  | vbr (off : BitVec 18) (pg : BitVec 4) (tk : BitVec 3)  -- R268
  | vqpush (va : BitVec 6) (e : BitVec 5) (pg : BitVec 4) (tk : BitVec 3)  -- R269
  | vwtp (pd : BitVec 4) (b : BitVec 6) (e : BitVec 5) (tk : BitVec 3)  -- R271
  | varr (b : BitVec 6) (obs : BitVec 6) (dam : BitVec 1) (pg : BitVec 4) (tk : BitVec 3)  -- R270
  | vspl (vd : BitVec 6) (slot : BitVec 5) (tk : BitVec 3)  -- R272
  | vspr (va : BitVec 6) (slot : BitVec 5) (tk : BitVec 3)  -- R272
  | vnop (pg : BitVec 4) (tk : BitVec 3)  -- R268
  | vend (pg : BitVec 4) (tk : BitVec 3)  -- R268
  -- M stream (spec 08 R172 to R174, R177; 12)
  | mlnt (h : CmdHdr) (lv : BitVec 3) (rstr : BitVec 8) (ext : BitVec 16) (astr : BitVec 32)  -- R283
  | mtyp (ty : BitVec 6) (idx : BitVec 8) (tk : BitVec 3)  -- R284
  | mprof (prof : BitVec 4) (tk : BitVec 3)  -- R285
  | mldb (h : CmdHdr) (grp : BitVec 2) (p : BitVec 25)  -- R286
  | msel (h : CmdHdr) (grp : BitVec 2) (inv : BitVec 1)  -- R287
  | mgo (h : CmdHdr) (acc : BitVec 3) (kind : BitVec 2) (p : BitVec 25)  -- R289
  | morb (h : CmdHdr) (wr : BitVec 1) (line : BitVec 17)  -- R292
  | mzero (h : CmdHdr) (acc : BitVec 3) (kind : BitVec 2) (clamp : BitVec 2) (p : BitVec 25)  -- R293
  | mlda (h : CmdHdr) (acc : BitVec 3) (kind : BitVec 2) (clamp : BitVec 2) (p : BitVec 25)  -- R293
  | msta (h : CmdHdr) (acc : BitVec 3) (kind : BitVec 2) (clamp : BitVec 2) (p : BitVec 25)  -- R293
  | mdrain (h : CmdHdr) (acc : BitVec 3) (kind : BitVec 2) (clamp : BitVec 2) (p : BitVec 25)  -- R296
  | mwait (seq : BitVec 8) (e : BitVec 5) (tk : BitVec 3)  -- R297
  | mwtp (b : BitVec 6) (e : BitVec 5) (tk : BitVec 3)  -- R298
  | marrb (h : CmdHdr) (b : BitVec 6) (obs : BitVec 6) (dam : BitVec 1)  -- R299
  | msolvCg (h : CmdHdr) (tolx : BitVec 6) (line : BitVec 17) (dline : BitVec 32)  -- R303
  | msolvLdlt (h : CmdHdr) (resumed : Bool) (tolx : BitVec 6) (line : BitVec 17) (dline : BitVec 32)  -- R304
  | msupd (h : CmdHdr) (cnt : BitVec 12) (line : BitVec 17)  -- R307
  | msres (h : CmdHdr) (off : BitVec 8) (cnt : BitVec 4)  -- R308
  | mbrq (off : BitVec 17) (e : BitVec 5) (tk : BitVec 3)  -- R300
  | mbr (off : BitVec 18) (tk : BitVec 3)  -- R300
  | mnop (tk : BitVec 3)  -- R300
  | mend (tk : BitVec 3)  -- R300
  -- K stream (spec 08 R172 to R174, R177; 10)
  | kcpy (h : CmdHdr) (am : BitVec 2) (so : BitVec 8) (dims : BitVec 2) (len0 : BitVec 20) (n1 : BitVec 16) (n2 : BitVec 16)  -- R227
  | kgth (h : CmdHdr) (am : BitVec 2) (so : BitVec 8) (esz : BitVec 4) (ixw : BitVec 1) (cnt : BitVec 16)  -- R229
  | ksct (h : CmdHdr) (am : BitVec 2) (so : BitVec 8) (esz : BitVec 4) (ixw : BitVec 1) (cnt : BitVec 16)  -- R229
  | kmc (h : CmdHdr) (am : BitVec 2) (so : BitVec 8) (len : BitVec 22)  -- R230
  | kqnt (h : CmdHdr) (am : BitVec 2) (so : BitVec 8) (sfmt : BitVec 8) (efmt : BitVec 2) (nblk : BitVec 12)  -- R231
  | kexp (h : CmdHdr)  -- R233
  | kxfTranspose (h : CmdHdr) (am : BitVec 2) (so : BitVec 8) (fp : BitVec 5) (sc : BitVec 1) (cnt : BitVec 13)  -- R234
  | kxfOrbitPack (h : CmdHdr) (am : BitVec 2) (so : BitVec 8) (fp : BitVec 5) (sc : BitVec 1) (cnt : BitVec 13)  -- R234
  | kxfOrbitUnpack (h : CmdHdr) (am : BitVec 2) (so : BitVec 8) (fp : BitVec 5) (sc : BitVec 1) (cnt : BitVec 13)  -- R234
  | kxfRequantise (h : CmdHdr) (am : BitVec 2) (so : BitVec 8) (fp : BitVec 5) (sc : BitVec 1) (cnt : BitVec 13)  -- R234
  | kxfZeroFill (h : CmdHdr) (am : BitVec 2) (so : BitVec 8) (fp : BitVec 5) (sc : BitVec 1) (cnt : BitVec 13)  -- R234
  | kred (h : CmdHdr) (am : BitVec 2) (so : BitVec 8) (rop : BitVec 2) (cnt : BitVec 20)  -- R235
  | kexpt (h : CmdHdr)  -- R236
  | kbind (b : BitVec 6) (e : BitVec 5) (tk : BitVec 3)  -- R237
  | kmark (tk : BitVec 3)  -- R226
  | kwtp (b : BitVec 6) (e : BitVec 5) (tk : BitVec 3)  -- R239
  | kbrq (off : BitVec 17) (e : BitVec 5) (tk : BitVec 3)  -- R240
  | kbr (off : BitVec 18) (tk : BitVec 3)  -- R240
  | knop (tk : BitVec 3)  -- R240
  | kend (tk : BitVec 3)  -- R240
  -- Events of the part: steps that no stream encodes, but for the SIG words
  | blockSignatureCheck (e : Eng) (len : BitVec 9) (crc : BitVec 16)  -- R116
  | illegalWord (e : Eng)  -- R179
  | commandStart (g : Nat) (e : Eng)  -- R172
  | lineResponse (g n : Nat)  -- R224
  | kCommandCompletion (g n : Nat)  -- R222
  | mCommandCompletion (g n : Nat)  -- R275
  | memoryResponse (g : Nat) (e : Eng) (store : Bool)  -- R182
  | wStoreLanding  -- R138
  | translationWalk (g : Nat) (va : BitVec 57)  -- R142
  | storeQueuePriority (g : Nat) (e : Eng)  -- R332
  | checkerCompare (g obj : Nat) (agree : Bool)  -- R131
  | boundOverrun (g : Nat) (e : Eng) (cmd : Option Nat)  -- R124
  | boundTrapEntry (g : Nat)  -- R373
  | userInterruptEntry (g : Nat)  -- R134
  | syscAnswer (g : Nat)  -- R195
  | zenithArrival (g : Nat) (a : ZenithMessage)  -- R327
  | domainRelease (g b : Nat)  -- R327
  | updateAcceptance  -- R356
  | closeTag (c : CloseReach)  -- R358
  | reducePacket  -- R354
  | ofsubAcceptance (g slot : Nat)  -- R388
  | beatEnd (die : Nat)  -- R360
  | batchArrival (dst src : Nat)  -- R361
  | grantQueueTake (die : Nat)  -- R362
  | grantArrival (n : Nat)  -- R362
  | packetReceive (p : Packet)  -- R338
  | responseReceive (r : Response)  -- R337
  | retryBufferRoom (die : Nat)  -- R337
  | linkDown (die dev path : Nat)  -- R340
  | linkSilenceTimeout (die dev path : Nat)  -- R340
  | switchReport (die dev path : Nat)  -- R340
  | responseTimeout (die dev cls : Nat)  -- R340
  | pathUpResync (die dev path : Nat)  -- R341
  | stagingWordWrite (g k : Nat) (v : BitVec 64)  -- R343
  | collectiveGo (g : Nat) (v : BitVec 64)  -- R343
  | collectiveStatusPop (g : Nat)  -- R344
  | chunkComplete (die : Nat) (remote : List (Nat × List (BitVec 8 × Bool))) (order : List Nat)  -- R348
  | collectiveFailure (die rank : Nat) (l : MemberLoss)  -- R349
  | kickScan  -- R99
  | headLinkWaitEnd (q : Nat)  -- R99
  | objectLoad (q : Nat) (place : Placement)  -- R67
  | objectUnload (q : Nat)  -- R69
  | unloadTakesEffect (handle : BitVec 32)  -- R69
  | unitHandOut (g : Nat)  -- R104
  | unitStart (g : Nat)  -- R110
  | tagChangeZeroing (g : Nat)  -- R110
  | preEmption (q : Nat)  -- R108
  | halt (g : Nat)  -- R381
  | contextSave (g : Nat)  -- R382
  | budgetExhausted (q : Nat)  -- R111
  | solverDeadline (g : Nat)  -- R305
  | endReport (g : Nat)  -- R390
  | completionPosting (q : Nat)  -- R391
  | purgeComplete (p : PurgeReport)  -- R377
  | dieFence (c : FenceCause)  -- R379
  | dispatcherTakeOver  -- R385
  | errorBankClear (a : BankAccess)  -- R374
  | moduleReset (p : Boot)  -- R396
  | throttle (up : Bool)  -- R397
  | thermalTrip  -- R397
  | readSensors (dev : Nat) (r : Sensors)  -- R398
  | setPowerCap (dev watts : Nat)  -- R398
  | counterAdvance (dev : Nat) (value : BitVec 32) (ownerSigned : Bool)  -- R65
  | installPlatformRecord (dev : Nat) (p : Platform) (chain : Chain)  -- R398
  | flitCrcRetry (die dev : Nat) (t : FlitCheck)  -- R340
  deriving DecidableEq, Repr, Inhabited

end Sys2Proof
end

