-- ==== Sys2Proof/Machine/State.lean ====
section
/-!
DEFINITION. The state of the machine as plain data: 256 cores with their four streams, and the module around
them; the faults and refusals of a step; the state after reset.
-/
namespace Sys2Proof.Machine

/-- Why a step stops. -/
inductive Fault where
  /-- Raised by `step` when the whole module has stopped: a thermal trip (22 R397) or an uncorrectable error
  in die 0's slice controllers (20 R379). It reports through management and needs a reset: only the security controller's
  turns go on. Safe: nothing else runs. -/
  | moduleStopped
  deriving DecidableEq, Repr

/-- Why an instruction has no meaning here. -/
inductive Refusal where
  /-- Raised only by an arm of `exec` that has no meaning yet. Safe: nothing is claimed about it. -/
  | notModelled (mnemonic : String)
  deriving DecidableEq, Repr

/-- A physical vector register: 16 rows of 64 words of 32 bits (11 R242). -/
abbrev VReg := BitVec 32768
/-- A V predicate: one bit for each of the 1,024 words (11 R242). -/
abbrev VPred := BitVec 1024
/-- One row of an accumulator: 256 words of 32 bits (12 R273). -/
abbrev AccRow := BitVec 8192

/-- A token carries the numbers of the commands from which an ordering path reaches it (06 R132). -/
abbrev Token := List Nat

/-- An entry of a data queue (06 R120): its value, the module time from which it may be popped, the pusher's
access number that must be performed before (15 R323), whether the checker's copy has arrived (06 R131), and
the offset of the pushing instruction. -/
structure QEntry where
  val : Word
  due : Nat
  ord : Nat
  checked : Bool
  pc : Nat
  deriving DecidableEq, Repr, Inhabited

/-- What an entry of a load or store queue does (09 R198, 11 R258). -/
inductive AccKind where
  | load
  | store
  | amo (aop : Nat)
  | cas
  | dred (aop : Nat)
  /-- A compressing store of one A-pack block a row (11 R262). -/
  | pack
  | mark
  | fence
  deriving DecidableEq, Repr, Inhabited

/-- One indivisible part of an access (15 R316): its lane, its qualified address, its size and its data. `mask`: of a
W store's 4-byte words, those it writes (11 R260). `segs`: of a D access, where its check has found it in the module's DRAM
(07 R136). -/
structure Piece where
  lane : Nat
  qa : Word
  n : Nat
  data : List Byte
  mask : BitVec 16 := 0xFFFF
  segs : List (Nat × Nat) := []
  deriving DecidableEq, Repr, Inhabited

/-- What a fault records: its code, its source, a command's sequence number, the stream's offset, the logged
address with its space and named fields, and EBX. -/
structure FaultInfo where
  code : Nat
  src : Nat
  seq : Nat := 0
  pc : Nat
  addr : Word
  spc : BitVec 3 := 0
  xtra : BitVec 13 := 0
  ebx : Word := 0
  deriving DecidableEq, Repr, Inhabited

/-- An access that stands in a load or store queue. -/
structure Access where
  ord : Nat
  pc : Nat
  kind : AccKind
  pieces : List Piece
  got : List Piece
  dst : Nat
  obs : BitVec 6
  /-- The row stride is misaligned (11 R260). -/
  bad : Bool
  /-- The access has passed its checks and begun. -/
  begun : Bool
  /-- The parts that have left, as fabric packets or as updates, and wait for their answers. -/
  out : List Piece
  /-- The cycle of its issue; of a row of W stores, that of the next (07 R138, 11 R260). -/
  issued : Nat
  /-- The module time at which it reached the head of its queue (15 R332). -/
  since : Nat
  /-- The cycle bound of its instruction (07 R143); since when it waits for a place in a walker's full miss table, and whether
  that wait has overrun. -/
  bound : Nat
  full : Option Nat
  fullRaised : Bool
  /-- The FIFOs in which its instruction holds a reserved place. -/
  places : List Nat
  path : Token
  /-- Of the words of a fabric access that have failed, the first: its word, its fault code and logged address, and its qualified address
  (11 R259). -/
  err : Option (Nat × Nat × Word × Word) := none
  deriving DecidableEq, Repr, Inhabited

/-- What waits until a stream's accesses numbered below `ord` have been performed. -/
inductive PendKind where
  /-- An arrival at a barrier object (09 R209, 11 R270, 12 R299, 10 R237). -/
  | arrive (b : Nat) (dam : Bool)
  /-- A setting of the event latches of cores (09 R211); those of a W mask are set in a cycle of their own, 12 after the issue. -/
  | sev (cores : List Nat) (at_ : Option Nat)
  /-- The release of a transaction's grants at OFEND (09 R217). -/
  | ofend (tx : Nat)
  deriving DecidableEq, Repr, Inhabited

structure Pending where
  e : Eng
  /-- Only earlier deterministic updates are waited for (18 R359). -/
  dredOnly : Bool
  /-- Stores on their way to other devices are waited for too (18 R350). -/
  far : Bool
  ord : Nat
  pc : Nat
  kind : PendKind
  places : List Nat
  path : Token
  deriving DecidableEq, Repr, Inhabited

/-- What an instruction waits for before it issues, in the codes of BREC (06 R124). -/
structure Hold where
  kind : Nat
  obj : Nat
  await : Nat
  deriving DecidableEq, Repr, Inhabited

/-- A wait that is running: when it began, its bound e, the bound that DBND gives it for a place in a load or store queue
(08 R164), all that the instruction awaits, and whether it has overrun. -/
structure Wait where
  start : Nat
  bound : Nat
  dbnd : Nat
  holds : List Hold
  raised : Bool
  deriving DecidableEq, Repr, Inhabited

/-- A pending BOUND record (06 R126): the record, its overrun cycle, and its place among those of one cycle. -/
structure BoundRec where
  record : Word
  at_ : Nat
  rank : Nat
  deriving DecidableEq, Repr, Inhabited

/-- Stores that count, for a release, as accesses of the stream that releases (15 R326, 18 R353): those of stream `e`, of the same
core or of core `core`, numbered below `ord`. -/
structure Owe where
  core : Option Nat
  e : Eng
  ord : Nat
  deriving DecidableEq, Repr, Inhabited

/-- One instruction stream (06 R114 to R116). -/
structure Stream where
  pc : Nat
  ended : Bool
  /-- The offsets [lo, hi) of the block whose signature has been checked, SIG word included; lo = hi: none. -/
  lo : Nat
  hi : Nat
  /-- The module time before which nothing issues (R401). -/
  ready : Nat
  /-- The instruction at which the stream goes on when the block it returned into has been checked (R134). -/
  resume : Option Nat
  /-- The fetch buffer: its bytes by text offset, and its valid lines of 256 bytes. -/
  buf : Tbl Byte
  lines : List Nat
  wait : Option Wait
  /-- The DBND field captured when the instruction became next to issue, and that of the last one issued (08 R164). -/
  dbnd : Option (BitVec 5)
  issuedBnd : BitVec 5
  /-- The commands an ordering path reaches in this stream (R132). -/
  path : Token
  /-- The module time at which the last block's check ended (R401). -/
  chkEnd : Nat
  /-- The ending instruction has issued and not completed: the FIFOs in which it holds places (R122). -/
  ending : Option (List Nat)
  /-- The stores that the stream has acquired (18 R353). -/
  owes : List Owe
  deriving DecidableEq, Repr, Inhabited

def Stream.idle : Stream :=
  { pc := 0, ended := true, lo := 0, hi := 0, ready := 0, resume := none, buf := [], lines := [], wait := none,
    dbnd := none, issuedBnd := 0, path := [], chkEnd := 0, ending := none, owes := [] }

/-- A range of an order-first declaration (09 R213): space 0 D tiles, 1 slots of core `core`'s scratchpad. -/
structure OfRange where
  space : Nat
  core : Nat
  first : Nat
  count : Nat
  write : Bool
  deriving DecidableEq, Repr, Inhabited

/-- The states of an order-first transaction (09). -/
inductive OfState where
  | free | opened | submitting | submitted | granted
  deriving DecidableEq, Repr, Inhabited

/-- An order-first slot (09 R212). `tx` is the transaction's number in the sequencers. -/
structure OfSlot where
  st : OfState
  gen : BitVec 16
  ranges : List OfRange
  tx : Nat
  /-- Every declared unit is granted. -/
  ready : Bool
  /-- A declared unit lies on a fenced die (09 R215). -/
  lost : Bool
  deriving DecidableEq, Repr, Inhabited

def OfSlot.reset : OfSlot := { st := .free, gen := 0, ranges := [], tx := 0, ready := false, lost := false }

/-- An error bank (20 R374). -/
structure Bank where
  ebs : Word
  eba : Word
  ebx : Word
  ebc : Word
  deriving DecidableEq, Repr, Inhabited

def Bank.reset : Bank := { ebs := 0, eba := 0, ebx := 0, ebc := 0 }

/-- A translation cache entry (07 R143): the page's virtual and physical address, its size, and its rights. -/
structure TlbEntry where
  va : Nat
  pa : Nat
  size : Nat
  wr : Bool
  deriving DecidableEq, Repr, Inhabited

/-- A placement (05 R94). -/
structure Place where
  px : Nat
  py : Nat
  pw : Nat
  ph : Nat
  ndies : Nat
  die0 : Nat
  deriving DecidableEq, Repr, Inhabited

/-- A work unit and what its launch gives it (05 R94, R110). `text` is the D address and length of each
stream's text section, `entry` its entry offset. -/
structure WorkUnit where
  launch : Nat
  record : Nat
  queue : Nat
  handle : BitVec 32
  n : Nat
  tag : BitVec 16
  profile : Nat
  det : Bool
  gang : Bool
  place : Place
  fgcnt : Nat
  fgidx : Nat
  text : List (Nat × Nat)
  entry : List Nat
  start : Nat
  deriving DecidableEq, Repr, Inhabited

/-- A unit handed out to a core and not started: its loop indices and constants, or the saved unit that it resumes
(05 R104, R110). -/
structure Handed where
  unit : WorkUnit
  idx : List Nat
  consts : List Word
  resume : Option Nat
  deriving DecidableEq, Repr, Inhabited

/-- An end report that no Dispatcher has acknowledged (22 R390). -/
structure Report where
  unit : WorkUnit
  whole : Bool
  fstk : BitVec 10
  at_ : Nat
  deriving DecidableEq, Repr, Inhabited

/-- The running VLOOP (06 R128, 11 R266). -/
structure VLoopSt where
  lo : Nat
  hi : Nat
  trips : Nat
  stages : Nat
  pass : Nat
  deriving DecidableEq, Repr, Inhabited

/-- A row group of the V stream while rows are divided (06 R129): its rows and its stream's position. -/
structure Group where
  rows : BitVec 16
  pc : Nat
  lo : Nat
  hi : Nat
  ready : Nat
  /-- The end of the check of its block (06 R401). -/
  chkEnd : Nat
  /-- The join bit and the VJOIN's offset at which the group stands. -/
  atJoin : Option (Nat × Nat)
  wait : Option Wait
  dbnd : Option (BitVec 5)
  deriving DecidableEq, Repr, Inhabited

/-- An open fork (06 R129): its join bit and the rows it split. -/
structure Fork where
  jk : Nat
  rows : BitVec 16
  deriving DecidableEq, Repr, Inhabited

/-- What a core's domain-barrier object has sent (09 R209): the streams that arrived in the current phase. -/
structure Arrived where
  streams : BitVec 4
  dam : Bool
  flt : Bool
  /-- The level at which it was sent. -/
  mode : Nat
  /-- The arrival message has reached the node. -/
  atNode : Bool
  /-- A fault that the member's arrival or its bound command reports has reached the node (10 R238). -/
  fltAt : Bool
  /-- The unit that arrived. -/
  unit : Option WorkUnit
  deriving DecidableEq, Repr, Inhabited

/-- A line of a K command that has been issued and not acknowledged (10 R224). -/
inductive LinePhase where
  /-- Its source is read over the fabric. -/
  | reading
  /-- Its source has been read, and its destination cannot be reached yet. -/
  | held
  /-- Its source could not be read, for the fault code given; it answers when the lines before it have been written. -/
  | refused (code : Nat)
  /-- A line before it has stopped the command while its source is still being read: it is not written. -/
  | dropped
  /-- Its destination is being written elsewhere: over the fabric, through W, or by a reduce unit. -/
  | writing
  /-- It has been performed. -/
  | done
  deriving DecidableEq, Repr, Inhabited

structure KFly where
  n : Nat
  phase : LinePhase
  /-- The source and the destination of a line whose source is read over the fabric, and its length. -/
  src : Word
  dst : Word
  len : Nat
  data : List (Byte × Bool)
  deriving DecidableEq, Repr, Inhabited

/-- Where an MSOLV stands (12 R303 to R305): before its first iteration or column; in one; in the writes that its deadline lets it end;
at its end, with a status; at its end with the fault SOLVER. -/
inductive SolveStage where
  | start
  | run
  | keep
  | close (status : Nat)
  | fail
  deriving DecidableEq, Repr, Inhabited

/-- What an MSOLV keeps between its steps (12 R303, R304): where it stands, its iteration or column, its scalars as FP32 codes, and what
the steps of the part that it is in have read. -/
structure Solve where
  stage : SolveStage
  log : List Nat
  it : Nat
  rr : Nat
  bb : Nat
  brr : Nat
  deriving DecidableEq, Repr, Inhabited

/-- A running MGO's row in the array (12 R291, 20 R382): the aligned A row, its blocks' exponents, marks and scale codes,
and the flags of its reading; the next pass, (j, s) at j * nseg + s; the exact partial sums T, chunk by chunk of 256
columns; and the tuples of the pass before that have not been converted, each in the layout of 01 R31. `again`: that pass
is executed a second time (01 R33); `restored`: its tuples come from a saved context (01 R35). -/
structure GoRow where
  qs : List Int
  blocks : List (Int × Bool × Nat)
  fl : BitVec 10
  pass : Nat
  sums : List Int
  tuples : List Word
  again : Bool
  restored : Bool
  deriving DecidableEq, Repr, Inhabited

/-- A running MORB's result so far (12 R292): the FP32 code or the exact sum, and whether a NaN or an infinity of either
sign has been met. -/
structure OrbitRun where
  acc : Nat
  sum : Int
  nan : Bool
  pos : Bool
  neg : Bool
  deriving DecidableEq, Repr, Inhabited

def OrbitRun.reset : OrbitRun := { acc := 0, sum := 0, nan := false, pos := false, neg := false }

/-- An M or K command that has issued and not completed (08 R172, 10 R222, 12 R275). -/
structure Cmd where
  /-- Its number: commands of a core count up in issue order. -/
  no : Nat
  /-- The offset of its header. -/
  pc : Nat
  i : Instr
  seq : Nat
  bound : Nat
  issued : Nat
  raised : Bool
  /-- The commands that its deps name and that had not completed at its issue. -/
  deps : List Nat
  /-- The checker's copy has arrived (06 R131). -/
  checked : Bool
  started : Option Nat
  /-- The captured type registers (02 R41) and profile (12 R285). -/
  ta : BitVec 640
  tb : BitVec 640
  prof : Nat
  slots : List Word
  /-- The binding: object, and leading lines that the arrival waits for; 0 lines: completion (10 R237). -/
  bind : Option (Nat × Nat)
  nfy : Bool
  places : List Nat
  path : Token
  /-- Progress: K lines issued, M rows, tuples, pairs or columns done. -/
  sent : Nat
  /-- The run a K command stands in, and the bytes of it that its lines have covered. -/
  run : Nat
  off : Nat
  fly : List KFly
  /-- The lines that received an error response. -/
  failed : List Nat
  stop : Option FaultInfo
  /-- Every line has been issued, or the M command's effect is complete. -/
  allSent : Bool
  /-- Data read ahead: the indices of a gather or scatter, the bytes of a W-stream or of its expansion, the scales
  of a run. -/
  nums : List Nat
  bytes : List Byte
  /-- What the command reads before its first line has been read. -/
  ready : Bool
  /-- A read ahead over the fabric is on its way. -/
  ahead : Bool
  /-- Blocks that a scale search has converted: the scale and the codes. -/
  blocks : List (Nat × List Nat)
  /-- Where a W-stream's expansion fails, once its bytes are written. -/
  endAt : Option (Nat × Word)
  /-- An MGO's captured nest and group (12 R288), and a Solve's scalars. -/
  nest : List Word
  gsel : Nat
  solve : Solve
  arr : Option GoRow
  orb : OrbitRun
  /-- The part of a line's source that has been read, where the source crosses a bank (07 R146). -/
  part : List (Byte × Bool)
  /-- The module time since which its next line stands at the head of the line port (15 R332). -/
  since : Nat
  deriving DecidableEq, Repr, Inhabited

/-- MODEL: what has happened at a core in the current cycle, where a rule orders the events of one cycle. It is empty
again when time passes. -/
structure Cycle where
  /-- The streams that have issued (06 R115). -/
  issued : BitVec 4
  /-- Tokens delivered and places freed, by FIFO (06 R118). -/
  fresh : Tbl Nat
  freed : Tbl Nat
  /-- A VSETF has written RM (01 R17), and the flags that engines have set (R21). -/
  rm : Bool
  flags : Flags
  /-- The old contents of type registers that an MTYP has written (02 R41), and the commands that sequence numbers named
  before (08 R172). -/
  ty : List (Nat × BitVec 640)
  names : List (Nat × Nat)
  /-- A WFE has taken the latch (09 R211). -/
  wfe : Bool
  /-- The arrivals counted or sent, by object and stream (09 R208, R209). -/
  arr : List (Nat × Eng)
  /-- The pages whose walk's fault has been received (07 R143). -/
  walked : List Nat
  /-- The greatest rank of a request that the scratchpad has performed (07 R147). -/
  rank : Nat
  /-- The unit has taken its first fault: what its other streams do in the same cycle is still recorded (20 R375). -/
  faulted : Bool
  deriving DecidableEq, Repr, Inhabited

def Cycle.reset : Cycle :=
  { issued := 0, fresh := [], freed := [], rm := false, flags := 0, ty := [], names := [], wfe := false, arr := [], walked := [], rank := 0,
    faulted := false }

/-- Lines of one scratchpad that a command touches: from a first to a last line of 64 bytes (06 R400). -/
structure Foot where
  core : Nat
  first : Nat
  last : Nat
  write : Bool
  deriving DecidableEq, Repr, Inhabited

/-- A command in the RACE checker's window (06 R132): its engine, its footprint once known, the commands from which an
ordering path leads to it, and whether its footprint is known only later: an MGO's at its start, a KEXP's when its header is read. -/
structure WinEntry where
  no : Nat
  eng : Eng
  foot : Option (List Foot)
  reach : Token
  late : Bool
  /-- The commands from which a path leads to one of its engine that came before it and is kept no more. -/
  before : Token
  deriving DecidableEq, Repr, Inhabited

/-- Where a group's B tile came from (12 R273). -/
inductive TileSrc where
  | line (l : Nat)
  | typed (ty : BitVec 640) (o0 o1 : Nat)
  deriving DecidableEq, Repr, Inhabited

/-- A block's record of one column: exponent, scale code, non-finite mark (12 R273). -/
structure BlockMeta where
  ex : Int
  scale : Nat
  nf : Bool
  deriving DecidableEq, Repr, Inhabited

def BlockMeta.reset : BlockMeta := { ex := 0, scale := 0, nf := false }

/-- A macro group (12 R273): rows of 256 tuples of 33 bits, and a record of each block of 32 rows and column at
256 * block + column. -/
structure MGroup where
  valid : Bool
  prof : Nat
  seg : Nat
  src : TileSrc
  k0 : Nat
  rows : Tbl (BitVec 8448)
  blocks : Tbl BlockMeta
  deriving DecidableEq, Repr, Inhabited

def MGroup.reset : MGroup := { valid := false, prof := 0, seg := 0, src := .line 0, k0 := 0, rows := [], blocks := [] }

/-- A core. Tables list what differs from zero. -/
structure Core where
  /-- S registers; the shadow bank of s56 to s62 stands at 120 to 126 (06 R134). -/
  s : Tbl Word
  p : BitVec 16
  spillS : Tbl Word
  fpctl : Word
  fstk : Word
  dbnd : Word
  trapcause : Word
  brec : Word
  boundQ : List BoundRec
  uivec : Word
  uien : Bool
  uiact : Bool
  uiinfo : Word
  uiepc : Word
  /-- The handler that runs handles a BOUND record (20 R373). -/
  uiBound : Bool
  /-- The SIG offset of the block that holds UIEPC. -/
  uiBlk : Nat
  /-- The handler's block, its first offset and its end, while it stands checked in the fetch buffer (06 R116). -/
  hBlk : Option (Nat × Nat)
  notifyQ : List (BitVec 16)
  bf : Tbl Word
  latch : Bool
  cycBase : Nat
  dom : Tbl Word
  bobj : Tbl Word
  /-- The stores that the arrivals of an object's current phase release, and at 64 + b those of its completed phases (18 R353). -/
  bOwes : Tbl (List Owe)
  arrived : Tbl Arrived
  seen : Tbl (BitVec 24)
  slip : Tbl Nat
  tks : Tbl Word
  tokens : Tbl (List Token)
  reserved : Tbl Nat
  queues : Tbl (List QEntry)
  tags : Tbl Word
  recency : Tbl (List Nat)
  ofs : Tbl OfSlot
  ty : Tbl (BitVec 640)
  /-- Accumulators: row r of acc a at 64 * a + r (12 R273). -/
  acc : Tbl AccRow
  mgrp : Tbl MGroup
  gsel : BitVec 2
  mprof : Nat
  /-- LN0 to LN5, the shadow copy at 0 to 5 and the active copy at 8 to 13 (12 R274). -/
  ln : Tbl Word
  mx : Tbl Word
  spillM : Tbl Word
  spillK : Tbl Word
  /-- The n and the contents of ta and tb that a resumed factorisation needs (12 R304). -/
  resumable : Option (Nat × BitVec 640 × BitVec 640)
  mcmds : List Cmd
  kcmds : List Cmd
  cmdNo : Nat
  /-- The most recent command of each sequence number (08 R172). -/
  names : Tbl Nat
  kbind : Option (Nat × Nat)
  window : List WinEntry
  streams : Tbl Stream
  lq : Tbl (List Access)
  stq : Tbl (List Access)
  vmode : BitVec 2
  rb : BitVec 7
  v : Tbl VReg
  vp : Tbl VPred
  spillV : Tbl VReg
  vloop : Option VLoopSt
  /-- Arrivals, latch settings and releases of grants that wait for a stream's earlier accesses (09 R209, R211,
  R217). -/
  pend : List Pending
  rows : BitVec 16
  groups : List Group
  forks : List Fork
  sp : List Host.Cell
  spPoison : List Nat
  /-- The poisoned words of the spill memories, by stream (06 R127). -/
  spillPoison : List (Nat × Nat)
  tlb : List TlbEntry
  /-- The faults that walks of pages have found for the core: every access that has joined the walk receives it, up to the end of the
  cycle in which the first has (07 R143, log 13). -/
  walkFault : List (Nat × Nat)
  unit : Option WorkUnit
  /-- The unit has faulted and its tag is being purged (20 R376). -/
  stopped : Bool
  /-- A SYSC that waits for its answer: its code and the places it reserved (09 R195). -/
  sysc : Option (Nat × List Nat)
  lastTag : Option (BitVec 16)
  lastLaunch : Option Nat
  sOrd : Nat
  /-- An S access that failed the check of R216: its record, until the earlier accesses are performed (21 R387). -/
  undeclared : Option FaultInfo
  /-- OFSUBs that wait for their acceptance: slot, module time of issue, offset, places and path (21 R388). -/
  subs : List (Nat × Nat × Nat × List Nat × Token)
  /-- The module time at which the zeroing for a change of tag ends (05 R110). -/
  zeroing : Option Nat
  /-- The Dispatcher has asked for a halt, and since when; the unit has halted (20 R381). -/
  haltReq : Option Nat
  halted : Bool
  /-- The module time at which it halted. -/
  haltAt : Nat
  next : Option Handed
  reports : List Report
  /-- The staging words of a collective descriptor, word i of die d's engine at 8 * d + i, and the output FIFO (17 R343,
  R344). -/
  stg : Tbl Word
  outQ : List Word
  /-- The access number, plus one, of a held GO write whose overrun has been raised. -/
  goRaised : Nat
  /-- MODEL: what has happened in the current cycle. -/
  cyc : Cycle
  deriving DecidableEq, Repr

/-- A core right after module reset. -/
def Core.reset : Core :=
  { s := [], p := 0, spillS := [], fpctl := 0, fstk := 0, dbnd := 0, trapcause := 0, brec := 0, boundQ := [],
    uivec := 0, uien := false, uiact := false, uiinfo := 0, uiepc := 0, uiBound := false, uiBlk := 0, hBlk := none, notifyQ := [],
    bf := [], latch := false, cycBase := 0, dom := [], bobj := [], bOwes := [], arrived := [], seen := [], slip := [], tks := [],
    tokens := [], reserved := [], queues := [], tags := [], recency := [], ofs := [], ty := [], acc := [], mgrp := [], gsel := 0, mprof := 0, ln := [],
    mx := [], spillM := [], spillK := [], resumable := none, mcmds := [], kcmds := [], cmdNo := 1, names := [],
    kbind := none, window := [], streams := [],
    lq := [], stq := [], vmode := 0, rb := 0, v := [], vp := [], spillV := [], vloop := none, pend := [], rows := 0xFFFF,
    groups := [], forks := [], sp := [], spPoison := [], spillPoison := [], tlb := [], walkFault := [], unit := none, stopped := false, sysc := none,
    lastTag := none, lastLaunch := none, sOrd := 0,
    undeclared := none, subs := [], zeroing := none, haltReq := none, halted := false, haltAt := 0, next := none, reports := [], stg := [],
    outQ := [], goRaised := 0, cyc := Cycle.reset }

/-- A running purge (20 R377): its tag, the code of the first fault, the module time of that fault and its core. -/
structure Purge where
  tag : BitVec 16
  code : Nat
  since : Nat
  first : Nat
  deriving DecidableEq, Repr, Inhabited

/-- A W store on its way (07 R138): its storer and stream, the storer's DOM1.IDX, its pieces, its landing time. -/
structure WFlight where
  g : Nat
  e : Eng
  idx : Nat
  due : Nat
  members : List Nat
  addr : Nat
  data : List Byte
  mask : BitVec 16
  /-- Of a line of a KMC: its command, its line, and its bytes that are poisoned. -/
  cmd : Nat := 0
  line : Nat := 0
  pois : List Bool := []
  deriving DecidableEq, Repr, Inhabited

/-- A reduce packet on its way to a die's reduce unit (18 R354): the command and line it acknowledges, the scratchpad
of core `core` or the DRAM as its home, the runs it adds into, and its elements. -/
structure RedFlight where
  g : Nat
  cmd : Nat
  line : Nat
  core : Option Nat
  runs : List (Nat × Nat)
  rop : Nat
  data : List Byte
  va : Word
  /-- The cycle in which it left (15 R332). -/
  since : Nat
  deriving DecidableEq, Repr, Inhabited

/-- Who waits for a packet's response (17 R337): an access of a stream, a line of a K command, a deterministic
update, or a collective. -/
inductive Owner where
  | access (g : Nat) (e : Eng) (ord lane : Nat)
  | line (g cmd n : Nat)
  /-- A read ahead of a K command's source. -/
  | ahead (g cmd : Nat)
  /-- A close that another device of a fabric group applies (18 R358). -/
  | close (id dev : Nat)
  | none
  deriving DecidableEq, Repr, Inhabited

/-- A packet in a source retry buffer (17 R337). -/
structure Retry where
  die : Nat
  pkt : Packet
  owner : Owner
  sentAt : Nat
  deriving DecidableEq, Repr, Inhabited

/-- A receive window (17 R338): the stream, its next value, the held packets, the stored responses (R339). -/
structure RecvWin where
  sdev : BitVec 12
  sdie : BitVec 2
  cls : BitVec 2
  next : BitVec 24
  held : List Packet
  stored : List Response
  deriving DecidableEq, Repr, Inhabited

/-- A fabric packet that reaches past one line, whose lines are performed one after another (15 R316): the bytes that have been
performed, what a read has found, the cycle of its next line, and whether it is a duplicate, which is only answered (17 R339). -/
structure LongPacket where
  p : Packet
  at_ : Nat
  data : List (Byte × Bool)
  due : Nat
  again : Bool
  deriving DecidableEq, Repr, Inhabited

/-- The partial of a deterministic update's key, or a wide accumulator (18 R356, R357): the exact sum, for FP32 in
units of 2^-149, the marks, and whether every update was -0. -/
structure Partial where
  sum : Int
  pinf : Bool
  ninf : Bool
  nan : Bool
  negZero : Bool
  deriving DecidableEq, Repr, Inhabited

/-- A deterministic update on its way to its slice (18 R355), and the cycle in which it left (15 R332). -/
structure Update where
  pa : Nat
  va : Nat
  width : Nat
  fp : Bool
  tag : BitVec 16
  key : Nat
  val : Nat
  g : Nat
  e : Eng
  ord : Nat
  since : Nat
  deriving DecidableEq, Repr, Inhabited

/-- A holding entry of a slice's reduce unit (18 R356); `wide`: it is a wide accumulator (R357). -/
structure HoldEntry where
  pa : Nat
  tag : BitVec 16
  width : Nat
  fp : Bool
  wide : Bool
  pairs : List (Nat × Partial)
  deriving DecidableEq, Repr, Inhabited

/-- Why a close of a tag is under way (18 R358): phases of an object of core g that complete after it, in their order and each faulted or
whole, the phase of a domain barrier, the end of a launch, or a close that has come from another device. -/
inductive CloseFor where
  | localPhase (g b : Nat) (flts : List Bool)
  /-- Of a phase that a BINIT has reset since (09 R208). -/
  | reset
  | domainPhase (key : Nat)
  | launchEnd (launch : Nat)
  | packet (p : Packet)
  deriving DecidableEq, Repr, Inhabited

/-- A close of a tag that is under way (18 R358, 19 R368, R369): the slices it has reached, the entries it has still to apply
there, and the devices to which it is still to be sent or whose answer is awaited. -/
structure CloseRun where
  id : Nat
  tag : BitVec 16
  why : CloseFor
  reached : List Nat
  left : List HoldEntry
  die : Nat
  send : List Nat
  away : List Nat
  deriving DecidableEq, Repr, Inhabited

/-- A link port's neighbour link (17 R340): the failures running of the flit that failed last, and when it last accepted one. -/
structure Link where
  fails : Nat
  okAt : Nat
  deriving DecidableEq, Repr, Inhabited

def Link.reset : Link := { fails := 0, okAt := 0 }

/-- A phase of a domain barrier at the Zenith nodes (15 R327, 16 R333): its object and domain, the unit that arrived first, the members
that have arrived and those that have been released, whether the other devices of a fabric group have arrived, whether an arrival carried
dam or was faulted, whether its closes have been applied, and when its release first reached a member. -/
structure ZPhase where
  id : Nat
  mode : Nat
  b : Nat
  launch : Nat
  unit : Option WorkUnit
  inst : Nat
  arrived : List Nat
  released : List Nat
  group : Bool
  dam : Bool
  flt : Bool
  complete : Bool
  closed : Bool
  first : Option Nat
  /-- The team nodes and the die nodes that have forwarded their one arrival message, and whether the module's node has. -/
  teams : List Nat
  dies : List Nat
  up : Bool
  /-- The stores that its arrivals release (18 R353). -/
  owes : List Owe
  deriving DecidableEq, Repr, Inhabited

/-- An arrival message of the module's Zenith node to a fabric group (15 R327): the launch and object, and its dam and fault bits. -/
structure ZMessage where
  launch : Nat
  b : Nat
  dam : Bool
  flt : Bool
  deriving DecidableEq, Repr, Inhabited

/-- A unit of order-first access (09 R213, 18 R362): a slice's tile by physical address, or a core's slot. -/
inductive OfUnit where
  | tile (pa : Nat)
  | slot (core n : Nat)
  deriving DecidableEq, Repr, Inhabited

/-- A request of a transaction in a unit's queue (18 R362). -/
structure OfReq where
  tx : Nat
  write : Bool
  granted : Bool
  deriving DecidableEq, Repr, Inhabited

/-- A transaction in the sequencers (18 R360 to R364): its core and slot, its die, its units, the units whose
grants have arrived, and whether its body was given up. -/
structure OfTx where
  id : Nat
  g : Nat
  slot : Nat
  die : Nat
  units : List (OfUnit × Bool)
  arrived : List OfUnit
  /-- The beat in whose batch it stands, once merged. -/
  beat : Option Nat
  released : Bool
  deriving DecidableEq, Repr, Inhabited

/-- A grant on its way to its core (18 R362). -/
structure OfGrant where
  tx : Nat
  unit : OfUnit
  due : Nat
  deriving DecidableEq, Repr, Inhabited

/-- A batch that has reached a sequencer (18 R360, R361). -/
structure OfBatch where
  dst : Nat
  src : Nat
  beat : Nat
  txs : List Nat
  deriving DecidableEq, Repr, Inhabited

/-- The Meridian sequencers (18 R360 to R362). `pending`: accepted transactions of each die not yet sent, with the
module time of acceptance; `beats`: the next beat each die ends; `sent`, `got`: batches on the way and received;
`merged`: the next beat each die merges; `requests`: merged requests of each die by beat; `taken`: the next beat
each die's requests enter the queues; `queues`: the unit queues. -/
structure Meridian where
  nextTx : Nat
  txs : List OfTx
  pending : Tbl (List (Nat × Nat))
  beats : Tbl Nat
  sent : List OfBatch
  got : List OfBatch
  merged : Tbl Nat
  order : List (Nat × Nat)
  taken : Tbl Nat
  queues : List (OfUnit × List OfReq)
  grants : List OfGrant
  deriving DecidableEq, Repr, Inhabited

def Meridian.reset : Meridian :=
  { nextTx := 1, txs := [], pending := [], beats := [], sent := [], got := [], merged := [], order := [], taken := [],
    queues := [], grants := [] }

/-- A turn: who moves next. -/
inductive Turn where
  /-- Stream `e` of core `g` reaches its next instruction. -/
  | issue (g : Nat) (e : Eng)
  /-- Command `n` of engine `e` of core `g` performs its next row or line. -/
  | advance (g : Nat) (e : Eng) (n : Nat)
  /-- An event of the part. -/
  | event (i : Instr)
  deriving DecidableEq, Repr, Inhabited

/-- A loaded object (03 R56 to R68). `text`: D address and length of each stream's text; `ro`: the D ranges that no
stream may store to; `reach`: the immediate place offsets (dx, dy, dd) of its text. -/
structure LoadedObj where
  handle : BitVec 32
  text : List (Nat × Nat)
  entry : List Nat
  tks : List Word
  slip : List Nat
  binds : List (Nat × Nat)
  tensors : List (BitVec 640)
  profiles : List Nat
  reach : List (Int × Int × Int)
  launch : Nat
  ro : List (Nat × Nat)
  /-- The queue whose unload record waits for the unload to take effect (R69). -/
  unload : Option Nat
  deriving DecidableEq, Repr, Inhabited

/-- The record that a queue holds as its current one (05 R100), and what the Dispatcher knows of it. -/
structure Current where
  q : Nat
  addr : Nat
  bytes : List Byte
  /-- The launch's number in the module. -/
  id : Nat
  /-- det in force (05 R107). -/
  det : Bool
  /-- It failed a check of admission (R101), or is a load or unload record. -/
  refused : Bool
  /-- Its predecessors have posted (R102). -/
  ready : Bool
  /-- The ordinals handed out, and the units handed out that have not ended. -/
  handed : List Nat
  out : Nat
  units : Nat
  flags : BitVec 10
  firstOut : Option Nat
  spent : Bool
  /-- A gang launch holds its cores (R105). -/
  owns : Bool
  /-- The core of each chain that has begun (R107). -/
  chains : List (Nat × Nat)
  /-- The code of the fault whose purge has ended it (20 R378). -/
  faulted : Option Nat
  /-- It has completed: the value to be posted, when its final report came, and whether its close has begun. -/
  post : Option Word
  doneAt : Nat
  closed : Bool
  deriving DecidableEq, Repr, Inhabited

/-- A journal record (05 R113). -/
structure JRec where
  seq : Nat
  kind : Nat
  q : Nat
  core : Nat
  ord : Nat
  rec_ : Nat
  val : Word
  deriving DecidableEq, Repr, Inhabited

/-- A unit saved in a slot of its die's context pool (20 R382): the core it ran on, the core's saved state, and the
cycles it has run. -/
structure Saved where
  id : Nat
  die : Nat
  slot : Nat
  home : Nat
  q : Nat
  core : Core
  unit : WorkUnit
  ran : Nat
  deriving DecidableEq, Repr

/-- The Dispatchers (05, 20 R384 to R386, 22). `takeover`: the module time until which a take-over runs; `journal` and `mirror`: the
two copies of the journal, of records of 32 bytes; `copies`: the copied records of completions, by the sequence number of the
posting; `links`: queues
whose producer's link is awaited, with the record; `kicked`: kicks taken and not yet acted on; `pass`, `elig`: the
scheduler's pass values and the launches that are eligible; `unwritten`: the completion words whose write has failed, and which
dependants take as posted (22 R393). -/
structure Dispatch where
  active : Nat
  failed : BitVec 2
  takeover : Option Nat
  ready : Bool
  failStep : Option Nat
  journal : List (List Byte)
  mirror : List (List Byte)
  /-- The places of the records of which a word is uncorrectable, in each copy (20 R385). -/
  journalBad : List Nat
  mirrorBad : List Nat
  copies : List (Nat × List Byte)
  jseq : Nat
  cur : List Current
  links : List (Nat × Nat)
  kicked : BitVec 64
  pass : Tbl (BitVec 32)
  elig : List Nat
  saved : List Saved
  nextId : Nat
  nextHandle : BitVec 32
  unwritten : List (Nat × Word)
  deriving DecidableEq, Repr

/-- The Dispatchers after a module reset. MODEL'S CHOICE (log 3): every queue's pass value is 0, which the spec says of a take-over
alone (20 R386). -/
def Dispatch.reset : Dispatch :=
  { active := 0, failed := 0, takeover := none, ready := false, failStep := none, journal := [], mirror := [], journalBad := [], mirrorBad := [], copies := [], jseq := 1, cur := [], links := [],
    kicked := 0, pass := [], elig := [], saved := [], nextId := 1, nextHandle := 1, unwritten := [] }

/-- A collective descriptor in an engine's input FIFO (17 R345). -/
structure Descr where
  g : Nat
  words : List Word
  det : Bool
  deriving DecidableEq, Repr, Inhabited

/-- The collective that an engine runs (17 R347 to R349): its number, the old ranks of its members, the next chunk, and whether
its membership has shrunk. `out`: of a chunk that is complete, what is still to be written into dst, from byte `at_` of it on; `tab`: what
has been read of its membership table; `got`: of the next chunk, what has been read of each member of this module, by rank (15 R316);
`sent`: the packets of this member's part of that chunk that have been sent (R337). A byte is kept with its poison mark (07 R160). -/
structure CollRun where
  no : Nat
  d : Descr
  members : List Nat
  chunk : Nat
  shrunk : Bool
  out : List (Byte × Bool)
  at_ : Nat
  tab : List Byte
  got : List (Nat × List (Byte × Bool))
  sent : Nat
  deriving DecidableEq, Repr, Inhabited

/-- What a member of this module has put into a chunk (17 R348): its rank, the number and the descriptor of its collective, the
chunk, its bytes from an element on, and the ranks of this module that have not finished that collective. -/
structure CollPart where
  rank : Nat
  no : Nat
  words : List Word
  chunk : Nat
  first : Nat
  data : List (Byte × Bool)
  left : List Nat
  deriving DecidableEq, Repr, Inhabited

/-- What the security controller answers to the management station (22 R398). -/
inductive Reply where
  | sensors (r : Sensors)
  | bank (b : BankId) (x : Bank)
  | done
  | refused (code : Nat)
  /-- The module has stopped (20 R379, 22 R397). -/
  | stopped
  /-- A verification has failed at a step of the boot (22 R396). -/
  | bootFailed (step : Nat)
  deriving DecidableEq, Repr, Inhabited

/-- An entry of a walker's miss table (07 R143): its page of 2 MiB, and the cores whose accesses have joined it. -/
structure Miss where
  page : Nat
  cores : List Nat
  deriving DecidableEq, Repr, Inhabited

/-- The state of the module. -/
structure State where
  cores : Tbl Core
  /-- MODEL: the core whose stream issues in this step. -/
  cur : Nat
  now : Nat
  /-- MODEL: the turns to come, each with the cycles that pass before it. -/
  sched : List (Nat × Turn)
  /-- MODEL: the counter at which the free values are drawn. -/
  tick : Nat
  dram : List Host.Cell
  dramPoison : List Nat
  /-- Words with a single-bit error, by memory (07 R160). -/
  flips : List (Nat × Nat)
  /-- The walkers' miss tables (07 R143). -/
  misses : Tbl (List Miss)
  banks : Tbl Bank
  /-- MODEL: the banks that have recorded an uncorrectable error in the current cycle (20 R375). -/
  ucNow : List Nat
  fenced : BitVec 4
  purges : List Purge
  wFlight : List WFlight
  retry : List Retry
  /-- The long packets that are being performed (15 R316). -/
  longs : List LongPacket
  sendSeq : Tbl (BitVec 24)
  /-- The source streams that have been used (17 R336). -/
  used : List Nat
  /-- The paths that are down, by die, device and number, and the links of the module's ports (17 R340). -/
  pathDown : List (Nat × Nat × Nat)
  links : Tbl Link
  recv : List RecvWin
  /-- Responses the module has sent, oldest first. -/
  outbox : List Response
  /-- The resynchronising headers the module has sent, oldest first (17 R341). -/
  headers : List Packet
  updFlight : List Update
  redFlight : List RedFlight
  holding : List HoldEntry
  closes : List CloseRun
  /-- MODEL: the tags and slices whose updates have been accepted in the current cycle (19 R370). -/
  accepted : List (BitVec 16 × Nat)
  meridian : Meridian
  zenith : List ZPhase
  zNext : Nat
  /-- The arrival messages that the module's node has sent to fabric groups, oldest first (15 R327). -/
  zSent : List ZMessage
  /-- Latch settings of SEV through W on their way, with their time (09 R211). -/
  sevFlight : List (Nat × Nat)
  stopped : Bool
  disp : Dispatch
  objs : List LoadedObj
  /-- The collective engines' input FIFOs, what they run, the number of the next collective, what members of this module have put
  into chunks, and completion entries that wait for a place (17). -/
  collIn : Tbl (List Descr)
  collRun : Tbl (Option CollRun)
  collNo : Nat
  collParts : List CollPart
  collWait : List (Nat × Word)
  /-- The platform record in force (22 R396), and one that takes effect at the next reset (R398). -/
  plat : Platform
  platNext : Option Platform
  /-- The anti-rollback counter (03 R65). -/
  counter : BitVec 32
  /-- The power cap in W, and the arithmetic clock in MHz (22 R397). -/
  powerCap : Nat
  clock : Nat
  /-- MODEL: the replies sent to the management station, oldest first. -/
  replies : List Reply
  deriving DecidableEq, Repr

/-- A platform record that holds nothing (log 3). -/
def platNone : Platform :=
  { ownerHash := [], device := 0, host := 0, station := 0, qbase := 0, root := 0, cew := 0, pools := [], routes := [] }

/-- The machine right after reset. -/
def State.reset : State :=
  { cores := [], cur := 0, now := 0, sched := [], tick := 0, dram := [], dramPoison := [], flips := [], misses := [], banks := [], ucNow := [],
    fenced := 0, purges := [], wFlight := [], retry := [], longs := [], sendSeq := [], used := [], pathDown := [], links := [],
    recv := [], outbox := [], headers := [], updFlight := [], redFlight := [], holding := [], closes := [], accepted := [], meridian := Meridian.reset,
    zenith := [], zNext := 0, zSent := [], sevFlight := [], stopped := false, disp := Dispatch.reset,
    objs := [], collIn := [], collRun := [], collNo := 0, collParts := [], collWait := [], plat := platNone, platNext := none, counter := 0, powerCap := 3200,
    clock := 2400, replies := [] }

end Sys2Proof.Machine
end

