-- ==== Sys2Proof/Config.lean ====
section
/-!
DEFINITION. The values the spec leaves open, as constants without a body: nothing can be proved of what they are.
-/
namespace Sys2Proof.Config
open Sys2Proof.Machine

/-- Which turn comes when none is scheduled, and after how many cycles (log 1): a value for each tick. -/
opaque turn : Nat → Nat × Turn

/-- Which translation a full translation cache replaces (07 R143, log 6): an index for each tick. -/
opaque tlbVictim : Nat → Nat

/-- Which line a full fetch buffer gives up (06 R114, log 7): an index for each tick. -/
opaque lineVictim : Nat → Nat

/-- The contents of a register whose load faulted (09 R182, log 8): a value for each tick and
lane. -/
opaque faultedLoad : Nat → Nat → Word

/-- Which of the free slots OFOPEN takes (09 R212, log 10): an index for each list of free slots, and so the same one wherever the
same slots are free (22 R394). -/
opaque freeSlot : List Nat → Nat

/-- STATUS of the solver's record after a fault other than SOLVER (12 R306, log 11): a value for each tick. -/
opaque faultedSolve : Nat → BitVec 8

/-- How many of the journal's last records the standby Dispatcher has not applied at a take-over (20 R384, log 12). -/
opaque standbyLag : Nat → Nat

/-- Whether a Dispatcher that traps was about to give a unit to a core, whose hand-out it had journalled; and whether both copies
held that record (20 R385, log 12): for each tick. -/
opaque trapCut : Nat → Option (Nat × Bool)

/-- Whether the error that makes a Dispatcher trap is one of its instruction SRAM (20 R384, R385, log 53): for each tick. -/
opaque sramTrap : Nat → Bool

/-- Whether the V row group whose turn it is is held in its fetch (11 R267, log 25): for each tick. -/
opaque groupHeld : Nat → Bool

/-- The code and the address that an error bank holds for an error of shared logic or of a Dispatcher's core, which is no fault of
R371 (20 R374, R379, log 53): a value for each tick. -/
opaque logicError : Nat → BitVec 8 × Word

/-- The bytes of a saved context's slot whose places R382 does not give (20 R382, log 38): for each tick and offset. -/
opaque contextByte : Nat → Nat → Byte

/-- Creward's root public key, whose SHA-512 hash the security controller holds in ROM (03 R64, log 46). -/
opaque rootKey : List Byte

/-- Which of the free slots of its die's context pool a halted core takes (20 R382, log 38): an index for each tick. -/
opaque contextSlot : Nat → Nat

end Sys2Proof.Config
end

