-- ==== Sys2Proof/Machine/Formats.lean ====
section
/-!
DEFINITION. The number formats to the bit (01): exact values, rounding, conversions, and the ZS10 block scale.
A code is a natural number below 2 to the format's width.
-/
namespace Sys2Proof.Machine

/-- The fifteen element formats (R10, R14). -/
inductive Fmt where
  | fp32 | fp16 | bf16 | e4m3 | e5m2 | e2m1
  | i4 | i8 | i16 | i32 | i64 | n8 | n16 | n32 | n64
  deriving DecidableEq, Repr, Inhabited

/-- The four rounding modes of FPCTL.RM (R16). -/
inductive RMode where
  | nearest | zero | up | down
  deriving DecidableEq, Repr, Inhabited

/-- FPCTL.RM's code (R16). -/
def rmodeOf (rm : BitVec 2) : RMode :=
  match rm.toNat with
  | 0 => .nearest
  | 1 => .zero
  | 2 => .up
  | _ => .down

/-- An exact value: NaN, an infinity, or (-1)^neg * m * 2^e. -/
inductive Val where
  | nan
  | inf (neg : Bool)
  | fin (neg : Bool) (m : Nat) (e : Int)
  deriving DecidableEq, Repr, Inhabited

/-- The width of a format in bits. -/
def Fmt.width : Fmt → Nat
  | .fp32 => 32 | .fp16 => 16 | .bf16 => 16 | .e4m3 => 8 | .e5m2 => 8 | .e2m1 => 4
  | .i4 => 4 | .i8 => 8 | .i16 => 16 | .i32 => 32 | .i64 => 64
  | .n8 => 8 | .n16 => 16 | .n32 => 32 | .n64 => 64

def Fmt.isFloat : Fmt → Bool
  | .fp32 | .fp16 | .bf16 | .e4m3 | .e5m2 | .e2m1 => true
  | _ => false

def Fmt.signed : Fmt → Bool
  | .n8 | .n16 | .n32 | .n64 => false
  | _ => true

/-- The fraction width (R14); zero for the integers. -/
def Fmt.frac : Fmt → Nat
  | .fp32 => 23 | .fp16 => 10 | .bf16 => 7 | .e4m3 => 3 | .e5m2 => 2 | .e2m1 => 1
  | _ => 0

/-- The exponent bias (R14). -/
def Fmt.bias : Fmt → Nat
  | .fp32 => 127 | .fp16 => 15 | .bf16 => 127 | .e4m3 => 7 | .e5m2 => 15 | .e2m1 => 1
  | _ => 0

/-- The magnitude code of the largest finite value (R14, R15). -/
def Fmt.maxFinite : Fmt → Nat
  | .fp32 => 0x7F7FFFFF | .fp16 => 0x7BFF | .bf16 => 0x7F7F | .e4m3 => 0x7E | .e5m2 => 0x7B | .e2m1 => 0x7
  | _ => 0

/-- Whether the format has an infinity (R15). -/
def Fmt.hasInf : Fmt → Bool
  | .fp32 | .fp16 | .bf16 | .e5m2 => true
  | _ => false

/-- The canonical NaN (R15); an E2M1 NaN is written as +0 (R25). -/
def Fmt.nanCode : Fmt → Nat
  | .fp32 => 0x7FC00000 | .fp16 => 0x7E00 | .bf16 => 0x7FC0 | .e4m3 => 0x7F | .e5m2 => 0x7E
  | _ => 0

/-- The exponent of the smallest subnormal. -/
def Fmt.qmin (f : Fmt) : Int := 1 - (f.bias : Int) - (f.frac : Int)

/-- The index of the FZI bit of a format in FPCTL (R16); its FZO bit is six further. -/
def Fmt.fziBit : Fmt → Option Nat
  | .fp32 => some 2 | .fp16 => some 3 | .bf16 => some 4 | .e4m3 => some 5 | .e5m2 => some 6 | .e2m1 => some 7
  | _ => none

/-- Whether FPCTL flushes subnormal operands of a format. -/
def fziOf (fpctl : Word) (f : Fmt) : Bool :=
  match f.fziBit with
  | some b => fpctl.getLsbD b
  | none => false

/-- Whether FPCTL flushes subnormal results of a format. -/
def fzoOf (fpctl : Word) (f : Fmt) : Bool :=
  match f.fziBit with
  | some b => fpctl.getLsbD (b + 6)
  | none => false

/-- The number of bits of a natural number. -/
def natBits (n : Nat) : Nat := if n = 0 then 0 else Nat.log2 n + 1

/-- A natural number times 2^k, exact for k not negative. -/
def shl (n : Nat) (k : Int) : Nat := n * 2 ^ k.toNat

/-- The integer of a two's complement code of `w` bits. -/
def intOfCode (w c : Nat) : Int := if c < 2 ^ (w - 1) then (c : Int) else (c : Int) - (2 ^ w : Nat)

/-- The two's complement code of `w` bits of an integer. -/
def codeOfInt (w : Nat) (x : Int) : Nat := (x % ((2 ^ w : Nat) : Int)).toNat

/-- The exact value of an integer. -/
def valOfInt (x : Int) : Val := .fin (decide (x < 0)) x.natAbs 0

/-- The exact value a code stands for (R10, R14, R15). -/
def decodeVal (f : Fmt) (c : Nat) : Val :=
  if f.isFloat then
    let w := f.width
    let neg := decide (2 ^ (w - 1) ≤ c % 2 ^ w)
    let mag := c % 2 ^ (w - 1)
    if mag ≤ f.maxFinite then
      let ex := mag / 2 ^ f.frac
      let fr := mag % 2 ^ f.frac
      if ex = 0 then .fin neg fr f.qmin
      else .fin neg (2 ^ f.frac + fr) (f.qmin + (ex : Int) - 1)
    else if f.hasInf && decide (mag = f.maxFinite + 1) then .inf neg
    else .nan
  else if f.signed then valOfInt (intOfCode f.width (c % 2 ^ f.width))
  else .fin false (c % 2 ^ f.width) 0

/-- A magnitude code with its sign. -/
def withSign (f : Fmt) (neg : Bool) (mag : Nat) : Nat := if neg then 2 ^ (f.width - 1) + mag else mag

/-- Whether rounding moves away from zero, given the kept magnitude's parity, the dropped part `rem` of `unit`
and the sign (R19). -/
def roundsUp (rm : RMode) (neg odd : Bool) (rem unit : Nat) : Bool :=
  match rm with
  | .nearest => decide (unit < 2 * rem) || (decide (unit = 2 * rem) && odd)
  | .zero => false
  | .up => !neg && decide (0 < rem)
  | .down => neg && decide (0 < rem)

/-- `m * 2^e` in units of `2^q`, rounded, and whether the rounding was inexact. -/
def roundUnits (rm : RMode) (neg : Bool) (m : Nat) (e q : Int) : Nat × Bool :=
  if q ≤ e then (shl m (e - q), false)
  else
    let u := 2 ^ (q - e).toNat
    let n := m / u
    let r := m % u
    (if roundsUp rm neg (decide (n % 2 = 1)) r u then n + 1 else n, decide (0 < r))

/-- The magnitude an overflow leaves (R19). -/
def overflowMag (f : Fmt) (rm : RMode) (neg : Bool) : Nat :=
  if f.hasInf then
    match rm with
    | .nearest => f.maxFinite + 1
    | .zero => f.maxFinite
    | .up => if neg then f.maxFinite else f.maxFinite + 1
    | .down => if neg then f.maxFinite + 1 else f.maxFinite
  else f.maxFinite

/-- Rounds a nonzero or zero finite value into a floating-point format (R18, R19, R26). -/
def roundFinite (f : Fmt) (rm : RMode) (fzo : Bool) (neg : Bool) (m : Nat) (e : Int) : Nat × Flags :=
  if m = 0 then (withSign f neg 0, flNone)
  else
    let top := e + (natBits m : Int) - 1
    let q := max (top - (f.frac : Int)) f.qmin
    let (n, inexact) := roundUnits rm neg m e q
    let mag := (q - f.qmin).toNat * 2 ^ f.frac + n
    let tiny := decide (top < 1 - (f.bias : Int))
    if f.maxFinite < mag then
      (withSign f neg (overflowMag f rm neg), flOFL ||| flNX ||| flIf (!f.hasInf) flSAT)
    else if fzo && decide (0 < mag) && decide (mag < 2 ^ f.frac) then
      (withSign f neg 0, flUFL ||| flNX)
    else
      (withSign f neg mag, flIf inexact flNX ||| flIf (tiny && inexact) flUFL)

/-- The least and greatest integer of an integer format (R10). -/
def Fmt.intMin (f : Fmt) : Int := if f.signed then -(2 ^ (f.width - 1) : Nat) else 0
def Fmt.intMax (f : Fmt) : Int := if f.signed then (2 ^ (f.width - 1) : Nat) - 1 else (2 ^ f.width : Nat) - 1

/-- Saturates an integer into an integer format (R22). -/
def saturate (f : Fmt) (x : Int) : Nat × Flags :=
  if x < f.intMin then (codeOfInt f.width f.intMin, flSAT)
  else if f.intMax < x then (codeOfInt f.width f.intMax, flSAT)
  else (codeOfInt f.width x, flNone)

/-- Delivers an exact value in a format (R22 to R26). -/
def encodeVal (f : Fmt) (rm : RMode) (fzo : Bool) (v : Val) : Nat × Flags :=
  if f.isFloat then
    match v with
    | .nan => (f.nanCode, flIf (decide (f = .e2m1)) flINV)
    | .inf neg => if f.hasInf then (withSign f neg (f.maxFinite + 1), flNone) else (withSign f neg f.maxFinite, flSAT)
    | .fin neg m e => roundFinite f rm fzo neg m e
  else
    match v with
    | .nan => (0, flINV)
    | .inf neg => (codeOfInt f.width (if neg then f.intMin else f.intMax), flSAT)
    | .fin neg m e =>
      let (n, inexact) := roundUnits rm neg m e 0
      let (c, fl) := saturate f (if neg then -(n : Int) else (n : Int))
      (c, fl ||| flIf inexact flNX)

/-- Whether a code is a nonzero subnormal (for E2M1, plus or minus 0.5). -/
def isSubnormal (f : Fmt) (c : Nat) : Bool :=
  let mag := c % 2 ^ (f.width - 1)
  f.isFloat && decide (0 < mag) && decide (mag < 2 ^ f.frac)

/-- A code after the operand flush (R18). -/
def flushIn (f : Fmt) (fzi : Bool) (c : Nat) : Nat :=
  if fzi && isSubnormal f c then withSign f (decide (2 ^ (f.width - 1) ≤ c)) 0 else c

/-- An operand's exact value under FPCTL. -/
def operandVal (fpctl : Word) (f : Fmt) (c : Nat) : Val := decodeVal f (flushIn f (fziOf fpctl f) c)

/-- Converts a code from one format to another under a mode and flush bits (R22 to R26). Integer zero and
integers convert through +0 (R23); a float -0 gives the integer 0 (R24). -/
def convert (src dst : Fmt) (rm : RMode) (fzi fzo : Bool) (c : Nat) : Nat × Flags :=
  encodeVal dst rm fzo (decodeVal src (flushIn src fzi c))

/-- The K engine's conversion: to nearest even, flushing nothing (R17). -/
def convertK (src dst : Fmt) (c : Nat) : Nat × Flags := convert src dst .nearest false false c

/- Exact arithmetic on values. -/

/-- The integer `m` with a sign. -/
def signedNat (neg : Bool) (m : Nat) : Int := if neg then -(m : Int) else (m : Int)

/-- The exact product; an infinity times zero is NaN. -/
def mulVal : Val → Val → Val
  | .nan, _ => .nan
  | _, .nan => .nan
  | .inf a, .inf b => .inf (a != b)
  | .inf a, .fin b m _ => if m = 0 then .nan else .inf (a != b)
  | .fin a m _, .inf b => if m = 0 then .nan else .inf (a != b)
  | .fin a m e, .fin b n f => .fin (a != b) (m * n) (e + f)

/-- The sum of two finite values; a zero sum of unlike signs is negative only toward -infinity (IEEE 754). -/
def addFin (rm : RMode) (a : Bool) (m : Nat) (e : Int) (b : Bool) (n : Nat) (f : Int) : Val :=
  let q := min e f
  let x := signedNat a (shl m (e - q)) + signedNat b (shl n (f - q))
  if x = 0 then .fin (if a = b then a else decide (rm = .down)) 0 0
  else .fin (decide (x < 0)) x.natAbs q

/-- The exact sum; infinities of unlike signs give NaN. -/
def addVal (rm : RMode) : Val → Val → Val
  | .nan, _ => .nan
  | _, .nan => .nan
  | .inf a, .inf b => if a = b then .inf a else .nan
  | .inf a, .fin _ _ _ => .inf a
  | .fin _ _ _, .inf b => .inf b
  | .fin a m e, .fin b n f => addFin rm a m e b n f

def negVal : Val → Val
  | .nan => .nan
  | .inf a => .inf (!a)
  | .fin a m e => .fin (!a) m e

/-- Compares two finite values: the sign of x - y. -/
def cmpFin (a : Bool) (m : Nat) (e : Int) (b : Bool) (n : Nat) (f : Int) : Ordering :=
  let q := min e f
  compare (signedNat a (shl m (e - q))) (signedNat b (shl n (f - q)))

/-- Compares two values; none where either is NaN. -/
def cmpVal : Val → Val → Option Ordering
  | .nan, _ => none
  | _, .nan => none
  | .inf a, .inf b => some (if a = b then .eq else if a then .lt else .gt)
  | .inf a, .fin _ _ _ => some (if a then .lt else .gt)
  | .fin _ _ _, .inf b => some (if b then .gt else .lt)
  | .fin a m e, .fin b n f => some (cmpFin a m e b n f)

/-- The FP32 addition of AMO fadd: to nearest even, flushing nothing (09 R201). -/
def fp32Add (x y : Nat) : Nat :=
  (encodeVal .fp32 .nearest false (addVal .nearest (decodeVal .fp32 x) (decodeVal .fp32 y))).1

/- The ZS10 block scale (R27 to R30). -/

/-- The value of a valid ZS10 code: `(mantissa, exponent)` of mantissa * 2^exponent (R27). -/
def zs10Val (c : Nat) : Nat × Int := (4 + c % 4, (c / 4 : Nat) - 127 - 2)

/-- Whether a ZS10 code is NaN. -/
def zs10Nan (c : Nat) : Bool := decide (1020 ≤ c % 1024)

/-- Compares m * 2^e with n * 2^f. -/
def leDyadic (m : Nat) (e : Int) (n : Nat) (f : Int) : Bool :=
  let q := min e f
  decide (shl m (e - q) ≤ shl n (f - q))

/-- The magnitude of the largest finite value, as a dyadic number. -/
def maxFiniteVal (f : Fmt) : Nat × Int :=
  match decodeVal f f.maxFinite with
  | .fin _ m e => (m, e)
  | _ => (0, 0)

/-- x / s rounded to nearest even into the element format's grid and limited to its largest finite value (R29). -/
def quantise (efmt : Fmt) (neg : Bool) (m : Nat) (e : Int) (s : Nat × Int) : Nat :=
  if m = 0 then withSign efmt neg 0
  else
    -- 64 further bits and a sticky bit keep the quotient on its side of every rounding boundary
    let num := m * 2 ^ (64 + natBits s.1)
    let quot := 2 * (num / s.1) + (if num % s.1 = 0 then 0 else 1)
    let r := roundFinite efmt .nearest false neg quot (e - s.2 - ((64 + natBits s.1 : Nat) : Int) - 1)
    if r.2 &&& flOFL = 0 then r.1 else withSign efmt neg efmt.maxFinite

/-- The squared error of one element under a scale, as a dyadic number (R29). -/
def quantError (efmt : Fmt) (v : Val) (code : Nat) (s : Nat × Int) : Nat × Int :=
  match v, decodeVal efmt code with
  | .fin a m e, .fin b n f =>
    match addFin .nearest a m e (!b) (n * s.1) (f + s.2) with
    | .fin _ d g => (d * d, 2 * g)
    | _ => (0, 0)
  | _, _ => (0, 0)

/-- The sum of two dyadic magnitudes. -/
def addDyadic (x y : Nat × Int) : Nat × Int :=
  let q := min x.2 y.2
  (shl x.1 (x.2 - q) + shl y.1 (y.2 - q), q)

/-- The element codes and the error of a block under one candidate scale (R29). -/
def tryScale (efmt : Fmt) (xs : List Val) (c : Nat) : List Nat × (Nat × Int) :=
  let s := zs10Val c
  let qs := xs.map (fun v => match v with | .fin a m e => quantise efmt a m e s | _ => 0)
  (qs, (List.zipWith (fun v q => quantError efmt v q s) xs qs).foldl addDyadic (0, 0))

/-- The least code whose value is at least m * 2^e / (n * 2^f), at most 1019. -/
def leastScale (m : Nat) (e : Int) (n : Nat) (f : Int) : Nat :=
  -- t >= value(c) iff m*2^e >= value(c) * n * 2^f; a binary search of ten steps over 0 .. 1019
  let below (c : Nat) : Bool := !(leDyadic m e ((zs10Val c).1 * n) ((zs10Val c).2 + f))
  -- below c: value(c) < t
  let rec go : Nat → Nat → Nat
    | 0, lo => lo
    | k + 1, lo => if lo + 2 ^ k ≤ 1020 && below (lo + 2 ^ k - 1) then go k (lo + 2 ^ k) else go k lo
  min 1019 (go 10 0)

/-- The scale search of R29: the scale code, the 32 element codes and the flags. -/
def scaleSearch (sfmt efmt : Fmt) (codes : List Nat) : Nat × List Nat × Flags :=
  let vals := codes.map (decodeVal sfmt)
  if vals.any (fun v => match v with | .fin _ _ _ => false | _ => true) then
    (1020, codes.map (fun _ => 0), flQNAN)
  else
    let xs := codes.map (fun c => decodeVal sfmt (flushIn sfmt true c))
    let big := xs.foldl (fun acc v => match v with
      | .fin _ m e => if leDyadic acc.1 acc.2 m e then (m, e) else acc
      | _ => acc) (0, (0 : Int))
    if big.1 = 0 then
      (0, xs.map (fun v => match v with | .fin a _ _ => withSign efmt a 0 | _ => 0), flNone)
    else
      let mf := maxFiniteVal efmt
      let at0 := zs10Val 0
      let at1019 := zs10Val 1019
      let below0 := !(leDyadic (at0.1 * mf.1) (at0.2 + mf.2) big.1 big.2)
      let above := !(leDyadic big.1 big.2 (at1019.1 * mf.1) (at1019.2 + mf.2))
      let c0 := leastScale big.1 big.2 mf.1 mf.2
      let cands := if below0 then [0, 1] else if above then [1019]
        else [c0 - 1, c0, c0 + 1].filter (fun c => decide (c ≤ 1019)) |>.dedup
      let first := (1020, ([] : List Nat), ((0 : Nat), (0 : Int)), true)
      let best := cands.foldl (fun acc c =>
        let t := tryScale efmt xs c
        if acc.2.2.2 || leDyadic t.2.1 t.2.2 acc.2.2.1.1 acc.2.2.1.2 then (c, t.1, t.2, false) else acc) first
      (best.1, best.2.1, flIf below0 flQUF ||| flIf above flQOF)

/-- The value of a block-scaled element: element value times scale value (R30). -/
def scaledVal (efmt : Fmt) (scale code : Nat) : Val :=
  if zs10Nan scale then .nan
  else
    let s := zs10Val (scale % 1024)
    match decodeVal efmt code with
    | .fin a m e => .fin a (m * s.1) (e + s.2)
    | v => v

/-- Decodes a block-scaled element into a format, to nearest even (R30). -/
def decodeScaled (efmt dst : Fmt) (scale code : Nat) : Nat × Flags :=
  encodeVal dst .nearest false (scaledVal efmt scale code)

end Sys2Proof.Machine
end

