-- ==== Sys2Proof/Machine/Tensor.lean ====
section
/-!
DEFINITION. Tensor types, symmetry groups and orbits (02): the bound form of a type register, locate, reads and
stores through a type, and the joint orbits of a full contraction.
-/
namespace Sys2Proof.Machine

/-- The element format codes of R37. -/
def fmtOfCode (c : Nat) : Option Fmt :=
  match c with
  | 0x00 => some .i4 | 0x01 => some .i8 | 0x02 => some .i16 | 0x03 => some .i32 | 0x04 => some .i64
  | 0x05 => some .n8 | 0x06 => some .n16 | 0x07 => some .n32 | 0x08 => some .n64
  | 0x10 => some .fp32 | 0x11 => some .fp16 | 0x12 => some .bf16 | 0x13 => some .e4m3
  | 0x14 => some .e5m2 | 0x15 => some .e2m1
  | _ => none

/-- Whether a format may carry block scales (R39). -/
def Fmt.scalable : Fmt → Bool
  | .e4m3 | .e5m2 | .e2m1 => true
  | _ => false

/-- The groups of a symmetry slot (R38). -/
inductive Grp where
  | none | sym | asym | circ | refl
  deriving DecidableEq, Repr, Inhabited

/-- A symmetry slot (R38). -/
structure SymSlot where
  grp : Grp
  ia : Nat
  ib : Nat
  deriving DecidableEq, Repr, Inhabited

/-- The contents of a type register in use (R40). -/
structure TType where
  valid : Bool
  fmt : Fmt
  rank : Nat
  space : Nat
  scaled : Bool
  strict : Bool
  kidx : Nat
  ext : List Nat
  sym : List SymSlot
  base : Nat
  stride : List Int
  sbase : Nat
  deriving DecidableEq, Repr, Inhabited

def grpOf (c : Nat) : Grp :=
  match c with
  | 1 => .sym | 2 => .asym | 3 => .circ | 4 => .refl | _ => .none

def symSlotOf (w : Nat) : SymSlot := { grp := grpOf (w % 8), ia := w / 8 % 4, ib := w / 32 % 4 }

/-- The register's bits of an unsigned field. -/
def tyBits (r : BitVec 640) (lo n : Nat) : Nat := (r.extractLsb' lo n).toNat

/-- Reads a type register in the layout of R40. -/
def ttypeOf (r : BitVec 640) : TType :=
  { valid := r.getLsbD 576
    fmt := (fmtOfCode (tyBits r 0 8)).getD .i4
    rank := tyBits r 8 8
    space := tyBits r 16 8
    scaled := r.getLsbD 24
    strict := r.getLsbD 25
    kidx := tyBits r 26 2
    ext := [tyBits r 32 32, tyBits r 64 32, tyBits r 96 32, tyBits r 128 32]
    sym := [symSlotOf (tyBits r 160 16), symSlotOf (tyBits r 176 16)]
    base := tyBits r 192 64
    stride := [(r.extractLsb' 256 64).toInt, (r.extractLsb' 320 64).toInt, (r.extractLsb' 384 64).toInt,
      (r.extractLsb' 448 64).toInt]
    sbase := tyBits r 512 64 }

/-- The little-endian number of a byte list. -/
def leNat : List Byte → Nat
  | [] => 0
  | b :: bs => b.toNat + 256 * leNat bs

/-- The bytes of a number, little-endian, `n` of them. -/
def natLE : Nat → Nat → List Byte
  | 0, _ => []
  | n + 1, x => BitVec.ofNat 8 x :: natLE n (x / 256)

/-- orbit_rep of R42: representative, whether the sign is -1, structural zero. -/
def orbitRep (g : Grp) (i j n : Nat) : Nat × Bool × Bool :=
  match g with
  | .none => (i, false, false)
  | .sym =>
    let (i, j) := if j < i then (j, i) else (i, j)
    (i * n - i * (i - 1) / 2 + (j - i), false, false)
  | .asym =>
    if i = j then (0, false, true)
    else
      let (i', j') := if j < i then (j, i) else (i, j)
      (i' * (n - 1) - i' * (i' - 1) / 2 + (j' - i' - 1), decide (j < i), false)
  | .circ => ((j + n - i % n) % n, false, false)
  | .refl =>
    let (i, j) := if n - 1 < i + j then (n - 1 - j, n - 1 - i) else (i, j)
    (i * n - i * (i - 1) / 2 + j, false, false)

/-- Whether (i, j) is its orbit's canonical index (R43). -/
def isCanonicalPair (g : Grp) (i j n : Nat) : Bool :=
  match g with
  | .none => true
  | .sym => decide (i ≤ j)
  | .asym => decide (i < j)
  | .circ => decide (i = 0)
  | .refl => decide (i + j ≤ n - 1)

/-- The element `d` of an index list. -/
def idx (x : List Nat) (d : Nat) : Nat := x.getD d 0

/-- The result of locate: representative indices, offset in elements, whether the sign is -1, structural zero,
and whether the tuple is its orbit's canonical index. -/
structure Loc where
  rep : List Nat
  off : Int
  neg : Bool
  zero : Bool
  canon : Bool
  deriving DecidableEq, Repr, Inhabited

/-- One slot's step of locate (R42). -/
def locateSlot (t : TType) (l : Loc) (s : SymSlot) : Loc :=
  match s.grp with
  | .none => l
  | g =>
    let i := idx l.rep s.ia
    let j := idx l.rep s.ib
    let n := idx t.ext s.ia
    let (p, sg, z) := orbitRep g i j n
    { l with rep := (l.rep.set s.ia p).set s.ib 0, neg := l.neg != sg, zero := l.zero || z,
             canon := l.canon && isCanonicalPair g i j n }

/-- The offset in elements: the strides times the representative indices (R42). -/
def dotStride : Nat → List Int → List Nat → Int
  | 0, _, _ => 0
  | _, [], _ => 0
  | _, _, [] => 0
  | k + 1, s :: ss, x :: xs => s * (x : Int) + dotStride k ss xs

/-- locate of R42. -/
def locate (t : TType) (x : List Nat) : Loc :=
  let l := t.sym.foldl (locateSlot t) { rep := x, off := 0, neg := false, zero := false, canon := true }
  { l with off := dotStride t.rank t.stride l.rep }

/-- Every index tuple of given extents, in row-major order. -/
def tuples : List Nat → List (List Nat)
  | [] => [[]]
  | n :: ns => (List.range n).flatMap (fun i => (tuples ns).map (fun r => i :: r))

/-- The byte address of an element offset, and the nibble within it (R11, R42). -/
def elemAddr (t : TType) (off : Int) : Int × Nat :=
  if t.fmt.width = 4 then ((t.base : Int) + off / 2, (off % 2).toNat)
  else ((t.base : Int) + off * ((t.fmt.width / 8 : Nat) : Int), 0)

/-- No representative of a type stands beyond an element offset: it is the last of the array (R11). -/
def isLastRep (t : TType) (off : Int) : Bool :=
  (tuples (t.ext.take t.rank)).all (fun x => let l := locate t x; l.zero || decide (l.off ≤ off))

/-- A byte of 4-bit elements when the element at an offset is written: the other nibble stays, but bits [7:4] of the
last byte of an odd count are zero (R11). -/
def putNibble (t : TType) (off : Int) (old v : Nat) : Nat :=
  if (elemAddr t off).2 = 0 then (if isLastRep t off then 0 else old / 16 * 16) + v % 16 else old % 16 + 16 * (v % 16)

/-- The byte address of the scale of an element offset (R42). -/
def scaleAddr (t : TType) (off : Int) : Int := (t.sbase : Int) + 2 * (off / 32)

/-- Whether an index tuple is inside the extents (R41). -/
def inExtents (t : TType) (x : List Nat) : Bool :=
  (List.range t.rank).all (fun d => decide (idx x d < idx t.ext d))

/-- Negation in an element format (R44), with SAT for the minimum code of an I format. -/
def negCode (f : Fmt) (c : Nat) : Nat × Flags :=
  if f.isFloat then
    match decodeVal f c with
    | .nan => (f.nanCode, flNone)
    | _ => ((c + 2 ^ (f.width - 1)) % 2 ^ f.width, flNone)
  else if f.signed then
    let x := intOfCode f.width c
    if x = f.intMin then (codeOfInt f.width f.intMax, flSAT) else (codeOfInt f.width (-x), flNone)
  else (c, flNone)

/-- The element a typed read delivers from its stored representative (R44). -/
def applySign (f : Fmt) (neg : Bool) (c : Nat) : Nat × Flags := if neg then negCode f c else (c, flNone)

/-- Equality of values as numbers of the element format (R50). -/
def sameValue (f : Fmt) (a b : Nat) : Bool :=
  match decodeVal f a, decodeVal f b with
  | .nan, .nan => true
  | x, y => decide (cmpVal x y = some .eq)

/-- One covered element of a typed store: its index tuple and its code. -/
abbrev Covered := List Nat × Nat

/-- One orbit of a typed store: representative offset, the code to be written with the flags of its negation,
whether the canonical index is covered, and the covered elements' codes times their signs. -/
structure OrbitStore where
  rep : List Nat
  off : Int
  value : Nat
  vflags : Flags
  canon : Bool
  signed : List Nat
  /-- The element whose value is written. -/
  from_ : List Nat
  deriving DecidableEq, Repr, Inhabited

/-- Adds a covered element to the orbits met so far, in row-major order (R49). MODEL'S CHOICE (log 69): the value of an element that is
only compared is formed with R44's saturating negation, and that negation sets no flag. -/
def coverOrbit (t : TType) (os : List OrbitStore) (c : Covered) : List OrbitStore :=
  let l := locate t c.1
  let (v, vf) := applySign t.fmt l.neg c.2
  match os.find? (fun o => o.rep = l.rep) with
  | none =>
    os ++ [OrbitStore.mk l.rep l.off (if l.canon then c.2 else v) (if l.canon then flNone else vf) l.canon [v] c.1]
  | some _ => os.map (fun o => if o.rep = l.rep then
      { o with value := if l.canon then c.2 else o.value, vflags := if l.canon then flNone else o.vflags,
               canon := o.canon || l.canon, signed := o.signed ++ [v],
               from_ := if l.canon then c.1 else o.from_ } else o)

/-- What a typed store writes and breaks (R49, R50). `writes` are representative offsets, codes and the row of the
element that gives the value; `broken` the offsets of the orbits that break; `zeroBroken` whether a structural zero
breaks. -/
structure StorePlan where
  writes : List (Int × Nat × Nat)
  broken : List Int
  zeroBroken : Bool
  flags : Flags
  deriving DecidableEq, Repr, Inhabited

/-- The plan of a typed store of the covered elements, in ascending row-major order. MODEL'S CHOICE (log 54): where strides put two
representatives on one location they are written in the order of their first covered elements, so the last one remains. -/
def planStore (t : TType) (cs : List Covered) : StorePlan :=
  let real := cs.filter (fun c => !(locate t c.1).zero)
  let zeros := cs.filter (fun c => (locate t c.1).zero)
  let os := real.foldl (coverOrbit t) []
  { writes := os.map (fun o => (o.off, o.value, idx o.from_ 0))
    broken := (os.filter (fun o => o.signed.any (fun v => !(sameValue t.fmt v o.value)))).map OrbitStore.off
    zeroBroken := zeros.any (fun c => !(sameValue t.fmt c.2 0))
    flags := os.foldl (fun fl o => fl ||| o.vflags) flNone }

/-- Whether a store breaks the declared symmetry. -/
def StorePlan.breaks (p : StorePlan) : Bool := !p.broken.isEmpty || p.zeroBroken

/-- The address a strict break logs: the breaking representative of least offset, else the type's base (R50). -/
def StorePlan.strictAddr (t : TType) (p : StorePlan) : Int :=
  match p.broken with
  | [] => (t.base : Int)
  | o :: os => (elemAddr t (os.foldl min o)).1

/-- A joint orbit of a full contraction (R46): offsets in X and Y and the weight. -/
structure JointOrbit where
  px : Int
  py : Int
  rx : List Nat
  ry : List Nat
  weight : Int
  deriving DecidableEq, Repr, Inhabited

/-- Adds a tuple to the joint orbits met so far; structural zeros contribute to none (R47). -/
def addJoint (x y : TType) (js : List JointOrbit) (tup : List Nat) : List JointOrbit :=
  let lx := locate x tup
  let ly := locate y tup
  if lx.zero || ly.zero then js
  else
    let w : Int := if lx.neg = ly.neg then 1 else -1
    match js.find? (fun j => j.rx = lx.rep && j.ry = ly.rep) with
    | none => js ++ [{ px := lx.off, py := ly.off, rx := lx.rep, ry := ly.rep, weight := w }]
    | some _ => js.map (fun j => if j.rx = lx.rep && j.ry = ly.rep then { j with weight := j.weight + w } else j)

/-- Orders joint orbits by px, then py; a stable merge keeps the first tuple's row-major order (R47). -/
def insertJoint (j : JointOrbit) : List JointOrbit → List JointOrbit
  | [] => [j]
  | k :: ks => if k.px < j.px || (k.px = j.px && k.py ≤ j.py) then k :: insertJoint j ks else j :: k :: ks

/-- The joint orbits that MORB visits, in order (R46, R47). -/
def jointOrbits (x y : TType) : List JointOrbit :=
  let all := (tuples (x.ext.take x.rank)).foldl (addJoint x y) []
  (all.filter (fun j => decide (j.weight ≠ 0))).foldl (fun acc j => insertJoint j acc) []

end Sys2Proof.Machine
end

