-- ==== Sys2Proof/Machine/Memory.lean ====
section
/-!
DEFINITION. Memory: bytes and poison, qualified addresses, translation, and the checks of an access (07).
-/
namespace Sys2Proof.Machine

/-- What a byte of memory that nothing has written reads as (log 4). -/
def memDefault : Byte := 0

/-- A memory in canonical form: rising addresses and no entry equal to what an unlisted address reads as. -/
def Memory.wf (m : List Host.Cell) : Bool := Tbl.wf memDefault m

/-- The byte at an address. -/
def byteAt (m : List Host.Cell) (a : Nat) : Byte := Tbl.get memDefault m a
/-- The `n` bytes from an address. -/
def bytesAt (m : List Host.Cell) (a n : Nat) : List Byte := Tbl.getRun memDefault m a n
/-- Writes bytes from an address on. -/
def putBytes (m : List Host.Cell) (a : Nat) (bs : List Byte) : List Host.Cell := Tbl.setRun memDefault m a bs

/-- The little-endian number at an address (00 R7). -/
def numAt (m : List Host.Cell) (a n : Nat) : Nat := leNat (bytesAt m a n)

/- Poison: the list of poisoned 64-bit words, by word number (R160). -/

/-- Inserts a word number into a rising list. -/
def insWord (w : Nat) : List Nat → List Nat
  | [] => [w]
  | x :: xs => if w < x then w :: x :: xs else if w = x then x :: xs else x :: insWord w xs

/-- The first poisoned word among the bytes [a, a+n). -/
def poisonIn (ps : List Nat) (a n : Nat) : Option Nat :=
  if n = 0 then none else (ps.filter (fun w => decide (a / 8 ≤ w) && decide (w ≤ (a + n - 1) / 8))).head?

/-- The words an n-byte write at `a` overwrites whole lose their poison (log 9). -/
def clearPoison (ps : List Nat) (a n : Nat) : List Nat :=
  ps.filter (fun w => !(decide (a ≤ 8 * w) && decide (8 * w + 8 ≤ a + n)))

/-- Marks the words of [a, a+n). -/
def markPoison (ps : List Nat) (a n : Nat) : List Nat :=
  if n = 0 then ps
  else (List.range ((a + n - 1) / 8 - a / 8 + 1)).foldl (fun acc k => insWord (a / 8 + k) acc) ps

/- Fault codes (20 R371). -/
def cILLEGAL : Nat := 0x01
def cSIGMISMATCH : Nat := 0x02
def cLOCKSTEP : Nat := 0x03
def cBOUND : Nat := 0x04
def cTRANSLATE : Nat := 0x05
def cPROTECT : Nat := 0x06
def cPLACE : Nat := 0x07
def cUNDECLARED : Nat := 0x08
def cRACE : Nat := 0x09
def cBACKREF : Nat := 0x0A
def cCODE : Nat := 0x0B
def cORBIT : Nat := 0x0C
def cDAMCAP : Nat := 0x0D
def cEXTENT : Nat := 0x0E
def cALIGN : Nat := 0x0F
def cPOISON : Nat := 0x10
def cRESIDUE : Nat := 0x11
def cBARRIER : Nat := 0x12
def cUNREACH : Nat := 0x13
def cSOLVER : Nat := 0x14
def cSPLIT : Nat := 0x15

/- Cores and dies (00 R1). -/
def coreDie (g : Nat) : Nat := g / 64
def coreX (g : Nat) : Nat := g % 8
def coreY (g : Nat) : Nat := g / 8 % 8
def coreIdx (die x y : Nat) : Nat := die * 64 + y * 8 + x

/-- The ring position of a die: D0, D1, D3, D2 (07 R137). -/
def ringPos (d : Nat) : Nat := match d with | 0 => 0 | 1 => 1 | 3 => 2 | _ => 3
/-- The die at a ring position. -/
def ringDie (p : Nat) : Nat := match p % 4 with | 0 => 0 | 1 => 1 | 2 => 3 | _ => 2

def State.core (s : State) (g : Nat) : Core := Tbl.get Core.reset s.cores g
def State.setCore (s : State) (g : Nat) (c : Core) : State := { s with cores := Tbl.set Core.reset s.cores g c }

/-- The number under which a saved unit stands where a core's index would (20 R382). -/
def savedKey (id : Nat) : Nat := 0x10000 + id

/-- A core, or the saved core of a unit that is pre-empted. -/
def State.unitCore (s : State) (g : Nat) : Core :=
  if g < 0x10000 then s.core g
  else match s.disp.saved.find? (fun x => decide (savedKey x.id = g)) with
    | some x => x.core
    | none => Core.reset

def State.setUnitCore (s : State) (g : Nat) (c : Core) : State :=
  if g < 0x10000 then s.setCore g c
  else { s with disp := { s.disp with saved := s.disp.saved.map (fun x => if savedKey x.id = g then { x with core := c } else x) } }
/-- The core whose stream issues. -/
def State.me (s : State) : Core := s.core s.cur
def State.setMe (s : State) (c : Core) : State := s.setCore s.cur c

/- Qualified addresses (08 R166). -/
def qSpc (q : Word) : Nat := (q.extractLsb' 61 3).toNat
def qVa (q : Word) : Nat := (q.extractLsb' 0 57).toNat
def qAddr (q : Word) : Nat := (q.extractLsb' 0 23).toNat
def qDx (q : Word) : BitVec 4 := q.extractLsb' 23 4
def qDy (q : Word) : BitVec 4 := q.extractLsb' 27 4
def qDd (q : Word) : BitVec 2 := q.extractLsb' 31 2
def qMask (q : Word) : BitVec 8 := q.extractLsb' 23 8
def qFva (q : Word) : Nat := (q.extractLsb' 0 48).toNat
def qDev (q : Word) : Int := (q.extractLsb' 48 13).toInt

/-- The form check of R167: the fault code of an ill-formed value, if any. -/
def formFault (q : Word) : Option Nat :=
  match qSpc q with
  | 0 => if q.extractLsb' 57 4 = 0 then none else some cTRANSLATE
  | 1 => if q.extractLsb' 23 38 = 0 then none else some cPROTECT
  | 2 => if q.extractLsb' 33 28 = 0 then none else some cPROTECT
  | 3 => if q.extractLsb' 31 30 = 0 then none else some cPROTECT
  | 4 => none
  | _ => some cPROTECT

/-- The byte address within its space, used by alignment checks. -/
def qByte (q : Word) : Nat :=
  match qSpc q with
  | 0 => qVa q
  | 4 => qFva q
  | _ => qAddr q

/-- The qualified address `k` bytes further on, within its address field (as LEA, 09 R189). -/
def qAdvance (q : Word) (k : Int) : Word :=
  match qSpc q with
  | 0 => (q.extractLsb' 57 7 : BitVec 7) ++ (q.extractLsb' 0 57 + BitVec.ofInt 57 k : BitVec 57)
  | 4 => (q.extractLsb' 48 16 : BitVec 16) ++ (q.extractLsb' 0 48 + BitVec.ofInt 48 k : BitVec 48)
  | 1 | 2 | 3 => (q.extractLsb' 23 41 : BitVec 41) ++ (q.extractLsb' 0 23 + BitVec.ofInt 23 k : BitVec 23)
  | _ => q

/-- The SPC and XTRA fields of a record (20 R374) for an address as named. -/
def qSpcBits (q : Word) : BitVec 3 := q.extractLsb' 61 3
def qXtra (q : Word) : BitVec 13 :=
  match qSpc q with
  | 2 => (q.extractLsb' 23 10).zeroExtend 13
  | 3 => (q.extractLsb' 23 8).zeroExtend 13
  | 4 => q.extractLsb' 48 13
  | _ => 0

/-- The address a record logs for an access as named (07 R136). The whole value where the form is bad (R167). -/
def qLogged (q : Word) : Word :=
  if (formFault q).isSome then q
  else BitVec.ofNat 64 (qByte q)

/- Placement (05 R94, R112). -/

/-- The die's position in the placement's group, if it lies in it. -/
def groupPos (p : Place) (die : Nat) : Option Nat :=
  if p.die0 ≤ die && decide (die < p.die0 + p.ndies) then some (die - p.die0) else none

/-- Whether a core lies in a placement. -/
def inPlace (p : Place) (g : Nat) : Bool :=
  (groupPos p (coreDie g)).isSome && decide (p.px ≤ coreX g) && decide (coreX g < p.px + p.pw)
    && decide (p.py ≤ coreY g) && decide (coreY g < p.py + p.ph)

/-- The core an N address reaches from core `g` (07 R137); none where it leaves grid or placement. -/
def nTarget (p : Place) (g : Nat) (q : Word) : Option Nat :=
  let x := (coreX g : Int) + (qDx q).toInt
  let y := (coreY g : Int) + (qDy q).toInt
  let die := ringDie (((ringPos (coreDie g) : Int) + (qDd q).toInt) % 4).toNat
  if 0 ≤ x && decide (x < 8) && decide (0 ≤ y) && decide (y < 8) then
    let t := coreIdx die x.toNat y.toNat
    if inPlace p t then some t else none
  else none

/-- The tag of a core's current or most recent unit (07 R137). -/
def Core.tagNow (c : Core) : Option (BitVec 16) :=
  match c.unit with
  | some u => some u.tag
  | none => c.lastTag

/-- The team members a mask names (07 R138): cores of the placement's row, by DOM1.IDX; none for a bad mask. -/
def wMembers (p : Place) (g : Nat) (mask : BitVec 8) : Option (List Nat) :=
  if mask = 0 || decide (2 ^ p.pw ≤ mask.toNat) then none
  else some (((List.range p.pw).filter (fun k => mask.getLsbD k)).map
    (fun k => coreIdx (coreDie g) (p.px + k) (coreY g)))

/- The SEC-DED code of page table entries (07 R399). -/

/-- Parity of a number's low `n` bits. -/
def parityOf : Nat → Nat → Bool
  | 0, _ => false
  | n + 1, x => xor (x % 2 == 1) (parityOf n (x / 2))

/-- The code positions c(0) to c(55): the integers from 3 that are no powers of two. -/
def secPositions : List Nat := ((List.range 60).map (· + 3)).filter (fun p => p ≠ 4 && p ≠ 8 && p ≠ 16 && p ≠ 32)

/-- The parity of the data bits whose position has bit k set. -/
def secParity (e : Word) (k : Nat) : Bool :=
  (secPositions.zipIdx.foldl (fun acc pi => if pi.1.testBit k then xor acc (e.getLsbD pi.2) else acc) false)

/-- The syndrome s and the overall parity t of an entry. -/
def secSyndrome (e : Word) : Nat × Bool :=
  let s := (List.range 6).foldl (fun acc k =>
    acc + (if xor (e.getLsbD (56 + k)) (secParity e k) then 2 ^ k else 0)) 0
  (s, parityOf 63 e.toNat)

/-- Reads an entry through the code: the corrected entry, or none where two bits are in error; and whether a bit
was corrected. -/
def secded (e : Word) : Option (Word × Bool) :=
  let (s, t) := secSyndrome e
  if !t then (if s = 0 then some (e, false) else none)
  else if s = 0 then some (e ^^^ (1#64 <<< 62), true)
  else if s ∈ [1, 2, 4, 8, 16, 32] then some (e ^^^ (1#64 <<< (56 + Nat.log2 s)), true)
  else match secPositions.findIdx? (· = s) with
    | some j => some (e ^^^ (1#64 <<< j), true)
    | none => none

/-- The check byte of an entry's bits [55:0]. -/
def secCheck (d : Word) : Nat :=
  let lo := (List.range 6).foldl (fun acc k => acc + (if secParity d k then 2 ^ k else 0)) 0
  lo + (if xor (parityOf 56 d.toNat) (parityOf 6 lo) then 64 else 0)

/-- What a walk finds: the page or a fault code, the physical addresses of corrected entries, and that of an
unreadable one. -/
structure Walk where
  res : Except Nat TlbEntry
  corrected : List Nat
  bad : Option Nat
  deriving Repr

/-- One level of the walk, and the levels below it (07 R142). `cut`: a table's address that the walker cannot reach (20 R379). -/
def walkFrom (mem : List Host.Cell) (poison : List Nat) (cut : Nat → Bool) (va : Nat) (remote : Bool) : Nat → Nat → Nat → List Nat → Walk
  | 0, _, _, corr => { res := .error cTRANSLATE, corrected := corr, bad := none }
  | fuel + 1, lev, t, corr =>
    let a := t + 8 * (va / 2 ^ (48 - 9 * lev) % 512)
    if cut a then { res := .error cUNREACH, corrected := corr, bad := none }
    else if (poisonIn poison a 8).isSome then { res := .error cPOISON, corrected := corr, bad := some a }
    else
    match secded (BitVec.ofNat 64 (numAt mem a 8)) with
    | none => { res := .error cPOISON, corrected := corr, bad := some a }
    | some (e, fixed) =>
      let corr := if fixed then corr ++ [a] else corr
      let pa := (e.extractLsb' 12 40).toNat * 4096
      if !e.getLsbD 0 || e.extractLsb' 4 8 ≠ 0 || e.extractLsb' 52 4 ≠ 0 then
        { res := .error cTRANSLATE, corrected := corr, bad := none }
      else if e.getLsbD 1 then
        let size := if lev = 2 then 2 ^ 30 else 2 ^ 21
        if lev < 2 || pa % size ≠ 0 || decide (2 ^ 39 < pa + size) then
          { res := .error cTRANSLATE, corrected := corr, bad := none }
        else if remote && !e.getLsbD 3 then { res := .error cPROTECT, corrected := corr, bad := none }
        else { res := .ok { va := va / size * size, pa := pa, size := size, wr := e.getLsbD 2 }, corrected := corr, bad := none }
      else if lev = 3 || decide (2 ^ 39 ≤ pa) then { res := .error cTRANSLATE, corrected := corr, bad := none }
      else walkFrom mem poison cut va remote fuel (lev + 1) pa corr

/-- The walk of R142 from the root table. A page without the write right refuses a write. -/
def walk (mem : List Host.Cell) (poison : List Nat) (cut : Nat → Bool) (root va : Nat) (write remote : Bool) : Walk :=
  let w := walkFrom mem poison cut va remote 4 0 root []
  match w.res with
  | .ok t => if write && !t.wr then { w with res := .error cPROTECT } else w
  | .error _ => w

/-- The die of a physical address, and its slice (07 R145). -/
def paDie (pa : Nat) : Nat := pa / 2 ^ 37 % 4
def paSlice (pa : Nat) : Nat := (pa / 2 ^ 12 % 32) ^^^ (pa / 2 ^ 17 % 32)

/-- The tag table's set of a D address (07 R156). -/
def tagSet (va : Nat) : Nat :=
  (va / 2 ^ 12 % 256) ^^^ (va / 2 ^ 20 % 256) ^^^ (va / 2 ^ 28 % 256) ^^^ (va / 2 ^ 36 % 256)
    ^^^ (va / 2 ^ 44 % 256) ^^^ (va / 2 ^ 52 % 32)

end Sys2Proof.Machine
end

