-- ==== Sys2Proof/Machine/Operands.lean ====
section
/-!
DEFINITION. The operand forms: S registers and predicates (09 R180), V register names and predicates (06 R128,
11), and immediates.
-/
namespace Sys2Proof.Machine

/-- The storage key of S register `n`: in a user-level handler s56 to s62 name the shadow bank (06 R134). -/
def Core.sKey (c : Core) (n : Nat) : Nat := if c.uiact && decide (56 ≤ n) && decide (n ≤ 62) then 64 + n else n

/-- s[n]; s0 reads as zero (09 R180). -/
def Core.getS (c : Core) (n : BitVec 6) : Word := if n = 0 then 0 else Tbl.get 0 c.s (c.sKey n.toNat)

/-- set_s(n, v); a write to s0 is discarded (09 R180). -/
def Core.setS (c : Core) (n : BitVec 6) (v : Word) : Core :=
  if n = 0 then c else { c with s := Tbl.set 0 c.s (c.sKey n.toNat) v }

/-- p[n]; p0 reads as 1 (09 R180). -/
def Core.getP (c : Core) (n : BitVec 4) : Bool := if n = 0 then true else c.p.getLsbD n.toNat

/-- set_p(n, b); a write to p0 is discarded (09 R180). -/
def Core.setP (c : Core) (n : BitVec 4) (b : Bool) : Core :=
  if n = 0 then c
  else { c with p := if b then c.p ||| (1#16 <<< n.toNat) else c.p &&& ~~~(1#16 <<< n.toNat) }

/-- The physical register a V name denotes (06 R128). -/
def Core.vPhys (c : Core) (n : BitVec 6) : Nat :=
  if n.toNat < 32 then n.toNat else 32 + (c.rb.toNat + n.toNat - 32) % 128

/-- The V register of a name. -/
def Core.getV (c : Core) (n : BitVec 6) : VReg := Tbl.get 0 c.v (c.vPhys n)

/-- V predicate `n`; p0 reads as all ones (11 R242). -/
def Core.getVp (c : Core) (n : BitVec 4) : VPred := if n = 0 then BitVec.allOnes 1024 else Tbl.get 0 c.vp n.toNat

/-- Field `f` sign-extended to 64 bits (09 R180). -/
def sext64 {n : Nat} (f : BitVec n) : Word := f.signExtend 64

/-- The stream of an engine. -/
def engNum : Eng → Nat
  | .s => 0 | .v => 1 | .m => 2 | .k => 3

def Core.stream (c : Core) (e : Eng) : Stream := Tbl.get Stream.idle c.streams (engNum e)
def Core.setStream (c : Core) (e : Eng) (st : Stream) : Core :=
  { c with streams := Tbl.set Stream.idle c.streams (engNum e) st }

/-- The load and store queues of the S and V streams (09 R198, 11 R258). -/
def Core.loads (c : Core) (e : Eng) : List Access := Tbl.get [] c.lq (engNum e)
def Core.stores (c : Core) (e : Eng) : List Access := Tbl.get [] c.stq (engNum e)
def Core.setLoads (c : Core) (e : Eng) (l : List Access) : Core := { c with lq := Tbl.set [] c.lq (engNum e) l }
def Core.setStores (c : Core) (e : Eng) (l : List Access) : Core := { c with stq := Tbl.set [] c.stq (engNum e) l }

end Sys2Proof.Machine
end

