-- ==== Sys2Proof/Machine/Ops.lean ====
section
/-!
DEFINITION. The shared operations of the streams: error banks and faults, tokens and data queues, holds and
cycle bounds, issuing and completing, entering the user-level handler and returning from it, transfers of control.
-/
namespace Sys2Proof.Machine

/- Streams and FIFOs. -/

def engOfNum (n : Nat) : Eng := match n with | 0 => .s | 1 => .v | 2 => .m | _ => .k

/-- other(from, k): the other three engines in ascending order (03 ".sync"). -/
def otherEng (e k : Nat) : Nat := if k < e then k else k + 1

/-- The FIFO from engine `o` to engine `e`. -/
def fifoTo (o e : Nat) : Nat := 3 * o + (if e < o then e else e - 1)

/-- The engine a FIFO runs from, and the one it runs to. -/
def fifoFrom (f : Nat) : Nat := f / 3
def fifoDest (f : Nat) : Nat := otherEng (f / 3) (f % 3)

/-- The token-set entry that a tk field selects in its stream's table (06 R118, R119). -/
def Core.tokenSet (c : Core) (e : Eng) (tk : BitVec 3) : BitVec 8 :=
  (Tbl.get 0 c.tks (engNum e)).extractLsb' (8 * tk.toNat) 8

/-- The FIFOs an entry pops and those it pushes (03 R56). -/
def fifosPopped (e : Eng) (t : BitVec 8) : List Nat :=
  ((List.range 3).filter (fun k => t.getLsbD k)).map (fun k => fifoTo (otherEng (engNum e) k) (engNum e))
def fifosPushed (e : Eng) (t : BitVec 8) : List Nat :=
  ((List.range 3).filter (fun k => t.getLsbD (3 + k))).map (fun k => 3 * engNum e + k)

/-- The depth of a FIFO: SLIP resets to 64 and holds 1 to 64 (06 R119). -/
def Core.depth (c : Core) (f : Nat) : Nat := Tbl.get 64 c.slip f
def Core.fifo (c : Core) (f : Nat) : List Token := Tbl.get [] c.tokens f
/-- Whether a FIFO holds a token that was present before this cycle (06 R118). -/
def Core.hasToken (c : Core) (f : Nat) : Bool := decide (Tbl.get 0 c.cyc.fresh f < (c.fifo f).length)
/-- Tokens present plus places reserved (06 R118). -/
def Core.occupancy (c : Core) (f : Nat) : Nat := (c.fifo f).length + Tbl.get 0 c.reserved f

/-- The union of two rising lists of command numbers. -/
def unionPath (a b : Token) : Token := b.foldl (fun acc w => insWord w acc) a

/-- Pops one token from a FIFO; the stream is then reached by what reached the token (06 R118, R132). -/
def Core.popToken (e : Eng) (c : Core) (f : Nat) : Core :=
  match c.fifo f with
  | [] => c
  | t :: ts =>
    let st := c.stream e
    { c with tokens := Tbl.set [] c.tokens f ts, cyc := { c.cyc with freed := Tbl.set 0 c.cyc.freed f (Tbl.get 0 c.cyc.freed f + 1) } }.setStream e { st with path := unionPath st.path t }

/-- Reserves one place in a FIFO (06 R118). -/
def Core.reserve (c : Core) (f : Nat) : Core :=
  { c with reserved := Tbl.set 0 c.reserved f (Tbl.get 0 c.reserved f + 1) }

/-- Turns a reserved place into a token (06 R118). -/
def Core.deliver (path : Token) (c : Core) (f : Nat) : Core :=
  { c with reserved := Tbl.set 0 c.reserved f (Tbl.get 0 c.reserved f - 1),
           tokens := Tbl.set [] c.tokens f (c.fifo f ++ [path]),
           cyc := { c.cyc with fresh := Tbl.set 0 c.cyc.fresh f (Tbl.get 0 c.cyc.fresh f + 1) } }

/-- Delivers the tokens of an instruction's reserved places when it completes. -/
def Core.deliverAll (path : Token) (fs : List Nat) (c : Core) : Core := fs.foldl (Core.deliver path) c

/-- Releases the reserved places of an instruction that does not complete (06 R118). -/
def Core.releaseAll (fs : List Nat) (c : Core) : Core :=
  fs.foldl (fun c f => { c with reserved := Tbl.set 0 c.reserved f (Tbl.get 0 c.reserved f - 1) }) c

/- Data queues: AQ 0, SQ 1, VQ 2, MQ 3, BV 4, BM 5, BK 6 (06 R120). -/

def queueDepth (q : Nat) : Nat := match q with | 0 | 1 | 2 => 32 | 3 => 16 | _ => 64
/-- The cycles from a push to the earliest pop. -/
def queueDelay (q : Nat) : Nat := match q with | 1 | 2 | 3 => 1 | _ => 5
def queueFrom (q : Nat) : Nat := match q with | 2 => 1 | 3 => 2 | _ => 0
def queueDest (q : Nat) : Nat := match q with | 0 | 6 => 3 | 1 | 4 => 1 | 5 => 2 | _ => 0
/-- The queues whose entries the checker compares (06 R131). -/
def queueChecked (q : Nat) : Bool := decide (q = 0) || decide (4 ≤ q)

def Core.queue (c : Core) (q : Nat) : List QEntry := Tbl.get [] c.queues q
def Core.setQueue (c : Core) (q : Nat) (l : List QEntry) : Core := { c with queues := Tbl.set [] c.queues q l }

/-- Whether an access of kind `k` writes. -/
def AccKind.writes : AccKind → Bool
  | .load => false
  | .mark | .fence => false
  | _ => true

/-- Whether a load queue's access delivers a register. -/
def AccKind.loads : AccKind → Bool
  | .load | .amo _ | .cas => true
  | _ => false

/-- Every part of an access has left over the fabric, and answers are awaited. -/
def Access.away (a : Access) : Bool :=
  a.begun && a.pieces.isEmpty && !a.out.isEmpty && a.out.all (fun p => decide (qSpc p.qa = 4))

/-- A store that is away: it is performed for the classes of this module, since only F and H wait for its response
(18 R350). -/
def Access.storeAway (a : Access) : Bool := a.away && decide (a.kind = .store)

/-- Whether an access of stream `e` numbered below `ord` is not yet performed; `far`: with respect to F and H too (15 R318,
R323, R324, 18 R350). -/
def accPending (s : State) (g : Nat) (e : Eng) (far : Bool) (ord : Nat) : Bool :=
  let c := s.core g
  (c.loads e ++ c.stores e).any (fun a => decide (a.ord < ord) && (far || !a.storeAway))
    || s.wFlight.any (fun w => decide (w.g = g) && decide (w.e = e))

/-- Whether a store or atomic of stream `e` numbered below `ord` is not yet performed with respect to E (15 R323). -/
def storePending (s : State) (g : Nat) (e : Eng) (ord : Nat) : Bool :=
  ((s.core g).stores e).any (fun a => decide (a.ord < ord) && !a.storeAway)
    || s.wFlight.any (fun w => decide (w.g = g) && decide (w.e = e))

/-- Whether an entry may be popped: its time has come, the checker's copy has arrived, and what it releases
has been performed (06 R120, R131, 15 R323). -/
def entryPoppable (s : State) (g q : Nat) (x : QEntry) : Bool :=
  decide (x.due ≤ s.now) && (x.checked || !queueChecked q)
    && (if q ≤ 1 then !storePending s g .s x.ord else if q = 2 then !storePending s g .v x.ord else true)

/-- The number of entries at the head of a queue that may be popped, of the first `n`. -/
def poppable (s : State) (g q n : Nat) : Nat :=
  (((s.core g).queue q).take n).takeWhile (entryPoppable s g q) |>.length

/-- Appends an entry to a queue. -/
def Core.push (c : Core) (now q : Nat) (v : Word) (ord pc : Nat) : Core :=
  c.setQueue q (c.queue q ++ [{ val := v, due := now + queueDelay q, ord := ord, checked := false, pc := pc }])

/-- The values of the first `n` entries. -/
def Core.popVals (c : Core) (q n : Nat) : List Word := ((c.queue q).take n).map QEntry.val

/- Acquired stores (15 R326, 18 R353). -/

/-- One more store, or run of stores, that a stream has acquired: of one stream of one core the later bound stands. -/
def addOwe (l : List Owe) (o : Owe) : List Owe :=
  match l.find? (fun x => decide (x.core = o.core) && decide (x.e = o.e)) with
  | some x => l.map (fun y => if y = x then { y with ord := max y.ord o.ord } else y)
  | none => l ++ [o]
def addOwes (l m : List Owe) : List Owe := m.foldl addOwe l

/-- A stream acquires: what it acquires counts, for its later releases, as its own. -/
def Core.acquire (c : Core) (e : Eng) (l : List Owe) : Core :=
  if l.isEmpty then c else c.setStream e { c.stream e with owes := addOwes (c.stream e).owes l }

/-- What stream `e` releases by the point `ord` of its program: its stores, of which those that have left over the fabric are
performed for F and H only by their responses (18 R350), and what it has itself acquired. -/
def Core.released (c : Core) (e : Eng) (ord : Nat) : List Owe :=
  let mine : List Owe := if (c.stores e).any (fun a => a.storeAway && decide (a.ord < ord)) then [{ core := none, e := e, ord := ord }] else []
  addOwes mine (c.stream e).owes

/-- What the first `n` entries of AQ, SQ or VQ report to their popper (15 R323). -/
def Core.reported (c : Core) (q n : Nat) : List Owe :=
  if q ≤ 2 then ((c.queue q).take n).foldl (fun l x => addOwes l (c.released (engOfNum (queueFrom q)) x.ord)) [] else []

/-- The core without the first `n` entries of a queue: their popper acquires what they report. -/
def Core.popN (c : Core) (q n : Nat) : Core :=
  (c.setQueue q ((c.queue q).drop n)).acquire (engOfNum (queueDest q)) (c.reported q n)

/-- Whether a store that stream `e` of core g has acquired is still to be performed with respect to F and H. -/
def owed (s : State) (g : Nat) (e : Eng) : Bool :=
  ((s.core g).stream e).owes.any (fun o => ((s.core (o.core.getD g)).stores o.e).any (fun a => a.storeAway && decide (a.ord < o.ord)))

/- Error banks (20 R374, R375). -/

/-- The keys under which the module's error banks stand (20 R374). -/
def bankKey : BankId → Nat
  | .core g => g
  | .walker n => 0x1000 + n
  | .slice n => 0x2000 + n
  | .link n => 0x3000 + n
  | .sequencer d => 0x4000 + d
  | .collective d => 0x5000 + d
  | .dispatcher n => 0x6000 + n

def State.bank (s : State) (b : BankId) : Bank := Tbl.get Bank.reset s.banks (bankKey b)
def State.setBank (s : State) (b : BankId) (x : Bank) : State := { s with banks := Tbl.set Bank.reset s.banks (bankKey b) x }

/-- One more, saturating at 65,535. -/
def satInc (x : BitVec 16) : BitVec 16 := if x = 0xFFFF then x else x + 1

def Bank.valid (b : Bank) : Bool := b.ebs.getLsbD 0
def Bank.uc (b : Bank) : Bool := b.ebs.getLsbD 1
def Bank.cecnt (b : Bank) : BitVec 16 := b.ebs.extractLsb' 32 16
def Bank.ovfcnt (b : Bank) : BitVec 16 := b.ebs.extractLsb' 48 16

/-- EBS from its fields. -/
def ebsOf (ov ce : BitVec 16) (seq code : BitVec 8) (src : BitVec 4) (ovr uc valid : Bool) : Word :=
  ov ++ ce ++ seq ++ (0 : BitVec 4) ++ src ++ code ++ (0 : BitVec 5) ++ BitVec.ofBool ovr ++ BitVec.ofBool uc
    ++ BitVec.ofBool valid

/-- Writes a record, keeping the two counts. -/
def Bank.write (b : Bank) (tag : BitVec 16) (uc : Bool) (ce : BitVec 16) (f : FaultInfo) : Bank :=
  { ebs := ebsOf b.ovfcnt ce (BitVec.ofNat 8 f.seq) (if uc then BitVec.ofNat 8 f.code else 0) (BitVec.ofNat 4 f.src) false uc true
    eba := f.addr
    ebx := f.ebx
    ebc := f.spc ++ f.xtra ++ BitVec.ofNat 32 f.pc ++ tag }

/-- An uncorrectable event reaches a bank (R375). -/
def Bank.uncorrectable (b : Bank) (tag : BitVec 16) (f : FaultInfo) : Bank :=
  if b.valid && b.uc then
    { b with ebs := ebsOf (satInc b.ovfcnt) b.cecnt (b.ebs.extractLsb' 24 8) (b.ebs.extractLsb' 8 8)
                      (b.ebs.extractLsb' 16 4) true true true }
  else b.write tag true b.cecnt f

/-- A corrected event reaches a bank (R375). -/
def Bank.correctable (b : Bank) (tag : BitVec 16) (f : FaultInfo) : Bank :=
  if b.valid then
    { b with ebs := ebsOf b.ovfcnt (satInc b.cecnt) (b.ebs.extractLsb' 24 8) (b.ebs.extractLsb' 8 8)
                      (b.ebs.extractLsb' 16 4) (b.ebs.getLsbD 2) b.uc true }
  else b.write tag false (satInc b.cecnt) f

/-- An uncorrectable error reaches a bank. Of those of one cycle the one of the lowest SRC comes first (R375). -/
def recordUc (id : BankId) (tag : BitVec 16) (f : FaultInfo) (s : State) : State :=
  let b := s.bank id
  let k := bankKey id
  if b.valid && b.uc then
    if s.ucNow.contains k && decide (f.src < (b.ebs.extractLsb' 16 4).toNat) then
      s.setBank id { b.write tag true b.cecnt f with
        ebs := ebsOf (satInc b.ovfcnt) b.cecnt (BitVec.ofNat 8 f.seq) (BitVec.ofNat 8 f.code) (BitVec.ofNat 4 f.src) true true true }
    else s.setBank id (b.uncorrectable tag f)
  else { s.setBank id (b.uncorrectable tag f) with ucNow := k :: s.ucNow }

/- Single-bit errors (07 R160). -/

/-- The tag of a core's unit, zero without one. -/
def Core.unitTag (c : Core) : BitVec 16 := match c.unit with | some u => u.tag | none => 0

/-- The keys of the memories in State.flips: a core's scratchpad, the DRAM, and a core's spill memories by stream. -/
def flipSp (g : Nat) : Nat := g
def flipDram : Nat := 0x1000
/-- The key of a core's tuples in flight: bit `b` of the pass's tuple `k` at 33 * k + b (01 R33). -/
def flipPass (g : Nat) : Nat := 0x4000 + g
def flipSpill (g : Nat) (e : Eng) : Nat := 0x2000 + 4 * g + engNum e

/-- A write of bytes [a, a + n) of a memory leaves no error in the words that it overwrites whole (log 9). -/
def clearFlips (mem a n : Nat) (fl : List (Nat × Nat)) : List (Nat × Nat) :=
  fl.filter (fun x => !(decide (x.1 = mem) && decide (a ≤ 8 * x.2) && decide (8 * x.2 + 8 ≤ a + n)))
/-- Words `w` to `w + n` of a stream's spill memory are overwritten. -/
def overSpill (g : Nat) (e : Eng) (w n : Nat) (s : State) : State := { s with flips := clearFlips (flipSpill g e) (8 * w) (8 * n) s.flips }
/-- The scratchpad and the spill memories of a core are overwritten whole. -/
def overCore (g : Nat) (s : State) : State :=
  { s with flips := s.flips.filter (fun x => decide (x.1 ≠ flipSp g) && [Eng.s, .v, .m, .k].all (fun e => decide (x.1 ≠ flipSpill g e))) }

/-- A read of bytes [a, a + n) of a memory corrects its words with a single-bit error, and the bank of each counts it, under the
request tag of the reader (R146, R160, 20 R374). -/
def correctIn (mem : Nat) (bank : Nat → BankId) (a n : Nat) (tag : BitVec 16) (s : State) : State :=
  if n = 0 then s
  else
    let hit (x : Nat × Nat) : Bool := decide (x.1 = mem) && decide (a / 8 ≤ x.2) && decide (x.2 ≤ (a + n - 1) / 8)
    (s.flips.filter hit).foldl (fun s x =>
      s.setBank (bank (8 * x.2)) ((s.bank (bank (8 * x.2))).correctable tag { code := 0, src := 5, pc := 0, addr := BitVec.ofNat 64 (8 * x.2) }))
      { s with flips := s.flips.filter (fun x => !hit x) }

/-- A corrected record that a turn has written where none stood names the instruction whose turn it was: the byte offset in PC and,
for a command, its number in SEQ (20 R374). -/
def Bank.named (seq pc : Nat) (old b : Bank) : Bank :=
  if b.valid && !b.uc && !old.valid then
    { b with ebs := ebsOf b.ovfcnt b.cecnt (BitVec.ofNat 8 seq) 0 (b.ebs.extractLsb' 16 4) (b.ebs.getLsbD 2) false true
             ebc := b.ebc.extractLsb' 48 16 ++ BitVec.ofNat 32 pc ++ b.ebc.extractLsb' 0 16 }
  else b

/-- The corrected errors that a turn of one instruction has met, from state `old` to state `s`, name that instruction. -/
def nameCorrected (seq pc : Nat) (old s : State) : State :=
  if s.banks = old.banks then s
  else { s with banks := s.banks.map (fun x => (x.1, Bank.named seq pc (Tbl.get Bank.reset old.banks x.1) x.2)) }

/-- A read of a core's scratchpad or spill memory, and of physical bytes of the DRAM. -/
def correctSp (g a n : Nat) (s : State) : State := correctIn (flipSp g) (fun _ => .core g) a n (s.core g).unitTag s
def correctSpill (g : Nat) (e : Eng) (a n : Nat) (s : State) : State :=
  correctIn (flipSpill g e) (fun _ => .core g) a n (s.core g).unitTag s
/-- The reading of bytes of its spill memory by a stream's next instruction, command `seq` where it is one. -/
def correctSlots (g : Nat) (e : Eng) (seq a n : Nat) (s : State) : State :=
  nameCorrected seq ((s.core g).stream e).pc s (correctSpill g e a n s)
def correctDram (a n : Nat) (tag : BitVec 16) (s : State) : State :=
  correctIn flipDram (fun x => .slice (32 * paDie x + paSlice x)) a n tag s

/-- The first poisoned word of a stream's spill memory among `n` words from `w` on (06 R127). -/
def Core.spillBad (c : Core) (e : Eng) (w n : Nat) : Option Nat :=
  ((c.spillPoison.filter (fun x => decide (x.1 = engNum e) && decide (w ≤ x.2) && decide (x.2 < w + n))).map Prod.snd).head?
/-- A write of spill words takes their poison away. -/
def Core.spillClean (c : Core) (e : Eng) (w n : Nat) : Core :=
  { c with spillPoison := c.spillPoison.filter (fun x => !(decide (x.1 = engNum e) && decide (w ≤ x.2) && decide (x.2 < w + n))) }

/- Taking a fault (20 R376, R377). -/

/-- Begins the purge of a tag, unless one runs; a fault of the same cycle from a lower core counts as the first
(R377, R378). -/
def startPurge (s : State) (tag : BitVec 16) (code g : Nat) : State :=
  if s.purges.any (fun p => p.tag = tag) then
    { s with purges := s.purges.map (fun p =>
        if p.tag = tag && decide (p.since = s.now) && decide (g < p.first) then { p with code := code, first := g } else p) }
  else { s with purges := s.purges ++ [{ tag := tag, code := code, since := s.now, first := g }] }

/-- FABRIC_UNREACHABLE of an F access: XTRA holds ddev, where the domain has that device (R371, 17 R341). -/
def withDdev (s : State) (f : FaultInfo) : FaultInfo :=
  let dev := (s.plat.device.toNat : Int) + f.xtra.toInt
  if f.code = cUNREACH && f.spc = 4 && decide (0 ≤ dev) && decide (dev ≤ 4095) then { f with xtra := BitVec.ofNat 13 dev.toNat } else f

/-- A core whose unit a fault has ended: the stream that took it does nothing more in this cycle, while the others' faults of the
cycle are still recorded (R375). -/
def Core.faultedBy (c : Core) (src : Nat) : Core :=
  { c with stopped := true, sysc := none, cyc := { c.cyc with faulted := true, issued := c.cyc.issued ||| 1#4 <<< src } }

/-- TAKING A FAULT: a fault reaches a stream of core g's unit (R376). The bank records it, the unit ends at once
without saving, and its tag's purge begins. -/
def unitFault (g : Nat) (f : FaultInfo) (s : State) : State :=
  let c := s.core g
  let tag := c.unitTag
  let s := recordUc (.core g) tag (withDdev s f) s
  startPurge (s.setCore g (c.faultedBy f.src)) tag f.code g

/-- The D address and length of a stream's text section. -/
def Core.text (c : Core) (e : Eng) : Nat × Nat :=
  match c.unit with
  | some u => u.text.getD (engNum e) (0, 0)
  | none => (0, 0)

/-- The D address of an offset in a stream's text section. -/
def Core.textAddr (c : Core) (e : Eng) (off : Nat) : Word := BitVec.ofNat 64 ((c.text e).1 + off)

/-- The record of a fault of stream `e` at its own instruction address (R371). -/
def Core.faultHere (c : Core) (e : Eng) (code : Nat) : FaultInfo :=
  { code := code, src := engNum e, pc := (c.stream e).pc, addr := c.textAddr e (c.stream e).pc }

/-- The fault BOUND for a record S cannot take, logged at the instruction address of BREC.PC (20 R371). -/
def boundFault (g : Nat) (r : Word) (s : State) : State :=
  let e := engOfNum (r.extractLsb' 0 2).toNat
  let pc := (r.extractLsb' 32 32).toNat
  unitFault g { code := cBOUND, src := engNum e, pc := pc, addr := (s.core g).textAddr e pc } s

/-- The record of a fault of an access, logged at the address it named (07 R136). -/
def accFault (code src pc : Nat) (qa : Word) : FaultInfo :=
  { code := code, src := src, pc := pc, addr := qLogged qa, spc := qSpcBits qa, xtra := qXtra qa }

/- Holds: what an instruction waits for before it issues. -/

/-- The fields of a barrier object (09 R207). -/
def bMode (b : Word) : Nat := (b.extractLsb' 0 3).toNat
def bFlt (b : Word) : Bool := b.getLsbD 3
def bDamc (b : Word) : Bool := b.getLsbD 4
def bNeed (b : Word) : Nat := (b.extractLsb' 8 16).toNat
def bExp (b : Word) : Nat := (b.extractLsb' 24 16).toNat
def bPhase (b : Word) : BitVec 24 := b.extractLsb' 40 24
def bMake (phase : BitVec 24) (exp need : Nat) (damc flt : Bool) (mode : Nat) : Word :=
  phase ++ BitVec.ofNat 16 exp ++ BitVec.ofNat 16 need ++ (0 : BitVec 3) ++ BitVec.ofBool damc ++ BitVec.ofBool flt
    ++ BitVec.ofNat 3 mode

def Core.barrier (c : Core) (b : Nat) : Word := Tbl.get 0 c.bobj b
/-- SEEN of stream `e` for object `b` (09 R207). -/
def Core.seenOf (c : Core) (e : Eng) (b : Nat) : BitVec 24 := Tbl.get 0 c.seen (64 * engNum e + b)
def Core.setSeen (c : Core) (e : Eng) (b : Nat) (v : BitVec 24) : Core :=
  { c with seen := Tbl.set 0 c.seen (64 * engNum e + b) v }

/-- A phase is there to be consumed: (PHASE - SEEN) mod 2^24 lies in 1 to 2^23 - 1 (09 R210). -/
def phaseReady (c : Core) (e : Eng) (b : Nat) : Bool :=
  let d := (bPhase (c.barrier b) - c.seenOf e b).toNat
  decide (1 ≤ d) && decide (d < 2 ^ 23)

/-- Nothing more can complete on a faulted object whose phases are all consumed (09 R210). -/
def phaseDead (c : Core) (e : Eng) (b : Nat) : Bool :=
  bFlt (c.barrier b) && decide (bPhase (c.barrier b) = c.seenOf e b)

/-- The capacity of a stream's load and store queues (09 R198, 11 R258). -/
def accCapacity (e : Eng) : Nat := match e with | .s => 32 | _ => 16

/-- No arrival in the current phase of a domain object. -/
def Arrived.none : Arrived := { streams := 0, dam := false, flt := false, mode := 0, atNode := false, fltAt := false, unit := Option.none }

/-- Whether a stream of the core has arrived in the current, uncompleted phase of a domain object, or is about to:
the first arrival is the member's, every other is held (09 R209, 16 R333). -/
def Core.hasArrived (c : Core) (b : Nat) : Bool :=
  decide (2 ≤ bMode (c.barrier b)) &&
    (decide ((Tbl.get Arrived.none c.arrived b).streams ≠ 0)
      || c.pend.any (fun p => match p.kind with | .arrive b' _ => decide (b' = b) | _ => false))

/-- A stream that comes after `e` in the order S, V, M, K has arrived at the object in this cycle (09 R209). -/
def Core.laterArrived (c : Core) (e : Eng) (b : Nat) : Bool :=
  c.cyc.arr.any (fun x => decide (x.1 = b) && decide (engNum e < engNum x.2))

/-- KMARK stands among the K commands but is none (10 R226). -/
def isMark : Instr → Bool
  | .kmark _ => true
  | _ => false

/-- Whether a hold still stands for stream `e` of core `g`. -/
def holdStands (s : State) (g : Nat) (e : Eng) (h : Hold) : Bool :=
  let c := s.core g
  match h.kind with
  | 0x0 => !c.hasToken h.obj
  | 0x1 => decide (c.depth h.obj ≤ c.occupancy h.obj + Tbl.get 0 c.cyc.freed h.obj)
  | 0x2 => decide (poppable s g h.obj h.await < h.await)
  | 0x3 => decide (queueDepth h.obj ≤ (c.queue h.obj).length)
  | 0x4 => if h.obj < 64 then !(phaseReady c e h.obj || phaseDead c e h.obj) else c.hasArrived (h.obj - 64)
  | 0x5 => !c.latch
  | 0x6 => let o := Tbl.get OfSlot.reset c.ofs (h.await % 4); !(o.ready || o.lost)
  | 0x7 => (c.mcmds ++ c.kcmds).any (fun x => decide (x.no = h.await))
  | 0x9 => true
  | 0xB => decide (64 ≤ (if h.obj = 2 then c.mcmds.length else c.kcmds.filter (fun x => !isMark x.i) |>.length))
  | 0xA => if h.obj = 0 then decide (accCapacity e ≤ (c.loads e).length) else decide (accCapacity e ≤ (c.stores e).length)
  | _ => false

/-- What an instruction of a stream asks before it issues (06 R115). `busy`: an operand is not ready. `holds`:
queue entries and places beyond its tokens. `events`: the event, phase or grant it waits for. -/
structure Need where
  eng : Eng
  tk : BitVec 3
  bound : Option (BitVec 5) := none
  busy : Bool := false
  holds : List Hold := []
  events : List Hold := []

/-- The holds of an instruction's token set (06 R118). -/
def tokenHolds (c : Core) (e : Eng) (tk : BitVec 3) : List Hold :=
  (fifosPopped e (c.tokenSet e tk)).map (fun f => { kind := 0x0, obj := f, await := 1 })
    ++ (fifosPushed e (c.tokenSet e tk)).map (fun f => { kind := 0x1, obj := f, await := 0 })

/-- DBND's field of a stream (08 R164). -/
def dbndField (dbnd : Word) (e : Eng) : BitVec 5 := dbnd.extractLsb' (8 * engNum e) 5

/-- The stream is next to issue: its DBND field is captured once (08 R164). -/
def captureDbnd (c : Core) (e : Eng) : Core :=
  let st := c.stream e
  match st.dbnd with
  | some _ => c
  | none => c.setStream e { st with dbnd := some (dbndField c.dbnd e) }

/-- All that an instruction awaits: its tokens and places, then its event, phase or grant (06 R115, R123). -/
def allHolds (s : State) (nd : Need) : List Hold := tokenHolds s.me nd.eng nd.tk ++ nd.holds ++ nd.events

/-- Records that the instruction waits: its count starts at its first hold and covers all it awaits (06 R123). A place
in a load or store queue is bounded by DBND (09 R198, 11 R258). -/
def startWait (s : State) (nd : Need) : State :=
  let c := captureDbnd s.me nd.eng
  let st := c.stream nd.eng
  let dbnd := st.dbnd.getD 0
  let start := match st.wait with | some w => w.start | none => s.now
  let raised := match st.wait with | some w => w.raised | none => false
  s.setMe (c.setStream nd.eng { st with wait := some { start := start, bound := (nd.bound.getD dbnd).toNat, dbnd := dbnd.toNat,
                                                       holds := allHolds s nd, raised := raised } })

/-- Issuing: pops the tokens, reserves the places, and the wait is over (06 R118). -/
def beginIssue (s : State) (nd : Need) : State :=
  let c := s.me
  let t := c.tokenSet nd.eng nd.tk
  let c := (fifosPopped nd.eng t).foldl (Core.popToken nd.eng) c
  let c := (fifosPushed nd.eng t).foldl Core.reserve c
  let c := { c with cyc := { c.cyc with issued := c.cyc.issued ||| 1#4 <<< engNum nd.eng } }
  let st := c.stream nd.eng
  s.setMe (c.setStream nd.eng { st with wait := none, dbnd := none, issuedBnd := st.dbnd.getD (dbndField c.dbnd nd.eng) })

/-- The first hold that stands, of the instruction's tokens and places and then of its events. -/
def firstHold (s : State) (nd : Need) : Option Hold :=
  (tokenHolds s.me nd.eng nd.tk ++ nd.holds).find? (holdStands s s.cur nd.eng)
def firstEvent (s : State) (nd : Need) : Option Hold := nd.events.find? (holdStands s s.cur nd.eng)

/-- An S access failed the check of R216: no later S instruction issues (21 R387). -/
def Core.undeclaredPending (c : Core) : Bool := c.undeclared.isSome

/-- ISSUE: an instruction of a stream reaches its issue point (06 R115). While an operand is not ready nothing
changes; while something it awaits is missing it waits; then a fault marked "at issue" is raised with nothing
popped; else it issues with effect `k`. -/
def issue (nd : Need) (flt : Option FaultInfo) (s : State) (k : State → State) : Host.Outcome State Fault Refusal :=
  if nd.busy || (decide (nd.eng = .s) && s.me.undeclaredPending) then .next s
  else match firstHold s nd with
    | some _ => .next (startWait s nd)
    | none => match flt with
      | some f => .next (unitFault s.cur f s)
      | none => match firstEvent s nd with
        | some _ => .next (startWait s nd)
        | none => .next (k (beginIssue s nd))

/-- The stream goes on `n` words further on, one instruction a cycle (06 R115). -/
def Core.advancePc (c : Core) (e : Eng) (now n : Nat) : Core :=
  let st := c.stream e
  c.setStream e { st with pc := st.pc + 4 * n, ready := now + 1 }

/-- COMPLETE: an instruction that completes as it issues delivers its tokens, and its stream goes on. -/
def completeN (e : Eng) (tk : BitVec 3) (n : Nat) (s : State) : State :=
  let c := s.me
  s.setMe ((c.deliverAll (c.stream e).path (fifosPushed e (c.tokenSet e tk))).advancePc e s.now n)
def complete (e : Eng) (tk : BitVec 3) (s : State) : State := completeN e tk 1 s

/-- An engine sets flags of FSTK (01 R20, R21). -/
def Core.addFlags (c : Core) (f : Flags) : Core := { c with fstk := fstkSet c.fstk f, cyc := { c.cyc with flags := c.cyc.flags ||| f } }

/-- A change of the issuing core. -/
def State.onMe (s : State) (f : Core → Core) : State := s.setMe (f s.me)

/- Transfers of control (06 R116, R401). -/

/-- A taken transfer to an offset: the target's check begins 4 cycles after the decision. -/
def Core.goto (c : Core) (e : Eng) (now target : Nat) : Core :=
  let st := c.stream e
  c.setStream e { st with pc := target, lo := 0, hi := 0, ready := now + 4, resume := none }

/-- The target of an immediate branch: the instruction's offset plus four times the signed word count. -/
def branchTarget {n : Nat} (pc : Nat) (off : BitVec n) : Nat := ((pc : Int) + 4 * off.toInt).toNat

/-- The word at an offset of a stream's fetch buffer. -/
def Stream.word (st : Stream) (off : Nat) : BitVec 32 := BitVec.ofNat 32 (leNat (Tbl.getRun 0 st.buf off 4))

/-- Whether a fetch-buffer line holds an offset. -/
def Stream.holds (st : Stream) (off : Nat) : Bool := decide (off / 256 ∈ st.lines)

/-- Whether a word is a SIG word: opcode 0x7F in every stream (08 R175 to R177). -/
def isSig (w : BitVec 32) : Bool := w.extractLsb' 25 7 = 0x7F

/-- The check of a register-formed target, in order ALIGN, PROTECT, SIGMISMATCH (06 R116). -/
def targetFault (c : Core) (e : Eng) (target : Word) (sigWord : BitVec 32) : Option Nat :=
  if target.toNat % 4 ≠ 0 then some cALIGN
  else if (c.text e).2 ≤ target.toNat then some cPROTECT
  else if !isSig sigWord then some cSIGMISMATCH
  else none

/- The user-level handler (06 R133, R134, 20 R373). -/

/-- Whether a line of S's fetch buffer belongs to the handler's block, which stays there while EN is set (06 R116). -/
def Core.hLine (c : Core) (l : Nat) : Bool :=
  c.uien && (match c.hBlk with | some (lo, hi) => decide (lo / 256 ≤ l) && decide (l ≤ (hi - 1) / 256) | none => false)

/-- The offset of the next S instruction that has not issued: where the stream stands before a block, the one after the
SIG word (06 R134). -/
def nextOffset (st : Stream) : Nat :=
  st.resume.getD (if st.lo ≤ st.pc && decide (st.pc < st.hi) then st.pc else st.pc + 4)

/-- ENTERING THE HANDLER: EPC receives the offset of the next S instruction, ACT is set, the shadow bank and the
handler's block come into use. A waiting instruction is abandoned. `bound`: the entry takes a BOUND record. -/
def enterHandler (g : Nat) (info : BitVec 16) (isBound : Bool) (s : State) : State :=
  let c := s.core g
  let st := c.stream .s
  let c := { c with uiinfo := info.zeroExtend 64, uiact := true, uiBound := isBound,
                    uiepc := if c.uiact then c.uiepc else BitVec.ofNat 64 (nextOffset st),
                    uiBlk := if c.uiact then c.uiBlk else if st.lo ≤ st.pc && decide (st.pc < st.hi) then st.lo else st.pc }
  let c := (c.setStream .s { st with wait := none, dbnd := none }).goto .s s.now (c.uivec.toNat % 2 ^ 32)
  s.setCore g c

/-- RETURNING FROM THE HANDLER: s56 to s62 switch back, ACT clears, and S goes on at EPC when the block that holds
it has been fetched and checked again (06 R134). A notify record's place is freed (20 R373). -/
def leaveHandler (c : Core) (now : Nat) : Core :=
  let epc := c.uiepc.toNat % 2 ^ 32
  let c := { c with uiact := false, uiBound := false }
  let c := c.goto .s now c.uiBlk
  let st := c.stream .s
  c.setStream .s { st with resume := some epc,
                           lines := st.lines.filter (fun l => decide (l < c.uiBlk / 256) || decide (c.uiBlk / 256 + 8 < l) || c.hLine l) }

end Sys2Proof.Machine
end

