-- ==== Sys2Proof/Machine/Translate.lean ====
section
/-!
DEFINITION. Translation in D space with the cores' translation caches (07 R140 to R145), and the fetch of text.
-/
namespace Sys2Proof.Machine

/-- The walker of a die that serves an address: VA[21] (07 R143). -/
def walkerOf (die va : Nat) : Nat := 2 * die + va / 2 ^ 21 % 2

/-- Records in a walker's bank what a walk met: corrected entries are counted, an unreadable one is recorded with
its physical address (07 R142). -/
def noteWalk (die va : Nat) (tag : BitVec 16) (w : Walk) (s : State) : State :=
  let id := BankId.walker (walkerOf die va)
  let rec1 (code a : Nat) : FaultInfo := { code := code, src := 7, pc := 0, addr := BitVec.ofNat 64 a }
  let s := w.corrected.foldl (fun s a => s.setBank id ((s.bank id).correctable tag (rec1 0 a))) s
  match w.bad with
  | some a => recordUc id tag (rec1 cPOISON a) s
  | none => s

/-- Whether a die is fenced (20 R379). -/
def fencedDie (s : State) (die : Nat) : Bool := s.fenced.getLsbD die

/-- Whether physical address `a` cannot be reached from a die: it lies in the DRAM of another one that is fenced (20 R379). -/
def cutOff (s : State) (die a : Nat) : Bool := fencedDie s (paDie a) && decide (paDie a ≠ die)

/-- The walk of a page from a die's walkers, as things stand. -/
def walkAt (s : State) (die va : Nat) (write remote : Bool) : Walk :=
  walk s.dram s.dramPoison (cutOff s die) s.plat.root.toNat va write remote

/-- A cached translation covers an address. -/
def TlbEntry.covers (t : TlbEntry) (va : Nat) : Bool := decide (t.va ≤ va) && decide (va < t.va + t.size)

/-- Caches a page; a full cache gives up one of its 256 entries, which one is open (07 R143). -/
def cachePage (c : Core) (tick : Nat) (t : TlbEntry) : Core :=
  let others := c.tlb.filter (fun x => !(decide (x.va = t.va) && decide (x.size = t.size)))
  let kept := if others.length < 256 then others else others.eraseIdx (Config.tlbVictim tick % 256)
  { c with tlb := kept ++ [t] }

/-- No fault codes: the walk of the page is under way, and the walker's miss table is full. The access waits. -/
def cWALK : Nat := 0x100
def cFULL : Nat := 0x101
def walkWaits (code : Nat) : Bool := decide (0x100 ≤ code)

/-- A walker's miss table, of 512 entries (07 R143). -/
def State.missTable (s : State) (k : Nat) : List Miss := Tbl.get [] s.misses k
def State.setMisses (s : State) (k : Nat) (l : List Miss) : State := { s with misses := Tbl.set [] s.misses k l }

/-- Translates one address for core g: through its cache, else by a walk whose page is cached; a fault leaves nothing
in the cache (07 R142, R143). A miss joins the walk of its page that is under way and receives that walk's result; one that
finds the table full waits. A walk that no one waits for takes no time here (log 13). -/
def translateVa (g va : Nat) (write : Bool) (s : State) : Except Nat Nat × State :=
  let c := s.core g
  let page := va / 2 ^ 21
  let k := walkerOf (coreDie g) va
  match c.tlb.find? (fun t => t.covers va), c.walkFault.find? (fun x => decide (x.1 = page)) with
  | some t, _ => (if write && !t.wr then .error cPROTECT else .ok (t.pa + (va - t.va)), s)
  | none, some x => (.error x.2, s.setCore g { c with cyc := { c.cyc with walked := page :: c.cyc.walked } })
  | none, none =>
    if (s.missTable k).any (fun m => decide (m.page = page)) then
      (.error cWALK, s.setMisses k ((s.missTable k).map (fun m =>
        if m.page = page && !m.cores.contains g then { m with cores := m.cores ++ [g] } else m)))
    else if 512 ≤ (s.missTable k).length then (.error cFULL, s)
    else
    let w := walkAt s (coreDie g) va write false
    let s := noteWalk (coreDie g) va c.unitTag w s
    match w.res with
    | .ok t => (.ok (t.pa + (va - t.va)), { s.setCore g (cachePage (s.core g) s.tick t) with tick := s.tick + 1 })
    | .error e => (.error e, s)

/-- Translates for the host or a fabric peer: by a walk with remote set, on the walkers of the die given (07 R142): that of
the packet's stream (17 R335). -/
def translateRemote (die va : Nat) (write : Bool) (tag : BitVec 16) (s : State) : Except Nat Nat × State :=
  let w := walkAt s die va write true
  let s := noteWalk die va tag w s
  match w.res with
  | .ok t => (.ok (t.pa + (va - t.va)), s)
  | .error e => (.error e, s)

/-- Translates for a collective engine or, `disp`, for a Dispatcher, which is not remote and stands outside die 0's fence (05 R101, 20
R379). -/
def translateOwn (disp : Bool) (va : Nat) (write : Bool) (s : State) : Except Nat Nat × State :=
  let w := walkAt s (if disp then 0 else 4) va write false
  let s := noteWalk 0 va 0 w s
  match w.res with
  | .ok t => (.ok (t.pa + (va - t.va)), s)
  | .error e => (.error e, s)

/-- A run of physical bytes. -/
abbrev Seg := Nat × Nat

/-- The physical runs of the D bytes [va, va + n), page by page of 2 MiB, with the translation `tr` of one address
(07 R136: every address is translated before any byte is performed). -/
def segments (tr : Nat → State → Except Nat Nat × State) : Nat → Nat → Nat → State → Except Nat (List Seg) × State
  | 0, _, _, s => (.ok [], s)
  | fuel + 1, va, n, s =>
    if n = 0 then (.ok [], s)
    else
      let k := min n (2 ^ 21 - va % 2 ^ 21)
      match tr va s with
      | (.error e, s) => (.error e, s)
      | (.ok pa, s) =>
        match segments tr fuel (va + k) (n - k) s with
        | (.error e, s) => (.error e, s)
        | (.ok r, s) => (.ok ((pa, k) :: r), s)

/-- The number of 2 MiB pages that n bytes can touch. -/
def pagesOf (n : Nat) : Nat := n / 2 ^ 21 + 2

/-- Whether D bytes meet a section that no stream may store to: .rodata, .launch and text of a loaded object (03 R62,
06 R114). -/
def readOnly (s : State) (va n : Nat) : Bool :=
  s.objs.any (fun o => o.ro.any (fun r => decide (r.1 < va + n) && decide (va < r.1 + r.2)))

/-- The physical runs of a D access of core g: past 2^57 it is refused, a fenced die's DRAM cannot be reached from
elsewhere (20 R379). -/
def dSegments (g va n : Nat) (write : Bool) (s : State) : Except Nat (List Seg) × State :=
  if 2 ^ 57 < va + n then (.error cTRANSLATE, s)
  else
    match segments (fun a s => translateVa g a write s) (pagesOf n) va n s with
    | (.ok r, s) =>
      if write && readOnly s va n then (.error cPROTECT, s)
      else if r.any (fun x => cutOff s (coreDie g) x.1) then (.error cUNREACH, s) else (.ok r, s)
    | x => x

/-- Reads and writes physical runs of the module's DRAM. -/
def readSegs (s : State) (r : List Seg) : List Byte := r.flatMap (fun x => bytesAt s.dram x.1 x.2)
def writeSegs (r : List Seg) (bs : List Byte) (s : State) : State :=
  (r.foldl (fun (acc : State × List Byte) x =>
    ({ acc.1 with dram := putBytes acc.1.dram x.1 (acc.2.take x.2),
                  dramPoison := clearPoison acc.1.dramPoison x.1 x.2, flips := clearFlips flipDram x.1 x.2 acc.1.flips },
     acc.2.drop x.2)) (s, bs)).1

/-- A read of physical runs under a request tag corrects their single-bit errors (07 R160). -/
def correctSegs (r : List Seg) (tag : BitVec 16) (s : State) : State := r.foldl (fun s x => correctDram x.1 x.2 tag s) s

/-- Where the first poisoned word of physical runs begins, as an offset into the access, at least zero. -/
def segsPoison (s : State) : List Seg → Nat → Option Nat
  | [], _ => none
  | (a, n) :: r, off =>
    match poisonIn s.dramPoison a n with
    | some w => some (off + (8 * w - a))
    | none => segsPoison s r (off + n)

/-- A byte with its poison mark. -/
abbrev MByte := Byte × Bool

/-- The poison marks of physical runs, byte by byte. -/
def segMarks (s : State) (r : List Seg) : List Bool :=
  r.flatMap (fun x => (List.range x.2).map (fun k => (poisonIn s.dramPoison (x.1 + k) 1).isSome))

/-- Marks the words that received poisoned bytes. -/
def marksOf (a : Nat) (bs : List MByte) (ps : List Nat) : List Nat :=
  (bs.zipIdx.filter (fun x => x.1.2)).foldl (fun acc x => insWord ((a + x.2) / 8) acc) ps

/-- Writes marked bytes into physical runs. -/
def writeSegsM (r : List Seg) (bs : List MByte) (s : State) : State :=
  let s := writeSegs r (bs.map Prod.fst) s
  (r.foldl (fun (acc : State × List MByte) x =>
    ({ acc.1 with dramPoison := marksOf x.1 (acc.2.take x.2) acc.1.dramPoison }, acc.2.drop x.2)) (s, bs)).1

/-- The marks of a payload's 8-byte words (17 R335). -/
def payloadMarks (bs : List MByte) : List Bool :=
  (List.range ((bs.length + 7) / 8)).map (fun k => ((bs.drop (8 * k)).take 8).any Prod.snd)

/- Fetch (06 R114). -/

/-- The lines a fetch buffer holds: 64 KiB for S and V, 16 KiB for M and K. -/
def bufLines (e : Eng) : Nat := match e with | .s | .v => 256 | .m | .k => 64

/-- Fills the fetch-buffer line that holds an offset from the bound copy of the text in D space. A full buffer gives
up a line, which one is open, but for the handler's block while EN is set (06 R116). A fault code and the offset it is logged at where the read faults or returns poison. -/
def loadLine (g : Nat) (e : Eng) (off : Nat) (s : State) : Except (Nat × Nat) Unit × State :=
  let c := s.core g
  let st := c.stream e
  if st.holds off then (.ok (), s)
  else
    let base := off / 256 * 256
    let n := min 256 ((c.text e).2 - base)
    match dSegments g ((c.text e).1 + base) n false s with
    | (.error x, s) => (.error (x, off), s)
    | (.ok r, s) =>
      let s := correctSegs r (s.core g).unitTag s
      match segsPoison s r 0 with
      | some d => (.error (cPOISON, base + d), s)
      | none =>
        let st := (s.core g).stream e
        let free := if e = .s then st.lines.filter (fun l => !(s.core g).hLine l) else st.lines
        let kept := if st.lines.length < bufLines e then st.lines
          else match free[Config.lineVictim s.tick % free.length]? with
            | some l => st.lines.erase l
            | none => st.lines.drop 1
        let gone := st.lines.filter (fun l => !kept.contains l)
        let buf := gone.foldl (fun b l => Tbl.clearRange b (256 * l) (256 * l + 256)) st.buf
        let buf := Tbl.setRun 0 (Tbl.clearRange buf base (base + 256)) base (readSegs s r)
        let c := s.core g
        -- the handler's block is to be checked again where a line of it has gone (06 R116)
        let hBlk := match c.hBlk with
          | some (lo, hi) => if e = .s && gone.any (fun l => decide (lo / 256 ≤ l) && decide (l ≤ (hi - 1) / 256)) then none else c.hBlk
          | none => none
        (.ok (), { s.setCore g ({ c with hBlk := hBlk }.setStream e { st with buf := buf, lines := kept ++ [base / 256] }) with tick := s.tick + 1 })

/-- So filled for the instruction at the offset, which its corrected errors name (20 R374). -/
def fillLine (g : Nat) (e : Eng) (off : Nat) (s : State) : Except (Nat × Nat) Unit × State :=
  let r := loadLine g e off s
  (r.1, nameCorrected 0 off s r.2)

/-- Fills the lines that hold the `n` words from an offset. -/
def fillWords (g : Nat) (e : Eng) (off n : Nat) (s : State) : Except (Nat × Nat) Unit × State :=
  match fillLine g e off s with
  | (.error x, s) => (.error x, s)
  | (.ok _, s) => if n = 0 then (.ok (), s) else fillLine g e (off + 4 * (n - 1)) s

/-- The record of a fetch that faults: at the text address, of its own stream (06 R114). -/
def fetchFault (c : Core) (e : Eng) (x : Nat × Nat) : FaultInfo :=
  { code := x.1, src := engNum e, pc := (c.stream e).pc, addr := c.textAddr e x.2 }

/-- A fetch that has not got its line: it faults, or waits for a walk (07 R143). -/
def fetchFails (g : Nat) (e : Eng) (x : Nat × Nat) (s : State) : State :=
  if walkWaits x.1 then s else unitFault g (fetchFault (s.core g) e x) s

end Sys2Proof.Machine
end

