-- ==== Sys2Proof/Machine/Determ.lean ====
section
/-!
DEFINITION. Atomic operations and deterministic updates: the values of AMO and CAS (09 R201, R202), holding entries,
wide accumulators and closes (18 R355 to R359, 19 R367 to R370).
-/
namespace Sys2Proof.Machine

/-- Element by element sums: rop 0 I32, 1 I64, 2 FP32 (10 R235, 18 R354). -/
def reduceBytes (rop : Nat) (old new : List Byte) : List Byte :=
  let w := if rop = 1 then 8 else 4
  (List.range (new.length / w)).flatMap (fun k =>
    let a := leNat ((old.drop (w * k)).take w)
    let b := leNat ((new.drop (w * k)).take w)
    natLE w (if rop = 2 then fp32Add a b else a + b))

/-- The new value of an atomic on an `n`-byte location (09 R201). -/
def amoNew (aop n old x : Nat) : Nat :=
  let w := 8 * n
  let x := x % 2 ^ w
  match aop with
  | 0 => (old + x) % 2 ^ w
  | 1 => old &&& x
  | 2 => old ||| x
  | 3 => old ^^^ x
  | 4 => if intOfCode w old ≤ intOfCode w x then old else x
  | 5 => if intOfCode w old ≤ intOfCode w x then x else old
  | 6 => min old x
  | 7 => max old x
  | 8 => x
  | _ => fp32Add old x

/-- The partial of one update (18 R356). -/
def partialOf (fp : Bool) (width v : Nat) : Partial :=
  if fp then
    match decodeVal .fp32 (v % 2 ^ 32) with
    | .nan => { sum := 0, pinf := false, ninf := false, nan := true, negZero := false }
    | .inf neg => { sum := 0, pinf := !neg, ninf := neg, nan := false, negZero := false }
    | .fin neg m e => { sum := signedNat neg (shl m (e + 149)), pinf := false, ninf := false, nan := false,
                        negZero := neg && decide (m = 0) }
  else { sum := (v % 2 ^ (8 * width) : Nat), pinf := false, ninf := false, nan := false, negZero := false }

/-- Folds a further update in, exactly. -/
def Partial.fold (a b : Partial) : Partial :=
  { sum := a.sum + b.sum, pinf := a.pinf || b.pinf, ninf := a.ninf || b.ninf, nan := a.nan || b.nan,
    negZero := a.negZero && b.negZero }

/-- The slice of a physical address, over the module. -/
def sliceOf (pa : Nat) : Nat := 32 * paDie pa + paSlice pa

/-- The order of keys: sdev, then issuer, then strm (18 R355). -/
def keyOf (sdev issuer : Nat) (strm : Bool) : Nat := sdev * 2 ^ 19 + issuer * 2 + (if strm then 1 else 0)

/-- Adds a pair to an entry's pairs, by key. -/
def foldPair (k : Nat) (p : Partial) (ps : List (Nat × Partial)) : List (Nat × Partial) :=
  if ps.any (fun x => x.1 = k) then ps.map (fun x => if x.1 = k then (k, x.2.fold p) else x) else ps ++ [(k, p)]

/-- All pairs folded into one. -/
def foldAll (ps : List (Nat × Partial)) : Partial :=
  match ps with
  | [] => partialOf false 8 0
  | x :: xs => xs.foldl (fun a y => a.fold y.2) x.2

/-- An update reaches its slice's reduce unit (18 R356, R357, 19 R367): the entries after it, or the code of its
error response. `closing`: the entries that closes have still to apply, which take places and no more updates. -/
def acceptUpdate (hs closing : List HoldEntry) (u : Update) : Except Nat (List HoldEntry) :=
  let p := partialOf u.fp u.width u.val
  let here := (hs ++ closing).filter (fun h => decide (sliceOf h.pa = sliceOf u.pa))
  match hs.find? (fun h => h.pa = u.pa && h.tag = u.tag) with
  | some h =>
    if h.width ≠ u.width || h.fp ≠ u.fp then .error cILLEGAL
    else
      let upd (h' : HoldEntry) := hs.map (fun x => if x.pa = u.pa && x.tag = u.tag then h' else x)
      if h.wide then .ok (upd { h with pairs := [(0, (foldAll h.pairs).fold p)] })
      else if h.pairs.any (fun x => x.1 = u.key) || h.pairs.length < 16 then .ok (upd { h with pairs := foldPair u.key p h.pairs })
      else if (here.filter HoldEntry.wide).length < 64 then
        .ok (upd { h with wide := true, pairs := [(0, (foldAll h.pairs).fold p)] })
      else .error cDAMCAP
  | none =>
    if (here.filter (fun h => !h.wide)).length < 256 then
      .ok (hs ++ [{ pa := u.pa, tag := u.tag, width := u.width, fp := u.fp, wide := false, pairs := [(u.key, p)] }])
    else .error cDAMCAP

/-- A partial as an exact FP32-side value; a zero sum is -0 only when every update was -0. -/
def Partial.val (p : Partial) : Val := .fin (decide (p.sum < 0) || (decide (p.sum = 0) && p.negZero)) p.sum.natAbs (-149)

/-- Pairs in ascending key. -/
def insertPair (x : Nat × Partial) : List (Nat × Partial) → List (Nat × Partial)
  | [] => [x]
  | y :: ys => if x.1 < y.1 then x :: y :: ys else y :: insertPair x ys

/-- v + x rounded to nearest even in FP32; an overflow gives an infinity. -/
def fp32AddVal (v : Nat) (x : Val) : Nat := (encodeVal .fp32 .nearest false (addVal .nearest (decodeVal .fp32 v) x)).1

/-- The value a close leaves over the memory value m (18 R358). -/
def closeValue (h : HoldEntry) (m : Nat) : Nat :=
  let all := foldAll h.pairs
  if !h.fp then ((m : Int) + all.sum).toNat % 2 ^ (8 * h.width)
  else if all.nan || (all.pinf && all.ninf) then Fmt.fp32.nanCode
  else if all.pinf || all.ninf then fp32AddVal m (.inf all.ninf)
  else if h.wide then fp32AddVal m all.val
  else (h.pairs.foldl (fun acc x => insertPair x acc) []).foldl (fun v x => fp32AddVal v x.2.val) m

/-- Entries in ascending location (19 R369). -/
def insertEntry (h : HoldEntry) : List HoldEntry → List HoldEntry
  | [] => [h]
  | x :: xs => if h.pa < x.pa then h :: x :: xs else x :: insertEntry h xs

/-- Applies one entry to memory. A word that was poisoned stays so: the sum was computed from it (log 9). A single-bit
error is corrected as the word is read (07 R160). -/
def applyEntry (s : State) (h : HoldEntry) : State :=
  { correctDram h.pa h.width h.tag s with dram := putBytes s.dram h.pa (natLE h.width (closeValue h (numAt s.dram h.pa h.width))) }

/-- The entries that closes have still to apply. -/
def State.closing (s : State) : List HoldEntry := s.closes.flatMap CloseRun.left

/-- An update is accepted or refused at its slice (18 R355). -/
def takeUpdate (u : Update) (s : State) : Except Nat State :=
  match acceptUpdate s.holding s.closing u with
  | .error x => .error x
  | .ok hs => .ok { s with holding := hs, accepted := (u.tag, sliceOf u.pa) :: s.accepted }

/-- A close begins. -/
def beginClose (tag : BitVec 16) (why : CloseFor) (die : Nat) (send : List Nat) (s : State) : State :=
  { s with closes := s.closes ++ [{ id := s.zNext, tag := tag, why := why, reached := [], left := [], die := die, send := send, away := [] }],
           zNext := s.zNext + 1 }

/-- A close acts at slice k: it reaches it, and takes the entries of its tag that are open there, or applies and frees the next
of them, in ascending location, as one request of the slice's queue (19 R369). In the cycle of an update that the slice has
accepted it comes no more (R370). -/
def closeAt (k : Nat) (x : CloseRun) (s : State) : State :=
  let put (x : CloseRun) (s : State) : State := { s with closes := s.closes.map (fun y => if y.id = x.id then x else y) }
  match x.left.find? (fun h => decide (sliceOf h.pa = k)) with
  | some h => put { x with left := x.left.erase h } (applyEntry s h)
  | none =>
    if x.reached.contains k || s.accepted.contains (x.tag, k) then s
    else
      let at_ (h : HoldEntry) : Bool := decide (h.tag = x.tag) && decide (sliceOf h.pa = k)
      let mine := (s.holding.filter at_).foldl (fun acc h => insertEntry h acc) []
      put { x with reached := x.reached ++ [k], left := x.left ++ mine } { s with holding := s.holding.filter (fun h => !at_ h) }

/-- Every entry that a close covers has been applied, in this module and in the others, those that an earlier close of the tag has
taken and still holds among them (18 R358, 19 R368). -/
def closeDone (s : State) (x : CloseRun) : Bool :=
  x.left.isEmpty && x.send.isEmpty && x.away.isEmpty
    && (s.closes.takeWhile (fun y => decide (y.id ≠ x.id))).all (fun y => decide (y.tag ≠ x.tag) || y.left.isEmpty)
    && !s.holding.any (fun h => decide (h.tag = x.tag) && !x.reached.contains (sliceOf h.pa))

end Sys2Proof.Machine
end

