-- ==== Sys2Proof/Machine/Fabric.lean ====
section
/-!
DEFINITION. The Grimus fabric (17 R335 to R341): sending packets, the retry buffers, receive windows, and what a
packet performs at its home.
-/
namespace Sys2Proof.Machine

/-- seq a is before b (17 R336). -/
def seqBefore (a b : BitVec 24) : Bool := decide (2 ^ 23 ≤ (a - b).toNat)

/-- The flits of a packet, in bytes: one header flit and its payload flits (17 R335). -/
def packetBytes (p : Packet) : Nat := 64 * (1 + (p.payload.length + 63) / 64)

/-- Whether a path from a die to a device is up (17 R340). -/
def pathUp (s : State) (die dev : Nat) : Bool :=
  s.plat.routes.any (fun r => decide (r.die = die) && decide (r.dev = dev) && !s.pathDown.contains (r.die, r.dev, r.path))

/-- The bytes a die's retry buffer holds (17 R337). -/
def retryBytes (s : State) (die : Nat) : Nat :=
  ((s.retry.filter (fun r => r.die = die)).map (fun r => packetBytes r.pkt)).foldl (· + ·) 0

/-- The key of a source stream's next sequence number. -/
def sendKey (die dev cls : Nat) : Nat := die * 2 ^ 14 + dev * 4 + cls

/-- What becomes of a packet to be sent. -/
inductive Sent where
  | sent (s : State)
  | full
  | unreachable
  deriving Repr

/-- Sends a packet from a die: no route gives FABRIC_UNREACHABLE (17 R341), a full buffer makes the sender wait
(R337), else it enters the buffer under the stream's next seq. -/
def sendPacket (die dev cls : Nat) (tag : BitVec 16) (op : PacketOp) (va len : Nat) (payload : List Byte)
    (marks : List Bool) (owner : Owner) (s : State) : Sent :=
  let own := s.plat.device
  let k := sendKey die dev cls
  let seq := Tbl.get 0 s.sendSeq k
  let mine := s.retry.filter (fun r => r.die = die && r.pkt.ddev = BitVec.ofNat 12 dev && r.pkt.cls = BitVec.ofNat 2 cls)
  let p : Packet :=
    { sdev := own, sdie := BitVec.ofNat 2 die, ddev := BitVec.ofNat 12 dev, cls := BitVec.ofNat 2 cls, seq := seq
      afl := match mine.head? with | some r => r.pkt.seq | none => seq
      tag := tag, op := op, va := BitVec.ofNat 57 va, len := BitVec.ofNat 13 len, payload := payload, marks := marks }
  if !pathUp s die dev then .unreachable
  else if 8 * 2 ^ 20 < retryBytes s die + packetBytes p then .full
  else .sent { s with retry := s.retry ++ [{ die := die, pkt := p, owner := owner, sentAt := s.now }],
                      sendSeq := Tbl.set 0 s.sendSeq k (seq + 1), used := insWord k s.used }

/-- The collective engines' window (17 R343): whether `n` bytes from a D address meet it. -/
def inCew (s : State) (va n : Nat) : Bool :=
  decide (s.plat.cew.toNat ≠ 0) && decide (s.plat.cew.toNat < va + n) && decide (va < s.plat.cew.toNat + 0x4000)

/-- The physical address of byte `o` of physical runs. -/
def segByte : List Seg → Nat → Option Nat
  | [], _ => none
  | (a, m) :: t, o => if o < m then some (a + o) else segByte t (o - m)

/-- The poison marks of each 8-byte word of a read of `n` bytes (17 R335). -/
def readMarks (s : State) (r : List Seg) (n : Nat) : List Bool :=
  (List.range ((n + 7) / 8)).map (fun k => (List.range (min 8 (n - 8 * k))).any (fun i =>
    match segByte r (8 * k + i) with
    | some a => (poisonIn s.dramPoison a 1).isSome
    | none => false))

/-- The words of physical runs that receive a byte of a word that arrives marked are marked (07 R160, 17 R335). -/
def markSegs (r : List Seg) (marks : List Bool) (s : State) : State :=
  (marks.zipIdx.filter Prod.fst).foldl (fun (s : State) mi => (List.range 8).foldl (fun (s : State) i =>
    match segByte r (8 * mi.2 + i) with
    | some a => { s with dramPoison := insWord (a / 8) s.dramPoison }
    | none => s) s) s

/-- The physical runs of a remote access that die `die` translates, which a fenced die's DRAM refuses. A store of a stream of
device `sdev`, unlike one of the host, meets the read-only sections (03 R62). -/
def remoteSegments (sdev : BitVec 12) (die va n : Nat) (write : Bool) (tag : BitVec 16) (s : State) : Except Nat (List Seg) × State :=
  if inCew s va n then (.error cPROTECT, s)
  else
    match segments (fun a s => translateRemote die a write tag s) (pagesOf n) va n s with
    | (.ok r, s) =>
      if write && decide (sdev ≠ s.plat.host) && readOnly s va n then (.error cPROTECT, s)
      else if r.any (fun x => fencedDie s (paDie x.1)) then (.error cUNREACH, s) else (.ok (r), if write then s else correctSegs r tag s)
    | x => x

/-- A response to a packet. -/
def responseTo (p : Packet) (code : Nat) (data : List Byte) (marks : List Bool) : Response :=
  { sdev := p.sdev, sdie := p.sdie, ddev := p.ddev, cls := p.cls, seq := p.seq, code := BitVec.ofNat 8 code, data := data,
    marks := marks }

/-- A read-modify-write of a D location at its slice: the old value, or POISON where the word is poisoned. -/
def slicePerform (r : List Seg) (tag : BitVec 16) (f : Nat → Nat) (s : State) : Except Nat Nat × State :=
  if (segsPoison s r 0).isSome then (.error cPOISON, s)
  else
    let old := readSegs s r
    let v := leNat old
    (.ok v, writeSegs r (natLE old.length (f v)) (correctSegs r tag s))

/-- What a packet performs at its home (17 R335, 18 R354 to R358), and its response. -/
def performPacket (p : Packet) (s : State) : Response × State :=
  let va := p.va.toNat
  let fail (code : Nat) (s : State) := (responseTo p code [] [], s)
  match p.op with
  | .read =>
    match remoteSegments p.sdev p.sdie.toNat va p.len.toNat false p.tag s with
    | (.error e, s) => fail e s
    | (.ok r, s) => (responseTo p 0 (readSegs s r) (readMarks s r p.len.toNat), s)
  | .write =>
    match remoteSegments p.sdev p.sdie.toNat va p.payload.length true p.tag s with
    | (.error e, s) => fail e s
    | (.ok r, s) => (responseTo p 0 [] [], markSegs r p.marks (writeSegs r p.payload s))
  | .atomic aop =>
    let n := p.payload.length
    if va % n ≠ 0 then fail cALIGN s
    else
    match remoteSegments p.sdev p.sdie.toNat va n true p.tag s with
    | (.error e, s) => fail e s
    | (.ok r, s) =>
      match slicePerform r p.tag (fun old => amoNew aop.toNat n old (leNat p.payload)) s with
      | (.error e, s) => fail e s
      | (.ok old, s) => (responseTo p 0 (natLE n old) [], s)
  | .cas =>
    if va % 8 ≠ 0 then fail cALIGN s
    else
    match remoteSegments p.sdev p.sdie.toNat va 8 true p.tag s with
    | (.error e, s) => fail e s
    | (.ok r, s) =>
      match slicePerform r p.tag (fun old => if old = leNat (p.payload.take 8) then leNat (p.payload.drop 8) else old) s with
      | (.error e, s) => fail e s
      | (.ok old, s) => (responseTo p 0 (natLE 8 old) [], s)
  | .reduce rop =>
    match remoteSegments p.sdev p.sdie.toNat va p.payload.length true p.tag s with
    | (.error e, s) => fail e s
    | (.ok r, s) =>
      match segsPoison s r 0 with
      | some _ => fail cPOISON s
      | none =>
        (responseTo p 0 [] [], writeSegs r (reduceBytes rop.toNat (readSegs s r) p.payload) (correctSegs r p.tag s))
  | .update aop issuer strm =>
    let n := p.payload.length
    if va % n ≠ 0 then fail cALIGN s
    else
    match remoteSegments p.sdev p.sdie.toNat va n true p.tag s with
    | (.error e, s) => fail e s
    | (.ok r, s) =>
      let u : Update := { pa := (r.headD (0, 0)).1, va := va, width := n, fp := decide (aop = 9), tag := p.tag,
                          key := keyOf p.sdev.toNat issuer.toNat strm, val := leNat p.payload, g := 0, e := .s, ord := 0, since := s.now }
      match takeUpdate u s with
      | .error e => fail e s
      | .ok s => (responseTo p 0 [] [], s)
  | .close => (responseTo p 0 [] [], s)
  | .collective => (responseTo p 0 [] [], s)
  | .resync => (responseTo p 0 [] [], s)

/-- The bytes that a packet reads, writes or adds to. -/
def pktBytes (p : Packet) : Nat := match p.op with | .read => p.len.toNat | _ => p.payload.length

/-- A packet that reads, writes or adds past the end of one line: no access so large is indivisible (15 R316). -/
def longPacket (p : Packet) : Bool :=
  (match p.op with | .read | .write | .reduce _ => true | _ => false) && decide (64 < p.va.toNat % 64 + pktBytes p)

/-- The next line of a long packet, in bytes; a sum's elements are not divided. -/
def LongPacket.line (x : LongPacket) : Nat :=
  let va := x.p.va.toNat + x.at_
  let whole := match x.p.op with | .reduce rop => decide (va % (if rop = 1 then 8 else 4) = 0) | _ => true
  min (if whole then 64 - va % 64 else 64) (pktBytes x.p - x.at_)

/-- Performs the next line of a long packet: a fault code, or what it reads. Before the first one every address is checked (07 R136). -/
def performLine (x : LongPacket) (s : State) : Except Nat (List MByte) × State :=
  let p := x.p
  let write := decide (p.op ≠ .read)
  let (whole, s) := if x.at_ = 0 then remoteSegments p.sdev p.sdie.toNat p.va.toNat (pktBytes p) write p.tag s else (.ok [], s)
  match whole with
  | .error e => (.error e, s)
  | .ok _ =>
    match remoteSegments p.sdev p.sdie.toNat (p.va.toNat + x.at_) x.line write p.tag s with
    | (.error e, s) => (.error e, s)
    | (.ok r, s) =>
      let bs := ((p.payload.drop x.at_).take x.line).zipIdx.map (fun b => (b.1, p.marks.getD ((x.at_ + b.2) / 8) false))
      match p.op with
      | .read => (.ok ((readSegs s r).zip (segMarks s r)), s)
      | .reduce rop =>
        if (segsPoison s r 0).isSome then (.error cPOISON, s)
        else (.ok [], writeSegs r (reduceBytes rop.toNat (readSegs s r) (bs.map Prod.fst)) (correctSegs r p.tag s))
      | _ => (.ok [], writeSegsM r bs s)

/-- The receive window of a stream (17 R338); it begins at seq 0 (R336). -/
def recvWin (s : State) (p : Packet) : RecvWin :=
  (s.recv.find? (fun w => w.sdev = p.sdev && w.sdie = p.sdie && w.cls = p.cls)).getD
    { sdev := p.sdev, sdie := p.sdie, cls := p.cls, next := 0, held := [], stored := [] }
def setRecv (s : State) (w : RecvWin) : State :=
  { s with recv := s.recv.filter (fun x => !(x.sdev = w.sdev && x.sdie = w.sdie && x.cls = w.cls)) ++ [w] }

/-- Whether the receiver stores a packet's response: atomics and CAS (17 R339). -/
def storesResponse : PacketOp → Bool
  | .atomic _ | .cas => true
  | _ => false

/-- The packet at the window's next value has been performed: an atomic's response is stored, and it is answered (17 R338, R339). Where
a resynchronising header has set the next value anew meanwhile, it is not set back (R341). -/
def answerNext (p : Packet) (r : Response) (s : State) : State :=
  let w := recvWin s p
  setRecv { s with outbox := s.outbox ++ [r] }
    { w with next := if w.next = p.seq then p.seq + 1 else w.next, stored := w.stored ++ (if storesResponse p.op then [r] else []),
             held := w.held.filter (fun h => decide (h.seq ≠ p.seq)) }

def performNext (p : Packet) (s : State) : State := let (r, s) := performPacket p s; answerNext p r s

/-- A packet at the window's next value that takes its time is held until it has been performed. -/
def holdPacket (p : Packet) (s : State) : State :=
  let w := recvWin s p
  setRecv s { w with held := w.held.filter (fun h => decide (h.seq ≠ p.seq)) ++ [p] }

/-- A close that has come from another device begins, and is held until its entries have been applied (18 R358). -/
def closeComes (p : Packet) (s : State) : State :=
  if s.closes.any (fun x => decide (x.why = .packet p)) then s
  else
    beginClose p.tag (.packet p) p.sdie.toNat [] (holdPacket p s)

/-- A long packet begins, and is held until its lines have been performed. -/
def longComes (p : Packet) (s : State) : State :=
  if s.longs.any (fun x => decide (x.p = p) && !x.again) then s
  else holdPacket p { s with longs := s.longs ++ [{ p := p, at_ := 0, data := [], due := s.now, again := false }] }

/-- Performs the held packets that now follow in order, up to a close or a long packet, which take their time. -/
def performHeld : Nat → Packet → State → State
  | 0, _, s => s
  | fuel + 1, p, s =>
    let w := recvWin s p
    match w.held.find? (fun h => h.seq = w.next) with
    | some h => if h.op = .close then closeComes h s else if longPacket h then longComes h s else performHeld fuel h (performNext h s)
    | none => s

/-- A duplicate: an atomic's stored response is sent again, a read is performed again, anything else gets a plain
completion (17 R339). -/
def answerDuplicate (p : Packet) (s : State) : State :=
  let w := recvWin s p
  match p.op with
  | .read =>
    if longPacket p then { s with longs := s.longs ++ [{ p := p, at_ := 0, data := [], due := s.now, again := true }] }
    else let (r, s) := performPacket p s; { s with outbox := s.outbox ++ [r] }
  | _ =>
    let r := (w.stored.find? (fun x => x.seq = p.seq)).getD (responseTo p 0 [] [])
    { s with outbox := s.outbox ++ [r] }

/-- A packet reaches its receiving die (17 R338, R341). Its floor frees the stored responses that it is past, whatever becomes
of the packet (R339). -/
def receivePacket (p : Packet) (s : State) : State :=
  let w := recvWin s p
  let w := { w with stored := w.stored.filter (fun x => !seqBefore x.seq p.afl) }
  if p.op = .resync then setRecv s { w with next := p.seq, held := w.held.filter (fun h => !seqBefore h.seq p.seq) }
  else
    let s := setRecv s w
    if p.seq = w.next then (if p.op = .close then closeComes p s else if longPacket p then longComes p s
      else performHeld 4096 p (performNext p s))
    else if seqBefore p.seq w.next then answerDuplicate p s
    else if (p.seq - w.next).toNat < 4096 then
      setRecv s { w with held := w.held.filter (fun h => decide (h.seq ≠ p.seq)) ++ [p] }
    else s

/-- Whether a retry-buffer packet is the request a response answers (17 R337). -/
def answers (r : Response) (x : Retry) : Bool :=
  decide (x.pkt.sdev = r.sdev) && decide (x.pkt.sdie = r.sdie) && decide (x.pkt.ddev = r.ddev)
    && decide (x.pkt.cls = r.cls) && decide (x.pkt.seq = r.seq)

end Sys2Proof.Machine
end

