-- ==== Sys2Proof/Machine/BarrierOps.lean ====
section
/-!
DEFINITION. Barrier objects and the Zenith network (09 R207 to R210, 15 R327, 16 R333, R334, 18 R358, R359), and
what waits for a stream's earlier accesses.
-/
namespace Sys2Proof.Machine

/-- The members of a barrier's domain in this module, from the placement of core g's unit (05 R112). -/
def domainMembers (p : Place) (g mode : Nat) : List Nat :=
  let row (die y : Nat) := (List.range p.pw).map (fun k => coreIdx die (p.px + k) y)
  let rect (die : Nat) := (List.range p.ph).flatMap (fun j => row die (p.py + j))
  match mode with
  | 2 => row (coreDie g) (coreY g)
  | 3 => rect (coreDie g)
  | 4 | 5 => (List.range p.ndies).flatMap (fun k => rect (p.die0 + k))
  | _ => [g]

/-- Which domain of its level a core belongs to. -/
def domainInst (g mode : Nat) : Nat :=
  match mode with | 2 => 8 * coreDie g + coreY g | 3 => coreDie g | _ => 0

/-- The placement, launch and tag of a unit, if there is one. -/
def unitPlace (u : Option WorkUnit) : Place :=
  match u with | some u => u.place | none => { px := 0, py := 0, pw := 0, ph := 0, ndies := 0, die0 := 0 }
def unitLaunch (u : Option WorkUnit) : Nat := match u with | some u => u.launch | none => 0
def tagOf (u : Option WorkUnit) : BitVec 16 := match u with | some u => u.tag | none => 0
def Core.placeOf (c : Core) : Place := unitPlace c.unit

/-- A phase becomes visible at an object: PHASE rises, FLT as given (09 R209, 10 R238). -/
def Core.bumpPhase (c : Core) (b : Nat) (flt : Bool) : Core :=
  let w := c.barrier b
  { c with bobj := Tbl.set 0 c.bobj b (bMake (bPhase w + 1) (bExp w) (bNeed w) (bDamc w) flt (bMode w)) }

/- Closes (18 R358, 19 R368, R369). -/

/-- The other devices of the fabric group of a unit: the indices around the module's own (05 R94, log 50). -/
def groupDevices (s : State) (u : Option WorkUnit) : List Nat :=
  match u with
  | some u => ((List.range u.fgcnt).filter (fun j => decide (j ≠ u.fgidx))).filterMap (fun j =>
      let d := (s.plat.device.toNat : Int) - u.fgidx + j
      if 0 ≤ d && decide (d ≤ 4095) then some d.toNat else none)
  | none => []

/-- Sends a close to the devices that it has not left for; one that no path reaches has nothing to apply. -/
def sendClose (x : CloseRun) (s : State) : State :=
  let r := x.send.foldl (fun (acc : CloseRun × State) dev =>
    match sendPacket x.die dev 2 x.tag .close 0 0 [] [] (.close x.id dev) acc.2 with
    | .sent s => ({ acc.1 with send := acc.1.send.erase dev, away := acc.1.away ++ [dev] }, s)
    | .full => acc
    | .unreachable => ({ acc.1 with send := acc.1.send.erase dev }, acc.2)) (x, s)
  { r.2 with closes := r.2.closes.map (fun y => if y.id = x.id then r.1 else y) }

/-- A close is one for phases of object b of core g. -/
def CloseRun.ofObject (g b : Nat) (x : CloseRun) : Bool :=
  match x.why with | .localPhase k n _ => decide (k = g) && decide (n = b) | _ => false

/-- A close for whose end more phases of its object wait. -/
def CloseRun.withPhases (l : List Bool) (x : CloseRun) : CloseRun :=
  match x.why with | .localPhase g b m => { x with why := .localPhase g b (m ++ l) } | _ => x

/-- Phases of a local object that have completed become visible, each faulted or whole: at once, or in their turn after those whose
closes, numbered below `id`, are under way (18 R358, R359). -/
def showPhases (g b : Nat) (l : List Bool) (id : Nat) (s : State) : State :=
  match (s.closes.filter (fun x => decide (x.id < id) && x.ofObject g b)).getLast? with
  | some y => { s with closes := s.closes.map (fun x => if x.id = y.id then x.withPhases l else x) }
  | none => s.setUnitCore g (l.foldl (fun c flt => c.bumpPhase b flt) (s.unitCore g))

/-- Closes that are done: what waited for each goes on. -/
def finishCloses : Nat → State → State
  | 0, s => s
  | fuel + 1, s =>
    match s.closes.find? (closeDone s) with
    | none => s
    | some x =>
      let s := { s with closes := s.closes.filter (fun y => decide (y.id ≠ x.id)) }
      finishCloses fuel (match x.why with
        | .localPhase g b l => showPhases g b l x.id s
        | .reset => s
        | .domainPhase id => { s with zenith := s.zenith.map (fun z => if z.id = id then { z with closed := true } else z) }
        | .launchEnd _ => s
        | .packet p => performHeld 4096 p (performNext p s))
def settleCloses (s : State) : State := finishCloses (s.closes.length + 4096) s

/-- A close of a tag begins, in this module and at other devices (18 R358). -/
def startClose (tag : BitVec 16) (why : CloseFor) (die : Nat) (devs : List Nat) (s : State) : State :=
  let s := beginClose tag why die devs s
  settleCloses (match s.closes.getLast? with | some x => sendClose x s | none => s)

/-- A phase of an object has completed: what its arrivals have released is there for those who consume it (15 R324, 18 R353). -/
def Core.owesOver (c : Core) (b : Nat) (l : List Owe) : Core :=
  { c with bOwes := Tbl.set [] (Tbl.set [] c.bOwes (64 + b) (addOwes (Tbl.get [] c.bOwes (64 + b)) l)) b [] }

/-- An arrival of stream `e` at object b releases what its program has done below `ord`. -/
def noteRelease (g b : Nat) (e : Eng) (ord : Nat) (s : State) : State :=
  let c := s.core g
  s.setCore g { c with bOwes := Tbl.set [] c.bOwes b (addOwes (Tbl.get [] c.bOwes b) (c.released e ord)) }

/-- The current phase of a local object completes: NEED becomes EXP, DAMC clears, and PHASE rises, after the close
where an arrival carried dam, and after those of the phases before it (09 R209, 18 R358). -/
def completeLocal (g b : Nat) (flt : Bool) (s : State) : State :=
  let c := s.core g
  let w := c.barrier b
  let c' := { c.owesOver b (Tbl.get [] c.bOwes b) with bobj := Tbl.set 0 c.bobj b (bMake (bPhase w) (bExp w) (bExp w) false (bFlt w) 1) }
  if bDamc w then startClose c.unitTag (.localPhase g b [flt]) (coreDie g) [] (s.setCore g c')
  else showPhases g b [flt] s.zNext (s.setCore g c')

/-- An arrival counts at a local object (09 R209). -/
def arriveLocal (g b : Nat) (dam : Bool) (s : State) : State :=
  let c := s.core g
  let w := c.barrier b
  let damc := bDamc w || dam
  let c' := { c with bobj := Tbl.set 0 c.bobj b (bMake (bPhase w) (bExp w) (bNeed w - 1) damc (bFlt w) (bMode w)) }
  let s := s.setCore g c'
  if bNeed w ≤ 1 then completeLocal g b false s else s

/-- An arrival at a domain object is sent towards the die's node (09 R209); or the fault of one bound command is, also where a
stream of the core has arrived in this phase already (10 R238). -/
def arriveDomain (g b : Nat) (e : Eng) (dam flt : Bool) (s : State) : State :=
  let c := s.core g
  let w := c.barrier b
  let old := Tbl.get Arrived.none c.arrived b
  let a : Arrived := if old.streams = 0 then { Arrived.none with streams := 1#4 <<< engNum e, dam := dam, flt := flt, mode := bMode w, unit := c.unit }
    else { old with flt := old.flt || flt }
  s.setCore g { c with arrived := Tbl.set Arrived.none c.arrived b a,
                       bobj := Tbl.set 0 c.bobj b (bMake (bPhase w) (bExp w) (bNeed w) (bDamc w || dam) (bFlt w) (bMode w)) }

/-- An arrival of stream `e` that has been released: counted at a local object, sent for a domain one. -/
def arriveAt (g b : Nat) (e : Eng) (dam : Bool) (s : State) : State :=
  let s := s.setCore g { s.core g with cyc := { (s.core g).cyc with arr := (b, e) :: (s.core g).cyc.arr } }
  if bMode ((s.core g).barrier b) = 1 then arriveLocal g b dam s else arriveDomain g b e dam false s

/-- A bound command stops before it has arrived: the phase completes faulted (10 R238). -/
def arriveFaulted (g b : Nat) (s : State) : State :=
  if bMode ((s.core g).barrier b) = 1 then completeLocal g b true s else arriveDomain g b .k false true s

/-- Whether two phases belong to one object of one domain. -/
def ZPhase.sameAs (z : ZPhase) (mode b launch inst : Nat) : Bool :=
  decide (z.mode = mode) && decide (z.b = b) && decide (z.launch = launch) && decide (z.inst = inst)

/-- The team node of a core. -/
def teamOf (g : Nat) : Nat := 8 * coreDie g + coreY g

/-- Arrivals go up level by level (15 R327): a team's node forwards one message to the die's node once all the team's members have
arrived, the die's node one to the module's once all its teams have, and that one to the fabric group. -/
def ZPhase.forward (z : ZPhase) (members : List Nat) : ZPhase :=
  let node (of_ : Nat → Nat) (got : Nat → Bool) : List Nat :=
    (members.foldl (fun acc m => insWord (of_ m) acc) []).filter (fun t => members.all (fun m => decide (of_ m ≠ t) || got m))
  let teams := if 3 ≤ z.mode then node teamOf (fun m => z.arrived.contains m) else []
  let dies := if 4 ≤ z.mode then node coreDie (fun m => teams.contains (teamOf m)) else []
  { z with teams := teams, dies := dies, up := decide (z.mode = 5) && members.all (fun m => dies.contains (coreDie m)) }

/-- The node at the object's level has the message of every node, or member, below it. -/
def ZPhase.all (z : ZPhase) (members : List Nat) (alone : Bool) : Bool :=
  match z.mode with
  | 3 => members.all (fun m => z.teams.contains (teamOf m))
  | 4 => members.all (fun m => z.dies.contains (coreDie m))
  | 5 => z.up && (z.group || alone)
  | _ => members.all (fun m => z.arrived.contains m)

/-- The members of a phase's domain, core g among them. -/
def ZPhase.members (z : ZPhase) (g : Nat) : List Nat := domainMembers (unitPlace z.unit) g z.mode

/-- A phase at whose level every arrival has come, or that a faulted arrival completes, completes; dam sends its close (15 R327, 10
R238, 18 R358). `own`: a faulted arrival of this module has come just now; it is forwarded to the fabric group at once. -/
def settlePhase (g : Nat) (own : Bool) (z0 : ZPhase) (s : State) : State :=
  let others := groupDevices s z0.unit
  let members := z0.members g
  let z := z0.forward members
  let s := if z.mode = 5 && !z.complete && (own || (z.up && !z0.up)) then
      { s with zSent := s.zSent ++ [{ launch := z.launch, b := z.b, dam := z.dam, flt := z.flt }] } else s
  let put (z : ZPhase) (s : State) : State := { s with zenith := s.zenith.map (fun x => if x.id = z.id then z else x) }
  if (z.all members others.isEmpty || z.flt) && !z.complete then
    if z.dam then
      startClose (tagOf z.unit) (.domainPhase z.id) (unitPlace z.unit).die0 (if z.mode = 5 then others else [])
        (put { z with complete := true, closed := false } s)
    else put { z with complete := true, closed := true } s
  else put z s

/-- Where the object of member g stands: with the unit that has arrived there, where that is saved now (20 R381). -/
def State.memberKey (s : State) (g b : Nat) : Nat :=
  match s.disp.saved.find? (fun x => decide (x.home = g) && decide ((Tbl.get Arrived.none x.core.arrived b).streams ≠ 0)) with
  | some x => savedKey x.id
  | none => g

/-- The unit that has arrived at an object, or else the one that runs: it may have ended since. -/
def Core.senderOf (c : Core) (b : Nat) : Option WorkUnit :=
  match (Tbl.get Arrived.none c.arrived b).unit with | some u => some u | none => c.unit

/-- A new phase of an object of core g's domain, in which no member has arrived. -/
def newPhase (g mode b : Nat) (u : Option WorkUnit) (s : State) : ZPhase :=
  { id := s.zNext, mode := mode, b := b, launch := unitLaunch u, unit := u, inst := domainInst g mode, arrived := [], released := [], group := false,
    dam := false, flt := false, complete := false, closed := false, first := none, teams := [], dies := [], up := false, owes := [] }

/-- A member's arrival message reaches its Zenith node (15 R327): it joins the first phase of its object in which it
has not arrived. The fault of a bound command whose member has arrived already reaches the phase in which it has (10 R238). -/
def nodeArrival (g b : Nat) (s : State) : State :=
  let k := s.memberKey g b
  let c := s.unitCore k
  let a := Tbl.get Arrived.none c.arrived b
  let mine (z : ZPhase) : Bool := z.sameAs a.mode b (unitLaunch (c.senderOf b)) (domainInst g a.mode) && !z.released.contains g
  let s' := s.setUnitCore k { c with arrived := Tbl.set Arrived.none c.arrived b { a with atNode := true, fltAt := a.flt } }
  if a.streams = 0 || (a.atNode && (a.fltAt || !a.flt)) then s
  else if a.atNode then
    match s.zenith.find? (fun z => mine z && z.arrived.contains g) with
    | some z => settlePhase g true { z with flt := true } s'
    | none => s'
  else
    let owes := (Tbl.get [] c.bOwes b).map (fun o => { o with core := some (o.core.getD g) })
    let join (z : ZPhase) : ZPhase :=
      { z with arrived := z.arrived ++ [g], dam := z.dam || a.dam, flt := z.flt || a.flt, owes := addOwes z.owes owes }
    match s.zenith.find? (fun z => mine z && !z.arrived.contains g) with
    | some z => settlePhase g a.flt (join z) s'
    | none =>
      let z := newPhase g a.mode b (c.senderOf b) s'
      settlePhase g a.flt (join z) { s' with zenith := s'.zenith ++ [z], zNext := s'.zNext + 1 }

/-- The arrivals of the other devices of a fabric group have come to the module's node, with their dam and fault bits (15
R327). -/
def groupArrival (g b : Nat) (dam flt : Bool) (s : State) : State :=
  let join (z : ZPhase) : ZPhase := { z with group := true, dam := z.dam || dam, flt := z.flt || flt }
  let u := (s.unitCore (s.memberKey g b)).senderOf b
  match s.zenith.find? (fun z => z.sameAs 5 b (unitLaunch u) 0 && !z.group) with
  | some z => settlePhase g false (join z) s
  | none =>
    let z := newPhase g 5 b u s
    settlePhase g false (join z) { s with zenith := s.zenith ++ [z], zNext := s.zNext + 1 }

/-- The release reaches one member: its phase completes there (09 R209, 10 R238), unless a BINIT has given the object
another mode since the member arrived, or the core has another tag's objects by now. -/
def releaseMember (z : ZPhase) (s : State) (g : Nat) : State :=
  let k := s.memberKey g z.b
  let c := s.unitCore k
  if c.tagNow ≠ some (tagOf z.unit) then s
  else
    let c := c.owesOver z.b z.owes
    let c := if bMode (c.barrier z.b) = z.mode then c.bumpPhase z.b z.flt else c
    let w := c.barrier z.b
    s.setUnitCore k { c with arrived := Tbl.set Arrived.none c.arrived z.b Arrived.none,
                             bobj := Tbl.set 0 c.bobj z.b (bMake (bPhase w) (bExp w) (bNeed w) false (bFlt w) (bMode w)) }

/-- The release of a phase reaches members of it (15 R327). -/
def releaseTo (members now : List Nat) (z : ZPhase) (s : State) : State :=
  let s := now.foldl (releaseMember z) s
  let z := { z with released := z.released ++ now, first := some (z.first.getD s.now) }
  if members.all (fun m => z.released.contains m) then { s with zenith := s.zenith.filter (fun x => decide (x.id ≠ z.id)) }
  else { s with zenith := s.zenith.map (fun x => if x.id = z.id then z else x) }

/-- The completed phase whose release has not reached member g of its object b: the one in which it has arrived, or the one of its
object's present domain. -/
def phaseOf (g b : Nat) (s : State) : Option ZPhase :=
  let c := s.unitCore (s.memberKey g b)
  let a := Tbl.get Arrived.none c.arrived b
  let mode := if a.streams ≠ 0 then a.mode else bMode (c.barrier b)
  s.zenith.find? (fun z => z.sameAs mode b (unitLaunch (c.senderOf b)) (domainInst g mode) && z.complete && z.closed && !z.released.contains g)

/-- The release of a completed phase reaches member g, and with it every member of its team, in one cycle (15 R327). -/
def domainReleaseAt (g : Nat) (z : ZPhase) (s : State) : State :=
  releaseTo (z.members g) ((z.members g).filter (fun m => !z.released.contains m && decide (teamOf m = teamOf g))) z s

/-- The cycle by which the release of a phase has reached every member: 8 cycles after the first of a die, 40 after the first of
a module (15 R327). -/
def ZPhase.deadline (z : ZPhase) : Option Nat :=
  match z.mode, z.first with
  | 3, some t => some (t + 8)
  | 4, some t => some (t + 40)
  | _, _ => none

/-- A release that has reached its last cycle reaches the members left. -/
def releaseDue (s : State) : State :=
  (s.zenith.filter (fun z => match z.deadline with | some t => decide (t ≤ s.now) | none => false)).foldl (fun s z =>
    match z.released.head? with
    | none => s
    | some g =>
      releaseTo (z.members g) ((z.members g).filter (fun m => !z.released.contains m)) z s) s

/- What waits for a stream's accesses. -/

/-- A setting of the event latch, which a WFE of the same cycle has already seen (09 R211). -/
def Core.setLatch (c : Core) : Core := if c.cyc.wfe then c else { c with latch := true }

/-- Sets the event latches of cores; through W, in the cycle given, or now where the accesses before it have taken longer (09 R211). -/
def setLatches (cores : List Nat) (at_ : Option Nat) (s : State) : State :=
  let now := cores.foldl (fun s k => s.setCore k (s.core k).setLatch) s
  match at_ with
  | some t => if s.now < t then { s with sevFlight := s.sevFlight ++ cores.map (fun k => (k, t)) } else now
  | none => now

/-- The ring boundaries between two dies, the shorter way (07 R137). -/
def ringBoundaries (a b : Nat) : Nat :=
  let k := (ringPos b + 4 - ringPos a) % 4
  min k (4 - k)

/-- The die of an order-first unit's queue (18 R362). -/
def unitDie : OfUnit → Nat
  | .tile pa => paDie pa
  | .slot c _ => coreDie c

/-- Grants in a unit's queue: a write when every earlier request is released, a read when every earlier write is. A
grant reaches its core 160 cycles later, plus 160 for each ring boundary (18 R362). -/
def grantQueue (s : State) (u : OfUnit) (q : List OfReq) : List OfReq × List OfGrant :=
  let rec go : List OfReq → Bool → Bool → List OfReq × List OfGrant
    | [], _, _ => ([], [])
    | r :: rs, anyBefore, writeBefore =>
      let ok := if r.write then !anyBefore else !writeBefore
      let new := ok && !r.granted
      let die := match s.meridian.txs.find? (fun t => t.id = r.tx) with | some t => t.die | none => 0
      let (rs', gs) := go rs true (writeBefore || r.write)
      ({ r with granted := r.granted || ok } :: rs',
       if new then { tx := r.tx, unit := u, due := s.now + 160 + 160 * ringBoundaries (unitDie u) die } :: gs else gs)
  go q false false

/-- Grants at every unit queue. -/
def grantAll (s : State) : State :=
  let m := s.meridian
  let r := m.queues.map (fun uq => let (q, gs) := grantQueue s uq.1 uq.2; ((uq.1, q), gs))
  { s with meridian := { m with queues := r.map Prod.fst, grants := m.grants ++ r.flatMap Prod.snd } }

/-- Releases a transaction: its grants and places (18 R364). One whose requests are not yet in the queues gives them
up when they would be taken. -/
def releaseTx (tx : Nat) (s : State) : State :=
  let m := s.meridian
  let queues := (m.queues.map (fun uq => (uq.1, uq.2.filter (fun r => decide (r.tx ≠ tx))))).filter (fun uq => !uq.2.isEmpty)
  let txs := m.txs.map (fun t => if t.id = tx then { t with released := true } else t)
  grantAll { s with meridian := { m with queues := queues, txs := txs, grants := m.grants.filter (fun g => decide (g.tx ≠ tx)) } }

/-- Performs what has waited for stream accesses that are now all performed. A pending arrival at a domain object
that a stream has already reached in this phase, or is about to reach with an earlier one, goes on waiting (16 R333), and
so does one in whose cycle a stream has arrived that comes after its own (09 R209). What K has acquired counts for the arrival of its
bound command (10 R237, 18 R353). -/
def runPending (g : Nat) (s : State) (p : Pending) : State :=
  let c := s.core g
  let done (s : State) : State := s.setCore g ((s.core g).deliverAll p.path p.places)
  let drop (s : State) : State := s.setCore g { s.core g with pend := (s.core g).pend.erase p }
  let waits :=
    if p.dredOnly then (c.stores p.e).any (fun a => decide (a.ord < p.ord) && (match a.kind with | .dred _ => true | _ => false))
    else accPending s g p.e p.far p.ord
  if waits || (p.far && owed s g p.e) then s
  else match p.kind with
    | .arrive b dam =>
      let w := c.barrier b
      if bFlt w then
        unitFault g { code := cBARRIER, src := engNum p.e, pc := p.pc, addr := c.textAddr p.e p.pc } (drop s)
      else if decide (2 ≤ bMode w) && (decide ((Tbl.get Arrived.none c.arrived b).streams ≠ 0)
          || (c.pend.takeWhile (fun q => decide (q ≠ p))).any (fun q => match q.kind with | .arrive b' _ => decide (b' = b) | _ => false)) then s
      else if c.laterArrived p.e b then s
      else done (arriveAt g b p.e dam (if p.dredOnly && decide (p.e ≠ .k) then drop s else noteRelease g b p.e p.ord (drop s)))
    | .sev cores t => done (setLatches cores t (drop s))
    | .ofend tx => done (releaseTx tx (drop s))

/-- Every transaction of core g ends: SUBMITTED and GRANTED ones give up their places and grants, in global order (18 R364, 09
R218). -/
def endTxs (g : Nat) (s : State) : State :=
  let c := s.core g
  let open_ := (List.range 4).filterMap (fun i =>
    let o := Tbl.get OfSlot.reset c.ofs i
    match o.st with | .submitted | .granted => some o.tx | _ => none)
  let s := (open_.foldl (fun acc x => insWord x acc) []).foldl (fun s x => releaseTx x s) s
  s.setCore g { s.core g with ofs := (List.range 4).foldl (fun t i => Tbl.set OfSlot.reset t i
    { OfSlot.reset with gen := (Tbl.get OfSlot.reset t i).gen }) (s.core g).ofs }

/-- What a stream's ending instruction waits for is over: every access of S or V has been performed and no earlier instruction
is still to complete; every command of M or K has completed (06 R122, 09 R194, 11 R268). -/
def endQuiet (s : State) (g : Nat) (e : Eng) : Bool :=
  let c := s.core g
  match e with
  | .m => c.mcmds.isEmpty
  | .k => c.kcmds.isEmpty
  | _ => !accPending s g e true (c.sOrd + 1) && !(c.pend.any (fun p => decide (p.e = e))) && (c.subs.isEmpty || decide (e ≠ .s))

/-- An ending instruction that has issued completes when its time has come: its tokens are delivered and the stream has ended.
S's transactions end with it, and a BOUND record that is still held can no longer be taken (06 R122, R126, 09 R218). -/
def endStream (g : Nat) (e : Eng) (s : State) : State :=
  match ((s.core g).stream e).ending with
  | none => s
  | some places =>
    if (s.core g).stopped || !endQuiet s g e then s
    else
      let s := if e = .s then endTxs g s else s
      let c := (s.core g).deliverAll ((s.core g).stream e).path places
      let s := s.setCore g (c.setStream e { c.stream e with ended := true, ending := none })
      match e, (s.core g).boundQ with
      | .s, r :: _ => boundFault g r.record s
      | _, _ => s

/-- An ending instruction issues; it completes at once where nothing is left to wait for. -/
def issueEnd (e : Eng) (tk : BitVec 3) (s : State) : State :=
  endStream s.cur e (s.onMe (fun c =>
    (c.setStream e { c.stream e with ending := some (fifosPushed e (c.tokenSet e tk)) }).advancePc e s.now 1))

/-- Settles core g: everything pending whose accesses are performed; then an S access that failed the check of R216
releases the core's grants in global order, ends its other transactions and faults (21 R387, 18 R364), and an ending instruction
whose stream has nothing left completes (06 R122). -/
def settle (g : Nat) (s : State) : State :=
  let s := (s.core g).pend.foldl (runPending g) s
  let c := s.core g
  match c.undeclared with
  | some f =>
    if accPending s g .s true (c.sOrd + 1) then s
    else
      let s := endTxs g s
      let c := (s.core g).releaseAll (c.subs.flatMap (fun x => x.2.2.2.1))
      unitFault g f (s.setCore g { c with undeclared := none, subs := [] })
  | none => endStream g .v (endStream g .s s)

end Sys2Proof.Machine
end

