-- ==== Sys2Proof/Machine/Access.lean ====
section
/-!
DEFINITION. The accesses of the S and V streams: their checks (07 R135 to R139, 09 R182), their load and store
queues (09 R198, R199, 11 R258), and the performing of the access at a queue's head.
-/
namespace Sys2Proof.Machine

/-- Where an access leads once its form, alignment and place are checked. -/
inductive Target where
  | sp (g addr : Nat)
  | w (members : List Nat) (addr : Nat)
  | d (va : Nat)
  | cew (off : Nat)
  | f (dev va : Nat)
  deriving DecidableEq, Repr, Inhabited

/-- The placement and tag check of an N access's target (07 R137): a fault code, or whether it must wait for the
target's zeroing. -/
def tagCheck (s : State) (g t : Nat) : Option Nat :=
  if fencedDie s (coreDie t) && decide (coreDie t ≠ coreDie g) then some cUNREACH
  else if (s.core t).tagNow = some (s.core g).unitTag then none
  else some cPROTECT

/-- Whether a core is zeroing its state for a change of tag (05 R110). -/
def zeroingNow (s : State) (t : Nat) : Bool := (s.core t).zeroing.isSome

/-- The checks of an access before translation, in the order of R182: form, alignment to `align` bytes, placement and
request tag. A W store's members have been checked at its issue (07 R138). -/
def resolve (s : State) (g : Nat) (qa : Word) (n align : Nat) : Except Nat Target :=
  match formFault qa with
  | some e => .error e
  | none =>
    if qByte qa % align ≠ 0 then .error cALIGN
    else match qSpc qa with
      | 0 => if inCew s (qVa qa) n then .ok (.cew (qVa qa - s.plat.cew.toNat)) else .ok (.d (qVa qa))
      | 1 => if 2 ^ 23 < qAddr qa + n then .error cPROTECT else .ok (.sp g (qAddr qa))
      | 2 =>
        match nTarget (s.core g).placeOf g qa with
        | none => .error cPLACE
        | some t =>
          match tagCheck s g t with
          | some e => .error e
          | none => if 2 ^ 23 < qAddr qa + n then .error cPROTECT else .ok (.sp t (qAddr qa))
      | 3 =>
        match wMembers (s.core g).placeOf g (qMask qa) with
        | none => .error cPLACE
        | some ms => if 2 ^ 23 < qAddr qa + n then .error cPROTECT else .ok (.w ms (qAddr qa))
      | _ =>
        let dev := (s.plat.device.toNat : Int) + qDev qa
        if dev < 0 || decide (4095 < dev) then .error cUNREACH else .ok (.f dev.toNat (qFva qa))

/-- A member of a W store refuses it: its tag differs, or it zeroes its state (07 R138). -/
def wRefused (s : State) (g : Nat) (ms : List Nat) : Bool := ms.any (fun m => (tagCheck s g m).isSome || zeroingNow s m)

/-- The offset in the collective engines' window that an access names, if it names one (17 R343). -/
def cewOffset (s : State) (a : Access) : Option Nat :=
  match a.pieces.head? with
  | some p => if qSpc p.qa = 0 && inCew s (qVa p.qa) 1 then some ((qVa p.qa - s.plat.cew.toNat) % 0x1000) else none
  | none => none

/-- Whether later accesses wait for this one: fences, loads and atomics with a mask (09 R199, R203), and the pop of a
collective's entry (17 R346). -/
def Access.acquires (s : State) (a : Access) : Bool :=
  match a.kind with
  | .mark | .fence => true
  | .load => decide (a.obs ≠ 0) || decide (cewOffset s a = some 0x40)
  | .amo _ | .cas | .dred _ => decide (a.obs ≠ 0)
  | _ => false

/-- The observers for whom earlier accesses must be performed before this one: a MARK's are all of them, a GO write's those of
class P (09 R198, R199, 17 R346). -/
def Access.releases (s : State) (a : Access) : BitVec 6 :=
  match a.kind with
  | .mark => 0x3F
  | .store => if cewOffset s a = some 0x38 then 0x04 else a.obs
  | .fence | .amo _ | .cas | .dred _ => a.obs
  | _ => 0

/-- An access that stands in both queues (09 R198). -/
def Access.both (a : Access) : Bool :=
  match a.kind with
  | .mark | .fence | .amo _ | .cas => true
  | _ => false

/-- Bytes that a piece touches: a scratchpad by its core, D and F by a space tag and the virtual address (15 R319), the
first of them, which byte of the piece it is, and their number. -/
structure Span where
  space : Nat
  addr : Nat
  off : Nat
  n : Nat
  deriving DecidableEq, Repr, Inhabited

/-- The runs of bytes that words of a W store write (11 R260). -/
def wRuns (members : List Nat) (addr : Nat) (mask : BitVec 16) (n : Nat) : List Span :=
  members.flatMap (fun m =>
    if mask = 0xFFFF then [Span.mk m addr 0 n]
    else ((List.range (n / 4)).filter (fun k => mask.getLsbD k)).map (fun k => Span.mk m (addr + 4 * k) (4 * k) 4))

/-- The bytes a piece touches. -/
def pieceSpans (s : State) (g : Nat) (p : Piece) : List Span :=
  match qSpc p.qa with
  | 0 => [Span.mk 0x1000 (qVa p.qa) 0 p.n]
  | 4 => [Span.mk (0x2000 + (qDev p.qa + 4096).toNat) (qFva p.qa) 0 p.n]
  | 1 => [Span.mk g (qAddr p.qa) 0 p.n]
  | 2 => match nTarget (s.core g).placeOf g p.qa with | some t => [Span.mk t (qAddr p.qa) 0 p.n] | none => []
  | 3 => match wMembers (s.core g).placeOf g (qMask p.qa) with | some ms => wRuns ms (qAddr p.qa) p.mask p.n | none => []
  | _ => []

/-- The bytes that an access has still to touch: for a compressing store the whole bank (11 R262). -/
def accessSpans (s : State) (g : Nat) (a : Access) : List Span :=
  match a.kind with
  | .pack => (a.pieces.take 1).flatMap (fun p => (pieceSpans s g p).map (fun x => Span.mk x.space (x.addr / 2 ^ 19 * 2 ^ 19) 0 (2 ^ 19)))
  | _ => (a.pieces ++ a.out).flatMap (pieceSpans s g)

def spansOverlap (x y : Span) : Bool := decide (x.space = y.space) && decide (x.addr < y.addr + y.n) && decide (y.addr < x.addr + x.n)

def accessesOverlap (s : State) (g : Nat) (a b : Access) : Bool :=
  let ys := accessSpans s g b
  (accessSpans s g a).any (fun x => ys.any (spansOverlap x))

/-- The place of a request among those that reach a bank in one cycle: W landings come first, then the transform unit (1),
M, V, K, S, and N accesses by their core (07 R147). -/
def bankRank (g : Nat) (e : Eng) (qa : Word) : Nat :=
  if qSpc qa = 2 then 6 + g else match e with | .m => 2 | .v => 3 | .k => 4 | .s => 5
/-- No request of a later place has been performed at a core's scratchpad in this cycle. -/
def bankOpen (s : State) (t rank : Nat) : Bool := decide ((s.core t).cyc.rank ≤ rank)
/-- A request of this place is performed at a core's scratchpad. -/
def enterBank (t rank : Nat) (s : State) : State :=
  s.setCore t { s.core t with cyc := { (s.core t).cyc with rank := max (s.core t).cyc.rank rank } }

/-- Reads bytes of a scratchpad: POISON with the poisoned word's address, or the bytes (07 R160). -/
def readSp (s : State) (t a n : Nat) : Except Nat (List Byte) :=
  match poisonIn (s.core t).spPoison a n with
  | some w => .error (8 * w)
  | none => .ok (bytesAt (s.core t).sp a n)

/-- Writes bytes of a scratchpad. -/
def writeSp (t a : Nat) (bs : List Byte) (s : State) : State :=
  let c := s.core t
  { s.setCore t { c with sp := putBytes c.sp a bs, spPoison := clearPoison c.spPoison a bs.length } with
    flips := clearFlips (flipSp t) a bs.length s.flips }

/-- The format register of the bank of a scratchpad address (07 R146, R148). -/
def bfOf (c : Core) (addr : Nat) : Word := Tbl.get 0xFF c.bf (addr / 2 ^ 19 % 16)
def bfFmt (b : Word) : Nat := (b.extractLsb' 0 8).toNat
def bfScaled (b : Word) : Bool := b.getLsbD 8
def bfApack (b : Word) : Bool := b.getLsbD 9
def bfXoff (b : Word) : Nat := (b.extractLsb' 16 7).toNat

/-- Where an element of an A-pack bank is stored (07 R153): the fault code with the address it logs, no place for a
zero, or the element's scratchpad address. `off` is bank-relative, `w` the element's bytes. -/
def apackAt (c : Core) (bank xoff off w : Nat) : Except (Nat × Nat) (Option Nat) :=
  let base := bank * 2 ^ 19
  let e := off / w
  let n := e / 64
  let i := e % 64
  let dir := xoff * 4096 + 4 * n
  if 2 ^ 19 < dir + 4 then .error (cPROTECT, base + dir)
  else match poisonIn c.spPoison (base + dir) 4 with
  | some p => .error (cPOISON, 8 * p)
  | none =>
    let d := numAt c.sp (base + dir) 4
    if d / 2 ^ 19 ≠ 0 || d % 16 ≠ 0 then .error (cPROTECT, base + dir)
    else match poisonIn c.spPoison (base + d) 8 with
    | some p => .error (cPOISON, 8 * p)
    | none =>
      let m : BitVec 64 := BitVec.ofNat 64 (numAt c.sp (base + d) 8)
      let cnt (k : Nat) : Nat := (List.range k).foldl (fun acc j => if m.getLsbD j then acc + 1 else acc) 0
      if 2 ^ 19 < d + 8 + cnt 64 * w then .error (cPROTECT, base + dir)
      else if !m.getLsbD i then .ok none
      else .ok (some (base + d + 8 + cnt i * w))

/-- The width in bytes of an A-pack bank's element (07 R149: 8, 16 or 32 bits). -/
def apackWidth (b : Word) : Nat := match fmtOfCode (bfFmt b) with | some f => f.width / 8 | none => 1

/-- Reads `n` bytes through the banks' read ports, with their poison marks: expanded where a bank holds A-pack blocks
(07 R153). -/
def readMarked (c : Core) : Nat → Nat → Except (Nat × Nat) (List MByte)
  | 0, _ => .ok []
  | k + 1, a =>
    let b := bfOf c a
    let raw (x : Nat) : MByte := (byteAt c.sp x, (poisonIn c.spPoison x 1).isSome)
    let one : Except (Nat × Nat) MByte :=
      if bfApack b then
        let w := apackWidth b
        let off := a % 2 ^ 19
        match apackAt c (a / 2 ^ 19) (bfXoff b) (off / w * w) w with
        | .error e => .error e
        | .ok none => .ok (0, false)
        | .ok (some x) => .ok (raw (x + off % w))
      else .ok (raw a)
    match one, readMarked c k (a + 1) with
    | .error e, _ => .error e
    | _, .error e => .error e
    | .ok x, .ok xs => .ok (x :: xs)

/-- The same read by a consumer: poison is a fault at the address of the poisoned word (07 R160), which in an A-pack
bank is found through the directory. -/
def readExpanded (c : Core) (a n : Nat) : Except (Nat × Nat) (List Byte) :=
  match readMarked c n a with
  | .error e => .error e
  | .ok bs =>
    match bs.findIdx? Prod.snd with
    | none => .ok (bs.map Prod.fst)
    | some k =>
      let at_ := a + k
      let b := bfOf c at_
      let w := apackWidth b
      let home := if bfApack b then (match apackAt c (at_ / 2 ^ 19) (bfXoff b) (at_ % 2 ^ 19 / w * w) w with
        | .ok (some x) => x + at_ % 2 ^ 19 % w
        | _ => at_) else at_
      .error (cPOISON, home / 8 * 8)

/-- Writes bytes into the scratchpad of every member of a W store, 12 cycles after it left (07 R138). -/
def landW (f : WFlight) (s : State) : State :=
  let s := (wRuns f.members f.addr f.mask f.data.length).foldl (fun s r => writeSp r.space r.addr ((f.data.drop r.off).take r.n) s) s
  f.members.foldl (fun s m => (f.pois.zipIdx.filter Prod.fst).foldl (fun s x =>
    let c := s.core m
    s.setCore m { c with spPoison := insWord ((f.addr + x.2) / 8) c.spPoison }) s) s

/- Enqueuing. -/

/-- An access of a stream enters its queue, or both. -/
def enqueue (c : Core) (e : Eng) (a : Access) : Core :=
  let c := { c with sOrd := c.sOrd + 1 }
  let l (c : Core) := c.setLoads e (c.loads e ++ [a])
  let t (c : Core) := c.setStores e (c.stores e ++ [a])
  if a.both then t (l c) else if a.kind.loads then l c else t c

/-- A new access of stream `e` with the next number of its program order. -/
def mkAccess (c : Core) (e : Eng) (now : Nat) (kind : AccKind) (pieces : List Piece) (dst : Nat) (obs : BitVec 6)
    (places : List Nat) : Access :=
  { ord := c.sOrd, pc := (c.stream e).pc, kind := kind, pieces := pieces, got := [], dst := dst, obs := obs, bad := false, begun := false,
    out := [], issued := now, since := now, bound := (c.stream e).issuedBnd.toNat, full := none, fullRaised := false,
    places := places, path := (c.stream e).path }

/-- The first access of a queue that has not left over the fabric. -/
def headOf (l : List Access) : Option Access := l.find? (fun a => !a.away)

/-- A queue whose head has left: the next access stands at its head from now on (15 R332). -/
def headSince (now : Nat) : List Access → List Access
  | [] => []
  | a :: l => if a.away then a :: headSince now l else { a with since := now } :: l

/-- Takes the access numbered `ord` out of both queues. -/
def dequeue (c : Core) (e : Eng) (ord now : Nat) : Core :=
  let cut (l : List Access) : List Access :=
    let left := l.filter (fun a => decide (a.ord ≠ ord))
    if (headOf l).map Access.ord = some ord then headSince now left else left
  (c.setLoads e (cut (c.loads e))).setStores e (cut (c.stores e))

/-- An access has left over the fabric whole: what stood behind it in its queues comes to the head. -/
def afterHead (c : Core) (e : Eng) (a : Access) (now : Nat) : Core :=
  let next (l : List Access) : List Access :=
    if a.away && decide ((headOf (l.takeWhile (fun x => decide (x.ord ≠ a.ord)))).isNone) && l.any (fun x => decide (x.ord = a.ord)) then
      headSince now l else l
  (c.setLoads e (next (c.loads e))).setStores e (next (c.stores e))

/-- Replaces the access numbered `a.ord` in both queues. -/
def updateAccess (c : Core) (e : Eng) (a : Access) : Core :=
  let upd (l : List Access) : List Access := l.map (fun x => if x.ord = a.ord then a else x)
  (c.setLoads e (upd (c.loads e))).setStores e (upd (c.stores e))

/- Performing. -/

/-- An access whose parts all leave for one device over the fabric, as those of a later access do: one stream of packets
keeps them in order (18 R351). -/
def sameDevice (a b : Access) : Bool :=
  match (a.pieces ++ a.out).head?, (b.pieces ++ b.out).head? with
  | some p, some q => decide (qSpc p.qa = 4) && decide (qSpc q.qa = 4) && decide (qDev p.qa = qDev q.qa)
  | _, _ => false

/-- An access may be performed after the access `b` that stands before it in its queue: `b` has left over the fabric, and is a
store or leaves for the same device (18 R350, R351). -/
def passes (a b : Access) : Bool := b.away && (!b.kind.loads || sameDevice a b)

/-- Whether an access may be performed now (09 R198, R199, 11 R258): in program order within its queues; a load after the
stores that it overlaps, a store after every access that it overlaps; an access with a mask after all that its observers are to
see, and where these are F or H after the stores that its stream has acquired (18 R353, log 49). -/
def mayPerform (s : State) (g : Nat) (e : Eng) (a : Access) : Bool :=
  let c := s.core g
  let before (l : List Access) : List Access := l.filter (fun b => decide (b.ord < a.ord))
  let earlier := before (c.loads e ++ c.stores e)
  let flying := s.wFlight.filter (fun w => decide (w.g = g) && decide (w.e = e))
  let obs := a.releases s
  let apart (b : Access) : Bool := (b.away && sameDevice a b) || !accessesOverlap s g a b
  (if a.both || a.kind.loads then before (c.loads e) else []).all (passes a)
    && (if a.both || !a.kind.loads then before (c.stores e) else []).all (passes a)
    && !(earlier.any (Access.acquires s))
    && (decide (obs = 0) || earlier.all (fun b => b.storeAway && decide (obs &&& 0x30 = 0)))
    && (decide (obs &&& 0x30 = 0) || !owed s g e)
    && (decide (obs &&& 0x0F = 0) || flying.isEmpty)
    && (if a.kind.writes then
          earlier.all apart && (flying.isEmpty || a.pieces.all (fun p => decide (qSpc p.qa = 3)))
        else earlier.all (fun b => !b.kind.writes || apart b)
          && !(accessSpans s g a).any (fun x => flying.any (fun w => (wRuns w.members w.addr w.mask w.data.length).any (spansOverlap x))))

/-- The largest alignment an access must have: its size for S (09 R182, R197, R201), 4 bytes for V words. -/
def pieceAlign (e : Eng) (k : AccKind) (p : Piece) : Nat :=
  match e, k with
  | .v, .pack => 1
  | .v, _ => 4
  | _, _ => p.n

/-- Checks one piece (07 R136, R137, R143): the code of its fault, or the piece with the place that a D access's translation has
found; none where it must wait for a zeroing or for a walk. -/
def checkPiece (g : Nat) (e : Eng) (k : AccKind) (p : Piece) (s : State) : Except Nat (Option Piece) × State :=
  match resolve s g p.qa p.n (pieceAlign e k p) with
  | .error x => (.error x, s)
  | .ok (.sp t _) => (.ok (if t ≠ g && zeroingNow s t then none else some p), s)
  | .ok (.w _ _) => (.ok (some p), s)
  | .ok (.cew off) =>
    -- the collective engines' window takes 8-byte S loads and stores only (17 R343)
    let r := off % 0x1000
    let ok := decide (e = .s) && decide (p.n = 8) && (match k with
      | .load => r % 8 = 0 && (r ≤ 0x30 || r = 0x40 || r = 0x48)
      | .store => r % 8 = 0 && r ≤ 0x38
      | _ => false)
    (if ok then .ok (some p) else .error cPROTECT, s)
  | .ok (.d va) =>
    match dSegments g va p.n k.writes s with
    | (.error x, s) => (if walkWaits x then .ok none else .error x, s)
    | (.ok r, s) => (.ok (some { p with segs := r }), s)
  | .ok (.f dev _) => (if pathUp s (coreDie g) dev then .ok (some p) else .error cUNREACH, s)

/-- The first fault among an access's pieces, or the pieces as checked; none where one must wait. -/
def checkPieces (g : Nat) (e : Eng) (k : AccKind) : List Piece → State → Except (Nat × Word) (Option (List Piece)) × State
  | [], s => (.ok (some []), s)
  | p :: ps, s =>
    match checkPiece g e k p s with
    | (.error x, s) => (.error (x, p.qa), s)
    | (.ok none, s) => (.ok none, s)
    | (.ok (some p), s) =>
      match checkPieces g e k ps s with
      | (.ok (some ps), s) => (.ok (some (p :: ps)), s)
      | r => r

/-- What performing one piece gives. -/
inductive Piece1 where
  | data (bs : List Byte) (s : State)
  | bad (code : Nat) (addr : Word) (s : State)
  | away (s : State)
  | wait (s : State)
  deriving Repr

/-- The S stream's loads and stores of the collective window are given by the caller: the offset in the window, and the value
of a store. -/
abbrev CewOp := Nat → Option Word → State → Option (Word × State)

/-- The issuer index of a deterministic update (09 R204, 11 R264). -/
def issuerOf (g : Nat) (e : Eng) (lane : Nat) : Nat := g * 1024 + (if e = .v then lane else 0)

/-- A read of scratchpad bytes through a bank's read port corrects their single-bit errors, in an A-pack bank those of the
directory entries and blocks that it reads (07 R146, R153). -/
def correctRead (expand : Bool) (t a n : Nat) (s : State) : State :=
  if s.flips.isEmpty then s
  else
    let c := s.core t
    (List.range n).foldl (fun s k =>
      let b := bfOf c (a + k)
      let w := apackWidth b
      let off := (a + k) % 2 ^ 19
      let base := a + k - off
      if expand && bfApack b then
        let dir := bfXoff b * 4096 + 4 * (off / w / 64)
        let s := correctSp t (base + dir) 4 s
        let s := correctSp t (base + numAt c.sp (base + dir) 4 % 2 ^ 19) 8 s
        match apackAt c ((a + k) / 2 ^ 19) (bfXoff b) (off / w * w) w with
        | .ok (some x) => correctSp t (x + off % w) 1 s
        | _ => s
      else correctSp t (a + k) 1 s) s

/-- Where a checked part of a D access lies: as its check has found it, or as its translation finds it now; a fenced die's DRAM cannot be
reached from elsewhere (20 R379). -/
def pieceSegs (g : Nat) (k : AccKind) (p : Piece) (va : Nat) (s : State) : Except Nat (List Seg) × State :=
  if p.segs.isEmpty then dSegments g va p.n k.writes s
  else (if p.segs.any (fun x => cutOff s (coreDie g) x.1) then .error cUNREACH else .ok p.segs, s)

/-- Performs one piece of an access at its home (09 R197, R201, R202, R204, 11 R259). -/
def performPiece (cew : CewOp) (g : Nat) (e : Eng) (a : Access) (p : Piece) (s : State) : Piece1 :=
  let c := s.core g
  let tag := c.unitTag
  let rmw (old : Nat) : Nat :=
    match a.kind with
    | .amo aop => amoNew aop p.n old (leNat p.data)
    | _ => if old = leNat (p.data.take 8) then leNat (p.data.drop 8) else old
  match resolve s g p.qa p.n (pieceAlign e a.kind p) with
  | .error x => .bad x (qLogged p.qa) s
  | .ok (.cew off) =>
    match a.kind with
    | .load => (match cew off none s with | some (v, s) => .data (natLE 8 v.toNat) s | none => .wait s)
    | _ => (match cew off (some (BitVec.ofNat 64 (leNat p.data))) s with | some (_, s) => .data [] s | none => .wait s)
  | .ok (.w ms addr) =>
    let f : WFlight := { g := g, e := e, idx := coreX g - c.placeOf.px, due := max (a.issued + 12) (s.now + 1), members := ms, addr := addr,
                         data := p.data, mask := p.mask }
    .data [] { s with wFlight := s.wFlight ++ [f] }
  | .ok (.sp t addr) =>
    let rank := bankRank g e p.qa
    if !bankOpen s t rank then .wait s
    else
    let s := enterBank t rank s
    let s := if a.kind.loads then correctRead (decide (e = .v)) t addr p.n s else s
    let read : Except (Nat × Nat) (List Byte) :=
      if e = .v then readExpanded (s.core t) addr p.n
      else match readSp s t addr p.n with | .error w => .error (cPOISON, w) | .ok bs => .ok bs
    match a.kind, read with
    | .load, .ok bs => .data bs s
    | .store, _ | .pack, _ => .data [] (writeSp t addr p.data s)
    | .amo _, .ok bs | .cas, .ok bs => .data bs (writeSp t addr (natLE p.n (rmw (leNat bs))) s)
    | .load, .error x | .amo _, .error x | .cas, .error x => .bad x.1 (BitVec.ofNat 64 x.2) s
    | _, _ => .data [] s
  | .ok (.d va) =>
    (match pieceSegs g a.kind p va s with
      | (.error x, s) => if walkWaits x then .wait s else .bad x (qLogged p.qa) s
      | (.ok r, s) =>
        let s := if a.kind.loads then correctSegs r tag s else s
        match a.kind with
        | .load =>
          (match segsPoison s r 0 with
            | some k => .bad cPOISON (BitVec.ofNat 64 ((va + k) / 8 * 8)) s
            | none => .data (readSegs s r) s)
        | .store | .pack => .data [] (writeSegs r p.data s)
        | .amo _ | .cas =>
          (match slicePerform r tag rmw s with
            | (.error x, s) => .bad x (BitVec.ofNat 64 (va / 8 * 8)) s
            | (.ok old, s) => .data (natLE p.n old) s)
        | .dred aop =>
          .away { s with updFlight := s.updFlight ++ [{ pa := (r.headD (0, 0)).1, va := va, width := p.n, fp := decide (aop = 9),
                                                        tag := tag, key := keyOf s.plat.device.toNat (issuerOf g e p.lane) (decide (e = .v)),
                                                        val := leNat p.data, g := g, e := e, ord := a.ord, since := a.since }] }
        | _ => .data [] s)
  | .ok (.f dev va) =>
    let op : PacketOp := match a.kind with
      | .load => .read
      | .amo aop => .atomic (BitVec.ofNat 4 aop)
      | .cas => .cas
      | .dred aop => .update (BitVec.ofNat 4 aop) (BitVec.ofNat 18 (issuerOf g e p.lane)) (decide (e = .v))
      | _ => .write
    let payload := if a.kind = .load then [] else p.data
    match sendPacket (coreDie g) dev 0 tag op va p.n payload [] (.access g e a.ord p.lane) s with
    | .sent s => .away s
    | .full => .wait s
    | .unreachable => .bad cUNREACH (qLogged p.qa) s

/-- Merges one loaded lane into a register's bits. -/
def laneInto (w : Nat) (old : BitVec w) (lane : Nat) (bs : List Byte) : BitVec w :=
  let sh := 32 * lane
  (old &&& ~~~((BitVec.ofNat w (2 ^ (8 * bs.length) - 1)) <<< sh)) ||| ((BitVec.ofNat w (leNat bs)) <<< sh)

/-- An access completes: a load's data reach the register, its tokens are delivered, and it leaves its queues
(09 R183, R197). Under a deterministic AMO nothing is loaded. -/
def finishAccess (g : Nat) (e : Eng) (a : Access) (s : State) : State :=
  let c := s.core g
  let c :=
    if !a.kind.loads then c
    else match e with
      | .s => if a.dst = 0 then c else { c with s := Tbl.set 0 c.s a.dst (BitVec.ofNat 64 (leNat (a.got.flatMap Piece.data))) }
      | _ => { c with v := Tbl.set 0 c.v a.dst (a.got.foldl (fun r p => laneInto 32768 r p.lane p.data) (Tbl.get 0 c.v a.dst)) }
  settle g (s.setCore g ((dequeue c e a.ord s.now).deliverAll a.path a.places))

/-- An access receives an error response (09 R182): a load's register holds a free value from then on, a store is
dropped, and the stream faults. -/
def failAccess (g : Nat) (e : Eng) (a : Access) (code : Nat) (addr : Word) (qa : Word) (s : State) : State :=
  let c := s.core g
  let c :=
    if !a.kind.loads then c
    else match e with
      | .s => if a.dst = 0 then c else { c with s := Tbl.set 0 c.s a.dst (Config.faultedLoad s.tick 0) }
      | _ => { c with v := Tbl.set 0 c.v a.dst ((a.got ++ a.out ++ a.pieces).foldl (fun r p =>
          laneInto 32768 r p.lane (natLE 4 (Config.faultedLoad s.tick p.lane).toNat)) (Tbl.get 0 c.v a.dst)) }
  let s := { s.setCore g ((dequeue c e a.ord s.now).releaseAll a.places) with tick := s.tick + 1 }
  let s := unitFault g { code := code, src := engNum e, pc := a.pc, addr := addr, spc := qSpcBits qa, xtra := qXtra qa } s
  -- the accesses before one that failed its declaration are over with it (21 R387)
  if (s.core g).undeclared.isSome then settle g s else s

/-- A part of an access has failed: no later part leaves, and the access fails for its first failing word once the words before that
one have answered (11 R259). -/
def failPart (g : Nat) (e : Eng) (a : Access) (lane code : Nat) (addr qa : Word) (s : State) : State :=
  let first := match a.err with | some x => if x.1 < lane then x else (lane, code, addr, qa) | none => (lane, code, addr, qa)
  let a := { a with err := some first, pieces := [], got := a.got ++ a.pieces }
  if a.out.any (fun p => decide (p.lane < first.1)) then s.setCore g (updateAccess (s.core g) e a)
  else failAccess g e a first.2.1 first.2.2.1 first.2.2.2 s

/-- Part `p` of an access has been performed, and a load's bytes have come back: the access completes when it was the last. -/
def pieceDone (g : Nat) (e : Eng) (a : Access) (p : Piece) (bs : List Byte) (s : State) : State :=
  let a := { a with got := if a.kind.loads then a.got ++ [{ p with data := bs }] else a.got }
  match a.err with
  | some x => failPart g e a x.1 x.2.1 x.2.2.1 x.2.2.2 s
  | none => if a.pieces.isEmpty && a.out.isEmpty then finishAccess g e a s else s.setCore g (updateAccess (s.core g) e a)

/-- The address of byte `a` of the scratchpad that a qualified address names. -/
def qAt (q : Word) (a : Nat) : Word := (q.extractLsb' 23 41 : BitVec 41) ++ BitVec.ofNat 23 a

/-- The little-endian numbers of `w` bytes in a string. -/
def numsOf (w : Nat) (bs : List Byte) : List Nat := (List.range (bs.length / w)).map (fun i => leNat ((bs.drop (w * i)).take w))

/-- Whether an element counts as a zero (11 R262): +0 or -0 of a floating-point format, all bits zero otherwise. -/
def isZeroElem (f : Fmt) (x : Nat) : Bool := x = 0 || (f.isFloat && decide (x = 2 ^ (f.width - 1)))

/-- The 8-byte words of a string, as writes from a scratchpad address on. -/
def wordPieces (q : Word) (a : Nat) (bs : List Byte) : List Piece :=
  (List.range ((bs.length + 7) / 8)).map (fun k =>
    let d := (bs.drop (8 * k)).take 8
    { lane := 0, qa := qAt q (a + 8 * k), n := d.length, data := d })

/-- The bytes of one A-pack block (07 R152). -/
def packBlock (f : Fmt) (wb : Nat) (xs : List Nat) : List Byte :=
  let keep := xs.filter (fun x => !isZeroElem f x)
  let mask := xs.zipIdx.foldl (fun m xi => if isZeroElem f xi.1 then m else m + 2 ^ xi.2) 0
  let bs := natLE 8 mask ++ keep.flatMap (natLE wb)
  bs ++ List.replicate ((16 - bs.length % 16) % 16) 0

/-- What a compressing store writes into the bank of target core t (11 R262): its fault, or its writes. `data` holds the
register with its disabled words zero. -/
def packPlan (c : Core) (x p : Word) (data : List Byte) : Except Nat (List Piece) :=
  let b := bfOf c (qAddr x)
  let base := qAddr x / 2 ^ 19 * 2 ^ 19
  let wb := apackWidth b
  let f := (fmtOfCode (bfFmt b)).getD .i8
  let xo := qAddr x % 2 ^ 19
  if !bfApack b then .error cPROTECT
  else if xo % (64 * wb) ≠ 0 || qAddr p % 16 ≠ 0 then .error cALIGN
  else
    let n0 := xo / (64 * wb)
    let nb := 64 / wb
    let elems := numsOf wb data
    let blocks := (List.range nb).map (fun n => packBlock f wb ((elems.drop (64 * n)).take 64))
    let dir (n : Nat) : Nat := bfXoff b * 4096 + 4 * n
    let entry (n o : Nat) : Piece := { lane := 0, qa := qAt x (base + dir n), n := 4, data := natLE 4 o }
    let o0 := qAddr p % 2 ^ 19
    let fin := blocks.foldl (fun o bs => o + bs.length) o0
    if 2 ^ 19 < fin || 2 ^ 19 < dir (n0 + nb) + 4 then .error cPROTECT
    else
      let r := blocks.foldl (fun (acc : Nat × Nat × List Piece) bs =>
        (acc.1 + 1, acc.2.1 + bs.length, acc.2.2 ++ wordPieces x (base + acc.2.1) bs ++ [entry acc.1 acc.2.1])) (n0, o0, [])
      .ok (r.2.2 ++ [entry r.1 r.2.1])

/-- What the checks before an access's first byte find (09 R182, 11 R259, R260, R262). -/
inductive Checked where
  | ok (pieces : List Piece) (s : State)
  | bad (code : Nat) (qa : Word) (s : State)
  | wait (s : State)
  deriving Repr

/-- The checks of an access at the head of its queue. -/
def checkAccess (g : Nat) (e : Eng) (a : Access) (s : State) : Checked :=
  match a.kind, a.pieces with
  | .pack, x :: p :: _ =>
    match formFault x.qa, formFault p.qa with
    | some n, _ => .bad n x.qa s
    | none, some n => .bad n p.qa s
    | none, none =>
      match checkPiece g e .pack { x with n := 1 } s with
      | (.error n, s) => .bad n x.qa s
      | (.ok none, s) => .wait s
      | (.ok (some _), s) =>
        let t := match resolve s g x.qa 1 1 with | .ok (.sp t _) => t | _ => g
        match packPlan (s.core t) x.qa p.qa x.data with
        | .error n => .bad n x.qa s
        | .ok ps => .ok ps s
  | _, [] => .ok [] s
  | k, p :: ps =>
    match formFault p.qa with
    | some n => .bad n p.qa s
    | none =>
      if a.bad then .bad cALIGN (((p :: ps).find? (fun x => decide (qByte x.qa % 4 ≠ 0))).getD p).qa s
      else match checkPieces g e k (p :: ps) s with
        | (.error x, s) => .bad x.1 x.2 s
        | (.ok none, s) => .wait s
        | (.ok (some ps), s) => .ok ps s

/-- An address of an access is to enter its walker's miss table, which is full (07 R143). -/
def Access.findsFull (s : State) (g : Nat) (a : Access) : Bool :=
  let c := s.core g
  let missing (va : Nat) : Bool :=
    let l := s.missTable (walkerOf (coreDie g) va)
    !c.tlb.any (fun t => t.covers va) && !c.walkFault.any (fun x => decide (x.1 = va / 2 ^ 21))
      && decide (512 ≤ l.length) && !l.any (fun m => decide (m.page = va / 2 ^ 21))
  a.pieces.any (fun p => qSpc p.qa = 0 && !inCew s (qVa p.qa) 1 && (missing (qVa p.qa) || missing (qVa p.qa + p.n - 1)))

/-- The next part of an access is to leave over the fabric, and its die's retry buffer has no room for it (17 R337). -/
def Access.findsNoRoom (s : State) (g : Nat) (a : Access) : Bool :=
  match a.pieces with
  | p :: _ =>
    let dev := ((s.plat.device.toNat : Int) + qDev p.qa).toNat
    let flits := 1 + ((if a.kind = .load then 0 else p.data.length) + 63) / 64
    decide (qSpc p.qa = 4) && pathUp s (coreDie g) dev && decide (8 * 2 ^ 20 < retryBytes s (coreDie g) + 64 * flits)
  | [] => false

/-- An access goes on waiting; whether it waits for a place in a full miss table, or for room in a retry buffer, is noted. -/
def waitAccess (g : Nat) (e : Eng) (a : Access) (s : State) : State :=
  s.setCore g (updateAccess (s.core g) e { a with full := if a.findsFull s g || a.findsNoRoom s g then some (a.full.getD s.now) else none })

/-- The access of a queue that is next to be performed: the first that has not left over the fabric. -/
def nextAccess (c : Core) (e : Eng) (store : Bool) : Option Access := headOf (if store then c.stores e else c.loads e)

/-- The pages of D space that the parts of an access touch. -/
def Access.pages (s : State) (a : Access) : List Nat :=
  a.pieces.flatMap (fun p => if qSpc p.qa = 0 && !inCew s (qVa p.qa) 1 then [qVa p.qa, qVa p.qa + p.n - 1] else [])

/-- A store that has stood 256 cycles at the head of its queue gains the memory port ahead of its stream's loads, unless it waits for
something itself (15 R332). -/
def storeFirst (s : State) (g : Nat) (e : Eng) : Bool :=
  match nextAccess (s.core g) e true with
  | some a => a.kind.writes && decide (a.since + 256 ≤ s.now) && mayPerform s g e a
      && (a.pages s).all (fun va => (s.core g).tlb.any (fun t => t.covers va))
  | none => false

/-- MEMORY RESPONSE: the next access of a queue is performed, one indivisible part at a time (07 R136, 09 R182, R198, R199, 15
R316, R332). Before its first part every address is checked. -/
def performHead (cew : CewOp) (g : Nat) (e : Eng) (store : Bool) (s : State) : State :=
  match nextAccess (s.core g) e store with
  | none => s
  | some a =>
    if !mayPerform s g e a || (!store && a.kind.loads && !a.both && storeFirst s g e) then s
    else
      nameCorrected 0 a.pc s <| match (if a.begun then .ok a.pieces s else checkAccess g e a s) with
      | .bad n qa s => failAccess g e a n (qLogged qa) qa s
      | .wait s => waitAccess g e a s
      | .ok ps s =>
        let a := { a with begun := true, pieces := ps, full := none }
        match ps with
        | [] => if a.out.isEmpty then finishAccess g e a s else s
        | p :: ps =>
          match performPiece cew g e a p s with
          | .data bs s => pieceDone g e { a with pieces := ps, issued := if qSpc p.qa = 3 then max a.issued (s.now - 11) + 1 else a.issued } p bs s
          | .bad x addr s => failPart g e a p.lane x addr p.qa s
          | .away s =>
            let a := { a with pieces := ps, out := a.out ++ [p] }
            s.setCore g (afterHead (updateAccess (s.core g) e a) e a s.now)
          | .wait s => waitAccess g e a s

/-- The next store of a stream is a W store. -/
def nextIsW (c : Core) (e : Eng) : Bool :=
  match nextAccess c e true with
  | some a => !a.pieces.isEmpty && a.pieces.all (fun p => decide (qSpc p.qa = 3))
  | none => false

/-- W stores leave their queue as soon as they may, so that they land 12 cycles after their issue where nothing before them has
held them longer (07 R138). The fuel is the most W stores that a queue holds, 16 entries of 1,024 words. -/
def launchW (g : Nat) (e : Eng) : Nat → State → State
  | 0, s => s
  | fuel + 1, s =>
    match nextAccess (s.core g) e true with
    | some a =>
      if nextIsW (s.core g) e && mayPerform s g e a then launchW g e fuel (performHead (fun _ _ _ => none) g e true s) else s
    | none => s
def launchWs (g : Nat) (s : State) : State := [Eng.s, .v].foldl (fun s e => launchW g e 16384 s) s

/-- The response to a part of an access arrives (17 R337). -/
def accessAnswered (g : Nat) (e : Eng) (ord lane code : Nat) (bs : List Byte) (poisoned : Bool) (s : State) : State :=
  let c := s.core g
  match (c.loads e ++ c.stores e).find? (fun a => a.ord = ord && a.out.any (fun p => decide (p.lane = lane))) with
  | none => s
  | some a =>
    let p := (a.out.find? (fun p => decide (p.lane = lane))).getD default
    let a := { a with out := a.out.filter (fun x => decide (x.lane ≠ lane)) }
    let word := BitVec.ofNat 64 (qByte p.qa / 8 * 8)
    if code ≠ 0 then failPart g e { a with got := a.got ++ [p] } lane code (if code = cPOISON then word else qLogged p.qa) p.qa s
    else if poisoned then failPart g e { a with got := a.got ++ [p] } lane cPOISON word p.qa s
    else pieceDone g e a p bs s

/-- An update of a stream is accepted or refused at its slice (18 R355). -/
def accessAccepted (g : Nat) (e : Eng) (ord code : Nat) (s : State) : State :=
  let c := s.core g
  match (c.stores e).find? (fun a => a.ord = ord) with
  | some a => (match a.out.head? with | some p => accessAnswered g e ord p.lane code [] false s | none => s)
  | none => s

end Sys2Proof.Machine
end

