-- ==== Sys2Proof/Machine/Scalar.lean ====
section
/-!
DEFINITION. The S stream's integer, constant, compare, predicate and control instructions (09 R184 to R196).
-/
namespace Sys2Proof.Machine

/-- A load, AMO or CAS in flight will write this S register (06 R115 item 4). -/
def sBusy (c : Core) (r : BitVec 6) : Bool :=
  decide (r ≠ 0) && (c.loads .s).any (fun a =>
    decide (a.dst = c.sKey r.toNat) && (match a.kind with | .load | .amo _ | .cas => true | _ => false))

/-- What an S instruction without queue fields asks for: its registers ready and its tokens. -/
def sNeed (s : State) (tk : BitVec 3) (regs : List (BitVec 6)) : Need :=
  { eng := .s, tk := tk, busy := regs.any (sBusy s.me) }

/-- A predicated register result: with p[pg] false nothing is written (06 R117, 09 R181). -/
def sResult (tk : BitVec 3) (pg : BitVec 4) (sd : BitVec 6) (srcs : List (BitVec 6)) (v : Core → Word) (s : State) :
    Host.Outcome State Fault Refusal :=
  issue (sNeed s tk (sd :: srcs)) none s (fun s =>
    complete .s tk (if s.me.getP pg then s.onMe (fun c => c.setS sd (v c)) else s))

/-- A predicated predicate result. -/
def pResult (tk : BitVec 3) (pg pd : BitVec 4) (srcs : List (BitVec 6)) (v : Core → Bool) (s : State) :
    Host.Outcome State Fault Refusal :=
  issue (sNeed s tk srcs) none s (fun s =>
    complete .s tk (if s.me.getP pg then s.onMe (fun c => c.setP pd (v c)) else s))

/- The values of the register forms (09 R184 to R186). -/

def mulHigh (a b : Int) : Word := BitVec.ofInt 64 (a * b / 2 ^ 64)

def sDivs (a b : Word) : Word :=
  if b = 0 then BitVec.ofInt 64 (-1)
  else if a.toInt = -2 ^ 63 && b.toInt = -1 then BitVec.ofInt 64 (-2 ^ 63)
  else BitVec.ofInt 64 (a.toInt.tdiv b.toInt)
def sRems (a b : Word) : Word :=
  if b = 0 then a
  else if a.toInt = -2 ^ 63 && b.toInt = -1 then 0
  else BitVec.ofInt 64 (a.toInt - b.toInt * a.toInt.tdiv b.toInt)
def sDivn (a b : Word) : Word := if b = 0 then BitVec.allOnes 64 else BitVec.ofNat 64 (a.toNat / b.toNat)
def sRemn (a b : Word) : Word := if b = 0 then a else BitVec.ofNat 64 (a.toNat % b.toNat)

/-- A shift or rotate count (09 R184). -/
def shCount (b : Word) : Nat := b.toNat % 64

/-- The number of one bits. -/
def popCount {n : Nat} (x : BitVec n) : Nat := (List.range n).foldl (fun k i => if x.getLsbD i then k + 1 else k) 0
/-- The number of leading zero bits. -/
def leadZeros {n : Nat} (x : BitVec n) : Nat := n - natBits x.toNat

/-- Bits [n:0] sign-extended from bit n (09 R186). -/
def sextFrom (a : Word) (n : Nat) : Word :=
  if a.getLsbD n then a ||| (BitVec.allOnes 64 <<< (n + 1)) else a &&& ~~~(BitVec.allOnes 64 <<< (n + 1))
def zextFrom (a : Word) (n : Nat) : Word := a &&& ~~~(BitVec.allOnes 64 <<< (n + 1))

/-- A two-source register form (09 R184). -/
def sReg2 (op : Word → Word → Word) (sd sa sb : BitVec 6) (pg : BitVec 4) (tk : BitVec 3) (s : State) :
    Host.Outcome State Fault Refusal :=
  sResult tk pg sd [sa, sb] (fun c => op (c.getS sa) (c.getS sb)) s

def execAdd (sd sa sb : BitVec 6) (pg : BitVec 4) (tk : BitVec 3) (s : State) : Host.Outcome State Fault Refusal :=
  sReg2 (fun a b => a + b) sd sa sb pg tk s
def execSub (sd sa sb : BitVec 6) (pg : BitVec 4) (tk : BitVec 3) (s : State) : Host.Outcome State Fault Refusal :=
  sReg2 (fun a b => a - b) sd sa sb pg tk s
def execMul (sd sa sb : BitVec 6) (pg : BitVec 4) (tk : BitVec 3) (s : State) : Host.Outcome State Fault Refusal :=
  sReg2 (fun a b => a * b) sd sa sb pg tk s
def execMulh (sd sa sb : BitVec 6) (pg : BitVec 4) (tk : BitVec 3) (s : State) : Host.Outcome State Fault Refusal :=
  sReg2 (fun a b => mulHigh a.toInt b.toInt) sd sa sb pg tk s
def execMulhn (sd sa sb : BitVec 6) (pg : BitVec 4) (tk : BitVec 3) (s : State) : Host.Outcome State Fault Refusal :=
  sReg2 (fun a b => mulHigh a.toNat b.toNat) sd sa sb pg tk s
def execDivs (sd sa sb : BitVec 6) (pg : BitVec 4) (tk : BitVec 3) (s : State) : Host.Outcome State Fault Refusal :=
  sReg2 sDivs sd sa sb pg tk s
def execDivn (sd sa sb : BitVec 6) (pg : BitVec 4) (tk : BitVec 3) (s : State) : Host.Outcome State Fault Refusal :=
  sReg2 sDivn sd sa sb pg tk s
def execRems (sd sa sb : BitVec 6) (pg : BitVec 4) (tk : BitVec 3) (s : State) : Host.Outcome State Fault Refusal :=
  sReg2 sRems sd sa sb pg tk s
def execRemn (sd sa sb : BitVec 6) (pg : BitVec 4) (tk : BitVec 3) (s : State) : Host.Outcome State Fault Refusal :=
  sReg2 sRemn sd sa sb pg tk s
def execAnd (sd sa sb : BitVec 6) (pg : BitVec 4) (tk : BitVec 3) (s : State) : Host.Outcome State Fault Refusal :=
  sReg2 (fun a b => a &&& b) sd sa sb pg tk s
def execOr (sd sa sb : BitVec 6) (pg : BitVec 4) (tk : BitVec 3) (s : State) : Host.Outcome State Fault Refusal :=
  sReg2 (fun a b => a ||| b) sd sa sb pg tk s
def execXor (sd sa sb : BitVec 6) (pg : BitVec 4) (tk : BitVec 3) (s : State) : Host.Outcome State Fault Refusal :=
  sReg2 (fun a b => a ^^^ b) sd sa sb pg tk s
def execAndn (sd sa sb : BitVec 6) (pg : BitVec 4) (tk : BitVec 3) (s : State) : Host.Outcome State Fault Refusal :=
  sReg2 (fun a b => a &&& ~~~b) sd sa sb pg tk s
def execShl (sd sa sb : BitVec 6) (pg : BitVec 4) (tk : BitVec 3) (s : State) : Host.Outcome State Fault Refusal :=
  sReg2 (fun a b => a <<< shCount b) sd sa sb pg tk s
def execShrl (sd sa sb : BitVec 6) (pg : BitVec 4) (tk : BitVec 3) (s : State) : Host.Outcome State Fault Refusal :=
  sReg2 (fun a b => a >>> shCount b) sd sa sb pg tk s
def execShra (sd sa sb : BitVec 6) (pg : BitVec 4) (tk : BitVec 3) (s : State) : Host.Outcome State Fault Refusal :=
  sReg2 (fun a b => a.sshiftRight (shCount b)) sd sa sb pg tk s
def execRotl (sd sa sb : BitVec 6) (pg : BitVec 4) (tk : BitVec 3) (s : State) : Host.Outcome State Fault Refusal :=
  sReg2 (fun a b => a.rotateLeft (shCount b)) sd sa sb pg tk s
def execMin (sd sa sb : BitVec 6) (pg : BitVec 4) (tk : BitVec 3) (s : State) : Host.Outcome State Fault Refusal :=
  sReg2 (fun a b => if a.toInt ≤ b.toInt then a else b) sd sa sb pg tk s
def execMax (sd sa sb : BitVec 6) (pg : BitVec 4) (tk : BitVec 3) (s : State) : Host.Outcome State Fault Refusal :=
  sReg2 (fun a b => if a.toInt ≤ b.toInt then b else a) sd sa sb pg tk s
def execMinn (sd sa sb : BitVec 6) (pg : BitVec 4) (tk : BitVec 3) (s : State) : Host.Outcome State Fault Refusal :=
  sReg2 (fun a b => if a.toNat ≤ b.toNat then a else b) sd sa sb pg tk s
def execMaxn (sd sa sb : BitVec 6) (pg : BitVec 4) (tk : BitVec 3) (s : State) : Host.Outcome State Fault Refusal :=
  sReg2 (fun a b => if a.toNat ≤ b.toNat then b else a) sd sa sb pg tk s

def execClz (sd sa : BitVec 6) (pg : BitVec 4) (tk : BitVec 3) (s : State) : Host.Outcome State Fault Refusal :=
  sResult tk pg sd [sa] (fun c => BitVec.ofNat 64 (leadZeros (c.getS sa))) s
def execPopc (sd sa : BitVec 6) (pg : BitVec 4) (tk : BitVec 3) (s : State) : Host.Outcome State Fault Refusal :=
  sResult tk pg sd [sa] (fun c => BitVec.ofNat 64 (popCount (c.getS sa))) s
def execSext (sd sa n : BitVec 6) (pg : BitVec 4) (tk : BitVec 3) (s : State) : Host.Outcome State Fault Refusal :=
  sResult tk pg sd [sa] (fun c => sextFrom (c.getS sa) n.toNat) s
def execZext (sd sa n : BitVec 6) (pg : BitVec 4) (tk : BitVec 3) (s : State) : Host.Outcome State Fault Refusal :=
  sResult tk pg sd [sa] (fun c => zextFrom (c.getS sa) n.toNat) s

/-- An immediate form, not predicated (09 R187). -/
def sImm (op : Word → Word) (sd sa : BitVec 6) (tk : BitVec 3) (s : State) : Host.Outcome State Fault Refusal :=
  sResult tk 0 sd [sa] (fun c => op (c.getS sa)) s

def execAddi (sd sa : BitVec 6) (imm : BitVec 10) (tk : BitVec 3) (s : State) : Host.Outcome State Fault Refusal :=
  sImm (fun a => a + sext64 imm) sd sa tk s
def execAndi (sd sa : BitVec 6) (imm : BitVec 10) (tk : BitVec 3) (s : State) : Host.Outcome State Fault Refusal :=
  sImm (fun a => a &&& sext64 imm) sd sa tk s
def execOri (sd sa : BitVec 6) (imm : BitVec 10) (tk : BitVec 3) (s : State) : Host.Outcome State Fault Refusal :=
  sImm (fun a => a ||| sext64 imm) sd sa tk s
def execXori (sd sa : BitVec 6) (imm : BitVec 10) (tk : BitVec 3) (s : State) : Host.Outcome State Fault Refusal :=
  sImm (fun a => a ^^^ sext64 imm) sd sa tk s
def execShli (sd sa : BitVec 6) (imm : BitVec 10) (tk : BitVec 3) (s : State) : Host.Outcome State Fault Refusal :=
  sImm (fun a => a <<< (imm.toNat % 64)) sd sa tk s
def execShrli (sd sa : BitVec 6) (imm : BitVec 10) (tk : BitVec 3) (s : State) : Host.Outcome State Fault Refusal :=
  sImm (fun a => a >>> (imm.toNat % 64)) sd sa tk s
def execShrai (sd sa : BitVec 6) (imm : BitVec 10) (tk : BitVec 3) (s : State) : Host.Outcome State Fault Refusal :=
  sImm (fun a => a.sshiftRight (imm.toNat % 64)) sd sa tk s

/-- LDI (09 R188). -/
def execLdi (sd : BitVec 6) (imm : BitVec 16) (tk : BitVec 3) (s : State) : Host.Outcome State Fault Refusal :=
  sResult tk 0 sd [] (fun _ => sext64 imm) s
/-- LDHI (09 R188). -/
def execLdhi (sd : BitVec 6) (imm : BitVec 16) (tk : BitVec 3) (s : State) : Host.Outcome State Fault Refusal :=
  sResult tk 0 sd [] (fun c => (c.getS sd <<< 16) ||| imm.zeroExtend 64) s
/-- LEA (09 R189): the address field of the space advances, every other bit is kept. -/
def execLea (sd sa : BitVec 6) (imm : BitVec 10) (tk : BitVec 3) (s : State) : Host.Outcome State Fault Refusal :=
  sResult tk 0 sd [sa] (fun c => qAdvance (c.getS sa) (imm.toInt * 8)) s
/-- The N address PLC composes (09 R189). -/
def placeAddr (a : Word) (dx dy : BitVec 4) (dd : BitVec 2) : Word :=
  (2#3 : BitVec 3) ++ (0 : BitVec 28) ++ dd ++ dy ++ dx ++ a.extractLsb' 0 23
/-- PLC (09 R189). -/
def execPlc (sd sa : BitVec 6) (dx dy : BitVec 4) (dd : BitVec 2) (tk : BitVec 3) (s : State) :
    Host.Outcome State Fault Refusal :=
  sResult tk 0 sd [sa] (fun c => placeAddr (c.getS sa) dx dy dd) s

/-- A register compare (09 R190). -/
def sCmp (rel : Word → Word → Bool) (pd : BitVec 4) (sa sb : BitVec 6) (pg : BitVec 4) (tk : BitVec 3) (s : State) :
    Host.Outcome State Fault Refusal :=
  pResult tk pg pd [sa, sb] (fun c => rel (c.getS sa) (c.getS sb)) s
/-- An immediate compare, not predicated (09 R190). -/
def sCmpI (rel : Word → Word → Bool) (pd : BitVec 4) (sa : BitVec 6) (imm : BitVec 10) (tk : BitVec 3) (s : State) :
    Host.Outcome State Fault Refusal :=
  pResult tk 0 pd [sa] (fun c => rel (c.getS sa) (sext64 imm)) s

/- The relations (09 R190). -/
def relEq (a b : Word) : Bool := decide (a = b)
def relNe (a b : Word) : Bool := decide (a ≠ b)
def relLt (a b : Word) : Bool := decide (a.toInt < b.toInt)
def relLe (a b : Word) : Bool := decide (a.toInt ≤ b.toInt)
def relLtn (a b : Word) : Bool := decide (a.toNat < b.toNat)
def relLen (a b : Word) : Bool := decide (a.toNat ≤ b.toNat)

def execCmpeq (pd : BitVec 4) (sa sb : BitVec 6) (pg : BitVec 4) (tk : BitVec 3) (s : State) :
    Host.Outcome State Fault Refusal :=
  sCmp relEq pd sa sb pg tk s
def execCmpne (pd : BitVec 4) (sa sb : BitVec 6) (pg : BitVec 4) (tk : BitVec 3) (s : State) :
    Host.Outcome State Fault Refusal :=
  sCmp relNe pd sa sb pg tk s
def execCmplt (pd : BitVec 4) (sa sb : BitVec 6) (pg : BitVec 4) (tk : BitVec 3) (s : State) :
    Host.Outcome State Fault Refusal :=
  sCmp relLt pd sa sb pg tk s
def execCmple (pd : BitVec 4) (sa sb : BitVec 6) (pg : BitVec 4) (tk : BitVec 3) (s : State) :
    Host.Outcome State Fault Refusal :=
  sCmp relLe pd sa sb pg tk s
def execCmpltn (pd : BitVec 4) (sa sb : BitVec 6) (pg : BitVec 4) (tk : BitVec 3) (s : State) :
    Host.Outcome State Fault Refusal :=
  sCmp relLtn pd sa sb pg tk s
def execCmplen (pd : BitVec 4) (sa sb : BitVec 6) (pg : BitVec 4) (tk : BitVec 3) (s : State) :
    Host.Outcome State Fault Refusal :=
  sCmp relLen pd sa sb pg tk s
def execCmpeqi (pd : BitVec 4) (sa : BitVec 6) (imm : BitVec 10) (tk : BitVec 3) (s : State) :
    Host.Outcome State Fault Refusal :=
  sCmpI relEq pd sa imm tk s
def execCmpnei (pd : BitVec 4) (sa : BitVec 6) (imm : BitVec 10) (tk : BitVec 3) (s : State) :
    Host.Outcome State Fault Refusal :=
  sCmpI relNe pd sa imm tk s
def execCmplti (pd : BitVec 4) (sa : BitVec 6) (imm : BitVec 10) (tk : BitVec 3) (s : State) :
    Host.Outcome State Fault Refusal :=
  sCmpI relLt pd sa imm tk s
def execCmplei (pd : BitVec 4) (sa : BitVec 6) (imm : BitVec 10) (tk : BitVec 3) (s : State) :
    Host.Outcome State Fault Refusal :=
  sCmpI relLe pd sa imm tk s
def execCmpltni (pd : BitVec 4) (sa : BitVec 6) (imm : BitVec 10) (tk : BitVec 3) (s : State) :
    Host.Outcome State Fault Refusal :=
  sCmpI relLtn pd sa imm tk s
def execCmpleni (pd : BitVec 4) (sa : BitVec 6) (imm : BitVec 10) (tk : BitVec 3) (s : State) :
    Host.Outcome State Fault Refusal :=
  sCmpI relLen pd sa imm tk s

/- Predicate operations (09 R191). -/
def execPand (pd pa pb pg : BitVec 4) (tk : BitVec 3) (s : State) : Host.Outcome State Fault Refusal :=
  pResult tk pg pd [] (fun c => c.getP pa && c.getP pb) s
def execPor (pd pa pb pg : BitVec 4) (tk : BitVec 3) (s : State) : Host.Outcome State Fault Refusal :=
  pResult tk pg pd [] (fun c => c.getP pa || c.getP pb) s
def execPxor (pd pa pb pg : BitVec 4) (tk : BitVec 3) (s : State) : Host.Outcome State Fault Refusal :=
  pResult tk pg pd [] (fun c => xor (c.getP pa) (c.getP pb)) s
def execPnot (pd pa pg : BitVec 4) (tk : BitVec 3) (s : State) : Host.Outcome State Fault Refusal :=
  pResult tk pg pd [] (fun c => !c.getP pa) s
def execPmov (pd pa pg : BitVec 4) (tk : BitVec 3) (s : State) : Host.Outcome State Fault Refusal :=
  pResult tk pg pd [] (fun c => c.getP pa) s
def execPset (pd : BitVec 4) (val : BitVec 6) (pg : BitVec 4) (tk : BitVec 3) (s : State) :
    Host.Outcome State Fault Refusal :=
  pResult tk pg pd [] (fun _ => val.getLsbD 0) s
/-- SEL is not predicated; ps selects (09 R191). -/
def execSel (sd sa sb : BitVec 6) (ps : BitVec 4) (tk : BitVec 3) (s : State) : Host.Outcome State Fault Refusal :=
  sResult tk 0 sd [sa, sb] (fun c => if c.getP ps then c.getS sa else c.getS sb) s

/- Control (09 R192 to R196). -/

/-- A branch that is taken where `cond` holds, and otherwise goes on: its tokens are delivered on the decision. -/
def sBranch (tk : BitVec 3) (regs : List (BitVec 6)) (cond : Core → Bool) (target : Core → Nat) (upd : Core → Core)
    (s : State) : Host.Outcome State Fault Refusal :=
  issue (sNeed s tk regs) none s (fun s =>
    let taken := cond s.me
    let t := target s.me
    let s := complete .s tk (s.onMe upd)
    if taken then s.onMe (fun c => c.goto .s s.now t) else s)

/-- The offset of the instruction the S stream stands at. -/
def Core.pcOf (c : Core) (e : Eng) : Nat := (c.stream e).pc

def execBr (off : BitVec 18) (pg : BitVec 4) (tk : BitVec 3) (s : State) : Host.Outcome State Fault Refusal :=
  sBranch tk [] (fun c => c.getP pg) (fun c => branchTarget (c.pcOf .s) off) id s
def execBc (off : BitVec 18) (pc : BitVec 4) (tk : BitVec 3) (s : State) : Host.Outcome State Fault Refusal :=
  sBranch tk [] (fun c => !c.getP pc) (fun c => branchTarget (c.pcOf .s) off) id s
def execBrl (sd : BitVec 6) (off : BitVec 16) (tk : BitVec 3) (s : State) : Host.Outcome State Fault Refusal :=
  sBranch tk [sd] (fun _ => true) (fun c => branchTarget (c.pcOf .s) off)
    (fun c => c.setS sd (BitVec.ofNat 64 (c.pcOf .s + 4))) s
/-- LOOP: `LOOP sa, off` counts down and branches while the count exceeds one (09 R193). -/
def execLoop (sa : BitVec 6) (off : BitVec 16) (tk : BitVec 3) (s : State) : Host.Outcome State Fault Refusal :=
  sBranch tk [sa] (fun c => decide (1 < (c.getS sa).toNat)) (fun c => branchTarget (c.pcOf .s) off)
    (fun c => c.setS sa (if 1 < (c.getS sa).toNat then c.getS sa - 1 else 0)) s

/-- An instruction that reads a line of its stream's text issues once that line's page is not being walked (07 R143). -/
def lineAhead (e : Eng) (off : Option Nat) (s : State) (k : State → Host.Outcome State Fault Refusal) :
    Host.Outcome State Fault Refusal :=
  match off with
  | none => k s
  | some o => match fillLine s.cur e o s with
    | (.error x, s') => if walkWaits x.1 then .next s' else k s
    | (.ok _, _) => k s

/-- JR: a register-formed target, fetched and checked when the branch is taken (06 R116, 09 R192). A refused target
logs the D address that it names; the branch has issued by then. -/
def execJr (sa : BitVec 6) (pg : BitVec 4) (tk : BitVec 3) (s : State) : Host.Outcome State Fault Refusal :=
  lineAhead .s (if s.me.getP pg && !sBusy s.me sa && (s.me.getS sa).toNat % 4 = 0 && (s.me.getS sa).toNat < (s.me.text .s).2 then some (s.me.getS sa).toNat else none) s fun s =>
  issue (sNeed s tk [sa]) none s (fun s =>
    if !s.me.getP pg then complete .s tk s
    else
      let t := s.me.getS sa
      let here := s.me
      let logged (code : Nat) : FaultInfo :=
        { code := code, src := 0, pc := here.pcOf .s, addr := BitVec.ofNat 64 ((here.text .s).1 + t.toNat) }
      if t.toNat % 4 ≠ 0 then unitFault s.cur (logged cALIGN) s
      else if (here.text .s).2 ≤ t.toNat then unitFault s.cur (logged cPROTECT) s
      else
        match fillLine s.cur .s t.toNat s with
        | (.error x, s) => fetchFails s.cur .s x s
        | (.ok _, s) =>
          if isSig ((s.me.stream .s).word t.toNat) then
            let s := complete .s tk s
            s.onMe (fun c => c.goto .s s.now t.toNat)
          else unitFault s.cur (logged cSIGMISMATCH) s)

/-- NOP has no effect beyond its tokens (09 R194). -/
def execNop (_pg : BitVec 4) (tk : BitVec 3) (s : State) : Host.Outcome State Fault Refusal :=
  issue (sNeed s tk []) none s (complete .s tk)

/-- TRAP faults with ILLEGAL at issue; EBX carries its code (09 R195, 20 R374). -/
def execTrap (code : BitVec 16) (tk : BitVec 3) (s : State) : Host.Outcome State Fault Refusal :=
  issue (sNeed s tk []) (some { s.me.faultHere .s cILLEGAL with ebx := code.zeroExtend 64 }) s id

/-- SYSC waits for the active Dispatcher's answer, which SYSC_ANSWER writes into s8 (09 R195). -/
def execSysc (code : BitVec 16) (tk : BitVec 3) (s : State) : Host.Outcome State Fault Refusal :=
  issue (sNeed s tk [8]) none s (fun s =>
    s.onMe (fun c => { c with sysc := some (code.toNat, fifosPushed .s (c.tokenSet .s tk)) }))

/-- UIRET: issued with ACT clear and its predicate true it faults with ILLEGAL at issue (09 R196); else the handler
returns (06 R134). -/
def execUiret (pg : BitVec 4) (tk : BitVec 3) (s : State) : Host.Outcome State Fault Refusal :=
  issue (sNeed s tk []) (if s.me.getP pg && !s.me.uiact then some (s.me.faultHere .s cILLEGAL) else none) s (fun s =>
    let ret := s.me.getP pg
    let s := complete .s tk s
    if ret then s.onMe (fun c => leaveHandler c s.now) else s)

/-- SPL and SPR: the S spill memory (09 R200). A poisoned word is a faulted load (06 R127, 07 R160); its record names the
word's offset in the spill memory. -/
def execSpl (sd : BitVec 6) (off : BitVec 10) (tk : BitVec 3) (s : State) : Host.Outcome State Fault Refusal :=
  match s.me.spillBad .s off.toNat 1 with
  | none => sResult tk 0 sd [] (fun c => Tbl.get 0 c.spillS off.toNat) (correctSlots s.cur .s 0 (8 * off.toNat) 8 s)
  | some w =>
    issue (sNeed s tk [sd]) none s (fun s =>
      let f : FaultInfo := { s.me.faultHere .s cPOISON with addr := BitVec.ofNat 64 (8 * w) }
      unitFault s.cur f { s.onMe (fun c => c.setS sd (Config.faultedLoad s.tick 0)) with tick := s.tick + 1 })
def execSpr (ss : BitVec 6) (off : BitVec 10) (tk : BitVec 3) (s : State) : Host.Outcome State Fault Refusal :=
  issue (sNeed s tk [ss]) none s (fun s =>
    complete .s tk ((overSpill s.cur .s off.toNat 1 s).onMe (fun c => { c.spillClean .s off.toNat 1 with spillS := Tbl.set 0 c.spillS off.toNat (c.getS ss) })))

/- Queue pushes and pops (09 R206). -/

/-- QPUSH into AQ or SQ. The entry releases the earlier S stores and atomics (15 R323). -/
def execQpush (sa : BitVec 6) (q : BitVec 3) (e : BitVec 5) (tk : BitVec 3) (s : State) :
    Host.Outcome State Fault Refusal :=
  issue { sNeed s tk [sa] with bound := some e, holds := [{ kind := 0x3, obj := q.toNat, await := 0 }] } none s (fun s =>
    complete .s tk (s.onMe (fun c => c.push s.now q.toNat (c.getS sa) c.sOrd (c.pcOf .s))))
/-- QPOP from VQ or MQ. -/
def execQpop (sd : BitVec 6) (q : BitVec 3) (e : BitVec 5) (tk : BitVec 3) (s : State) :
    Host.Outcome State Fault Refusal :=
  issue { sNeed s tk [sd] with bound := some e, holds := [{ kind := 0x2, obj := q.toNat, await := 1 }] } none s (fun s =>
    complete .s tk (s.onMe (fun c => (c.popN q.toNat 1).setS sd ((c.popVals q.toNat 1).headD 0))))
/-- BOP into BV, BM or BK. -/
def execBop (pa : BitVec 4) (q : BitVec 3) (e : BitVec 5) (tk : BitVec 3) (s : State) :
    Host.Outcome State Fault Refusal :=
  issue { sNeed s tk [] with bound := some e, holds := [{ kind := 0x3, obj := q.toNat, await := 0 }] } none s (fun s =>
    complete .s tk (s.onMe (fun c => c.push s.now q.toNat (if c.getP pa then 1 else 0) c.sOrd (c.pcOf .s))))

end Sys2Proof.Machine
end

