-- ==== Sys2Proof/Machine/ScalarMem.lean ====
section
/-!
DEFINITION. The S stream's loads, stores, fences and atomics (09 R197 to R204), with the declaration check of
order-first bodies (09 R216, 21 R387).
-/
namespace Sys2Proof.Machine

/-- Whether a unit is declared in GRANTED transactions of the core, for write where `write` (09 R216). -/
def declares (c : Core) (space core n : Nat) (write : Bool) : Bool :=
  (List.range 4).any (fun i =>
    let o := Tbl.get OfSlot.reset c.ofs i
    decide (o.st = .granted) && o.ranges.any (fun r =>
      decide (r.space = space) && decide (space = 0 || r.core = core) && decide (r.first ≤ n) && decide (n < r.first + r.count)
        && (r.write || !write)))

/-- The units an access touches are all declared (09 R216). -/
def declaredAccess (s : State) (g : Nat) (qa : Word) (n : Nat) (write : Bool) : Bool :=
  let c := s.core g
  let units (a : Nat) : List Nat := (List.range ((a + n - 1) / 4096 - a / 4096 + 1)).map (fun k => a / 4096 + k)
  if qSpc qa = 4 && qByte qa % n = 0 then false
  else match resolve s g qa n n with
  | .ok (.d va) => (units va).all (fun u => declares c 0 0 u write)
  | .ok (.cew off) => (units (s.plat.cew.toNat + off)).all (fun u => declares c 0 0 u write)
  | .ok (.sp t a) => (units a).all (fun u => declares c 1 t u write)
  | .ok (.w _ _) | .ok (.f _ _) => false
  | .error _ => true

/-- Whether some transaction of the core is GRANTED. -/
def anyGranted (c : Core) : Bool := (List.range 4).any (fun i => decide ((Tbl.get OfSlot.reset c.ofs i).st = .granted))

/-- Whether an S access fails the check of R216, which comes after form, alignment, placement and tag (09 R182). -/
def undeclaredAccess (s : State) (g : Nat) (qa : Word) (n : Nat) (write : Bool) : Bool :=
  anyGranted (s.core g) && !declaredAccess s g qa n write

/-- An S access issues: it enters its queues, or it fails R216's check and the stream stops (21 R387). `places`:
those it delivers when it completes; an access that completes on entering its queue has delivered them. -/
def sAccess (tk : BitVec 3) (kind : AccKind) (qa : Word) (n : Nat) (data : List Byte) (dst : Nat) (obs : BitVec 6)
    (s : State) : State :=
  let c := s.me
  let fs := fifosPushed .s (c.tokenSet .s tk)
  let p : Piece := { lane := 0, qa := qa, n := n, data := data }
  if undeclaredAccess s s.cur qa n kind.writes then
    let c := if kind.loads && dst ≠ 0 then { c with s := Tbl.set 0 c.s dst (Config.faultedLoad s.tick 0) } else c
    settle s.cur { s.setMe { c with undeclared := some (accFault cUNDECLARED 0 (c.pcOf .s) qa) } with tick := s.tick + 1 }
  else if kind.loads then
    s.setMe ((enqueue c .s (mkAccess c .s s.now kind [p] dst obs fs)).advancePc .s s.now 1)
  else
    let s := complete .s tk (s.setMe (enqueue c .s (mkAccess c .s s.now kind [p] dst obs [])))
    if qSpc qa = 3 then launchWs s.cur s else s

/-- The holds of the queues an access of a kind enters (09 R198). -/
def queueHolds (load store : Bool) : List Hold :=
  (if load then [{ kind := 0xA, obj := 0, await := 0 }] else []) ++ (if store then [{ kind := 0xA, obj := 1, await := 0 }] else [])

/-- ILLEGAL at issue for an access that names one of the spaces (07 R135). -/
def illegalSpaces (s : State) (qa : Word) (spaces : List Nat) : Option FaultInfo :=
  if spaces.contains (qSpc qa) then some (s.me.faultHere .s cILLEGAL) else none

/-- The faults at issue of a W store (07 R138): a bad mask, or a member whose tag differs or that zeroes its state. -/
def wStoreFault (s : State) (e : Eng) (qa : Word) (align : Nat) : Option FaultInfo :=
  if qSpc qa = 3 && (formFault qa).isNone && qByte qa % align = 0 then
    match wMembers s.me.placeOf s.cur (qMask qa) with
    | none => some (accFault cPLACE (engNum e) (s.me.pcOf e) qa)
    | some ms => if wRefused s s.cur ms then some (accFault cPROTECT (engNum e) (s.me.pcOf e) qa) else none
  else none

/-- The size that w names (09 R197). -/
def wSize (w : BitVec 1) : Nat := if w = 0 then 8 else 4

def execLd (sd sa : BitVec 6) (w : BitVec 1) (tk : BitVec 3) (s : State) : Host.Outcome State Fault Refusal :=
  issue { sNeed s tk [sd, sa] with holds := queueHolds true false } (illegalSpaces s (s.me.getS sa) [3]) s (fun s =>
    sAccess tk .load (s.me.getS sa) (wSize w) [] (s.me.sKey sd.toNat) 0 s)

def execSt (ss sa : BitVec 6) (w : BitVec 1) (tk : BitVec 3) (s : State) : Host.Outcome State Fault Refusal :=
  issue { sNeed s tk [ss, sa] with holds := queueHolds false true } (wStoreFault s .s (s.me.getS sa) (wSize w)) s (fun s =>
    sAccess tk .store (s.me.getS sa) (wSize w) (natLE (wSize w) (s.me.getS ss).toNat) 0 0 s)

/-- LDACQ: a load with an observer mask (09 R199). -/
def execLdacq (sd sa obs : BitVec 6) (w : BitVec 1) (tk : BitVec 3) (s : State) : Host.Outcome State Fault Refusal :=
  issue { sNeed s tk [sd, sa] with holds := queueHolds true false } (illegalSpaces s (s.me.getS sa) [3]) s (fun s =>
    sAccess tk .load (s.me.getS sa) (wSize w) [] (s.me.sKey sd.toNat) obs s)

/-- STREL: a store with an observer mask (09 R199). -/
def execStrel (ss sa obs : BitVec 6) (w : BitVec 1) (tk : BitVec 3) (s : State) : Host.Outcome State Fault Refusal :=
  issue { sNeed s tk [ss, sa] with holds := queueHolds false true } (wStoreFault s .s (s.me.getS sa) (wSize w)) s (fun s =>
    sAccess tk .store (s.me.getS sa) (wSize w) (natLE (wSize w) (s.me.getS ss).toNat) 0 obs s)

/-- An entry that makes no access and stands in both queues (09 R198, R199). It completes when it is performed. -/
def sBarrierEntry (tk : BitVec 3) (kind : AccKind) (obs : BitVec 6) (s : State) : State :=
  let c := s.me
  s.setMe ((enqueue c .s (mkAccess c .s s.now kind [] 0 obs (fifosPushed .s (c.tokenSet .s tk)))).advancePc .s s.now 1)

def execMark (pg : BitVec 4) (tk : BitVec 3) (s : State) : Host.Outcome State Fault Refusal :=
  issue { sNeed s tk [] with holds := queueHolds true true } none s (fun s =>
    if s.me.getP pg then sBarrierEntry tk .mark 0 s else complete .s tk s)

def execFence (obs : BitVec 6) (tk : BitVec 3) (s : State) : Host.Outcome State Fault Refusal :=
  issue { sNeed s tk [] with holds := queueHolds true true } none s (sBarrierEntry tk .fence obs)

/-- Whether the running unit's launch has det in force (05 R107). -/
def detInForce (s : State) : Bool := match s.me.unit with | some u => u.det | none => false

/-- AMO (09 R201, R203). With det in force an FP32 add is a deterministic reduction: it obeys DRED's space rules and
sets s[sd] to zero (R204). -/
def execAmo (sd sa obs : BitVec 6) (aop : BitVec 4) (tk : BitVec 3) (s : State) : Host.Outcome State Fault Refusal :=
  let n := if aop = 9 then 4 else 8
  if aop = 9 && detInForce s then
    issue { sNeed s tk [sd, sa] with holds := queueHolds true true } (illegalSpaces s (s.me.getS sa) [1, 2, 3]) s (fun s =>
      sAccess tk (.dred 9) (s.me.getS sa) 4 (natLE 4 (s.me.getS sd).toNat) 0 obs (s.onMe (fun c => c.setS sd 0)))
  else
    issue { sNeed s tk [sd, sa] with holds := queueHolds true true } (illegalSpaces s (s.me.getS sa) [3]) s (fun s =>
      sAccess tk (.amo aop.toNat) (s.me.getS sa) n (natLE n (s.me.getS sd).toNat) (s.me.sKey sd.toNat) obs s)

/-- CAS (09 R202): the data are the expected value and the new one. -/
def execCas (sd sa obs : BitVec 6) (tk : BitVec 3) (s : State) : Host.Outcome State Fault Refusal :=
  issue { sNeed s tk [sd, sd + 1, sa] with holds := queueHolds true true } (illegalSpaces s (s.me.getS sa) [3]) s (fun s =>
    sAccess tk .cas (s.me.getS sa) 8 (natLE 8 (s.me.getS sd).toNat ++ natLE 8 (s.me.getS (sd + 1)).toNat)
      (s.me.sKey sd.toNat) obs s)

/-- DRED (09 R204): aop 0 adds I64 to 8 bytes, aop 9 FP32 to 4. -/
def execDred (ss sa : BitVec 6) (aop : BitVec 4) (tk : BitVec 3) (s : State) : Host.Outcome State Fault Refusal :=
  let n := if aop = 9 then 4 else 8
  issue { sNeed s tk [ss, sa] with holds := queueHolds false true } (illegalSpaces s (s.me.getS sa) [1, 2, 3]) s (fun s =>
    sAccess tk (.dred aop.toNat) (s.me.getS sa) n (natLE n (s.me.getS ss).toNat) 0 0 s)

/-- END (09 R194): it issues, and completes when every earlier S instruction has completed and every access has been performed. -/
def execEndS (pg : BitVec 4) (tk : BitVec 3) (s : State) : Host.Outcome State Fault Refusal :=
  issue (sNeed s tk []) none s (fun s => if s.me.getP pg then issueEnd .s tk s else complete .s tk s)

end Sys2Proof.Machine
end

