-- ==== Sys2Proof/Machine/Barrier.lean ====
section
/-!
DEFINITION. The S stream's barrier and event instructions (09 R207 to R211), and the events of the Zenith network,
of W stores and of closes.
-/
namespace Sys2Proof.Machine

/-- The refusals of an arrival (09 R209). -/
def arriveFault (c : Core) (e : Eng) (b : Nat) : Option FaultInfo :=
  let w := c.barrier b
  if bMode w = 0 then some (c.faultHere e cILLEGAL)
  else if bFlt w then some (c.faultHere e cBARRIER)
  else none

/-- An arrival issues: it waits for the stream's earlier accesses where its mask names an observer, for its earlier
deterministic updates where it carries dam, and is otherwise counted or sent at once (09 R209, 18 R359). -/
def arriveIssue (e : Eng) (tk : BitVec 3) (b : Nat) (obs : BitVec 6) (dam : Bool) (s : State) : State :=
  let c := s.me
  let fs := fifosPushed e (c.tokenSet e tk)
  if obs = 0 && !dam then complete e tk (arriveAt s.cur b e dam s)
  else
    let p : Pending := { e := e, dredOnly := decide (obs = 0), far := decide (obs &&& 0x30 ≠ 0), ord := c.sOrd, pc := c.pcOf e, kind := .arrive b dam,
                         places := fs, path := (c.stream e).path }
    settle s.cur (s.setMe ({ c with pend := c.pend ++ [p] }.advancePc e s.now 1))

/-- The hold of a second arrival in one phase of a domain object (09 R209); AWAIT names the phase that must complete. -/
def arriveHold (c : Core) (b : Nat) : Hold :=
  { kind := 0x4, obj := 64 + b, await := (bPhase (c.barrier b) + 1).toNat % 256 }

def execArr (b obs : BitVec 6) (dam : BitVec 1) (pg : BitVec 4) (tk : BitVec 3) (s : State) :
    Host.Outcome State Fault Refusal :=
  let on := s.me.getP pg
  issue { sNeed s tk [] with events := if on then [arriveHold s.me b.toNat] else [], busy := on && s.me.laterArrived .s b.toNat }
    (if on then arriveFault s.me .s b.toNat else none) s (fun s =>
      if on then arriveIssue .s tk b.toNat obs (decide (dam = 1)) s else complete .s tk s)

/-- The hold of a barrier wait; AWAIT names the phase awaited (06 R124, 09 R210). -/
def waitHold (c : Core) (e : Eng) (b : Nat) : Hold := { kind := 0x4, obj := b, await := (c.seenOf e b + 1).toNat % 256 }

/-- A wait consumes a phase (09 R210): SEEN rises, its stream acquires what the phase's arrivals have released (15 R324, 18 R353), and
whether the phase completed whole. -/
def consumePhase (c : Core) (e : Eng) (b : Nat) : Core × Bool :=
  if phaseDead c e b then (c, false)
  else
    let seen := c.seenOf e b + 1
    let c := c.acquire e (Tbl.get [] c.bOwes (64 + b))
    (c.setSeen e b seen, !(bFlt (c.barrier b) && decide (seen = bPhase (c.barrier b))))

/-- TRAPCAUSE.CODE (09 R221). -/
def Core.setCause (c : Core) (code : Nat) : Core := { c with trapcause := BitVec.ofNat 64 (code % 256) }

def execWtp (pd : BitVec 4) (b : BitVec 6) (e : BitVec 5) (tk : BitVec 3) (s : State) :
    Host.Outcome State Fault Refusal :=
  issue { sNeed s tk [] with bound := some e, events := [waitHold s.me .s b.toNat] }
    (if bMode (s.me.barrier b.toNat) = 0 then some (s.me.faultHere .s cILLEGAL) else none) s (fun s =>
      complete .s tk (s.onMe (fun c =>
        let (c, whole) := consumePhase c .s b.toNat
        if whole then c.setP pd true else (c.setP pd false).setCause cBARRIER)))

/-- The refusals of BINIT (09 R208, 16 R334). -/
def binitFault (s : State) (b : Nat) (v : Word) : Option FaultInfo :=
  let c := s.me
  let mode := (v.extractLsb' 0 3).toNat
  let exp := (v.extractLsb' 8 16).toNat
  let bad := mode = 0 || decide (5 < mode) || v &&& 0xFFFFFFFFFF0000F8 ≠ 0
    || (if mode = 1 then exp = 0 else exp ≠ 0 || (Tbl.get 0 c.dom (mode - 1)).extractLsb' 24 24 = 0)
    || (Tbl.get Arrived.none c.arrived b).atNode
  if bad then some (c.faultHere .s cILLEGAL) else none

/-- A BINIT of object b of core g: a close of a phase of it goes on, and that phase counts no more. -/
def CloseRun.forget (g b : Nat) (x : CloseRun) : CloseRun :=
  match x.why with
  | .localPhase k n _ => if k = g && n = b then { x with why := .reset } else x
  | _ => x

/-- BINIT (R208, 16 R334). The arrivals of its own cycle come after it, and one that is on its way to the node goes on. A phase that
had completed and whose close is under way does not count in the object that is initialised. -/
def execBinit (b sa : BitVec 6) (tk : BitVec 3) (s : State) : Host.Outcome State Fault Refusal :=
  issue { sNeed s tk [sa] with busy := sBusy s.me sa || s.me.cyc.arr.any (fun x => decide (x.1 = b.toNat)) }
    (binitFault s b.toNat (s.me.getS sa)) s (fun s =>
    let s := { s with closes := s.closes.map (CloseRun.forget s.cur b.toNat) }
    complete .s tk (s.onMe (fun c =>
      let v := c.getS sa
      let exp := (v.extractLsb' 8 16).toNat
      let c := { c with bobj := Tbl.set 0 c.bobj b.toNat (bMake 0 exp exp false false (v.extractLsb' 0 3).toNat)
                        bOwes := Tbl.set [] c.bOwes (64 + b.toNat) [] }
      [Eng.s, .v, .m, .k].foldl (fun c e => c.setSeen e b.toNat 0) c)))

def execBexp (b sa : BitVec 6) (tk : BitVec 3) (s : State) : Host.Outcome State Fault Refusal :=
  let w := s.me.barrier b.toNat
  let v := (s.me.getS sa).toNat
  issue (sNeed s tk [sa])
    (if bMode w ≠ 1 || v = 0 || decide (65535 < v) || decide (65535 < bNeed w + v) then some (s.me.faultHere .s cILLEGAL) else none)
    s (fun s => complete .s tk (s.onMe (fun c =>
      { c with bobj := Tbl.set 0 c.bobj b.toNat (bMake (bPhase w) (bExp w) (bNeed w + v) (bDamc w) (bFlt w) 1) })))

def execWfe (e : BitVec 5) (tk : BitVec 3) (s : State) : Host.Outcome State Fault Refusal :=
  issue { sNeed s tk [] with bound := some e, events := [{ kind := 0x5, obj := 0, await := 0 }] } none s (fun s =>
    complete .s tk (s.onMe (fun c => { c with latch := false, cyc := { c.cyc with wfe := true } })))

/-- The cores whose latches SEV names, or its fault (09 R211). -/
def sevTargets (s : State) (q : Word) : Except FaultInfo (List Nat) :=
  let c := s.me
  match qSpc q with
  | 1 | 2 | 3 =>
    match formFault q with
    | some e => .error (accFault e 0 (c.pcOf .s) q)
    | none =>
      if qSpc q = 1 then .ok [s.cur]
      else if qSpc q = 2 then
        match nTarget c.placeOf s.cur q with
        | none => .error (accFault cPLACE 0 (c.pcOf .s) q)
        | some t => match tagCheck s s.cur t with
          | some e => .error (accFault e 0 (c.pcOf .s) q)
          | none => .ok [t]
      else match wMembers c.placeOf s.cur (qMask q) with
        | none => .error (accFault cPLACE 0 (c.pcOf .s) q)
        | some ms =>
          if ms.any (fun m => (tagCheck s s.cur m).isSome || zeroingNow s m) then .error (accFault cPROTECT 0 (c.pcOf .s) q)
          else .ok ms
  | _ => .error (c.faultHere .s cILLEGAL)

def execSev (sa : BitVec 6) (tk : BitVec 3) (s : State) : Host.Outcome State Fault Refusal :=
  let q := s.me.getS sa
  let flt := match sevTargets s q with | .error f => some f | .ok _ => none
  let zero := match sevTargets s q with | .ok [t] => decide (t ≠ s.cur) && zeroingNow s t | _ => false
  issue { sNeed s tk [sa] with busy := sBusy s.me sa || zero } flt s (fun s =>
    match sevTargets s q with
    | .error _ => s
    | .ok ts =>
      let c := s.me
      let p : Pending := { e := .s, dredOnly := false, far := false, ord := c.sOrd, pc := c.pcOf .s, kind := .sev ts (if qSpc q = 3 then some (s.now + 12) else none),
                           places := fifosPushed .s (c.tokenSet .s tk), path := (c.stream .s).path }
      settle s.cur (s.setMe ({ c with pend := c.pend ++ [p] }.advancePc .s s.now 1)))

/- Events. -/

/-- ZENITH_ARRIVAL (15 R327): of member g, or of the other devices of its fabric group. -/
def execZenithArrival (g : Nat) (a : ZenithMessage) (s : State) : Host.Outcome State Fault Refusal :=
  .next (match a.group with
    | none => nodeArrival g a.b s
    | some x => groupArrival g a.b x.1 x.2 s)

/-- DOMAIN_RELEASE (15 R327). What waits at the object goes on. -/
def execDomainRelease (g b : Nat) (s : State) : Host.Outcome State Fault Refusal :=
  .next (match phaseOf g b s with
    | some z => (z.members g).foldl (fun s k => settle k s) (domainReleaseAt g z s)
    | none => s)

/-- CLOSE: a close of a tag that is under way acts at a slice's reduce unit; what is still to be sent of it is sent (18 R358, 19
R369). -/
def execCloseTag (c : CloseReach) (s : State) : Host.Outcome State Fault Refusal :=
  let acts (x : CloseRun) : Bool := decide (x.tag = c.tag) && (!x.reached.contains c.slice || x.left.any (fun h => decide (sliceOf h.pa = c.slice)))
  .next (match s.closes.find? acts with
    | some x =>
      let s := closeAt c.slice x s
      settleCloses (match s.closes.find? (fun y => decide (y.id = x.id)) with | some y => sendClose y s | none => s)
    | none => s)

/-- The oldest update on its way reaches its slice's reduce unit (18 R355 to R357); one of a fenced die cannot be reached (20 R379). -/
def updateArrives (s : State) : State :=
  match s.updFlight with
  | [] => s
  | u :: us =>
    let s := { s with updFlight := us }
    if cutOff s (coreDie u.g) u.pa then accessAccepted u.g u.e u.ord cUNREACH s
    else match takeUpdate u s with
      | .error x => accessAccepted u.g u.e u.ord x s
      | .ok s => accessAccepted u.g u.e u.ord 0 s

/-- UPDATE_ACCEPTANCE. -/
def execUpdateAcceptance (s : State) : Host.Outcome State Fault Refusal := .next (updateArrives s)

/-- W landings in the order of their cycles; in one cycle the store of the higher DOM1.IDX is written last
(07 R138). -/
def insertFlight (f : WFlight) : List WFlight → List WFlight
  | [] => [f]
  | x :: xs => if f.due < x.due || (f.due = x.due && f.idx < x.idx) then f :: x :: xs else x :: insertFlight f xs

/-- Everything due lands: W stores and the latch settings of SEV through W. -/
def landDue (s : State) : State :=
  let due := (s.wFlight.filter (fun f => decide (f.due ≤ s.now))).foldl (fun acc f => insertFlight f acc) []
  let s := due.foldl (fun s f => landW f s) { s with wFlight := s.wFlight.filter (fun f => !(decide (f.due ≤ s.now))) }
  let sev := s.sevFlight.filter (fun x => decide (x.2 ≤ s.now))
  let s := sev.foldl (fun s x => s.setCore x.1 (s.core x.1).setLatch)
    { s with sevFlight := s.sevFlight.filter (fun x => !(decide (x.2 ≤ s.now))) }
  due.foldl (fun s f => launchWs f.g (settle f.g s)) s

end Sys2Proof.Machine
end

