-- ==== Sys2Proof/Machine/Functions.lean ====
section
/-!
DEFINITION. The special functions of the V engine, correctly rounded (11 R249). A value that is no dyadic number is
carried by 320 bits after the point and one sticky bit, which keep it on its side of every rounding boundary.
-/
namespace Sys2Proof.Machine

/-- The bits after the point. -/
def fnBits : Nat := 320

/-- The integer part of ln 2 times 2^320. -/
def ln2Fix : Nat := 0xb17217f7d1cf79abc9e3b39803f2f6af40f343267298b62d8a0d175b8baafa2be7b876206debac98

/-- The greatest r below 2^k with r^2 at most n. -/
def isqrtFrom (n : Nat) : Nat → Nat → Nat
  | 0, r => r
  | k + 1, r => if (r + 2 ^ k) * (r + 2 ^ k) ≤ n then isqrtFrom n k (r + 2 ^ k) else isqrtFrom n k r

/-- The integer square root. -/
def isqrt (n : Nat) : Nat := isqrtFrom n (natBits n / 2 + 1) 0

/-- 1/(m * 2^e), with a sticky bit. -/
def rcpFin (neg : Bool) (m : Nat) (e : Int) : Val :=
  let k := natBits m + 64
  let q := 2 ^ k / m
  .fin neg (2 * q + (if 2 ^ k % m = 0 then 0 else 1)) (-e - (k : Int) - 1)

/-- m * 2^e with an even exponent. -/
def evenExp (m : Nat) (e : Int) : Nat × Int := if e % 2 = 0 then (m, e) else (2 * m, e - 1)

/-- The square root of m * 2^e, with a sticky bit. -/
def sqrtFin (m : Nat) (e : Int) : Val :=
  let (m, e) := evenExp m e
  let n := m * 2 ^ 160
  let r := isqrt n
  .fin false (2 * r + (if r * r = n then 0 else 1)) (e / 2 - 81)

/-- 1/sqrt(m * 2^e), with a sticky bit. -/
def rsqFin (m : Nat) (e : Int) : Val :=
  let (m, e) := evenExp m e
  let k := natBits m + 80
  let r := isqrt (2 ^ (2 * k) / m)
  .fin false (2 * r + (if r * r * m = 2 ^ (2 * k) then 0 else 1)) (-(k : Int) - e / 2 - 1)

/-- The sum of y^k/k! for y below 2^320, in units of 2^-320. -/
def expSeries (y : Nat) : Nat → Nat → Nat → Nat → Nat
  | 0, _, _, acc => acc
  | fuel + 1, k, term, acc => expSeries y fuel (k + 1) (term * y / 2 ^ fnBits / (k + 1)) (acc + term)

/-- 2^x for x = (-1)^neg * m * 2^e. Beyond 2,000 in size the result overflows or is tiny in every format. -/
def exp2Fin (neg : Bool) (m : Nat) (e : Int) : Val :=
  if m = 0 then .fin false 1 0
  else if (11 : Int) ≤ e + (natBits m : Int) - 1 then
    (if neg then .fin false 3 (-3000) else .fin false 1 3000)
  else
    -- x in units of 2^e with e at most 0, split into its floor and its fraction
    let e' := min e 0
    let x := signedNat neg (shl m (e - e'))
    let u : Nat := 2 ^ (-e').toNat
    let n := x / (u : Int)
    let f := (x % (u : Int)).toNat
    if f = 0 then .fin false 1 n
    else
      let y := (ln2Fix * f) / u
      let v := expSeries y 90 0 (2 ^ fnBits) 0
      .fin false (2 * v + 1) (n - (fnBits : Int) - 1)

/-- The sum of t^(2k+1)/(2k+1) in units of 2^-320, `t2` being t^2. -/
def atanhSeries (t2 : Nat) : Nat → Nat → Nat → Nat → Nat
  | 0, _, _, acc => acc
  | fuel + 1, k, p, acc => atanhSeries t2 fuel (k + 1) (p * t2 / 2 ^ fnBits) (acc + p / (2 * k + 1))

/-- log2 of m * 2^e, m not zero: exact for a power of two. -/
def log2Fin (m : Nat) (e : Int) : Val :=
  let b := natBits m - 1
  let n := e + (b : Int)
  if m = 2 ^ b then .fin (decide (n < 0)) n.natAbs 0
  else
    let t := (m - 2 ^ b) * 2 ^ fnBits / (m + 2 ^ b)
    let ln := 2 * atanhSeries (t * t / 2 ^ fnBits) 110 0 t 0
    let x := n * (2 ^ fnBits : Nat) + ((ln * 2 ^ fnBits / ln2Fix : Nat) : Int)
    if 0 ≤ x then .fin false (2 * x.toNat + 1) (-(fnBits : Int) - 1)
    else .fin true (2 * (-x).toNat - 1) (-(fnBits : Int) - 1)

/-- The special functions (R249). -/
inductive SpecialFn where
  | rcp | rsq | sqrt | exp2 | log2
  deriving DecidableEq, Repr, Inhabited

/-- The exact value of a special function, or one on the same side of every boundary, with the special cases of
R249. -/
def specialVal : SpecialFn → Val → Val
  | _, .nan => .nan
  | .rcp, .inf neg => .fin neg 0 0
  | .rcp, .fin neg m e => if m = 0 then .inf neg else rcpFin neg m e
  | .rsq, .inf neg => if neg then .nan else .fin false 0 0
  | .rsq, .fin neg m e => if m = 0 then .inf neg else if neg then .nan else rsqFin m e
  | .sqrt, .inf neg => if neg then .nan else .inf false
  | .sqrt, .fin neg m e => if m = 0 then .fin neg 0 0 else if neg then .nan else sqrtFin m e
  | .exp2, .inf neg => if neg then .fin false 0 0 else .inf false
  | .exp2, .fin neg m e => exp2Fin neg m e
  | .log2, .inf neg => if neg then .nan else .inf false
  | .log2, .fin neg m e => if m = 0 then .inf true else if neg then .nan else log2Fin m e

end Sys2Proof.Machine
end

