-- ==== Sys2Proof/Machine/VectorOps.lean ====
section
/-!
DEFINITION. The V engine's registers as elements (11 R242 to R245), and the value of each element operation (R247 to
R257).
-/
namespace Sys2Proof.Machine

/-- Element `i` of `w` bits (R242). -/
def vElem (w : Nat) (r : VReg) (i : Nat) : Nat := (r.extractLsb' (w * i) w).toNat

/-- A register from its elements of `w` bits. -/
def vOfElems (w : Nat) (xs : List Nat) : VReg := BitVec.ofNat 32768 (xs.foldr (fun x acc => acc * 2 ^ w + x % 2 ^ w) 0)

/-- The number of elements of a width. -/
def vCount (w : Nat) : Nat := 32768 / w

/-- Whether a mask enables the word that holds element `i` of width `w`. -/
def vOn (mask : VPred) (w i : Nat) : Bool := mask.getLsbD (w * i / 32)

/-- Each enabled element receives `f i` and its flags; the others keep their contents (R244). -/
def vEach (w : Nat) (mask : VPred) (old : VReg) (f : Nat → Nat × Flags) : VReg × Flags :=
  let rs := (List.range (vCount w)).map (fun i => if vOn mask w i then f i else (vElem w old i, flNone))
  (vOfElems w (rs.map Prod.fst), rs.foldl (fun a r => a ||| r.2) flNone)

/-- The predicate bits of rows (06 R129). -/
def rowsMask (rows : BitVec 16) : VPred :=
  BitVec.ofNat 1024 ((List.range 16).foldr (fun r acc => acc * 2 ^ 64 + (if rows.getLsbD r then 2 ^ 64 - 1 else 0)) 0)

/-- A predicate from its bits. -/
def vpOf (f : Nat → Bool) : VPred := BitVec.ofNat 1024 ((List.range 1024).foldr (fun k acc => 2 * acc + (if f k then 1 else 0)) 0)

/-- The element width that EW selects (R243). -/
def ewWidth (ew : BitVec 2) : Nat := match ew.toNat with | 0 => 32 | 3 => 8 | _ => 16

/-- The floating-point format that EW selects (R243). -/
def ewFmt (ew : BitVec 2) : Fmt := match ew.toNat with | 0 => .fp32 | 1 => .fp16 | _ => .bf16

/-- The format codes of VCVT (08 R171). -/
def cvtFmt (c : BitVec 3) : Fmt :=
  match c.toNat with
  | 0 => .fp32 | 1 => .fp16 | 2 => .bf16 | 3 => .e4m3 | 4 => .e5m2 | 5 => .e2m1 | 6 => .i32 | _ => .i8

/-- FPCTL's rounding mode (01 R16). -/
def fpRm (fpctl : Word) : RMode := rmodeOf (fpctl.extractLsb' 0 2)

/-- Rounds a value into a format under FPCTL (01 R17, R18). -/
def vRound (fpctl : Word) (f : Fmt) (v : Val) : Nat × Flags := encodeVal f (fpRm fpctl) (fzoOf fpctl f) v

/- Floating-point element operations (R247, R248). -/

def fAdd (ctl : Word) (f : Fmt) (a b : Nat) : Nat × Flags :=
  vRound ctl f (addVal (fpRm ctl) (operandVal ctl f a) (operandVal ctl f b))
def fSub (ctl : Word) (f : Fmt) (a b : Nat) : Nat × Flags :=
  vRound ctl f (addVal (fpRm ctl) (operandVal ctl f a) (negVal (operandVal ctl f b)))
def fMul (ctl : Word) (f : Fmt) (a b : Nat) : Nat × Flags := vRound ctl f (mulVal (operandVal ctl f a) (operandVal ctl f b))
/-- The fused forms: the product, negated where `np`, plus the old destination, negated where `nd`. -/
def fFma (np nd : Bool) (ctl : Word) (f : Fmt) (a b d : Nat) : Nat × Flags :=
  let p := mulVal (operandVal ctl f a) (operandVal ctl f b)
  let d := operandVal ctl f d
  vRound ctl f (addVal (fpRm ctl) (if np then negVal p else p) (if nd then negVal d else d))

/-- Whether a value counts as less, -0 less than +0 (R248). -/
def fLess (a b : Val) : Bool :=
  match cmpVal a b with
  | some .lt => true
  | some .eq => (match a, b with | .fin true _ _, .fin false _ _ => true | _, _ => false)
  | _ => false
def fMin (ctl : Word) (f : Fmt) (a b : Nat) : Nat × Flags :=
  let x := operandVal ctl f a
  let y := operandVal ctl f b
  vRound ctl f (match x, y with | .nan, _ => .nan | _, .nan => .nan | _, _ => if fLess y x then y else x)
def fMax (ctl : Word) (f : Fmt) (a b : Nat) : Nat × Flags :=
  let x := operandVal ctl f a
  let y := operandVal ctl f b
  vRound ctl f (match x, y with | .nan, _ => .nan | _, .nan => .nan | _, _ => if fLess x y then y else x)

/-- VABS and VNEG: exact, unflushed, and a NaN operand gives the canonical NaN (R248). -/
def fSignOp (op : Nat → Nat) (f : Fmt) (a : Nat) : Nat × Flags :=
  (match decodeVal f a with | .nan => f.nanCode | _ => op a, flNone)
def fAbs (f : Fmt) (a : Nat) : Nat × Flags := fSignOp (fun a => a % 2 ^ (f.width - 1)) f a
def fNeg (f : Fmt) (a : Nat) : Nat × Flags := fSignOp (fun a => a ^^^ 2 ^ (f.width - 1)) f a

/-- A special function of an element (R249). -/
def fSpecial (fn : SpecialFn) (ctl : Word) (f : Fmt) (a : Nat) : Nat × Flags := vRound ctl f (specialVal fn (operandVal ctl f a))

/-- VDOT's word (R251): I8 quads into I32 for EW 3, else the sum of three terms rounded once. -/
def fDot (ctl : Word) (ew : BitVec 2) (d a b : Nat) : Nat × Flags :=
  let sub (w j x : Nat) : Nat := x / 2 ^ (w * j) % 2 ^ w
  if ew = 3 then
    (codeOfInt 32 ((List.range 4).foldl (fun acc j => acc + intOfCode 8 (sub 8 j a) * intOfCode 8 (sub 8 j b)) (intOfCode 32 d)), flNone)
  else
    let f := ewFmt ew
    let term (j : Nat) : Val := mulVal (operandVal ctl f (sub 16 j a)) (operandVal ctl f (sub 16 j b))
    vRound ctl .fp32 (addVal (fpRm ctl) (addVal (fpRm ctl) (operandVal ctl .fp32 d) (term 0)) (term 1))

/- Integer element operations on `w` bits (R252). -/

def iPopc (w a : Nat) : Nat := (List.range w).foldl (fun k i => k + a / 2 ^ i % 2) 0
def iClz (w a : Nat) : Nat := w - natBits a
def iMulh (w a b : Nat) : Nat := codeOfInt w (intOfCode w a * intOfCode w b / ((2 ^ w : Nat) : Int))
def iShra (w a b : Nat) : Nat := codeOfInt w (intOfCode w a / ((2 ^ (b % w) : Nat) : Int))
def iMin (w a b : Nat) : Nat := if intOfCode w a ≤ intOfCode w b then a else b
def iMax (w a b : Nat) : Nat := if intOfCode w a ≤ intOfCode w b then b else a

/- Compares (R253): a word's bit where the relation holds for every sub-element. -/

def vCompare (w : Nat) (rel : Nat → Nat → Bool) (a b : VReg) : Nat → Bool :=
  fun k => (List.range (32 / w)).all (fun j => rel (vElem w a (32 / w * k + j)) (vElem w b (32 / w * k + j)))

def fRel (ok : Ordering → Bool) (ctl : Word) (f : Fmt) (a b : Nat) : Bool :=
  match cmpVal (operandVal ctl f a) (operandVal ctl f b) with | some o => ok o | none => false

/- Reductions (R257). -/

/-- One level of the tree: neighbours are combined. -/
def treeStep (op : Nat → Nat → Nat × Flags) : List Nat → List Nat × Flags
  | x :: y :: t =>
    let (z, f) := op x y
    let (r, g) := treeStep op t
    (z :: r, f ||| g)
  | l => (l, flNone)

/-- The fixed tree over 2^k elements. -/
def treeReduce (op : Nat → Nat → Nat × Flags) : Nat → List Nat → Nat × Flags
  | 0, l => (l.headD 0, flNone)
  | k + 1, l =>
    let (l, f) := treeStep op l
    let (x, g) := treeReduce op k l
    (x, f ||| g)

/-- The operation that a rop names (08 R171). -/
def ropFn (rop : BitVec 6) (ctl : Word) (ew : BitVec 2) : Nat → Nat → Nat × Flags :=
  let f := ewFmt ew
  let w := ewWidth ew
  match rop.toNat with
  | 0 => fAdd ctl f
  | 1 => fMin ctl f
  | 2 => fMax ctl f
  | 3 => fun a b => ((a + b) % 2 ^ w, flNone)
  | 4 => fun a b => (iMin w a b, flNone)
  | _ => fun a b => (iMax w a b, flNone)

/-- VREDR: the results of the element positions within a row, each of the 16 elements of that position. -/
def redRows (rop : BitVec 6) (ctl : Word) (ew : BitVec 2) (a : VReg) : List (Nat × Flags) :=
  let w := ewWidth ew
  let m := 64 * (32 / w)
  (List.range m).map (fun j => treeReduce (ropFn rop ctl ew) 4 ((List.range 16).map (fun r => vElem w a (m * r + j))))

/-- VREDC: the results of the rows, each of the elements of the row. -/
def redCols (rop : BitVec 6) (ctl : Word) (ew : BitVec 2) (a : VReg) : List (Nat × Flags) :=
  let w := ewWidth ew
  let m := 64 * (32 / w)
  (List.range 16).map (fun r => treeReduce (ropFn rop ctl ew) (natBits m - 1) ((List.range m).map (fun j => vElem w a (m * r + j))))

end Sys2Proof.Machine
end

