-- ==== Sys2Proof/Machine/Collective.lean ====
section
/-!
DEFINITION. The collective engines (17 R343 to R349): their windows, descriptors, the canonical tree, chunks and
failures.
-/
namespace Sys2Proof.Machine

/-- A descriptor (R345), from its eight words. -/
structure CollDesc where
  src : Nat
  dst : Nat
  mtab : Nat
  cnt : Nat
  n : Nat
  rank : Nat
  op : Nat
  fmt : Nat
  rop : Nat
  cflags : Nat
  root : Nat
  tag : BitVec 16
  chunk : Nat
  cookie : BitVec 32
  rest : Nat
  deriving DecidableEq, Repr, Inhabited

/-- The fields of R345. -/
def collDesc (ws : List Word) : CollDesc :=
  let w (i : Nat) : Word := ws.getD i 0
  let f (i lo n : Nat) : Nat := ((w i).extractLsb' lo n).toNat
  { src := (w 0).toNat, dst := (w 1).toNat, mtab := (w 2).toNat, cnt := f 3 0 32, n := f 3 32 16, rank := f 3 48 16,
    op := f 4 0 8, fmt := f 4 8 8, rop := f 4 16 8, cflags := f 4 24 8, root := f 4 32 16, tag := (w 4).extractLsb' 48 16,
    chunk := f 5 0 32, cookie := (w 5).extractLsb' 32 32, rest := (w 6).toNat + (w 7).toNat }

/-- The limits of R345 that a descriptor's own bytes show. -/
def CollDesc.legal (d : CollDesc) : Bool :=
  decide (1 ≤ d.cnt) && decide (1 ≤ d.n) && decide (d.n ≤ 4096) && decide (d.rank < d.n) && decide (d.op ≤ 3)
    && (decide (d.fmt = 0x03) || decide (d.fmt = 0x04) || decide (d.fmt = 0x10) || decide (d.fmt = 0x12))
    && decide (d.rop ≤ 3) && (decide (d.rop ≠ 3) || decide (0x10 ≤ d.fmt)) && decide (d.cflags < 4)
    && (if d.op = 3 then decide (d.root < d.n) else decide (d.root = 0)) && decide (d.chunk % 4096 = 0) && decide (d.rest = 0)

def CollDesc.elastic (d : CollDesc) : Bool := decide (d.cflags % 2 = 1)
def CollDesc.width (d : CollDesc) : Nat := match d.fmt with | 0x04 => 8 | 0x12 => 2 | _ => 4
/-- The elements of a chunk. -/
def CollDesc.chunkElems (d : CollDesc) : Nat := (if d.chunk = 0 then 2 ^ 18 else d.chunk) / d.width

/-- A completion entry (R343). -/
def collEntry (d : CollDesc) (status : Nat) (shrunk : Bool) (nmem rank : Nat) : Word :=
  d.cookie.extractLsb' 0 28 ++ BitVec.ofNat 13 rank ++ BitVec.ofNat 13 nmem ++ BitVec.ofBool shrunk ++ 1#1 ++ BitVec.ofNat 8 status

/-- A completion entry reaches its core's output FIFO, or waits for a place (R344). -/
def pushEntry (g : Nat) (w : Word) (s : State) : State :=
  let c := s.unitCore g
  if c.outQ.length < 16 && !s.collWait.any (fun x => decide (x.1 = g)) then s.setUnitCore g { c with outQ := c.outQ ++ [w] }
  else { s with collWait := s.collWait ++ [(g, w)] }

/- The window. -/

/-- STAGING_WORD_WRITE (R343): a staging word of core g at a die's engine. -/
def stageWord (die g i : Nat) (v : Word) (s : State) : State :=
  let c := s.core g
  s.setCore g { c with stg := Tbl.set 0 c.stg (8 * die + i) v }

/-- COLLECTIVE_GO (R343): the descriptor enters the die's input FIFO, or the write is held. A descriptor that breaks a limit
completes at once (R345). -/
def pushDescr (die g : Nat) (v : Word) (s : State) : Option State :=
  let q := Tbl.get [] s.collIn die
  let det := match (s.core g).unit with | some u => u.det | none => false
  let d : Descr := { g := g, words := Tbl.getRun 0 (s.core g).stg (8 * die) 7 ++ [v], det := det }
  let x := collDesc d.words
  if 16 ≤ q.length then none
  else if !x.legal then some (pushEntry g (collEntry x cILLEGAL false x.n x.rank) s)
  else some { s with collIn := Tbl.set [] s.collIn die (q ++ [d]) }

/-- COLLECTIVE_STATUS_POP (R343, R344): zero from an empty FIFO; a waiting entry takes the place that frees. -/
def popStatus (g : Nat) (s : State) : Word × State :=
  let c := s.core g
  match c.outQ with
  | [] => (0, s)
  | w :: ws =>
    let next := (s.collWait.find? (fun x => decide (x.1 = g))).map Prod.snd
    let s := s.setCore g { c with outQ := ws ++ next.toList }
    (w, match next with | some x => { s with collWait := s.collWait.erase (g, x) } | none => s)

/-- The registers of the window, as core g's S loads and stores reach them; none: the GO write is held. A core has one output
FIFO, whichever engine's window pops it (log 51). -/
def cewOp (g : Nat) (off : Nat) (v : Option Word) (s : State) : Option (Word × State) :=
  let r := off % 0x1000
  let die := off / 0x1000 % 4
  match v with
  | some v =>
    if r = 0x38 then (pushDescr die g v s).map (fun s => (0, s)) else some (0, stageWord die g (r / 8) v s)
  | none =>
    if r = 0x40 then some (popStatus g s)
    else if r = 0x48 then
      some (BitVec.ofNat 64 ((Tbl.get [] s.collIn die).length + 32 * (s.core g).outQ.length), s)
    else some (Tbl.get 0 (s.core g).stg (8 * die + r / 8), s)

def execStagingWordWrite (g i : Nat) (v : BitVec 64) (s : State) : Host.Outcome State Fault Refusal :=
  .next (if i < 7 then stageWord (coreDie g) g i v s else s)
def execCollectiveGo (g : Nat) (v : BitVec 64) (s : State) : Host.Outcome State Fault Refusal :=
  .next ((pushDescr (coreDie g) g v s).getD s)
def execCollectiveStatusPop (g : Nat) (s : State) : Host.Outcome State Fault Refusal := .next (popStatus g s).2

/- D space, as the engines and the Dispatchers reach it. -/

/-- The physical runs of a D access of an engine or, `disp`, of a Dispatcher, which stands outside die 0's fence (20 R379). -/
def ownSegs (disp : Bool) (va n : Nat) (write : Bool) (s : State) : Except Nat (List Seg) × State :=
  if 2 ^ 57 < va + n then (.error cTRANSLATE, s)
  else if inCew s va n then (.error cPROTECT, s)
  else match segments (fun a s => translateOwn disp a write s) (pagesOf n) va n s with
  | (.error e, s) => (.error e, s)
  | (.ok r, s) =>
    if r.any (fun x => fencedDie s (paDie x.1) && !(disp && decide (paDie x.1 = 0))) then (.error cUNREACH, s) else (.ok r, s)

/-- Reads D bytes under a request tag: a fault code, or the bytes. -/
def readAs (disp : Bool) (va n : Nat) (tag : BitVec 16) (s : State) : Except Nat (List Byte) × State :=
  match ownSegs disp va n false s with
  | (.error e, s) => (.error e, s)
  | (.ok r, s) => if (segsPoison s r 0).isSome then (.error cPOISON, s) else (.ok (readSegs s r), correctSegs r tag s)

/-- Writes D bytes. -/
def writeAs (disp : Bool) (va : Nat) (bs : List Byte) (s : State) : Except Nat Unit × State :=
  match ownSegs disp va bs.length true s with
  | (.error e, s) => (.error e, s)
  | (.ok r, s) => (.ok (), writeSegs r bs s)

/-- The accesses of a collective engine, and of a Dispatcher. An engine only moves bytes, poisoned ones with their marks (07 R160). -/
def engRead (va n : Nat) (tag : BitVec 16) (s : State) : Except Nat (List MByte) × State :=
  match ownSegs false va n false s with
  | (.error e, s) => (.error e, s)
  | (.ok r, s) => (.ok ((readSegs s r).zip (segMarks s r)), correctSegs r tag s)
def engWrite (va : Nat) (bs : List MByte) (s : State) : Except Nat Unit × State :=
  match ownSegs false va bs.length true s with
  | (.error e, s) => (.error e, s)
  | (.ok r, s) => (.ok (), writeSegsM r bs s)
def ownRead (va n : Nat) (s : State) : Except Nat (List Byte) × State := readAs true va n 0 s
def ownWrite (va : Nat) (bs : List Byte) (s : State) : Except Nat Unit × State := writeAs true va bs s

/-- The membership table's entry of a rank: device and die (R345). -/
def memberAt (tab : List Byte) (rank : Nat) : Nat × Nat × Nat :=
  let v := leNat ((tab.drop (4 * rank)).take 4)
  (v % 4096, v / 4096 % 4, v / 2 ^ 14)

/- Reduction. -/

/-- The element operation of a reduction: integer add wraps, floating point rounds to nearest even unflushed (R345). -/
def collOp (fmt rop : Nat) (a b : Nat) : Nat :=
  let f : Fmt := if fmt = 0x12 then .bf16 else .fp32
  let w := if fmt = 0x04 then 64 else 32
  if fmt ≤ 0x04 then
    (match rop with | 1 => iMin w a b | 2 => iMax w a b | _ => (a + b) % 2 ^ w)
  else (match rop with | 1 => (fMin 0 f a b).1 | 2 => (fMax 0 f a b).1 | _ => (fAdd 0 f a b).1)

/-- The mean: the reduced sum divided by the member count, with one rounding (R345). A quotient's 64 further bits and a
sticky bit keep it on its side of every rounding boundary. -/
def collMean (fmt n c : Nat) : Nat :=
  let f : Fmt := if fmt = 0x12 then .bf16 else .fp32
  match decodeVal f c with
  | .fin neg m e =>
    let num := m * 2 ^ 80
    (encodeVal f .nearest false (.fin neg (2 * (num / n) + (if num % n = 0 then 0 else 1)) (e - 81))).1
  | v => (encodeVal f .nearest false v).1

/-- One level of the canonical tree: neighbours combine, the last of an odd count passes up (R347). -/
def treeLevel (op : Nat → Nat → Nat) : List Nat → List Nat
  | a :: b :: t => op a b :: treeLevel op t
  | l => l

/-- The canonical tree over the ranks' values, in rank order (R347). -/
def canonTree (op : Nat → Nat → Nat) : Nat → List Nat → Nat
  | _, [] => 0
  | _, [x] => x
  | 0, x :: _ => x
  | k + 1, l => canonTree op k (treeLevel op l)

/-- Any order (R347): a postfix program over the members' positions; a number at or past their count combines the top two.
None where it is no tree over all of them. -/
def combineOrder (op : Nat → Nat → Nat) (vals : List Nat) (order : List Nat) : Option Nat :=
  let n := vals.length
  let used := order.filter (fun k => decide (k < n))
  let st := order.foldl (fun (st : List Nat) k =>
    if k < n then vals.getD k 0 :: st
    else match st with | b :: a :: t => op a b :: t | t => t) []
  match st with
  | [x] => if used.length = n && (List.range n).all (fun k => used.contains k) then some x else none
  | _ => none

/-- The range of position r among n members (R347). -/
def rankRange (L n r : Nat) : Nat × Nat := (r * L / n, (r + 1) * L / n)

/- Running. -/

/-- The membership table that a descriptor names, where it can be read. -/
def tableOf (s : State) (x : CollDesc) : Option (List Byte) :=
  match (engRead x.mtab (4 * x.n) x.tag s).1 with | .ok b => some (b.map Prod.fst) | .error _ => none

/-- Two descriptors are members' of one collective (R346): the same tag and shape, and the same members in their tables, which each
may keep where it likes; cookies are each member's own (R345, log 52). -/
def CollDesc.same (s : State) (x y : CollDesc) : Bool :=
  decide (y.tag = x.tag) && decide (y.n = x.n) && decide (y.cnt = x.cnt) && decide (y.op = x.op) && decide (y.fmt = x.fmt)
    && decide (y.rop = x.rop) && decide (y.root = x.root) && decide (y.chunk = x.chunk)
    && (decide (y.mtab = x.mtab) || decide (tableOf s y = tableOf s x))

/-- What the member of rank `from_` has put into the chunks of a collective that the member of rank `to_` has not finished, oldest
first. Both are of this module. -/
def collPartsOf (s : State) (from_ to_ : Nat) (x : CollDesc) : List CollPart :=
  s.collParts.filter (fun p => decide (p.rank = from_) && p.left.contains to_ && x.same s (collDesc p.words))

/-- The parts of a member of this module in the collective of run `r`: its own, or of another member's the oldest collective's. -/
def runParts (s : State) (r : CollRun) (rank : Nat) : List CollPart :=
  let x := collDesc r.d.words
  if rank = x.rank then s.collParts.filter (fun p => decide (p.no = r.no))
  else
    let l := collPartsOf s rank x.rank x
    l.filter (fun p => decide (p.no = (l.headD default).no))

/-- A collective leaves its engine with an entry, and needs no other member's parts any more. -/
def collFinish (die : Nat) (r : CollRun) (status : Nat) (s : State) : State :=
  let d := collDesc r.d.words
  let mine := ((s.collParts.map CollPart.rank).eraseDups).flatMap (runParts s r)
  let parts := s.collParts.map (fun p => if mine.contains p then { p with left := p.left.filter (fun k => decide (k ≠ d.rank)) } else p)
  pushEntry r.d.g (collEntry d status r.shrunk r.members.length (r.members.idxOf d.rank))
    { s with collRun := Tbl.set none s.collRun die none, collParts := parts.filter (fun p => !p.left.isEmpty) }

/-- The next descriptor begins. -/
def collStart (die : Nat) (s : State) : State :=
  match Tbl.get none s.collRun die, Tbl.get [] s.collIn die with
  | none, d :: ds =>
    let r : CollRun := { no := s.collNo, d := d, members := List.range (collDesc d.words).n, chunk := 0, shrunk := false, out := [], at_ := 0
                         tab := [], got := [], sent := 0 }
    { s with collIn := Tbl.set [] s.collIn die ds, collNo := s.collNo + 1, collRun := Tbl.set none s.collRun die (some r) }
  | _, _ => s

/-- The engine keeps a run. -/
def keepRun (die : Nat) (r : CollRun) (s : State) : State := { s with collRun := Tbl.set none s.collRun die (some r) }

/-- An engine reads the next line of `n` bytes from a D address, of which `k` have come (15 R316). -/
def engLine (a n k : Nat) (tag : BitVec 16) (s : State) : Except Nat (List MByte) × State :=
  engRead (a + k) (min (64 - (a + k) % 64) (n - k)) tag s

/-- The next line of the membership table. When it is whole, the descriptor's rank must name this module and die (R345). -/
def collTable (die : Nat) (r : CollRun) (s : State) : State :=
  let x := collDesc r.d.words
  match engLine x.mtab (4 * x.n) r.tab.length x.tag s with
  | (.error e, s) => collFinish die r e s
  | (.ok bs, s) =>
    let r := { r with tab := r.tab ++ bs.map Prod.fst }
    let own := memberAt r.tab x.rank
    if bs.any Prod.snd then collFinish die r cPOISON s
    else if 4 * x.n ≤ r.tab.length && ((List.range x.n).any (fun k => decide ((memberAt r.tab k).2.2 ≠ 0))
        || decide (own.1 ≠ s.plat.device.toNat) || decide (own.2.1 ≠ die)) then collFinish die r cILLEGAL s
    else keepRun die r s

/-- The descriptor by which another member of this module takes part in run `r`: its rank's, where its GO has been written (R346), past
those of the collectives that it still runs before it. -/
def peerDescr (s : State) (r : CollRun) (die rank : Nat) : Option CollDesc :=
  let x := collDesc r.d.words
  let run := match Tbl.get none s.collRun die with | some y => [y.d] | none => []
  let mine := ((run ++ Tbl.get [] s.collIn die).map (fun d => collDesc d.words)).filter (fun y => decide (y.rank = rank) && x.same s y)
  let behind := ((collPartsOf s x.rank rank x).map CollPart.no).filter (fun k => decide (k < r.no))
  mine[behind.eraseDups.length]?

/-- What a member of this module has put into the elements [lo, hi) of a run's chunk. -/
def partOf (s : State) (r : CollRun) (rank lo hi : Nat) : Option (List MByte) :=
  let w := (collDesc r.d.words).width
  ((runParts s r rank).find? (fun p => decide (p.chunk = r.chunk) && decide (p.first ≤ lo)
    && decide ((hi - p.first) * w ≤ p.data.length))).map (fun p => (p.data.drop ((lo - p.first) * w)).take ((hi - lo) * w))

/-- What has been read of a member's src for the run's chunk. -/
def CollRun.read (r : CollRun) (rank : Nat) : List MByte := ((r.got.find? (fun y => decide (y.1 = rank))).map Prod.snd).getD []

/-- The next line of the elements [lo, hi) of a member's src is read through descriptor `y`; a reduction stops at a poisoned word. -/
def srcLine (die : Nat) (r : CollRun) (y : CollDesc) (rank lo hi : Nat) (s : State) : State :=
  let w := y.width
  match engLine (y.src + lo * w) ((hi - lo) * w) (r.read rank).length y.tag s with
  | (.error e, s) => collFinish die r e s
  | (.ok bs, s) =>
    if decide (y.op < 2) && bs.any Prod.snd then collFinish die r cPOISON s
    else keepRun die { r with got := (rank, r.read rank ++ bs) :: r.got.filter (fun z => decide (z.1 ≠ rank)) } s

/-- The elements [lo, hi) that a member puts into a chunk, as far as they are at hand: those of a member of this module as it has put
them there or as they have been read, those of another device as the links delivered them (log 35). -/
def memberData (s : State) (r : CollRun) (remote : List (Nat × List MByte)) (n : Nat × Nat × Nat) : Option (List MByte) :=
  let (rank, lo, hi) := n
  let whole (l : List MByte) : Option (List MByte) := if l.length = (hi - lo) * (collDesc r.d.words).width then some l else none
  if (memberAt r.tab rank).1 ≠ s.plat.device.toNat then (remote.find? (fun y => decide (y.1 = rank))).bind (fun y => whole y.2)
  else match partOf s r rank lo hi with | some d => some d | none => whole (r.read rank)

/-- The next line of what is still to be read of the members of this module; none where nothing is. -/
def memberLine (die : Nat) (r : CollRun) (needs : List (Nat × Nat × Nat)) (s : State) : Option State :=
  let open_ (n : Nat × Nat × Nat) : Bool := decide ((memberAt r.tab n.1).1 = s.plat.device.toNat) && (memberData s r [] n).isNone
  (needs.find? open_).map (fun n =>
    match peerDescr s r (memberAt r.tab n.1).2.1 n.1 with
    | some y => srcLine die r y n.1 n.2.1 n.2.2 s
    | none => s)

/-- The elements of the chunk [lo, hi) that this member puts into it. -/
def ownPart (x : CollDesc) (r : CollRun) (lo hi : Nat) : Nat × Nat :=
  match x.op with
  | 2 => let rg := rankRange x.cnt r.members.length (r.members.idxOf x.rank); (max lo rg.1, min hi rg.2)
  | 3 => if x.root = x.rank then (lo, hi) else (lo, lo)
  | _ => (lo, hi)

/-- The other devices of a run's members. -/
def otherDevices (s : State) (r : CollRun) : List Nat :=
  ((r.members.map (fun m => (memberAt r.tab m).1)).eraseDups).filter (fun d => decide (d ≠ s.plat.device.toNat))

/-- A collective packet goes to a device (R335, R337); none: it waits for room. Where no path leads there it is dropped: the member is
lost (R349). -/
def sendColl (die dev : Nat) (tag : BitVec 16) (va : Nat) (bs : List MByte) (s : State) : Option State :=
  match sendPacket die dev 3 tag .collective va bs.length (bs.map Prod.fst) (payloadMarks bs) .none s with
  | .sent s => some s
  | .full => none
  | .unreachable => some s

/-- What this member puts into the chunk [lo, hi): it is read line by line, stays there until every member of this module has finished,
so that a repeated chunk is filled again with it (R348, log 52), and goes to every other device of a member in packets of at most 4 KiB
(R335). None where that is done. MODEL'S CHOICE (log 35): the spec does not say which member sends what to whom; `va` is the part's byte
offset in the operand. -/
def shareLine (die : Nat) (r : CollRun) (lo hi : Nat) (s : State) : Option State :=
  let x := collDesc r.d.words
  let (a, b) := ownPart x r lo hi
  let len := (b - a) * x.width
  if b ≤ a then none
  else match partOf s r x.rank a b with
  | none =>
    if (r.read x.rank).length < len then some (srcLine die r x x.rank a b s)
    else
      let ranks := r.members.filter (fun m => decide ((memberAt r.tab m).1 = s.plat.device.toNat))
      some { keepRun die { r with got := r.got.filter (fun z => decide (z.1 ≠ x.rank)) } s with
             collParts := s.collParts ++ [{ rank := x.rank, no := r.no, words := r.d.words, chunk := r.chunk, first := a
                                            data := r.read x.rank, left := ranks }] }
  | some d =>
    let pieces := (len + 4095) / 4096
    let devs := otherDevices s r
    if devs.length * pieces ≤ r.sent then none
    else
      let off := 4096 * (r.sent % pieces)
      some (match sendColl die (devs.getD (r.sent / pieces) 0) x.tag (a * x.width + off) ((d.drop off).take 4096) s with
        | some s => keepRun die { r with sent := r.sent + 1 } s
        | none => s)

/-- The elements that a reduction writes into dst (R347). -/
def chunkValues (x : CollDesc) (r : CollRun) (order : List Nat) (data : List (List Nat)) : Option (List Nat) :=
  let n := r.members.length
  let op := collOp x.fmt x.rop
  let len := (data.headD []).length
  let tree := r.d.det || decide (x.cflags / 2 % 2 = 1)
  (List.range len).foldr (fun i (acc : Option (List Nat)) =>
    let vals := data.map (fun d => d.getD i 0)
    let v := if tree then some (canonTree op n vals) else combineOrder op vals order
    match v, acc with
    | some v, some l => some ((if x.rop = 3 then collMean x.fmt n v else v) :: l)
    | _, _ => none) (some [])

/-- What a chunk writes into dst: the members' bytes as they come, or their elements combined. -/
def chunkBytes (x : CollDesc) (r : CollRun) (order : List Nat) (data : List (List MByte)) : Option (List MByte) :=
  if 2 ≤ x.op then some data.flatten
  else (chunkValues x r order (data.map (fun d => numsOf x.width (d.map Prod.fst)))).map (fun vs =>
    (vs.flatMap (natLE x.width)).map (fun b => (b, false)))

/-- The parts of a chunk [lo, hi) that a member of this rank receives, each the ranks whose data it needs. -/
def chunkNeeds (x : CollDesc) (r : CollRun) (lo hi : Nat) : Nat × Nat × List (Nat × Nat × Nat) :=
  let n := r.members.length
  match x.op with
  | 2 =>
    let parts := r.members.zipIdx.map (fun m =>
      let rg := rankRange x.cnt n m.2
      (m.1, max lo rg.1, min hi rg.2))
    (lo, hi, parts.filter (fun p => decide (p.2.1 < p.2.2)))
  | 3 => (lo, hi, [(x.root, lo, hi)])
  | op =>
    let rg := if op = 1 then rankRange x.cnt n (r.members.idxOf x.rank) else (0, x.cnt)
    let a := max lo rg.1
    let b := max a (min hi rg.2)
    (a, b, r.members.map (fun m => (m, a, b)))

/-- This member acknowledges a chunk to every other device of a member, by a packet without payload that names the chunk (R348, log 35);
none: it waits for room. -/
def ackChunk (die : Nat) (r : CollRun) (s : State) : Option State :=
  (otherDevices s r).foldl (fun acc dev => acc.bind (sendColl die dev (collDesc r.d.words).tag r.chunk [])) (some s)

/-- A chunk that is complete is written into dst line by line (15 R316), and then acknowledged; after the last line of the last chunk the
collective completes. -/
def chunkLine (die : Nat) (r : CollRun) (s : State) : State :=
  let x := collDesc r.d.words
  let n := 64 - (x.dst + r.at_) % 64
  match engWrite (x.dst + r.at_) (r.out.take n) s with
  | (.error e, s) => collFinish die r e s
  | (.ok _, u) =>
    let y := { r with out := r.out.drop n, at_ := r.at_ + min n r.out.length }
    if !y.out.isEmpty then keepRun die y u
    else match ackChunk die r u with
      | none => keepRun die r s
      | some u =>
        let y := { y with chunk := r.chunk + 1, at_ := 0, got := [], sent := 0 }
        if x.cnt ≤ y.chunk * x.chunkElems then collFinish die y 0 u else keepRun die y u

/-- CHUNK_COMPLETE (R347, R348): a turn of a die's engine. It reads the next line of the membership table, of its own part of the next
chunk, or of what the members of this module put there; sends the next packet of its part; or, when the chunk is complete, writes its next
line into dst. -/
def chunkDone (die : Nat) (remote : List (Nat × List MByte)) (order : List Nat) (s : State) : State :=
  let s := collStart die s
  match Tbl.get none s.collRun die with
  | none => s
  | some r =>
    let x := collDesc r.d.words
    if r.tab.length < 4 * x.n then collTable die r s
    else if !r.out.isEmpty then chunkLine die r s
    else if x.op = 3 && !r.members.contains x.root then collFinish die r cUNREACH s
    else
    let lo := r.chunk * x.chunkElems
    let hi := min x.cnt (lo + x.chunkElems)
    let (a, b, needs) := chunkNeeds x r lo hi
    let needs := if a < b then needs else []
    match (shareLine die r lo hi s).or (memberLine die r needs s) with
    | some s => s
    | none =>
      match needs.mapM (memberData s r remote) with
      | none => s
      | some data =>
        if decide (x.op < 2) && data.any (fun d => d.any Prod.snd) then collFinish die r cPOISON s
        else match (if a < b then chunkBytes x r order data else some []) with
          | none => s
          | some bs => chunkLine die { r with out := bs, at_ := a * x.width, got := [] } s

def execChunkComplete (die : Nat) (remote : List (Nat × List (BitVec 8 × Bool))) (order : List Nat) (s : State) :
    Host.Outcome State Fault Refusal :=
  .next (if fencedDie s die then s else chunkDone die remote order s)

/-- A member of a die's collective is lost: a bound collective fails, and an elastic one goes on without it from chunk 0 (R349). -/
def loseMember (die rank : Nat) (r : CollRun) (s : State) : State :=
  let x := collDesc r.d.words
  if !x.elastic then collFinish die r cUNREACH s
  else
    let parts := s.collParts.map (fun p =>
      if decide (p.no = r.no) && decide (p.rank = x.rank) then { p with left := p.left.filter (fun k => decide (k ≠ rank)) } else p)
    keepRun die { r with members := r.members.filter (fun m => decide (m ≠ rank)), chunk := 0, shrunk := true, out := [], at_ := 0, got := [], sent := 0 }
      { s with collParts := parts }

/-- The dies of this module that run the same collective as a die does. -/
def collDies (s : State) (x : CollDesc) : List (Nat × CollRun) :=
  [0, 1, 2, 3].filterMap (fun k => match Tbl.get none s.collRun k with
    | some r => if x.same s (collDesc r.d.words) then some (k, r) else none
    | none => none)

/-- COLLECTIVE_FAILURE (R349): a link towards a member of a die's collective has failed, or the member is lost: no path leads to
it, or its die is fenced; `l` says so of a die of another device. With a path left the collective goes back to the last chunk
that every member has acknowledged, of which `l` says how many those of other devices have. -/
def execCollectiveFailure (die rank : Nat) (l : MemberLoss) (s : State) : Host.Outcome State Fault Refusal :=
  let s := collStart die s
  .next (match Tbl.get none s.collRun die with
    | none => s
    | some r =>
      let x := collDesc r.d.words
      if !r.members.contains rank || rank = x.rank || r.tab.length < 4 * x.n then s
      else
        let m := memberAt r.tab rank
        let own := decide (m.1 = s.plat.device.toNat)
        let runs := collDies s x
        if (if own then fencedDie s m.2.1 else l.fenced || !pathUp s die m.1) then runs.foldl (fun s k => loseMember k.1 rank k.2 s) s
        else if own || !s.pathDown.any (fun p => decide (p.1 = die) && decide (p.2.1 = m.1)) then s
        else
          let back := runs.foldl (fun n k => min n k.2.chunk) l.acked
          { s with collRun := runs.foldl (fun t k => Tbl.set none t k.1 (some { k.2 with chunk := min k.2.chunk back, out := [], at_ := 0, got := [], sent := 0 })) s.collRun })

/-- The collectives of a purged tag complete with the purging code (20 R377). -/
def purgeCollectives (tag : BitVec 16) (code : Nat) (s : State) : State :=
  [0, 1, 2, 3].foldl (fun s die =>
    let s := match Tbl.get none s.collRun die with
      | some r => if (collDesc r.d.words).tag = tag then collFinish die r code s else s
      | none => s
    let q := Tbl.get [] s.collIn die
    let gone := q.filter (fun d => (collDesc d.words).tag = tag)
    let s := { s with collIn := Tbl.set [] s.collIn die (q.filter (fun d => (collDesc d.words).tag ≠ tag)) }
    gone.foldl (fun s d => let x := collDesc d.words; pushEntry d.g (collEntry x code false x.n x.rank) s) s) s

end Sys2Proof.Machine
end

