-- ==== Sys2Proof/Machine/Commands.lean ====
section
/-!
DEFINITION. The commands of the M and K engines: naming, issue, the conditions of their start, the RACE checker, and
completion (08 R172, 10 R222, 12 R275, 06 R132, R400).
-/
namespace Sys2Proof.Machine

/-- The commands of an engine, oldest first. -/
def Core.cmds (c : Core) (e : Eng) : List Cmd := match e with | .m => c.mcmds | _ => c.kcmds
def Core.setCmds (c : Core) (e : Eng) (l : List Cmd) : Core :=
  match e with | .m => { c with mcmds := l } | _ => { c with kcmds := l }

/-- An engine's command by its number. -/
def Core.cmd? (c : Core) (e : Eng) (n : Nat) : Option Cmd := (c.cmds e).find? (fun x => decide (x.no = n))
/-- Replaces a command. -/
def Core.putCmd (c : Core) (e : Eng) (x : Cmd) : Core := c.setCmds e ((c.cmds e).map (fun y => if y.no = x.no then x else y))

/-- Whether a command has not completed. -/
def Core.live (c : Core) (n : Nat) : Bool := (c.mcmds ++ c.kcmds).any (fun x => decide (x.no = n))

/-- The running unit's launch has det in force (05 R107). -/
def Core.detOn (c : Core) : Bool := match c.unit with | some u => u.det | none => false

/-- The words of an instruction of the M or K stream (08 R177). -/
def cmdWords : Instr → Nat
  | .mlnt .. | .msolvCg .. | .msolvLdlt .. | .kcpy .. => 4
  | .kexp _ | .kexpt _ => 2
  | _ => 3

/- The RACE checker. -/

/-- The commands from which a path leads to command `n` (R132). -/
def Core.reachOf (c : Core) (n : Nat) : Token :=
  match c.window.find? (fun w => decide (w.no = n)) with | some w => insWord n w.reach | none => [n]

/-- All that a stream reaches that has waited for an engine's commands before number n (R132). -/
def Core.reachAll (c : Core) (e : Eng) (n : Nat) : Token :=
  (c.window.filter (fun w => decide (w.eng = e) && decide (w.no < n))).foldl (fun p w => unionPath p (unionPath w.before (insWord w.no w.reach))) []

/-- A stream's path grows. -/
def Core.addPath (c : Core) (e : Eng) (p : Token) : Core := c.setStream e { c.stream e with path := unionPath (c.stream e).path p }

/-- The lowest line that two footprints share and that one of them writes, if any. -/
def footsMeet (a b : List Foot) : Option Nat :=
  let ms := a.flatMap (fun x => b.filterMap (fun y =>
    if x.core = y.core && (x.write || y.write) && decide (x.first ≤ y.last) && decide (y.first ≤ x.last) then some (max x.first y.first)
    else none))
  ms.foldl (fun acc m => match acc with | none => some m | some k => some (min k m)) none

/-- The lines of `n` bytes from an address of a scratchpad. -/
def footOf (core a n : Nat) (write : Bool) : List Foot :=
  if n = 0 then [] else [{ core := core, first := a / 64, last := (a + n - 1) / 64, write := write }]

/-- The check of a command against earlier ones of the window (R132): the lowest common line of a pair without a path. -/
def raceCheck (earlier : List WinEntry) (reach : Token) (foot : List Foot) : Option Nat :=
  let ms := earlier.filterMap (fun w => if reach.contains w.no then none else match w.foot with
    | some f => footsMeet f foot
    | none => none)
  ms.foldl (fun acc m => match acc with | none => some m | some k => some (min k m)) none

/-- The window of command n: the 128 most recent earlier commands of each engine (R132). -/
def windowOf (l : List WinEntry) (n : Nat) : List WinEntry :=
  let last (e : Eng) : List WinEntry :=
    let mine := l.filter (fun x => decide (x.eng = e) && decide (x.no < n))
    mine.drop (mine.length - 128)
  last .m ++ last .k

/-- Replaces the first of a list that meets a condition. -/
def updFirst {α : Type} (p : α → Bool) (f : α → α) : List α → List α
  | [] => []
  | x :: xs => if p x then f x :: xs else x :: updFirst p f xs

/-- A command is kept for the windows of later ones, also of an MGO that starts when its engines have issued up to 64
commands more each (R400): the last 256 of its engine. What leads to an older one is kept as long as a later command can wait for it:
while a sequence number names it (`names`), and with the next one of its engine for a wait for all that came before (R132). -/
def pushWindow (names : List Nat) (l : List WinEntry) (w : WinEntry) : List WinEntry :=
  let mine := l.filter (fun x => decide (x.eng = w.eng))
  let old := (mine.take (mine.length - 255)).filter (fun x => !names.contains x.no)
  let l := old.foldl (fun l o =>
    let l := l.filter (fun x => decide (x.no ≠ o.no))
    updFirst (fun x => decide (x.eng = o.eng) && decide (o.no < x.no)) (fun x => { x with before := unionPath x.before (unionPath o.before (insWord o.no o.reach)) }) l) l
  let known := l.map WinEntry.no
  l.map (fun x => { x with before := x.before.filter known.contains }) ++ [w]

/- Issue. -/

/-- What a command asks for before it issues: its tokens and a command place (R172), bounded by DBND (R164). -/
def cmdNeed (e : Eng) (tk : BitVec 3) : Need :=
  { eng := e, tk := tk, holds := [{ kind := 0xB, obj := engNum e, await := 0 }] }

/-- The type register a field names; 63 names none (08 R162). -/
def Core.tyOf (c : Core) (f : BitVec 6) : BitVec 640 := if f = 63 then 0 else Tbl.get 0 c.ty f.toNat
/-- What a command of an engine captures of it: K captures the old contents in the cycle of an MTYP (02 R41). -/
def Core.tyAt (c : Core) (e : Eng) (f : BitVec 6) : BitVec 640 :=
  match c.cyc.ty.find? (fun x => decide (x.1 = f.toNat)) with
  | some x => if e = .k && f ≠ 63 then x.2 else c.tyOf f
  | none => c.tyOf f

/-- The profile in force for a command: its own, else the current one (R173, 12 R285). -/
def Core.profOf (c : Core) (p : BitVec 4) : Nat := if p = 0 then c.mprof else p.toNat

/-- The command that a sequence number names: the most recent one that issued before this cycle (R172); 0 none. -/
def Core.namedBy (c : Core) (seq : Nat) : Nat :=
  match c.cyc.names.find? (fun x => decide (x.1 = seq)) with
  | some x => x.2
  | none => Tbl.get 0 c.names seq

/-- The commands a header names (R172). -/
def Core.named (c : Core) (h : CmdHdr) : List Nat :=
  ([h.dep0, h.dep1].filter (fun d => decide (d ≠ 0))).map (fun d => c.namedBy d.toNat) |>.filter (fun n => decide (n ≠ 0))

/-- A command as it issues. -/
def newCmd (c : Core) (now : Nat) (e : Eng) (h : CmdHdr) (i : Instr) (slots : List Word) : Cmd :=
  let named := c.named h
  let path := if c.detOn then named.foldl (fun p n => unionPath p (c.reachOf n)) (c.stream e).path else []
  { no := c.cmdNo, pc := (c.stream e).pc, i := i, seq := h.seq.toNat, bound := h.e.toNat, issued := now, raised := false,
    deps := named.filter c.live, checked := false, started := none, ta := c.tyAt e h.ta, tb := c.tyAt e h.tb,
    prof := c.profOf h.prof, slots := slots, bind := none, nfy := decide (e = .k) && h.prof.getLsbD 3,
    places := fifosPushed e (c.tokenSet e h.tk), path := path, sent := 0, run := 0, off := 0, fly := [], failed := [],
    stop := none, allSent := false, nums := [], bytes := [], ready := false, ahead := false, blocks := [], endAt := none, nest := [],
    gsel := 0, solve := { stage := .start, log := [], it := 0, rr := 0, bb := 0, brr := 0 }, arr := none, orb := OrbitRun.reset, part := [], since := now }

/-- The record of a fault of a command (20 R374): LINES and PREFIX in EBX. -/
def cmdFault (e : Eng) (x : Cmd) (code : Nat) (addr : Word) (lines pre : Nat) : FaultInfo :=
  { code := code, src := engNum e, seq := x.seq, pc := x.pc, addr := addr, ebx := BitVec.ofNat 32 pre ++ BitVec.ofNat 32 lines }

/-- A fault at a command's own instruction address. -/
def cmdFaultHere (c : Core) (e : Eng) (x : Cmd) (code : Nat) : FaultInfo := cmdFault e x code (c.textAddr e x.pc) 0 0

/-- The error response of a command that faults with RACE, at its lowest common line (R132). -/
def raceFault (e : Eng) (x : Cmd) (l : Nat) : FaultInfo := cmdFault e x cRACE (BitVec.ofNat 64 (64 * l)) 0 0

/-- A command enters its engine; under det it is checked against the window first (R132): one that faults is not
executed, and answers when its turn comes. `foot`: its footprint, none where it is known only later (`late`). A named sequence
number names it from then on. -/
def enterCmd (e : Eng) (x : Cmd) (foot : Option (List Foot)) (late : Bool) (s : State) : State :=
  let c := s.me
  let race := if c.detOn then foot.bind (fun f => raceCheck (windowOf c.window x.no) x.path f) else none
  let x := { x with stop := race.map (raceFault e x) }
  let c := { c with cmdNo := c.cmdNo + 1, names := if x.seq = 0 then c.names else Tbl.set 0 c.names x.seq x.no,
                    cyc := if x.seq = 0 then c.cyc else { c.cyc with names := (x.seq, Tbl.get 0 c.names x.seq) :: c.cyc.names },
                    window := if c.detOn then
                      pushWindow ((if x.seq = 0 then c.names else Tbl.set 0 c.names x.seq x.no).map Prod.snd) c.window
                        { no := x.no, eng := e, foot := foot, reach := x.path, late := late, before := [] }
                              else c.window }
  s.setMe ((c.setCmds e (c.cmds e ++ [x])).advancePc e s.now (cmdWords x.i))

/-- Updates a stream's path when it has waited for a command (R132). -/
def Core.waitedFor (c : Core) (e : Eng) (n : Nat) : Core :=
  if c.detOn && n ≠ 0 then c.setStream e { c.stream e with path := unionPath (c.stream e).path (c.reachOf n) } else c

/- Start. -/

/-- The next command of an engine to start: the oldest that has not (R172). -/
def Core.nextStart (c : Core) (e : Eng) : Option Cmd := (c.cmds e).find? (fun x => x.started.isNone && !isMark x.i)

/-- What a command reads and writes of the engine's own state (12 R275): groups at 0 to 3, accumulators at 8 to 15. -/
structure Uses where
  reads : List Nat
  writes : List Nat
  deriving Repr, Inhabited

/-- The groups of nseg segments, and an accumulator or its pair. -/
def segGroups (g nseg : Nat) : List Nat := (List.range nseg).map (fun k => g + k)
def accsOf (acc : BitVec 3) (kind : BitVec 2) : List Nat := if kind = 2 then [8 + acc.toNat, 9 + acc.toNat] else [8 + acc.toNat]

/-- The number of B segments of a profile (12 R279). -/
def nsegOf (p : Nat) : Nat := match p with | 3 | 5 => 2 | 8 => 3 | _ => 1

def usesOf (gsel : Nat) (x : Cmd) : Uses :=
  match x.i with
  | .mldb _ grp _ => { reads := [], writes := segGroups grp.toNat (nsegOf x.prof) }
  | .msel _ grp inv => { reads := [], writes := if inv = 1 then [grp.toNat] else [] }
  | .mgo _ acc kind _ =>
    { reads := segGroups (if x.started.isSome then x.gsel else gsel) (nsegOf x.prof), writes := accsOf acc kind }
  | .mzero _ acc kind _ _ | .mlda _ acc kind _ _ => { reads := [], writes := accsOf acc kind }
  | .msta _ acc kind _ _ | .mdrain _ acc kind _ _ => { reads := accsOf acc kind, writes := [] }
  | _ => { reads := [], writes := [] }

/-- The M engine's units (12 R275): loader 1, array 2, tile path 3, solver 4; 0 needs none. -/
def unitOf : Instr → Nat
  | .mldb .. => 1
  | .mgo .. | .morb .. => 2
  | .mzero .. | .mlda .. | .msta .. | .mdrain .. => 3
  | .msolvCg .. | .msolvLdlt .. | .msupd .. | .msres .. => 4
  | _ => 0

/-- An earlier running command keeps a later one from starting: its unit, or a group or accumulator (12 R275). -/
def interlocked (gsel : Nat) (a b : Cmd) : Bool :=
  let ua := usesOf gsel a
  let ub := usesOf gsel b
  (unitOf a.i ≠ 0 && unitOf a.i = unitOf b.i) || ua.writes.any (fun k => ub.reads.contains k || ub.writes.contains k)
    || ua.reads.any (fun k => ub.writes.contains k)

/-- Whether the engine's next command may start now. -/
def mayStart (c : Core) (e : Eng) (x : Cmd) : Bool :=
  let running := (c.cmds e).filter (fun y => y.started.isSome)
  x.checked && x.deps.all (fun n => !c.live n)
    && (match e with
        | .m => !(running.any (fun y => interlocked c.gsel.toNat y x))
        | _ => decide (running.length < 4)
            && !(c.detOn && c.mcmds.any (fun y => decide (y.no < x.no) && y.started.isNone && (match y.i with | .mgo .. => true | _ => false))))
    && !(c.detOn && c.window.any (fun w => decide (w.no < x.no) && decide (w.eng = .k) && w.late && w.foot.isNone && c.live w.no))

/-- The footprint of command `no` becomes known (R400): the command is checked against its window, and where it does not fault,
every later command that has not started is checked against it. The lowest line that it shares, where it faults. -/
def lateFoot (no : Nat) (foot : List Foot) (c : Core) : Option Nat × Core :=
  match raceCheck (windowOf c.window no) (c.reachOf no) foot with
  | some l => (some l, c)
  | none =>
    let check (e : Eng) (y : Cmd) : Cmd :=
      if no < y.no && y.started.isNone && y.stop.isNone then
        match c.window.find? (fun w => decide (w.no = y.no)) with
        | some w =>
          let me : WinEntry := { no := no, eng := e, foot := some foot, reach := [], late := true, before := [] }
          { y with stop := (w.foot.bind (raceCheck [me] w.reach)).map (raceFault e y) }
        | none => y
      else y
    (none, { c with window := c.window.map (fun w => if w.no = no then { w with foot := some foot } else w)
                    mcmds := c.mcmds.map (check .m), kcmds := c.kcmds.map (check .k) })

/- Completion. -/

/-- A command leaves its engine and delivers its tokens (06 R118, R132). -/
def leaveCmd (g : Nat) (e : Eng) (x : Cmd) (s : State) : State :=
  let c := s.core g
  let c := c.setCmds e ((c.cmds e).filter (fun y => decide (y.no ≠ x.no)))
  endStream g e (s.setCore g (c.deliverAll (if c.detOn then insWord x.no x.path else []) x.places))

/-- A command stops with a fault: it leaves its engine and its places are given up; its stream faults. -/
def stopCmd (g : Nat) (e : Eng) (x : Cmd) (f : FaultInfo) (s : State) : State :=
  let c := s.core g
  let c := c.setCmds e ((c.cmds e).filter (fun y => decide (y.no ≠ x.no)))
  unitFault g f (s.setCore g (c.releaseAll x.places))

/-- Keeps a command's progress. -/
def keepCmd (g : Nat) (e : Eng) (x : Cmd) (s : State) : State := s.setCore g ((s.core g).putCmd e x)

/-- The single-word flow instructions of M and K (10 R240, 12 R300): a branch on a popped bit, or always. -/
def mkBranch (nd : Need) (q : Option Nat) (target : Nat) (s : State) : Host.Outcome State Fault Refusal :=
  issue nd none s (fun s =>
    let taken := match q with | some q => decide ((s.me.popVals q 1).headD 0 ≠ 0) | none => true
    let s := complete nd.eng nd.tk (match q with | some q => s.onMe (fun c => c.popN q 1) | none => s)
    if taken then s.onMe (fun c => c.goto nd.eng s.now target) else s)

/-- A stream's end: it issues, and completes once every earlier command of its engine has, so that a path leads from them to its
tokens (06 R122, R132). -/
def mkEnd (e : Eng) (tk : BitVec 3) (flt : Option FaultInfo) (s : State) : Host.Outcome State Fault Refusal :=
  issue { eng := e, tk := tk } flt s (fun s => issueEnd e tk (s.onMe (fun c => c.addPath e (c.reachAll e c.cmdNo))))

/-- A barrier wait of M or K (10 R239, 12 R298): a faulted phase faults the stream. -/
def mkWaitPhase (e : Eng) (b : Nat) (bound : BitVec 5) (tk : BitVec 3) (s : State) : Host.Outcome State Fault Refusal :=
  issue { eng := e, tk := tk, bound := some bound, events := [waitHold s.me e b] }
    (if bMode (s.me.barrier b) = 0 then some (s.me.faultHere e cILLEGAL) else none) s (fun s =>
      let here := s.me.faultHere e cBARRIER
      let (c, whole) := consumePhase s.me e b
      if whole then complete e tk (s.setMe c) else unitFault s.cur here (s.setMe c))

end Sys2Proof.Machine
end

