-- ==== Sys2Proof/Machine/CopyLines.lean ====
section
/-!
DEFINITION. The lines of the K engine: reading and writing places with poison, typed elements, conversions between
banks, scale searches, W-streams and bank transforms (10 R223 to R236, 07 R150 to R154, R160).
-/
namespace Sys2Proof.Machine

/- Reading and writing places. -/

/-- What a command finds at a place. -/
inductive Got (α : Type) where
  | ok (x : α) (s : State)
  | bad (code : Nat) (addr qa : Word) (s : State)
  | wait (s : State)
  /-- The place lies with another device. -/
  | far (dev va : Nat) (s : State)
  deriving Repr

/-- The order within a cycle of a command's N accesses; those to the own scratchpad follow that of its engine's turn
(07 R147). -/
def nOpen (s : State) (g t : Nat) (qa : Word) : Bool := decide (qSpc qa ≠ 2) || bankOpen s t (6 + g)
def nEnter (g t : Nat) (qa : Word) (s : State) : State := if qSpc qa = 2 then enterBank t (6 + g) s else s

/-- A D access that cannot be translated: it faults, or waits for a walk (07 R143). -/
def segFails {α : Type} (x : Nat) (qa : Word) (s : State) : Got α := if walkWaits x then .wait s else .bad x (qLogged qa) qa s

/-- Bytes of a scratchpad as a read port gives them, with their marks: raw, or expanded where a bank holds A-pack blocks (07
R153). -/
def portBytes (c : Core) (raw : Bool) (n a : Nat) : Except (Nat × Nat) (List MByte) :=
  if raw then .ok ((List.range n).map (fun k => (byteAt c.sp (a + k), (poisonIn c.spPoison (a + k) 1).isSome))) else readMarked c n a

/-- Reads n bytes as a command's source, aligned to `al`, with their marks. A K command and M's A-row fetch expand A-pack banks, any
other M command reads them raw (07 R153). MODEL'S CHOICE (log 67): the expansion comes before R151's row 2 too, which copies bytes
unchanged where a format is 0xFF. -/
def kRead (g : Nat) (qa : Word) (n : Nat) (s : State) (al : Nat := 1) (raw : Bool := false) : Got (List MByte) :=
  match resolve s g qa n al with
  | .error x => .bad x (qLogged qa) qa s
  | .ok (.sp t a) =>
    if t ≠ g && zeroingNow s t || !nOpen s g t qa then .wait s
    else
      let s := correctRead (!raw) t a n s
      match portBytes (s.core t) raw n a with
      | .error x => .bad x.1 (BitVec.ofNat 64 x.2) qa s
      | .ok bs => .ok bs (nEnter g t qa s)
  | .ok (.d va) =>
    (match dSegments g va n false s with
      | (.error x, s) => segFails x qa s
      | (.ok r, s) => let s := correctSegs r (s.core g).unitTag s; .ok ((readSegs s r).zip (segMarks s r)) s)
  | .ok (.f dev va) => if pathUp s (coreDie g) dev then .far dev va s else .bad cUNREACH (qLogged qa) qa s
  | .ok (.cew _) | .ok (.w _ _) => .bad cPROTECT (qLogged qa) qa s

/-- The address of the word that holds the first poisoned byte of a read: in an A-pack bank the word is found through the
directory (07 R160). -/
def poisonAddr (g : Nat) (qa : Word) (n : Nat) (raw : Bool) (bs : List MByte) (s : State) : Option Word :=
  (bs.findIdx? Prod.snd).map (fun k =>
    match resolve s g qa n 1, raw with
    | .ok (.sp t a), false =>
      (match readExpanded (s.core t) a n with
      | .error x => BitVec.ofNat 64 x.2
      | .ok _ => BitVec.ofNat 64 ((a + k) / 8 * 8))
    | _, _ => BitVec.ofNat 64 ((qByte qa + k) / 8 * 8))

/-- Reads n bytes that the command converts, compares or adds: poison is a fault (07 R160). -/
def kReadClean (g : Nat) (qa : Word) (n : Nat) (s : State) (al : Nat := 1) (raw : Bool := false) : Got (List Byte) :=
  match kRead g qa n s al raw with
  | .bad x addr q s => .bad x addr q s
  | .wait s => .wait s
  | .far d v s => .far d v s
  | .ok bs s =>
    match poisonAddr g qa n raw bs s with
    | none => .ok (bs.map Prod.fst) s
    | some ad => .bad cPOISON ad qa s

/-- Writes marked bytes into a scratchpad: a word that receives a poisoned byte is marked (07 R160). -/
def writeSpM (t a : Nat) (bs : List MByte) (s : State) : State :=
  let s := writeSp t a (bs.map Prod.fst) s
  let c := s.core t
  s.setCore t { c with spPoison := marksOf a bs c.spPoison }

/-- The checks of a line's destination alone: a line whose source is read over the fabric is checked whole before it is
issued (R224). -/
def kCheckDst (g : Nat) (dst : Word) (n al : Nat) (s : State) : Got Unit :=
  match resolve s g dst n al with
  | .error e => .bad e (qLogged dst) dst s
  | .ok (.sp t _) => if t ≠ g && zeroingNow s t then .wait s else .ok () s
  | .ok (.d va) =>
    (match dSegments g va n true s with
      | (.error e, s) => segFails e dst s
      | (.ok _, s) => .ok () s)
  | .ok (.w ms _) => if wRefused s g ms then .bad cPROTECT (qLogged dst) dst s else .ok () s
  | .ok (.f dev _) => if pathUp s (coreDie g) dev then .ok () s else .bad cUNREACH (qLogged dst) dst s
  | .ok (.cew _) => .bad cPROTECT (qLogged dst) dst s

/-- The line's destination, aligned to `al`, is checked and written (R224). The answer says how the line is
acknowledged. -/
def kPut (g : Nat) (x : Cmd) (n : Nat) (dst : Word) (bs : List MByte) (s : State) (al : Nat := 1) : Got LinePhase :=
  match resolve s g dst bs.length al with
  | .error e => .bad e (qLogged dst) dst s
  | .ok (.sp t a) =>
    if t ≠ g && zeroingNow s t || !nOpen s g t dst then .wait s else .ok .done (writeSpM t a bs (nEnter g t dst s))
  | .ok (.d va) =>
    (match dSegments g va bs.length true s with
      | (.error e, s) => segFails e dst s
      | (.ok r, s) => .ok .done (writeSegsM r bs s))
  | .ok (.w ms a) =>
    if wRefused s g ms then .bad cPROTECT (qLogged dst) dst s
    else
    let f : WFlight := { g := g, e := .k, idx := coreX g - (s.core g).placeOf.px, due := s.now + 12, members := ms, addr := a
                         data := bs.map Prod.fst, mask := 0xFFFF, cmd := x.no, line := n, pois := bs.map Prod.snd }
    .ok .writing { s with wFlight := s.wFlight ++ [f] }
  | .ok (.f dev va) =>
    (match sendPacket (coreDie g) dev 0 (s.core g).unitTag .write va bs.length (bs.map Prod.fst) (payloadMarks bs)
        (.line g x.no n) s with
      | .sent s => .ok .writing s
      | .full => .wait s
      | .unreachable => .bad cUNREACH (qLogged dst) dst s)
  | .ok (.cew _) => .bad cPROTECT (qLogged dst) dst s

/- Elements. -/

/-- Codes of `w` bits as packed bytes, with their marks (01 R11). -/
def packMarked (w : Nat) (xs : List (Nat × Bool)) : List MByte :=
  if w = 4 then
    (List.range ((xs.length + 1) / 2)).map (fun k =>
      let a := xs.getD (2 * k) (0, false)
      let b := xs.getD (2 * k + 1) (0, false)
      (BitVec.ofNat 8 (a.1 % 16 + 16 * (b.1 % 16)), a.2 || b.2))
  else xs.flatMap (fun x => (natLE (w / 8) x.1).map (fun b => (b, x.2)))
def packCodes (w : Nat) (xs : List Nat) : List Byte := (packMarked w (xs.map (fun x => (x, false)))).map Prod.fst

/-- `n` codes of `w` bits from the bytes at which element `first` of 4-bit elements has parity `odd`. -/
def unpackCodes (w n : Nat) (odd : Bool) (bs : List Byte) : List Nat :=
  if w = 4 then
    (List.range n).map (fun k =>
      let j := if odd then k + 1 else k
      let b := (bs.getD (j / 2) 0).toNat
      if j % 2 = 0 then b % 16 else b / 16)
  else (List.range n).map (fun k => leNat ((bs.drop (w / 8 * k)).take (w / 8)))

/-- The qualified address of a type's byte address (02 R42): out of its space it fails the form check, one below 0 or
from 2^61 on by its bit 57. -/
def tyQa (t : TType) (a : Int) : Word :=
  (if t.space = 1 then 1#3 else 0#3)
    ++ (BitVec.ofInt 61 a ||| (if 0 ≤ a && decide (a < 2 ^ 61) then 0#61 else 1#61 <<< 57))

/-- An index tuple from its row-major number. -/
def unrank : List Nat → Nat → List Nat
  | [], _ => []
  | _ :: ns, i =>
    let m := ns.foldl (· * ·) 1
    (i / m) :: unrank ns (i % m)

/-- The number of elements of a type, and the bytes of its full tensor. -/
def tyCount (t : TType) : Nat := (t.ext.take t.rank).foldl (· * ·) 1
def tyBytes (t : TType) : Nat := (tyCount t * t.fmt.width + 7) / 8

/-- Reads a stored element of a type by its offset: its code and its mark. -/
def kElem (g : Nat) (t : TType) (off : Int) (s : State) : Got (Nat × Bool) :=
  let (a, nib) := elemAddr t off
  match kRead g (tyQa t a) ((t.fmt.width + 7) / 8) s with
  | .ok bs s =>
    let v := leNat (bs.map Prod.fst)
    .ok (if t.fmt.width = 4 then (if nib = 0 then v % 16 else v / 16) else v, bs.any Prod.snd) s
  | .bad x addr q s => .bad x addr q s
  | .wait s => .wait s
  | .far d v s => .far d v s

/-- Reads elements [i, i + n) of a full tensor in row-major order through its type (02 R44), with the flags of
negations. -/
def kElems (g : Nat) (t : TType) : Nat → Nat → State → Got (List (Nat × Bool) × Flags)
  | 0, _, s => .ok ([], flNone) s
  | n + 1, i, s =>
    let l := locate t (unrank (t.ext.take t.rank) i)
    let one : Got (Nat × Bool) := if l.zero then .ok (0, false) s else kElem g t l.off s
    match one with
    | .bad x a q s => .bad x a q s
    | .wait s => .wait s
    | .far d v s => .far d v s
    | .ok x s =>
      -- a structural zero delivers +0, whatever the other slot's sign (R44)
      let (v, f) := if l.zero then (0, flNone) else applySign t.fmt l.neg x.1
      match kElems g t n (i + 1) s with
      | .ok (r, fl) s => .ok ((v, x.2) :: r, fl ||| f) s
      | e => e

/-- Writes codes at element offsets of a type that lie in one line, nibbles merged into what stands there. Every one of them is checked
before any is written (07 R136, R224). -/
def kPutElems (g : Nat) (x : Cmd) (n : Nat) (t : TType) (ws : List (Int × Nat)) (s : State) : Got LinePhase :=
  let checked : Got LinePhase := ws.foldl (fun acc w =>
    match acc with
    | .ok _ s => (match kCheckDst g (tyQa t (elemAddr t w.1).1) ((t.fmt.width + 7) / 8) 1 s with
      | .ok _ s => .ok .done s
      | .bad c ad q s => .bad c ad q s
      | .wait s => .wait s
      | .far d v s => .far d v s)
    | r => r) (.ok .done s)
  ws.foldl (fun acc w =>
    match acc with
    | .ok _ s =>
      let qa := tyQa t (elemAddr t w.1).1
      if t.fmt.width = 4 then
        match kRead g qa 1 s 1 true with
        | .ok bs s =>
          kPut g x n qa [(BitVec.ofNat 8 (putNibble t w.1 (leNat (bs.map Prod.fst)) w.2), bs.any Prod.snd)] s
        | .bad e ad q s => .bad e ad q s
        | .wait s => .wait s
        | .far d v s => .far d v s
      else kPut g x n qa ((natLE (t.fmt.width / 8) w.2).map (fun b => (b, false))) s
    | e => e) checked

/- Conversions between banks (07 R150, R151). -/

/-- How a run is converted. -/
inductive ConvMode where
  | raw | same | quant | decode | conv | refused
  deriving DecidableEq, Repr, Inhabited

/-- A run's conversion: formats, the destination's element bytes and its scale bytes. -/
structure Conv where
  mode : ConvMode
  fs : Fmt
  ft : Fmt
  scaled : Bool
  dstLen : Nat
  scaleLen : Nat
  deriving DecidableEq, Repr, Inhabited

/-- The conversion that R151 gives a run of `len` source bytes at source address `a`, from a bank with BF value `bs` to
one with `bt`. -/
def convOf (bs bt : Word) (a len : Nat) : Conv :=
  if bfApack bt then { mode := .refused, fs := .i8, ft := .i8, scaled := false, dstLen := len, scaleLen := 0 }
  else match fmtOfCode (bfFmt bs), fmtOfCode (bfFmt bt) with
    | some fs, some ft =>
      let sc := bfScaled bs && !bfApack bs
      let tc := bfScaled bt
      let e0 := a % 2 ^ 19 * 8 / fs.width
      let n := len * 8 / fs.width
      let mode : ConvMode :=
        if fs = ft && sc = tc && (!sc || e0 % 32 = 0) then .same else if tc then .quant else if sc then .decode else .conv
      { mode := mode, fs := fs, ft := ft, scaled := sc, dstLen := n * ft.width / 8, scaleLen := if tc then n / 32 * 2 else 0 }
    | _, _ => { mode := .raw, fs := .i8, ft := .i8, scaled := false, dstLen := len, scaleLen := 0 }

/-- The scratchpad address of the scale halfword of a bank's element index (07 R150). -/
def scaleSpot (bf : Word) (bank e : Nat) : Nat := bank * 2 ^ 19 + bfXoff bf * 4096 + 2 * (e / 32)

/-- Whether elements of a SCALED bank reach its scale region or pass it (07 R150). -/
def pastScales (bf : Word) (a n : Nat) : Bool := bfScaled bf && decide (bfXoff bf * 4096 < a % 2 ^ 19 + n)

/-- A scale halfword would pass its bank's end: there is none (log 28). -/
def scalePast (bf : Word) (e : Nat) : Bool := decide (2 ^ 19 < bfXoff bf * 4096 + 2 * (e / 32) + 2)

/-- The scale codes of the elements named of a bank, with their marks (07 R150). -/
def kScales (g : Nat) (q bf : Word) (bank : Nat) : List Nat → State → Got (List (Nat × Bool))
  | [], s => .ok [] s
  | e :: es, s =>
    let qa := qAt q (scaleSpot bf bank e)
    if scalePast bf e then .bad cPROTECT (BitVec.ofNat 64 (scaleSpot bf bank e)) qa s
    else match kRead g qa 2 s 1 true with
    | .ok bs s => (match kScales g q bf bank es s with
      | .ok r s => .ok ((leNat (bs.map Prod.fst) % 1024, bs.any Prod.snd) :: r) s
      | x => x)
    | .bad x a q s => .bad x a q s
    | .wait s => .wait s
    | .far d v s => .far d v s

/-- The elements of a source under a mode: codes, and the scales of the blocks that a search finds. -/
def convertCodes (c : Conv) (codes scales : List Nat) : List Nat × List Nat × Flags :=
  match c.mode with
  | .decode =>
    let r := (codes.zip scales).map (fun x => decodeScaled c.fs c.ft x.2 x.1)
    (r.map Prod.fst, [], r.foldl (fun f x => f ||| x.2) flNone)
  | .quant =>
    let (sf, vals, fl0) : Fmt × List Nat × Flags :=
      if c.scaled then
        let r := (codes.zip scales).map (fun x => decodeScaled c.fs .fp32 x.2 x.1)
        (.fp32, r.map Prod.fst, r.foldl (fun f x => f ||| x.2) flNone)
      else (c.fs, codes, flNone)
    let blocks := (List.range (vals.length / 32)).map (fun k => scaleSearch sf c.ft ((vals.drop (32 * k)).take 32))
    (blocks.flatMap (fun b => b.2.1), blocks.map Prod.fst, blocks.foldl (fun f b => f ||| b.2.2) fl0)
  | _ =>
    let r := codes.map (convertK c.fs c.ft)
    (r.map Prod.fst, [], r.foldl (fun f x => f ||| x.2) flNone)

/- W-streams (10 R232, R233). -/

/-- Why an expansion stops: a fault of the codec at an offset of the stream, or a fault of a read. -/
inductive Dec where
  | codec (code off : Nat)
  | read (code : Nat) (addr : Word)
  deriving DecidableEq, Repr, Inhabited

abbrev Rd := Nat → Except (Nat × Word) Byte

/-- The code lengths of the symbols. -/
def codeLens (hdr : List Byte) : List Nat := (hdr.drop 8).flatMap (fun b => [b.toNat % 16, b.toNat / 16])

/-- The canonical code words: length, code, symbol (R232). -/
def codeTable (lens : List Nat) : List (Nat × Nat × Nat) :=
  let inOrder := (List.range 16).flatMap (fun l =>
    if l = 0 then [] else (lens.zipIdx.filter (fun x => decide (x.1 = l))).map (fun x => (l, x.2)))
  (inOrder.foldl (fun (acc : Option (Nat × Nat) × List (Nat × Nat × Nat)) x =>
    let code := match acc.1 with | none => 0 | some (l, c) => (c + 1) * 2 ^ (x.1 - l)
    (some (x.1, code), acc.2 ++ [(x.1, code, x.2)])) (none, [])).2

/-- One bit of the body. -/
def bodyBit (rd : Rd) (p : Nat) : Except (Nat × Word) Nat := (rd (0x108 + p / 8)).map (fun b => b.toNat / 2 ^ (p % 8) % 2)

/-- Reads a code word, its first bit first: the symbol and the position after it. -/
def readSym (rd : Rd) (tbl : List (Nat × Nat × Nat)) (limit start : Nat) : Nat → Nat → Nat → Nat → Except Dec (Nat × Nat)
  | 0, _, _, _ => .error (.codec cCODE (0x108 + start / 8))
  | fuel + 1, p, l, code =>
    if limit ≤ p then .error (.codec cCODE (0x108 + start / 8))
    else match bodyBit rd p with
      | .error x => .error (.read x.1 x.2)
      | .ok b =>
        let code := 2 * code + b
        match tbl.find? (fun t => t.1 = l + 1 && t.2.1 = code) with
        | some t => .ok (t.2.2, p + 1)
        | none => readSym rd tbl limit start fuel (p + 1) (l + 1) code

/-- Reads the distance field, its least significant bit first. -/
def readDist (rd : Rd) (p : Nat) : Nat → Except Dec Nat
  | 0 => .ok 0
  | k + 1 => match readDist rd p k with
    | .error e => .error e
    | .ok d => match bodyBit rd (p + k) with
      | .error x => .error (.read x.1 x.2)
      | .ok b => .ok (d + b * 2 ^ k)

/-- Copies a back-reference byte by byte; `out` holds the newest byte first. -/
def copyBack (d : Nat) : Nat → List Byte → List Byte
  | 0, out => out
  | n + 1, out => copyBack d n (out.getD (d - 1) 0 :: out)

/-- Decodes symbols until `ulen` bytes have been produced, or one fails. -/
def expandSyms (rd : Rd) (tbl : List (Nat × Nat × Nat)) (limit ulen : Nat) : Nat → Nat → Nat → List Byte → List Byte × Option Dec
  | 0, _, _, out => (out, none)
  | fuel + 1, p, n, out =>
    if ulen ≤ n then (out, none)
    else match readSym rd tbl limit p 15 p 0 0 with
      | .error e => (out, some e)
      | .ok (sym, q) =>
        if sym < 256 then expandSyms rd tbl limit ulen fuel q (n + 1) (BitVec.ofNat 8 sym :: out)
        else
          let len := sym - 256 + 3
          let here := 0x108 + p / 8
          if limit < q + 12 then (out, some (.codec cCODE here))
          else match readDist rd q 12 with
            | .error e => (out, some e)
            | .ok d =>
              if ulen < n + len then (out, some (.codec cCODE here))
              else if n < d + 1 then (out, some (.codec cBACKREF here))
              else expandSyms rd tbl limit ulen fuel (q + 12) (n + len) (copyBack (d + 1) len out)

/-- The failures that a header shows (R233); `room`: the bytes from the destination to the scratchpad's end. -/
def headerFault (hdr : List Byte) (room : Nat) : Option Dec :=
  let ulen := leNat (hdr.take 4)
  let clen := leNat ((hdr.drop 4).take 4)
  let lens := codeLens hdr
  let sum := lens.foldl (fun a l => if l = 0 then a else a + 2 ^ (15 - l)) 0
  if ulen = 0 || decide (4194304 < ulen) || clen = 0 || decide (2 ^ 26 < clen) || decide (2 ^ 15 < sum) || sum = 0 then
    some (.codec cCODE 0)
  else if room < ulen then some (.codec cPROTECT 0)
  else none

/-- Expands a whole W-stream: the bytes it delivers and why it stops short. -/
def expand (rd : Rd) (hdr : List Byte) (room : Nat) : List Byte × Option Dec :=
  match headerFault hdr room with
  | some d => ([], some d)
  | none =>
    let ulen := leNat (hdr.take 4)
    let r := expandSyms rd (codeTable (codeLens hdr)) (8 * leNat ((hdr.drop 4).take 4)) ulen ulen 0 0 []
    (r.1.reverse, r.2)

/- Bank transforms (07 R154, 10 R234). -/

/-- Raw bytes of a scratchpad with their marks. -/
def spRaw (c : Core) (a n : Nat) : List MByte :=
  (bytesAt c.sp a n).zip ((List.range n).map (fun k => (poisonIn c.spPoison (a + k) 1).isSome))

/-- Each tile of 16 by 64 elements of `b` bytes becomes 64 by 16. -/
def transposeTile (b : Nat) (bs : List MByte) : List MByte :=
  let el (i : Nat) : List MByte := (bs.drop (b * i)).take b
  (List.range 1024).flatMap (fun k => el (64 * (k % 16) + k / 16))

/-- Whether a read of n bytes at `a` meets poison: the fault's address. -/
def spPoisoned (c : Core) (a n : Nat) : Option Nat := (poisonIn c.spPoison a n).map (fun w => 8 * w)

/-- A transform's result: a fault, or the state after it. -/
inductive Xf where
  | ok (s : State)
  | bad (code : Nat) (addr : Word) (s : State)
  deriving Repr

def xfTranspose (g a b cnt : Nat) (s : State) : Xf :=
  .ok ((List.range cnt).foldl (fun s t =>
    let at_ := a + 1024 * b * t
    let s := correctSp g at_ (1024 * b) s
    writeSpM g at_ (transposeTile b (spRaw (s.core g) at_ (1024 * b))) s) s)

def xfZero (g a n : Nat) (s : State) : Xf := .ok (writeSp g a (List.replicate n 0) s)

/-- Requantise `cnt` blocks of format `fp` in the bank's format (R234). A source of the bank's own format and scaling falls
under row 4 of R151 and stays as it is; poison in it is a fault all the same, since R154 counts requantise among the
converting transforms (log 28). -/
def xfRequantise (g a : Nat) (fp : Fmt) (sc : Bool) (cnt : Nat) (s : State) : Xf :=
  let c := s.core g
  let bf := bfOf c a
  let bank := a / 2 ^ 19
  match fmtOfCode (bfFmt bf) with
  | none => .ok s
  | some ft =>
    let n := 32 * cnt
    let src := n * fp.width / 8
    let e0 := a % 2 ^ 19 * 8 / fp.width
    let mode : ConvMode := if fp = ft && sc = bfScaled bf then .same else if bfScaled bf then .quant else if sc then .decode else .conv
    match spPoisoned c a src, (if sc then spPoisoned c (scaleSpot bf bank e0) (2 * cnt) else none) with
      | some p, _ => .bad cPOISON (BitVec.ofNat 64 p) s
      | none, some p => .bad cPOISON (BitVec.ofNat 64 p) s
      | none, none =>
        let s := correctSp g a src s
        let s := if sc then correctSp g (scaleSpot bf bank e0) (2 * cnt) s else s
        if mode = .same then .ok s
        else
        let codes := unpackCodes fp.width n false (bytesAt c.sp a src)
        let scales := if sc then (List.range n).map (fun i => numAt c.sp (scaleSpot bf bank (e0 + i)) 2 % 1024) else []
        let cv : Conv := { mode := mode, fs := fp, ft := ft, scaled := sc, dstLen := 0, scaleLen := 0 }
        let (out, ss, fl) := convertCodes cv codes scales
        let s := writeSp g a (packCodes ft.width out) s
        let s := if bfScaled bf then
            writeSp g (scaleSpot bf bank (a % 2 ^ 19 * 8 / ft.width)) (ss.flatMap (natLE 2)) s
          else s
        .ok (s.setCore g ((s.core g).addFlags fl))

/-- Orbit pack: the full tensor at `a` is stored through the type (R234, 02 R49, R50). -/
def xfOrbitPack (g a : Nat) (t : TType) (s : State) : Xf :=
  let c := s.core g
  let n := tyCount t
  let w := t.fmt.width
  match spPoisoned c a (tyBytes t) with
  | some p => .bad cPOISON (BitVec.ofNat 64 p) s
  | none =>
    let s := correctSp g a (tyBytes t) s
    let codes := unpackCodes w n false (bytesAt c.sp a (tyBytes t))
    let plan := planStore t (codes.zipIdx.map (fun x => (unrank (t.ext.take t.rank) x.2, x.1)))
    if t.strict && plan.breaks then .bad cORBIT (BitVec.ofInt 64 (plan.strictAddr t)) s
    else
      let s := plan.writes.foldl (fun s x =>
        let ad := (elemAddr t x.1).1
        if w = 4 then writeSp g ad.toNat [BitVec.ofNat 8 (putNibble t x.1 (byteAt (s.core g).sp ad.toNat).toNat x.2.1)] s
        else writeSp g ad.toNat (natLE (w / 8) x.2.1) s) s
      .ok (s.setCore g ((s.core g).addFlags (plan.flags ||| flIf plan.breaks flSYMLOSS)))

/-- Orbit unpack: the tensor is read through the type and written in full at `a`. -/
def xfOrbitUnpack (g a : Nat) (t : TType) (s : State) : Xf :=
  let rd (i : Nat) : (Nat × Bool) × Flags :=
    let l := locate t (unrank (t.ext.take t.rank) i)
    if l.zero then ((0, false), flNone)
    else
      let (ad, nib) := elemAddr t l.off
      let bs := spRaw (s.core g) ad.toNat ((t.fmt.width + 7) / 8)
      let v := leNat (bs.map Prod.fst)
      let r := applySign t.fmt l.neg (if t.fmt.width = 4 then (if nib = 0 then v % 16 else v / 16) else v)
      ((r.1, bs.any Prod.snd), r.2)
  let xs := (List.range (tyCount t)).map rd
  let s := (List.range (tyCount t)).foldl (fun s i =>
    let l := locate t (unrank (t.ext.take t.rank) i)
    if l.zero then s else correctSp g (elemAddr t l.off).1.toNat ((t.fmt.width + 7) / 8) s) s
  let s := writeSpM g a (packMarked t.fmt.width (xs.map Prod.fst)) s
  .ok (s.setCore g ((s.core g).addFlags (xs.foldl (fun f x => f ||| x.2) flNone)))

/- Exports (10 R236) and reductions (R235, 18 R354). -/

/-- A scale halfword as it is written: bits [15:10] zero (01 R28). -/
def cleanScale (h : List MByte) : List MByte := h.zipIdx.map (fun b => (if b.2 = 1 then b.1.1 &&& 3 else b.1.1, b.1.2))

/-- The record of block `j` of a region whose first block is `n0` (R236): a fault with the address it logs, or its
bytes. -/
def exptBlock (c : Core) (bf : Word) (bank n0 j : Nat) : Except (Nat × Nat) (List MByte) :=
  let base := bank * 2 ^ 19
  if bfApack bf then
    let w := apackWidth bf
    match apackAt c bank (bfXoff bf) (64 * w * (n0 + j)) w with
    | .error e => .error e
    | .ok _ =>
      let d := numAt c.sp (base + bfXoff bf * 4096 + 4 * (n0 + j)) 4
      let m := numAt c.sp (base + d) 8
      let len := (8 + popCount (BitVec.ofNat 64 m) * w + 15) / 16 * 16
      .ok ((natLE 4 d ++ natLE 4 len ++ natLE 8 m).map (fun b => (b, false)))
  else if scalePast bf (32 * (n0 + j)) then .error (cPROTECT, scaleSpot bf bank (32 * (n0 + j)))
  else .ok (cleanScale (spRaw c (scaleSpot bf bank (32 * (n0 + j))) 2))

/-- The reads of block `j` of a region correct single-bit errors (07 R146). -/
def exptCorrect (g : Nat) (bf : Word) (bank n0 j : Nat) (s : State) : State :=
  let base := bank * 2 ^ 19
  if bfApack bf then
    let dir := base + bfXoff bf * 4096 + 4 * (n0 + j)
    let s := correctSp g dir 4 s
    correctSp g (base + numAt (s.core g).sp dir 4 % 2 ^ 19) 8 s
  else correctSp g (scaleSpot bf bank (32 * (n0 + j))) 2 s

/-- The blocks [first, end) of a region of n whose records lie in the bytes [off, off + len) of an export record. -/
def exptSpan (bf : Word) (n off len : Nat) : Nat × Nat :=
  let u := if bfApack bf then 16 else 2
  ((off - 16) / u, min n ((off + len - 16 + u - 1) / u))

/-- The bytes [off, off + len) of an export record of n blocks. -/
def exptBytes (c : Core) (bf : Word) (bank n0 n off len : Nat) : Except (Nat × Nat) (List MByte) :=
  let u := if bfApack bf then 16 else 2
  let hdr : List MByte := (natLE 8 bf.toNat ++ natLE 4 n ++ natLE 4 0).map (fun b => (b, false))
  let (j0, j1) := exptSpan bf n off len
  let body : Except (Nat × Nat) (List MByte) := (List.range (j1 - j0)).foldl (fun (acc : Except (Nat × Nat) (List MByte)) k => match acc with
    | .error e => .error e
    | .ok bs => match exptBlock c bf bank n0 (j0 + k) with
      | .error e => .error e
      | .ok b => .ok (bs ++ b)) (.ok ([] : List MByte))
  match body with
  | .error e => .error e
  | .ok bs =>
    let all := if off < 16 then hdr.drop off ++ bs else bs.drop (off - 16 - u * j0)
    .ok ((all ++ List.replicate len (0, false)).take len)

/-- The bytes of the whole record. -/
def exptLen (bf : Word) (n : Nat) : Nat := if bfApack bf then 16 + 16 * n else (16 + 2 * n + 15) / 16 * 16

/-- Adds at a scratchpad or at DRAM runs: the address of a poisoned word, or the state. -/
def reduceSp (rop t a : Nat) (bs : List Byte) (s : State) : Except Nat State :=
  match readSp s t a bs.length with
  | .error w => .error w
  | .ok old => .ok (writeSp t a (reduceBytes rop old bs) (correctSp t a bs.length s))
def reduceSegs (rop : Nat) (r : List Seg) (bs : List Byte) (tag : BitVec 16) (s : State) : Except Nat State :=
  match segsPoison s r 0 with
  | some k => .error k
  | none => .ok (writeSegs r (reduceBytes rop (readSegs s r) bs) (correctSegs r tag s))

end Sys2Proof.Machine
end

