-- ==== Sys2Proof/Machine/Copy.lean ====
section
/-!
DEFINITION. The K stream (10): the issue of its commands, the making of their lines, their acknowledgment and
completion, and its single-word instructions.
-/
namespace Sys2Proof.Machine

/- Slots (R223). -/

/-- The first `n` slots of a command: from AQ, or from K spill memory with am 2. -/
def kSlots (c : Core) (am : BitVec 2) (so : BitVec 8) (n : Nat) : List Word :=
  if am = 2 then (List.range n).map (fun i => Tbl.get 0 c.spillK (so.toNat + i)) else c.popVals 0 n

/-- The places and entries a K command waits for. -/
def kNeed (h : CmdHdr) (am : BitVec 2) (n : Nat) : Need :=
  let nd := cmdNeed .k h.tk
  if am = 2 then nd else { nd with holds := nd.holds ++ [{ kind := 0x2, obj := 0, await := n }] }

/-- POISON of a spilled slot that a command reads with am 2; its record names the word's offset in the spill memory (06 R127, log
14). -/
def slotFault (c : Core) (am : BitVec 2) (so : BitVec 8) (n : Nat) : Option FaultInfo :=
  if am = 2 then (c.spillBad .k so.toNat n).map (fun w => { c.faultHere .k cPOISON with addr := BitVec.ofNat 64 (8 * w) }) else none

/-- A K command issues: its slots are popped, and kept in spill memory with am 1; it takes a pending binding
(R237). `late`: its footprint is not known yet. -/
def kIssue (h : CmdHdr) (i : Instr) (am : BitVec 2) (so : BitVec 8) (n : Nat) (flt : Option FaultInfo)
    (foot : State → Cmd → List Foot) (s : State) (late : Bool := false) : Host.Outcome State Fault Refusal :=
  issue (kNeed h am n) (((slotFault s.me am so n).or flt).map (fun f => { f with seq := h.seq.toNat })) s (fun s =>
    let slots := kSlots s.me am so n
    let s := if am = 2 then correctSlots s.cur .k h.seq.toNat (8 * so.toNat) (8 * n) s else if am = 1 then overSpill s.cur .k so.toNat n s else s
    let s := s.onMe (fun c =>
      let c := if am = 2 then c else c.popN 0 n
      if am = 1 then { c.spillClean .k so.toNat n with spillK := Tbl.setRun 0 c.spillK so.toNat slots } else c)
    let x := { newCmd s.me s.now .k h i slots with bind := s.me.kbind }
    let f := if s.me.detOn then foot s x else []
    enterCmd .k x (if late then none else some f) late (s.onMe (fun c => { c with kbind := none })))

/-- ILLEGAL and ALIGN at issue (R222). -/
def kIllegal (s : State) (b : Bool) : Option FaultInfo := if b then some (s.me.faultHere .k cILLEGAL) else none
def kAlign (s : State) (q : Word) : FaultInfo := accFault cALIGN 3 (s.me.pcOf .k) q

/-- Whether a slot's space is one of those named. -/
def inSpaces (q : Word) (l : List Nat) : Bool := l.contains (qSpc q)

/-- The scratchpad and address a qualified address of L or N reaches from core g. -/
def spTarget (s : State) (g : Nat) (q : Word) : Option (Nat × Nat) :=
  match qSpc q with
  | 1 => some (g, qAddr q)
  | 2 => (nTarget (s.core g).placeOf g q).map (fun t => (t, qAddr q))
  | _ => none

/- KCPY's operands (R227). -/

structure CopyOps where
  src : Option Word
  dst : Option Word
  st1 : Word
  st2 : Word
  len : Nat
  n1 : Nat
  n2 : Nat
  deriving Repr, Inhabited

/-- KCPY's slots in their order, each where it applies. -/
def copyOps (h : CmdHdr) (dims : BitVec 2) (len0 : BitVec 20) (n1 n2 : BitVec 16) (slots : List Word) : CopyOps :=
  let (src, r) : Option Word × List Word := if h.ta = 63 then (slots.head?, slots.drop 1) else (none, slots)
  let (dst, r) : Option Word × List Word := if h.tb = 63 then (r.head?, r.drop 1) else (none, r)
  { src := src, dst := dst, st1 := if 2 ≤ dims.toNat then r.getD 0 0 else 0, st2 := if dims = 3 then r.getD 1 0 else 0,
    len := len0.toNat, n1 := n1.toNat, n2 := n2.toNat }

def copySlots (h : CmdHdr) (dims : BitVec 2) : Nat :=
  (if h.ta = 63 then 1 else 0) + (if h.tb = 63 then 1 else 0) + (dims.toNat - 1)

/-- The signed halves of a stride slot. -/
def srcStride (x : Word) : Int := (x.extractLsb' 0 32).toInt
def dstStride (x : Word) : Int := (x.extractLsb' 32 32).toInt

/-- The addresses of run `k`. -/
def runSrc (o : CopyOps) (a : Word) (k : Nat) : Word :=
  qAdvance a ((k % o.n1 : Nat) * srcStride o.st1 + (k / o.n1 : Nat) * srcStride o.st2)
def runDst (o : CopyOps) (b : Word) (k : Nat) : Word :=
  qAdvance b ((k % o.n1 : Nat) * dstStride o.st1 + (k / o.n1 : Nat) * dstStride o.st2)

/-- The number of addresses of a qualified address's space. -/
def qSize (q : Word) : Nat := match qSpc q with | 0 => 2 ^ 57 | 4 => 2 ^ 48 | _ => 2 ^ 23

/-- The bytes from the lowest to the highest that runs of `len` bytes span; where an advance leaves the space it wraps
(R227), and the addresses of the runs are taken one by one. -/
def runSpan (q : Word) (run : Nat → Word) (s1 s2 : Int) (n1 n2 len : Nat) : Int × Int :=
  let c1 := ((n1 - 1 : Nat) : Int) * s1
  let c2 := ((n2 - 1 : Nat) : Int) * s2
  let lo := (qByte q : Int) + min 0 c1 + min 0 c2
  let hi := (qByte q : Int) + max 0 c1 + max 0 c2
  if 0 ≤ lo && decide (hi < (qSize q : Nat)) then (lo, hi + (len : Int))
  else
    let m := (List.range (n1 * n2)).foldl (fun (m : Nat × Nat) k => let a := qByte (run k); (min m.1 a, max m.2 a)) (qByte q, qByte q)
    ((m.1 : Int), ((m.2 + len : Nat) : Int))

/-- Whether source and destination lie in one space, for N with the same offsets (R227). -/
def sameSpace (a b : Word) : Bool :=
  match qSpc a with
  | 0 => qSpc b = 0
  | 4 => decide (a.extractLsb' 48 16 = b.extractLsb' 48 16)
  | _ => decide (a.extractLsb' 23 41 = b.extractLsb' 23 41)

/-- Whether the bytes [a, a + n) lie in banks of one BF value (R228); bytes past the scratchpad lie in none. -/
def oneFormat (c : Core) (a n : Nat) : Bool :=
  (List.range ((a + n - 1) / 2 ^ 19 - a / 2 ^ 19 + 1)).all (fun k =>
    decide (16 ≤ a / 2 ^ 19 + k) || decide (bfOf c (a + k * 2 ^ 19) = bfOf c a))

/-- A run of `n` elements of `w` bits into a SCALED bank starts at an element, or is of a count, that is no multiple of 32 (R151). -/
def offBlocks (bt : Word) (ab w n : Nat) : Bool := bfScaled bt && (decide (ab % 2 ^ 19 * 8 / w % 32 ≠ 0) || decide (n % 32 ≠ 0))

/-- The faults at issue of one run between scratchpads (R151, R228). -/
def runFault (s : State) (o : CopyOps) (a b : Word) : Option FaultInfo :=
  match spTarget s s.cur a, spTarget s s.cur b with
  | some (ca, aa), some (cb, ab) =>
    let bs := bfOf (s.core ca) aa
    let bt := bfOf (s.core cb) ab
    let cv := convOf bs bt aa o.len
    let n := o.len * 8 / cv.fs.width
    match cv.mode with
    | .refused => some (s.me.faultHere .k cILLEGAL)
    | .raw =>
      let w := match fmtOfCode (bfFmt bt) with | some f => f.width | none => 8
      kIllegal s (!oneFormat (s.core ca) aa o.len || !oneFormat (s.core cb) ab o.len || offBlocks bt ab w (o.len * 8 / w))
    | m =>
      if o.len * 8 % cv.fs.width ≠ 0 || n * cv.ft.width % 8 ≠ 0 || !oneFormat (s.core ca) aa o.len
          || !oneFormat (s.core cb) ab cv.dstLen
          || offBlocks bt ab cv.ft.width n then
        some (s.me.faultHere .k cILLEGAL)
      else if m ≠ .same && aa % (max 1 (cv.fs.width / 8)) ≠ 0 then some (kAlign s a)
      else if m ≠ .same && ab % (max 1 (cv.ft.width / 8)) ≠ 0 then some (kAlign s b)
      else none
  | _, _ => none

/-- The bytes that the destination runs of a copy between scratchpads span, each as long as its own banks' formats make it (R227,
R228). -/
def scratchSpan (s : State) (o : CopyOps) (a b : Word) : Int × Int :=
  let bf (q : Word) : Word := match spTarget s s.cur q with | some (t, x) => bfOf (s.core t) x | none => 0xFF
  let m := (List.range (o.n1 * o.n2)).foldl (fun (m : Nat × Nat) k =>
    let ra := runSrc o a k
    let rb := runDst o b k
    (min m.1 (qByte rb), max m.2 (qByte rb + (convOf (bf ra) (bf rb) (qByte ra) o.len).dstLen))) (qByte b, qByte b)
  ((m.1 : Int), (m.2 : Int))

/-- KCPY's faults at issue (R227, R228). MODEL'S CHOICE (log 70): R228's ILLEGAL for a run in two banks of different BF values is asked
of copies between scratchpads only, not of those with D or F at the other end. -/
def copyFault (s : State) (h : CmdHdr) (dims : BitVec 2) (o : CopyOps) : Option FaultInfo :=
  let ta := ttypeOf (s.me.tyAt .k h.ta)
  let tb := ttypeOf (s.me.tyAt .k h.tb)
  let badType (f : BitVec 6) (t : TType) : Bool := decide (f ≠ 63) && (!t.valid || decide (o.len ≠ tyBytes t))
  let spaces := [0, 1, 2, 4]
  if ((h.ta ≠ 63 || h.tb ≠ 63) && dims ≠ 1) || badType h.ta ta || badType h.tb tb || (h.ta ≠ 63 && h.tb ≠ 63 && decide (ta.fmt ≠ tb.fmt))
      || (match o.src with | some a => !inSpaces a spaces | none => false)
      || (match o.dst with | some b => !inSpaces b spaces | none => false) then some (s.me.faultHere .k cILLEGAL)
  else match o.src, o.dst with
    | some a, some b =>
      let sp := runSpan a (runSrc o a) (srcStride o.st1) (srcStride o.st2) o.n1 o.n2 o.len
      let dp := if inSpaces a [1, 2] && inSpaces b [1, 2] then scratchSpan s o a b
        else runSpan b (runDst o b) (dstStride o.st1) (dstStride o.st2) o.n1 o.n2 o.len
      if sameSpace a b && decide (sp.1 < dp.2) && decide (dp.1 < sp.2) then some (s.me.faultHere .k cILLEGAL)
      else if inSpaces a [1, 2] && inSpaces b [1, 2] then
        (List.range (o.n1 * o.n2)).findSome? (fun k => runFault s o (runSrc o a k) (runDst o b k))
      else none
    | _, _ => none

/- Footprints (06 R400). -/

/-- The lines of n bytes at a qualified address, for a read of an A-pack bank those of its directory and blocks. MODEL'S CHOICE (log 26):
the directory is read as it stands at the command's issue, as are the lists and headers that give other footprints, though a command
reads its list when it starts. -/
def qFoot (s : State) (g : Nat) (q : Word) (n : Nat) (write : Bool) : List Foot :=
  match spTarget s g q with
  | none => []
  | some (t, a) =>
    let c := s.core t
    let b := bfOf c a
    if !write && bfApack b then
      let w := apackWidth b
      let bank := a / 2 ^ 19
      let off := a % 2 ^ 19
      let n0 := off / w / 64
      let n1 := (off + n - 1) / w / 64
      (List.range (n1 - n0 + 1)).flatMap (fun k =>
        let dir := bank * 2 ^ 19 + bfXoff b * 4096 + 4 * (n0 + k)
        let d := bank * 2 ^ 19 + numAt c.sp dir 4 % 2 ^ 19
        let m := numAt c.sp d 8
        footOf t dir 4 false ++ footOf t d (8 + popCount (BitVec.ofNat 64 m) * w) false)
    else footOf t a n write

/-- The lines of a type's representatives; an address below 0 is no line, and its access fails (02 R45). -/
def tyFoot (g : Nat) (t : TType) (idxs : List (List Nat)) (write : Bool) : List Foot :=
  if t.space ≠ 1 then []
  else idxs.flatMap (fun x =>
    let l := locate t x
    let a := (elemAddr t l.off).1
    if l.zero || a < 0 then [] else footOf g a.toNat ((t.fmt.width + 7) / 8) write)

def allIdx (t : TType) : List (List Nat) := (List.range (tyCount t)).map (unrank (t.ext.take t.rank))

def copyFoot (s : State) (x : Cmd) (h : CmdHdr) (o : CopyOps) : List Foot :=
  let runs := List.range (o.n1 * o.n2)
  let g := s.cur
  let src := match o.src with
    | some a => runs.flatMap (fun k => qFoot s g (runSrc o a k) o.len false)
    | none => tyFoot g (ttypeOf x.ta) (allIdx (ttypeOf x.ta)) false
  let dst := match o.dst with
    | some b => runs.flatMap (fun k =>
      let rb := runDst o b k
      match o.src.bind (fun a => spTarget s g (runSrc o a k)), spTarget s g rb with
      | some (ca, aa), some (cb, ab) =>
        let bs := bfOf (s.core ca) aa
        let bt := bfOf (s.core cb) ab
        let cv := convOf bs bt aa o.len
        footOf cb ab cv.dstLen true ++ footOf cb (scaleSpot bt (ab / 2 ^ 19) (ab % 2 ^ 19 * 8 / cv.ft.width)) cv.scaleLen true
          ++ (if cv.scaled then footOf ca (scaleSpot bs (aa / 2 ^ 19) (aa % 2 ^ 19 * 8 / cv.fs.width)) (o.len * 8 / cv.fs.width / 32 * 2) false else [])
      | _, _ => qFoot s g rb o.len true)
    | none => tyFoot g (ttypeOf x.tb) (allIdx (ttypeOf x.tb)) true
  let _ := h
  src ++ dst

/-- The lines of the members' scratchpads that W stores write. -/
def wFoot (s : State) (g : Nat) (q : Word) (n : Nat) : List Foot :=
  match wMembers (s.core g).placeOf g (qMask q) with
  | some ms => ms.flatMap (fun m => footOf m (qAddr q) n true)
  | none => []

/- The commands (R227 to R236). -/

def execKcpy (h : CmdHdr) (am : BitVec 2) (so : BitVec 8) (dims : BitVec 2) (len0 : BitVec 20) (n1 n2 : BitVec 16) (s : State) :
    Host.Outcome State Fault Refusal :=
  let n := copySlots h dims
  kIssue h (.kcpy h am so dims len0 n1 n2) am so n (copyFault s h dims (copyOps h dims len0 n1 n2 (kSlots s.me am so n)))
    (fun s x => copyFoot s x h (copyOps h dims len0 n1 n2 x.slots)) s

/-- The size of a gathered element and of an index. -/
def elemSize (esz : BitVec 4) : Nat := 2 ^ esz.toNat
def idxSize (ixw : BitVec 1) : Nat := if ixw = 1 then 8 else 4

/-- The indices of a list in memory. -/
def idxList (s : State) (g : Nat) (q : Word) (w n : Nat) : List Nat :=
  match spTarget s g q with | some (t, a) => numsOf w (bytesAt (s.core t).sp a (w * n)) | none => []

def execKgth (h : CmdHdr) (am : BitVec 2) (so : BitVec 8) (esz : BitVec 4) (ixw : BitVec 1) (cnt : BitVec 16) (s : State) :
    Host.Outcome State Fault Refusal :=
  let v := kSlots s.me am so 3
  let z := elemSize esz
  kIssue h (.kgth h am so esz ixw cnt) am so 3
    (kIllegal s (!(inSpaces (v.getD 0 0) [0, 1, 2, 4] && inSpaces (v.getD 1 0) [1] && inSpaces (v.getD 2 0) [0, 1, 2, 4])))
    (fun s x =>
      let b := x.slots.getD 0 0
      qFoot s s.cur (x.slots.getD 1 0) (idxSize ixw * cnt.toNat) false
        ++ (idxList s s.cur (x.slots.getD 1 0) (idxSize ixw) cnt.toNat).flatMap (fun i => qFoot s s.cur (qAdvance b (i * z : Nat)) z false)
        ++ qFoot s s.cur (x.slots.getD 2 0) (z * cnt.toNat) true) s

def execKsct (h : CmdHdr) (am : BitVec 2) (so : BitVec 8) (esz : BitVec 4) (ixw : BitVec 1) (cnt : BitVec 16) (s : State) :
    Host.Outcome State Fault Refusal :=
  let v := kSlots s.me am so 3
  let z := elemSize esz
  kIssue h (.ksct h am so esz ixw cnt) am so 3
    (kIllegal s (!(inSpaces (v.getD 0 0) [0, 1, 2, 4] && inSpaces (v.getD 1 0) [1] && inSpaces (v.getD 2 0) [0, 1, 2, 4])))
    (fun s x =>
      let b := x.slots.getD 2 0
      qFoot s s.cur (x.slots.getD 1 0) (idxSize ixw * cnt.toNat) false ++ qFoot s s.cur (x.slots.getD 0 0) (z * cnt.toNat) false
        ++ (idxList s s.cur (x.slots.getD 1 0) (idxSize ixw) cnt.toNat).flatMap (fun i => qFoot s s.cur (qAdvance b (i * z : Nat)) z true)) s

/-- KMC's mask check at issue (R230, 07 R138). -/
def kmcFault (s : State) (src dst : Word) : Option FaultInfo :=
  if !(inSpaces src [0, 1, 2] && inSpaces dst [3]) then some (s.me.faultHere .k cILLEGAL)
  else if (formFault dst).isNone && (wMembers s.me.placeOf s.cur (qMask dst)).isNone then some (accFault cPLACE 3 (s.me.pcOf .k) dst)
  else none

def execKmc (h : CmdHdr) (am : BitVec 2) (so : BitVec 8) (len : BitVec 22) (s : State) : Host.Outcome State Fault Refusal :=
  let v := kSlots s.me am so 2
  kIssue h (.kmc h am so len) am so 2 (kmcFault s (v.getD 0 0) (v.getD 1 0))
    (fun s x => qFoot s s.cur (x.slots.getD 0 0) len.toNat false ++ wFoot s s.cur (x.slots.getD 1 0) len.toNat) s

/-- KQNT's element format. -/
def efmtOf (e : BitVec 2) : Fmt := match e.toNat with | 0 => .e4m3 | 1 => .e5m2 | _ => .e2m1
/-- The bytes of 32 elements of a format. -/
def blockBytes (f : Fmt) : Nat := 32 * f.width / 8

def execKqnt (h : CmdHdr) (am : BitVec 2) (so : BitVec 8) (sfmt : BitVec 8) (efmt : BitVec 2) (nblk : BitVec 12) (s : State) :
    Host.Outcome State Fault Refusal :=
  let v := kSlots s.me am so 3
  kIssue h (.kqnt h am so sfmt efmt nblk) am so 3 (kIllegal s (!(v.all (fun q => inSpaces q [0, 1, 2, 4]))))
    (fun s x => qFoot s s.cur (x.slots.getD 0 0) (nblk.toNat * blockBytes ((fmtOfCode sfmt.toNat).getD .i8)) false
      ++ qFoot s s.cur (x.slots.getD 1 0) (nblk.toNat * blockBytes (efmtOf efmt)) true
      ++ qFoot s s.cur (x.slots.getD 2 0) (2 * nblk.toNat) true) s

/-- What a W-stream's header says a KEXP will read and write (R232). -/
def expandFoot (s : State) (g : Nat) (x : Cmd) (hdr : List Byte) : List Foot :=
  qFoot s g (x.slots.getD 0 0) (0x108 + leNat ((hdr.drop 4).take 4)) false ++ qFoot s g (x.slots.getD 1 0) (leNat (hdr.take 4)) true

/-- The first bytes of a W-stream in L, N or D space, as they stand; none where they cannot be read. -/
def headerAt (s : State) (q : Word) : List Byte :=
  match spTarget s s.cur q with
  | some (t, a) => (match portBytes (s.core t) false 8 a with | .ok bs => bs.map Prod.fst | .error _ => [])
  | none =>
    if qSpc q ≠ 0 || (formFault q).isSome then []
    else match (dSegments s.cur (qVa q) 8 false s).1 with | .ok r => readSegs s r | .error _ => []

/-- KEXP. Its footprint is known at issue, from its header as it stands then, but for one whose stream lies in F space: it is known when
the header has come (06 R400, log 61). -/
def execKexp (h : CmdHdr) (s : State) : Host.Outcome State Fault Refusal :=
  let v := kSlots s.me 0 0 2
  kIssue h (.kexp h) 0 0 2 (kIllegal s (!(inSpaces (v.getD 0 0) [0, 1, 2, 4] && inSpaces (v.getD 1 0) [1, 2])))
    (fun s x => expandFoot s s.cur x (headerAt s (x.slots.getD 0 0))) s (inSpaces (v.getD 0 0) [4])

/-- A KXF's faults at issue (R234): `start` in L space, an alignment, and the bytes that must lie in the bank. -/
def kxfFault (s : State) (q : Word) (illegal : Bool) (align : Nat) (past : Bool) : Option FaultInfo :=
  if !inSpaces q [1] || illegal then some (s.me.faultHere .k cILLEGAL)
  else match formFault q with
    | some x => some (accFault x 3 (s.me.pcOf .k) q)
    | none =>
      if qAddr q % align ≠ 0 then some (kAlign s q)
      else if past then some (accFault cPROTECT 3 (s.me.pcOf .k) q)
      else none

/-- Whether n bytes from an L address pass the bank's end. -/
def pastBank (q : Word) (n : Nat) : Bool := decide (2 ^ 19 < qAddr q % 2 ^ 19 + n)
/-- Whether they pass the bank's end or reach its scale region (R234, 07 R150). -/
def pastRegion (s : State) (q : Word) (n : Nat) : Bool := pastBank q n || pastScales (bfOf s.me (qAddr q)) (qAddr q) n

def execKxfTranspose (h : CmdHdr) (am : BitVec 2) (so : BitVec 8) (fp : BitVec 5) (sc : BitVec 1) (cnt : BitVec 13) (s : State) :
    Host.Outcome State Fault Refusal :=
  let q := (kSlots s.me am so 1).getD 0 0
  let tile := 1024 * 2 ^ fp.toNat
  kIssue h (.kxfTranspose h am so fp sc cnt) am so 1 (kxfFault s q false tile (pastRegion s q (tile * cnt.toNat)))
    (fun s x => qFoot s s.cur (x.slots.getD 0 0) (tile * cnt.toNat) true) s

/-- An orbit transform's faults (R234): the type, and its representatives and full tensor wholly in the bank. -/
def orbitFault (s : State) (h : CmdHdr) (q : Word) : Option FaultInfo :=
  let t := ttypeOf (s.me.tyAt .k h.ta)
  let bank := qAddr q / 2 ^ 19
  let out := (allIdx t).any (fun i =>
    let l := locate t i
    let a := (elemAddr t l.off).1
    let n := (t.fmt.width + 7) / 8
    !l.zero && (decide (a < (bank * 2 ^ 19 : Nat)) || decide (((bank + 1) * 2 ^ 19 : Nat) < a + (n : Nat))
      || pastScales (bfOf s.me (qAddr q)) a.toNat n))
  kxfFault s q (!t.valid || decide (t.space ≠ 1)) 1 (pastRegion s q (tyBytes t) || out)

def orbitFoot (s : State) (x : Cmd) (pack : Bool) : List Foot :=
  let t := ttypeOf x.ta
  qFoot s s.cur (x.slots.getD 0 0) (tyBytes t) (!pack) ++ tyFoot s.cur t (allIdx t) pack

def execKxfOrbitPack (h : CmdHdr) (am : BitVec 2) (so : BitVec 8) (fp : BitVec 5) (sc : BitVec 1) (cnt : BitVec 13) (s : State) :
    Host.Outcome State Fault Refusal :=
  kIssue h (.kxfOrbitPack h am so fp sc cnt) am so 1 (orbitFault s h ((kSlots s.me am so 1).getD 0 0)) (fun s x => orbitFoot s x true) s

def execKxfOrbitUnpack (h : CmdHdr) (am : BitVec 2) (so : BitVec 8) (fp : BitVec 5) (sc : BitVec 1) (cnt : BitVec 13) (s : State) :
    Host.Outcome State Fault Refusal :=
  kIssue h (.kxfOrbitUnpack h am so fp sc cnt) am so 1 (orbitFault s h ((kSlots s.me am so 1).getD 0 0)) (fun s x => orbitFoot s x false) s

/-- The format of a requantise's source. -/
def reqFmt (fp : BitVec 5) : Fmt := (fmtOfCode fp.toNat).getD .i8

/-- A requantise's faults (R234): the bank's format, the start on 32 source elements, region, result and scales in the
bank and clear of its scale region. MODEL'S CHOICE (log 70): a start that is no multiple of 32 elements of the result, as a 4-bit source
allows in a SCALED bank of 8-bit elements, is no ILLEGAL (07 R151 asks it of copies); the scale of each block goes to the place of the
element with which it starts. -/
def requantFault (s : State) (q : Word) (fp : BitVec 5) (sc : BitVec 1) (cnt : Nat) : Option FaultInfo :=
  let b := bfOf s.me (qAddr q)
  let a := qAddr q
  let ft := (fmtOfCode (bfFmt b)).getD .i8
  let n := 32 * cnt
  let src := n * (reqFmt fp).width / 8
  let dst := n * ft.width / 8
  let scales (f : Fmt) : Bool := decide (2 ^ 19 < bfXoff b * 4096 + 2 * (a % 2 ^ 19 * 8 / f.width / 32 + cnt))
  let clear := decide (sc = 1) || bfScaled b
  kxfFault s q (bfApack b || decide (bfFmt b = 0xFF)) (32 * (reqFmt fp).width / 8)
    (pastBank q src || pastBank q dst || (clear && decide (bfXoff b * 4096 < a % 2 ^ 19 + max src dst))
      || (decide (sc = 1) && scales (reqFmt fp)) || (bfScaled b && scales ft))

def execKxfRequantise (h : CmdHdr) (am : BitVec 2) (so : BitVec 8) (fp : BitVec 5) (sc : BitVec 1) (cnt : BitVec 13) (s : State) :
    Host.Outcome State Fault Refusal :=
  let q := (kSlots s.me am so 1).getD 0 0
  kIssue h (.kxfRequantise h am so fp sc cnt) am so 1 (requantFault s q fp sc cnt.toNat)
    (fun s x =>
      let q := x.slots.getD 0 0
      let b := bfOf s.me (qAddr q)
      let ft := (fmtOfCode (bfFmt b)).getD .i8
      let sp (f : Fmt) (w : Bool) : List Foot := footOf s.cur (scaleSpot b (qAddr q / 2 ^ 19) (qAddr q % 2 ^ 19 * 8 / f.width)) (2 * cnt.toNat) w
      footOf s.cur (qAddr q) (cnt.toNat * blockBytes (reqFmt fp)) false ++ footOf s.cur (qAddr q) (cnt.toNat * blockBytes ft) true
        ++ (if sc = 1 then sp (reqFmt fp) false else []) ++ (if bfScaled b then sp ft true else [])) s

def execKxfZeroFill (h : CmdHdr) (am : BitVec 2) (so : BitVec 8) (fp : BitVec 5) (sc : BitVec 1) (cnt : BitVec 13) (s : State) :
    Host.Outcome State Fault Refusal :=
  let q := (kSlots s.me am so 1).getD 0 0
  kIssue h (.kxfZeroFill h am so fp sc cnt) am so 1 (kxfFault s q false 1 (pastRegion s q (512 * cnt.toNat)))
    (fun s x => qFoot s s.cur (x.slots.getD 0 0) (512 * cnt.toNat) true) s

/-- The width of a reduced element (R235). -/
def ropWidth (rop : BitVec 2) : Nat := if rop = 1 then 8 else 4

def execKred (h : CmdHdr) (am : BitVec 2) (so : BitVec 8) (rop : BitVec 2) (cnt : BitVec 20) (s : State) :
    Host.Outcome State Fault Refusal :=
  let v := kSlots s.me am so 2
  kIssue h (.kred h am so rop cnt) am so 2
    (kIllegal s (!(inSpaces (v.getD 0 0) [1] && inSpaces (v.getD 1 0) [0, 2, 4]) || (s.me.detOn && decide (rop = 2))))
    (fun s x => qFoot s s.cur (x.slots.getD 0 0) (ropWidth rop * cnt.toNat) false ++ qFoot s s.cur (x.slots.getD 1 0) (ropWidth rop * cnt.toNat) true) s

/-- The block elements of an export's region. -/
def exptUnit (b : Word) : Nat := if bfApack b then 64 * apackWidth b else blockBytes ((fmtOfCode (bfFmt b)).getD .i8)

def execKexpt (h : CmdHdr) (s : State) : Host.Outcome State Fault Refusal :=
  let v := kSlots s.me 0 0 3
  let b := bfOf s.me (qAddr (v.getD 0 0))
  let n := (v.getD 2 0).toNat
  kIssue h (.kexpt h) 0 0 3
    (kIllegal s (!(inSpaces (v.getD 0 0) [1] && inSpaces (v.getD 1 0) [0, 1, 2, 4]) || !(bfApack b || bfScaled b) || n = 0 || decide (65535 < n)))
    (fun s x =>
      let q := x.slots.getD 0 0
      let n := (x.slots.getD 2 0).toNat
      let b := bfOf s.me (qAddr q)
      (if bfApack b then qFoot s s.cur q (n * exptUnit b) false
       else footOf s.cur (scaleSpot b (qAddr q / 2 ^ 19) (qAddr q % 2 ^ 19 / exptUnit b * 32)) (2 * n) false)
        ++ qFoot s s.cur (x.slots.getD 1 0) (exptLen b n) true) s

/- Lines (R224). -/

/-- The next line of a command. -/
inductive Make where
  /-- Bytes for a destination, aligned to `al`; `x` is the command with the line behind it. -/
  | line (dst : Word) (bs : List MByte) (fl : Flags) (al : Nat) (x : Cmd) (s : State)
  /-- Bytes to be added. -/
  | add (rop : Nat) (dst : Word) (bs : List Byte) (al : Nat) (x : Cmd) (s : State)
  /-- Representatives of a typed destination. -/
  | elems (t : TType) (ws : List (Int × Nat)) (x : Cmd) (s : State)
  /-- A source with another device. -/
  | far (dev va len : Nat) (src dst : Word) (al : Nat) (x : Cmd) (s : State)
  /-- A read ahead over the fabric. -/
  | ahead (dev va len : Nat) (src : Word) (x : Cmd) (s : State)
  | xf (r : Xf) (x : Cmd)
  /-- Something has been read ahead; the lines follow. -/
  | more (fl : Flags) (x : Cmd) (s : State)
  | fin (x : Cmd) (s : State)
  | bad (code : Nat) (addr qa : Word) (x : Cmd) (s : State)
  | wait (s : State)
  deriving Repr

/-- The bytes of the next line of a run of `total` bytes at `dst`, `off` bytes into it. -/
def lineLen (dst : Word) (off total : Nat) : Nat := min (64 - qByte (qAdvance dst off) % 64) (total - off)

/-- Byte `k` of a run at `q` lies past the end of its space: only adv wraps (R227), a run does not (07 R136, log 33). -/
def runPast (q : Word) (k : Nat) : Bool := decide (qSize q ≤ qByte q + k)

/-- The code of such a byte: the one of an address that its space cannot hold. -/
def pastCode (q : Word) : Nat := if qSpc q = 0 then cTRANSLATE else cPROTECT
def badPast (q : Word) (k : Nat) (x : Cmd) (s : State) : Make := .bad (pastCode q) (qLogged (qAdvance q k)) (qAdvance q k) x s

/-- The alignment that byte `k` of a run must have: its start is aligned to `al`. -/
def runAlign (k al : Nat) : Nat := if k = 0 then al else 1

/-- Reads from byte `k` of a run that is aligned to `al`. -/
def kReadAt (g : Nat) (q : Word) (k n : Nat) (s : State) (al : Nat := 1) : Got (List MByte) :=
  if (formFault q).isNone && runPast q k then .bad (pastCode q) (qLogged (qAdvance q k)) (qAdvance q k) s
  else kRead g (qAdvance q k) n s (runAlign k al)

/-- The checks of a line's destination, `n` bytes at byte `k` of a run that is aligned to `al`. -/
def lineCheck (g : Nat) (q : Word) (k n al : Nat) (s : State) : Got Unit :=
  if (formFault q).isNone && runPast q k then .bad (pastCode q) (qLogged (qAdvance q k)) (qAdvance q k) s
  else kCheckDst g (qAdvance q k) n (runAlign k al) s

/-- A line whose source holds poison faults once its destination has passed its checks (R224). -/
def poisonLast (chk : State → Got Unit) (addr qa : Word) (x : Cmd) (s : State) : Make :=
  match chk s with
  | .bad c ad q s => .bad c ad q x s
  | .wait s => .wait s
  | _ => .bad cPOISON addr qa x s

/-- Reads the source of a line, `n` bytes at byte `k` of a run: where it crosses a bank it is read in two parts, which are
not performed as one (07 R146). -/
def splitRead (g : Nat) (q : Word) (k n al : Nat) (x : Cmd) (s : State) (near : List MByte → Cmd → State → Make)
    (far : Nat → Nat → State → Make) : Make :=
  let a := qAdvance q k
  let cut := 2 ^ 19 - qByte a % 2 ^ 19
  let read (k n : Nat) (go : List MByte → State → Make) : Make :=
    match kReadAt g q k n s al with
    | .ok bs s => go bs s
    | .bad c ad qa s => .bad c ad qa x s
    | .wait s => .wait s
    | .far d v s => far d v s
  if inSpaces a [1, 2] && decide (cut < n) then
    match resolve s g a n (runAlign k al) with
    | .error e => .bad e (qLogged a) a x s
    | .ok _ =>
      if x.part.isEmpty then read k cut (fun bs s => .more flNone { x with part := bs } s)
      else read (k + cut) (n - cut) (fun bs s => near (x.part ++ bs) { x with part := [] } s)
  else read k n (fun bs s => near bs x s)

/-- The same read by a command that converts, compares or adds: poison is a fault. `chk`: the checks of the line's
destination. -/
def cleanRead (g : Nat) (q : Word) (k n al : Nat) (chk : State → Got Unit) (x : Cmd) (s : State)
    (near : List Byte → Cmd → State → Make) (far : Nat → Nat → State → Make) : Make :=
  splitRead g q k n al x s (fun bs x s =>
    match poisonAddr g (qAdvance q k) n false bs s with
    | some ad => poisonLast chk ad (qAdvance q k) x s
    | none => near (bs.map Prod.fst) x s) far

/-- A line whose destination is byte `k` of a run that is aligned to `al`. -/
def lineOut (x : Cmd) (q : Word) (k : Nat) (bs : List MByte) (fl : Flags) (x' : Cmd) (s : State) (al : Nat := 1) : Make :=
  if (formFault q).isNone && runPast q k then badPast q k x s else .line (qAdvance q k) bs fl (runAlign k al) x' s

/-- The command with a line of `len` bytes of a run of `total` behind it. -/
def Cmd.past (x : Cmd) (len total : Nat) : Cmd :=
  if x.off + len < total then { x with off := x.off + len } else { x with run := x.run + 1, off := 0 }

/-- A line that moves bytes unchanged: source and destination are checked in this order, each with its alignment
(R224). -/
def moveLine (g : Nat) (a b : Word) (total : Nat) (x : Cmd) (s : State) (sal : Nat := 1) (dal : Nat := 1) : Make :=
  let l := lineLen b x.off total
  splitRead g a x.off l sal x s (fun bs x s => lineOut x b x.off bs flNone (x.past l total) s dal)
    (fun d v s =>
      if (formFault b).isNone && runPast b x.off then badPast b x.off x s
      else .far d v l (qAdvance a x.off) (qAdvance b x.off) (runAlign x.off dal) (x.past l total) s)

/-- Marks on a scale halfword kept in `nums`. -/
def markedScale (v : Nat) (p : Bool) : Nat := v + (if p then 65536 else 0)

/-- A line of a converting run (R151, R228): its element lines, then the lines of its scales. -/
def convertLine (g : Nat) (cv : Conv) (bs bt : Word) (aa ab : Nat) (a b : Word) (x : Cmd) (s : State) : Make :=
  if x.off < cv.dstLen then
    let l := lineLen b x.off cv.dstLen
    let i0 := x.off * 8 / cv.ft.width
    let n := l * 8 / cv.ft.width
    -- elements copied unchanged may start anywhere (R228): their bytes are taken as they stand
    let so := if cv.mode = .same then x.off else i0 * cv.fs.width / 8
    let sa := qAdvance a so
    let e0 := aa % 2 ^ 19 * 8 / cv.fs.width + i0
    let odd := decide (cv.fs.width = 4) && decide (i0 % 2 = 1)
    let nb := (n * cv.fs.width + (if odd then 4 else 0) + 7) / 8
    let total := cv.dstLen + cv.scaleLen
    -- the source's checks come before the destination's (R224)
    let beyond := bfScaled bt && pastScales bt (ab + x.off) l
    let db := qAdvance b x.off
    let chk (s : State) : Got Unit := if beyond then .bad cPROTECT (qLogged db) db s else lineCheck g b x.off l 1 s
    let out (ds : List MByte) (fl : Flags) (x' : Cmd) (s : State) : Make :=
      if beyond then .bad cPROTECT (qLogged db) db x s else lineOut x b x.off ds fl x' s
    if (cv.scaled && pastScales bs (aa + so) (if cv.mode = .same then l else nb)) then .bad cPROTECT (qLogged sa) sa x s
    else
      let scales (es : List Nat) (go : List (Nat × Bool) → State → Make) (s : State) : Make :=
        match (if cv.scaled then kScales g a bs (aa / 2 ^ 19) es s else .ok [] s) with
        | .ok ss s => go ss s
        | .bad c ad q s => .bad c ad q x s
        | .wait s | .far _ _ s => .wait s
      if cv.mode = .same then
        splitRead g a so l 1 x s (fun ds x s =>
          scales ((List.range (n / 32)).map (fun k => e0 + 32 * k)) (fun ss s =>
            out ds flNone { x.past l total with nums := x.nums ++ ss.map (fun y => markedScale y.1 y.2) } s) s)
          (fun _ _ s => .wait s)
      else
        cleanRead g a so nb 1 chk x s (fun ds x s =>
          scales ((List.range n).map (e0 + ·)) (fun ss s =>
            match ss.findIdx? Prod.snd with
            | some k =>
              let spot := scaleSpot bs (aa / 2 ^ 19) (e0 + k)
              poisonLast chk (BitVec.ofNat 64 (spot / 8 * 8)) (qAt a spot) x s
            | none =>
              let (codes, sc, fl) := convertCodes cv (unpackCodes cv.fs.width n odd ds) (ss.map Prod.fst)
              out ((packCodes cv.ft.width codes).map (fun v => (v, false))) fl
                { x.past l total with nums := x.nums ++ sc } s) s)
          (fun _ _ s => .wait s)
  else if scalePast bt (ab % 2 ^ 19 * 8 / cv.ft.width + (cv.scaleLen / 2 - 1) * 32) then
    let spot := scaleSpot bt (ab / 2 ^ 19) (ab % 2 ^ 19 * 8 / cv.ft.width)
    .bad cPROTECT (BitVec.ofNat 64 spot) (qAt b spot) x s
  else
    let dst := qAt b (scaleSpot bt (ab / 2 ^ 19) (ab % 2 ^ 19 * 8 / cv.ft.width))
    let so := x.off - cv.dstLen
    let l := lineLen dst so cv.scaleLen
    let all : List MByte := x.nums.flatMap (fun v => (natLE 2 (v % 65536)).map (fun y => (y, decide (65536 ≤ v))))
    let x' := x.past l (cv.dstLen + cv.scaleLen)
    lineOut x dst so ((all.drop so).take l) flNone (if x'.off = 0 then { x' with nums := [] } else x') s

/-- A read ahead has brought bytes: poison ends what can be used (07 R160). -/
def Cmd.gain (x : Cmd) (bs : List MByte) (poisoned : Option Word) : Cmd :=
  { x with bytes := x.bytes ++ (bs.takeWhile (fun b => !b.2)).map Prod.fst, endAt := poisoned.map (fun ad => (cPOISON, ad)) }

/-- Reads ahead the first `want` bytes of a source that is aligned to `al`, line by line; none where it has them all. -/
def readAhead (g : Nat) (q : Word) (want : Nat) (x : Cmd) (s : State) (al : Nat := 1) : Option Make :=
  if x.bytes.length < want then
    match x.endAt with
    | some (c, ad) => some (.bad c ad q x s)
    | none =>
      if x.ahead then some (.wait s)
      else
        let k := x.bytes.length
        let n := lineLen q k want
        match kReadAt g q k n s al with
        | .far d v s => some (.ahead d v n (qAdvance q k) x s)
        | .bad c ad qa s => some (.bad c ad qa x s)
        | .ok bs s => some (.more flNone (x.gain bs (poisonAddr g (qAdvance q k) n false bs s)) s)
        | .wait s => some (.wait s)
  else none

/-- The distinct lines of 64 bytes in which a typed store's representatives lie, ascending. -/
def storeLines (t : TType) (ws : List (Int × Nat × Nat)) : List Nat :=
  ws.foldl (fun acc w => insWord ((elemAddr t w.1).1.toNat / 64) acc) []

/-- An element of a type as it is stored, before its sign is applied; a structural zero's is 0 (02 R44). -/
def rawElem (g : Nat) (t : TType) (i : Nat) (s : State) : Got (Nat × Bool) :=
  let l := locate t (unrank (t.ext.take t.rank) i)
  if l.zero then .ok (0, false) s else kElem g t l.off s

/-- Stored elements with the signs of a type applied, and the flags of that (02 R44). -/
def signedElems (t : TType) (raw : List Nat) : List Nat × Flags :=
  let r := raw.zipIdx.map (fun y =>
    let l := locate t (unrank (t.ext.take t.rank) y.2)
    if l.zero then (0, flNone) else applySign t.fmt l.neg y.1)
  (r.map Prod.fst, r.foldl (fun f y => f ||| y.2) flNone)

/-- The checks of the representatives of a typed destination that lie in its first line. -/
def typedCheck (g : Nat) (t : TType) (s : State) : Got Unit :=
  let at_ := (allIdx t).filterMap (fun i => let l := locate t i; if l.zero then none else some (elemAddr t l.off).1)
  match at_ with
  | [] => .ok () s
  | a :: as =>
    let line := (as.foldl min a).toNat / 64
    (at_.filter (fun y => decide (y.toNat / 64 = line))).foldl (fun acc y => match acc with
      | .ok _ s => kCheckDst g (tyQa t y) ((t.fmt.width + 7) / 8) 1 s
      | r => r) (.ok () s)

/-- KCPY with a typed side (R228). A copy between two types sets flags only where it stores (14 R315): its source's elements are kept
as they stand until the strict check is over. Poison in a source that is compared is reported after the checks of the destination's
first line (R224). -/
def typedLine (g : Nat) (h : CmdHdr) (o : CopyOps) (x : Cmd) (s : State) : Make :=
  let ta := ttypeOf x.ta
  let tb := ttypeOf x.tb
  match o.dst with
  | some b =>
    -- a typed source, written as a full tensor
    let w := ta.fmt.width
    if o.len ≤ x.off || x.run ≠ 0 then .fin x s
    else
      let l := lineLen b x.off o.len
      let i0 := x.off * 8 / w
      let i1 := min (tyCount ta) (((x.off + l) * 8 + w - 1) / w)
      (match kElems g ta (i1 - i0) i0 s with
      | .ok (es, fl) s =>
        let bs := (packMarked w es).drop (x.off - i0 * w / 8)
        lineOut x b x.off (bs.take l) fl (x.past l o.len) s
      | .bad c ad q s => .bad c ad q x s
      | .wait s | .far _ _ s => .wait s)
  | none =>
    if !x.ready then
      let n := tyCount tb
      let plan (codes : List Nat) := planStore tb (codes.zipIdx.map (fun y => (unrank (tb.ext.take tb.rank) y.2, y.1)))
      let go (codes : List Nat) (fl : Flags) (x : Cmd) (s : State) : Make :=
        let p := plan codes
        if tb.strict && p.breaks then
          let q := tyQa tb (p.strictAddr tb)
          .bad cORBIT (qLogged q) q x s
        else .more (fl ||| p.flags ||| flIf p.breaks flSYMLOSS) { x with nums := codes, bytes := [], ready := true } s
      match o.src with
      | none =>
        -- the source is read element by element
        if n ≤ x.nums.length then
          let r := signedElems ta x.nums
          go r.1 r.2 x s
        else
          let i := x.nums.length
          (match rawElem g ta i s with
          | .ok (v, false) s => .more flNone { x with nums := x.nums ++ [v] } s
          | .ok (_, true) s =>
            let qa := tyQa ta (elemAddr ta (locate ta (unrank (ta.ext.take ta.rank) i)).off).1
            (match kReadClean g qa ((ta.fmt.width + 7) / 8) s with
            | .bad c ad q s => if c = cPOISON then poisonLast (typedCheck g tb) ad q x s else .bad c ad q x s
            | .ok _ s | .wait s | .far _ _ s => .wait s)
          | .bad c ad q s => .bad c ad q x s
          | .wait s | .far _ _ s => .wait s)
      | some a =>
        (match readAhead g a o.len x s with
        | some (.bad c ad q x s) => if c = cPOISON then poisonLast (typedCheck g tb) ad q x s else .bad c ad q x s
        | some m => m
        | none => go (unpackCodes tb.fmt.width n false x.bytes) flNone x s)
    else
      let p := planStore tb (x.nums.zipIdx.map (fun y => (unrank (tb.ext.take tb.rank) y.2, y.1)))
      match (storeLines tb p.writes)[x.run]? with
      | none => .fin x s
      | some l =>
        let _ := h
        .elems tb ((p.writes.filter (fun w => decide ((elemAddr tb w.1).1.toNat / 64 = l))).map (fun w => (w.1, w.2.1)))
          { x with run := x.run + 1 } s

/-- KCPY (R227, R228). -/
def copyLine (g : Nat) (h : CmdHdr) (o : CopyOps) (x : Cmd) (s : State) : Make :=
  match o.src, o.dst with
  | some a0, some b0 =>
    if o.n1 * o.n2 ≤ x.run then .fin x s
    else
      let a := runSrc o a0 x.run
      let b := runDst o b0 x.run
      match spTarget s g a, spTarget s g b with
      | some (ca, aa), some (cb, ab) =>
        let bs := bfOf (s.core ca) aa
        let bt := bfOf (s.core cb) ab
        let cv := convOf bs bt aa o.len
        (match cv.mode with
        | .raw | .refused => moveLine g a b o.len x s
        | _ => convertLine g cv bs bt aa ab a b x s)
      | _, _ => moveLine g a b o.len x s
  | _, _ => typedLine g h o x s

/-- KGTH and KSCT (R229): the index list is read first (log 26). MODEL'S CHOICE (log 70): an index that carries the base past the end of
its space wraps, as adv does (R227), and the address that results is the one checked; the bullet on index values speaks of a fault. -/
def gatherLine (g : Nat) (gather : Bool) (z iw cnt : Nat) (x : Cmd) (s : State) : Make :=
  let v (i : Nat) : Word := x.slots.getD i 0
  let al := min z 64
  if !x.ready then
    match readAhead g (v 1) (iw * cnt) x s iw with
    | some m => m
    | none => .more flNone { x with nums := numsOf iw x.bytes, bytes := [], ready := true } s
  else if cnt ≤ x.run then .fin x s
  else
    let i := x.nums.getD x.run 0
    if gather then moveLine g (qAdvance (v 0) (i * z : Nat)) (qAdvance (v 2) (x.run * z : Nat)) z x s al al
    else moveLine g (qAdvance (v 0) (x.run * z : Nat)) (qAdvance (v 2) (i * z : Nat)) z x s al al

/-- KMC (R230). -/
def multicastLine (g len : Nat) (x : Cmd) (s : State) : Make :=
  if x.run ≠ 0 then .fin x s else moveLine g (x.slots.getD 0 0) (x.slots.getD 1 0) len x s 1 64

/-- The next block of a KQNT is searched (R231). `chk`: the checks of the destination line that needs it. -/
def searchBlock (g : Nat) (sf ef : Fmt) (chk : State → Got Unit) (x : Cmd) (s : State) : Make :=
  let q := x.slots.getD 0 0
  let w := blockBytes sf
  let k := x.blocks.length
  let found (bs : List Byte) (x : Cmd) (s : State) : Make :=
    let r := scaleSearch sf ef (unpackCodes sf.width 32 false bs)
    .more r.2.2 { x with blocks := x.blocks ++ [(r.1, r.2.1)] } s
  cleanRead g q (k * w) w (max 1 (sf.width / 8)) chk x s found (fun _ _ s =>
    match chk s with
    | .bad c ad qa s => .bad c ad qa x s
    | .wait s => .wait s
    | _ => match readAhead g q ((k + 1) * w) x s with
      | some m => m
      | none => found ((x.bytes.drop (k * w)).take w) x s)

/-- KQNT (R231). -/
def quantLine (g : Nat) (sf ef : Fmt) (nblk : Nat) (x : Cmd) (s : State) : Make :=
  let sc := x.slots.getD 2 0
  let eb := blockBytes ef
  if x.run = 0 then
    let dst := x.slots.getD 1 0
    let l := lineLen dst x.off (nblk * eb)
    if x.blocks.length * eb < x.off + l then searchBlock g sf ef (lineCheck g dst x.off l 1) x s
    else
      let k0 := x.off / eb
      let bs := packCodes ef.width (((x.blocks.drop k0).take (l / eb + 2)).flatMap Prod.snd)
      lineOut x dst x.off (((bs.drop (x.off - k0 * eb)).take l).map (fun b => (b, false))) flNone (x.past l (nblk * eb)) s
  else if x.run = 1 then
    let l := lineLen sc x.off (2 * nblk)
    let bs := x.blocks.flatMap (fun b => natLE 2 b.1)
    lineOut x sc x.off (((bs.drop x.off).take l).map (fun b => (b, false))) flNone (x.past l (2 * nblk)) s 2
  else .fin x s

/-- Whether a command's footprint is still to be found (06 R400). -/
def footOpen (c : Core) (x : Cmd) : Bool :=
  c.detOn && c.window.any (fun w => decide (w.no = x.no) && w.late && w.foot.isNone)

/-- A W-stream is read line by line as far as its symbols need it: what the read of a line finds ends the expansion only where a
symbol needs that line (R233). -/
def expandAhead (g : Nat) (q : Word) (room : Nat) (logged : Nat → Word) (fin : List Byte × Option Dec → Cmd → State → Make)
    (x : Cmd) (s : State) : Make :=
  let have_ := x.bytes.length
  if have_ < 0x108 then (readAhead g q 0x108 x s).getD (.wait s)
  else if footOpen (s.core g) x then
    -- a RACE that the header shows (06 R132, R400, log 61)
    match lateFoot x.no (if (headerFault x.bytes room).isSome then [] else expandFoot s g x x.bytes) (s.core g) with
    | (some l, _) => .bad cRACE (BitVec.ofNat 64 (64 * l)) 0 x s
    | (none, c) => .more flNone x (s.setCore g c)
  else
    let rd : Rd := fun off => match x.bytes[off]? with
      | some b => .ok b
      | none => match x.endAt with | some e => .error e | none => .error (0, logged off)
    let r := expand rd (x.bytes.take 0x108) room
    match r.2 with
    | some (.read 0 _) =>
      (match readAhead g q (min (have_ + 64) (0x108 + leNat ((x.bytes.drop 4).take 4))) x s with
      | some (.bad c ad _ x s) => .more flNone { x with endAt := some (c, ad) } s
      | some m => m
      | none => .wait s)
    | _ => fin r { x with endAt := none } s

/-- KEXP (R233): the stream is expanded, then its lines are written. -/
def expandLine (g : Nat) (x : Cmd) (s : State) : Make :=
  let q := x.slots.getD 0 0
  let dst := x.slots.getD 1 0
  let room := 2 ^ 23 - qAddr dst
  let logged (off : Nat) : Word := BitVec.ofNat 64 (qByte q + off)
  let fin (r : List Byte × Option Dec) (x : Cmd) (s : State) : Make :=
    let e : Option (Nat × Word) := r.2.map (fun d => match d with
      | .codec c off => (c, logged off)
      | .read c ad => (c, ad))
    .more flNone { x with bytes := r.1, endAt := e, ready := true } s
  if !x.ready then expandAhead g q room logged fin x s
  else if x.run = 0 && decide (x.off < x.bytes.length) then
    let l := lineLen dst x.off x.bytes.length
    lineOut x dst x.off (((x.bytes.drop x.off).take l).map (fun b => (b, false))) flNone (x.past l x.bytes.length) s
  else match x.endAt with
    | some (c, ad) => .bad c ad q x s
    | none => .fin x s

/-- KRED (R235). -/
def reduceLine (g : Nat) (rop : BitVec 2) (cnt : Nat) (x : Cmd) (s : State) : Make :=
  let a := x.slots.getD 0 0
  let b := x.slots.getD 1 0
  let w := ropWidth rop
  if x.run ≠ 0 then .fin x s
  else
    let l := lineLen b x.off (w * cnt)
    cleanRead g a x.off l w (lineCheck g b x.off l w) x s (fun bs x s =>
      if (formFault b).isNone && runPast b x.off then badPast b x.off x s
      else .add rop.toNat (qAdvance b x.off) bs (runAlign x.off w) (x.past l (w * cnt)) s)
      (fun _ _ s => .wait s)

/-- KEXPT (R236). -/
def exportLine (g : Nat) (x : Cmd) (s : State) : Make :=
  let q := x.slots.getD 0 0
  let dst := x.slots.getD 1 0
  let n := (x.slots.getD 2 0).toNat
  let c := s.core g
  let b := bfOf c (qAddr q)
  let total := exptLen b n
  if x.run ≠ 0 then .fin x s
  else match formFault q with
    | some e => .bad e (qLogged q) q x s
    | none =>
      if qAddr q % 2 ^ 19 % exptUnit b ≠ 0 then .bad cALIGN (qLogged q) q x s
      else
        let l := lineLen dst x.off total
        let n0 := qAddr q % 2 ^ 19 / exptUnit b
        let (j0, j1) := exptSpan b n x.off l
        let s := (List.range (j1 - j0)).foldl (fun s k => exptCorrect g b (qAddr q / 2 ^ 19) n0 (j0 + k) s) s
        match exptBytes c b (qAddr q / 2 ^ 19) n0 n x.off l with
        | .error e =>
          if e.1 = cPOISON then poisonLast (lineCheck g dst x.off l 16) (BitVec.ofNat 64 e.2) q x s
          else .bad e.1 (BitVec.ofNat 64 e.2) q x s
        | .ok bs => lineOut x dst x.off bs flNone (x.past l total) s 16

/-- The next line of a command. -/
def makeLine (g : Nat) (x : Cmd) (s : State) : Make :=
  let a := qAddr (x.slots.getD 0 0)
  let once (r : Xf) : Make := if x.run = 0 then .xf r { x with run := 1 } else .fin x s
  match x.i with
  | .kcpy h _ _ dims len0 n1 n2 => copyLine g h (copyOps h dims len0 n1 n2 x.slots) x s
  | .kgth _ _ _ esz ixw cnt => gatherLine g true (elemSize esz) (idxSize ixw) cnt.toNat x s
  | .ksct _ _ _ esz ixw cnt => gatherLine g false (elemSize esz) (idxSize ixw) cnt.toNat x s
  | .kmc _ _ _ len => multicastLine g len.toNat x s
  | .kqnt _ _ _ sfmt efmt nblk => quantLine g ((fmtOfCode sfmt.toNat).getD .i8) (efmtOf efmt) nblk.toNat x s
  | .kexp _ => expandLine g x s
  | .kred _ _ _ rop cnt => reduceLine g rop cnt.toNat x s
  | .kexpt _ => exportLine g x s
  | .kxfTranspose _ _ _ fp _ cnt => once (xfTranspose g a (2 ^ fp.toNat) cnt.toNat s)
  | .kxfOrbitPack _ _ _ _ _ _ => once (xfOrbitPack g a (ttypeOf x.ta) s)
  | .kxfOrbitUnpack _ _ _ _ _ _ => once (xfOrbitUnpack g a (ttypeOf x.ta) s)
  | .kxfRequantise _ _ _ fp sc cnt => once (xfRequantise g a (reqFmt fp) (decide (sc = 1)) cnt.toNat s)
  | .kxfZeroFill _ _ _ _ _ cnt => once (xfZero g a (512 * cnt.toNat) s)
  | _ => .fin x s

/- Issuing and acknowledging lines. -/

/-- The leading lines that have all been acknowledged and written (R224). -/
def Cmd.prefixDone (x : Cmd) : Nat := (x.fly.map KFly.n ++ x.failed).foldl min x.sent

/-- The binding's arrival, once its lines are acknowledged (R237). MODEL'S CHOICE (log 70): an arrival that is due and that R209 holds
counts as made when its command then stops (R238): the phase in which it will be counted is not faulted. -/
def bindArrive (g : Nat) (x : Cmd) (fin : Bool) (s : State) : State :=
  match x.bind with
  | none => s
  | some (b, k) =>
    if x.stop.isNone && (fin || (decide (0 < k) && decide (k ≤ x.prefixDone))) then
      let far := decide (bMode ((s.core g).barrier b) = 5)
      let p : Pending := { e := .k, dredOnly := true, far := far, ord := 0, pc := x.pc, kind := .arrive b false, places := [], path := [] }
      let s := keepCmd g .k { x with bind := none } s
      settle g (s.setCore g { s.core g with pend := (s.core g).pend ++ [p] })
    else s

/-- The arrival to which a stopped command is bound is made faulted (R238), once no line is on its way any more: those that LINES
counts have then been performed (15 R329). -/
def faultArrive (g : Nat) (x : Cmd) (s : State) : State :=
  match x.stop, x.bind with
  | some _, some (b, _) =>
    if x.fly.any (fun f => match f.phase with | .reading | .held | .writing => true | _ => false) then s
    else arriveFaulted g b (keepCmd g .k { x with bind := none } s)
  | _, _ => s

/-- A command keeps its progress, and its binding arrives where it is due. -/
def settleCmd (g : Nat) (x : Cmd) (s : State) : State := faultArrive g x (bindArrive g x false (keepCmd g .k x s))

/-- A command stops: it issues no further line (R224), and an arrival it is bound to is made faulted (R238). -/
def stopLine (g : Nat) (x : Cmd) (code : Nat) (addr qa : Word) (s : State) : State :=
  match x.stop with
  | some _ => settleCmd g x s
  | none =>
    let f : FaultInfo := { cmdFault .k x code addr 0 0 with spc := qSpcBits qa, xtra := qXtra qa }
    let x := { x with stop := some f }
    faultArrive g x (keepCmd g .k x s)

/-- Line n, whose source was read over the fabric, stops the command before it is written: no later line is written
either (R224). -/
def stopFetched (g : Nat) (x : Cmd) (n code : Nat) (addr qa : Word) (s : State) : State :=
  let later (f : KFly) : Bool := decide (n < f.n)
  let gone := x.fly.filter (fun f => decide (f.n = n) || (later f && (match f.phase with | .held | .refused _ => true | _ => false)))
  let fly := (x.fly.filter (fun f => !gone.any (fun y => decide (y.n = f.n)))).map
    (fun f => if later f && decide (f.phase = .reading) then { f with phase := .dropped } else f)
  stopLine g { x with fly := fly, failed := x.failed ++ gone.map KFly.n } code addr qa s

/-- Adds a line into its home (R235, 18 R354): at once within the die, else as a reduce packet. -/
def kAdd (g : Nat) (x : Cmd) (n rop : Nat) (dst : Word) (bs : List Byte) (al : Nat) (s : State) : Got LinePhase :=
  match resolve s g dst bs.length al with
  | .error e => .bad e (qLogged dst) dst s
  | .ok (.sp t a) =>
    if t ≠ g && zeroingNow s t || !nOpen s g t dst then .wait s
    else if coreDie t = coreDie g then
      match reduceSp rop t a bs (nEnter g t dst s) with
      | .ok s => .ok .done s
      | .error w => .bad cPOISON (BitVec.ofNat 64 w) dst s
    else
      let f : RedFlight := { g := g, cmd := x.no, line := n, core := some t, runs := [(a, bs.length)], rop := rop, data := bs, va := dst, since := x.since }
      .ok .writing { s with redFlight := s.redFlight ++ [f] }
  | .ok (.d va) =>
    (match dSegments g va bs.length true s with
      | (.error e, s) => segFails e dst s
      | (.ok r, s) =>
        if r.all (fun y => decide (paDie y.1 = coreDie g)) then
          match reduceSegs rop r bs (s.core g).unitTag s with
          | .ok s => .ok .done s
          | .error k => .bad cPOISON (BitVec.ofNat 64 ((va + k) / 8 * 8)) dst s
        else
          let f : RedFlight := { g := g, cmd := x.no, line := n, core := none, runs := r, rop := rop, data := bs, va := dst, since := x.since }
          .ok .writing { s with redFlight := s.redFlight ++ [f] })
  | .ok (.f dev va) =>
    (match sendPacket (coreDie g) dev 2 (s.core g).unitTag (.reduce (BitVec.ofNat 2 rop)) va bs.length bs [] (.line g x.no n) s with
      | .sent s => .ok .writing s
      | .full => .wait s
      | .unreachable => .bad cUNREACH (qLogged dst) dst s)
  | .ok (.cew _) | .ok (.w _ _) => .bad cPROTECT (qLogged dst) dst s

/-- Adds flags to FSTK of a core. -/
def orFlags (g : Nat) (f : Flags) (s : State) : State :=
  s.setCore g ((s.core g).addFlags f)

/-- A line has been issued, and how it stands. -/
def lineSent (g : Nat) (x : Cmd) (ph : LinePhase) (src dst : Word) (len : Nat) (s : State) : State :=
  keepCmd g .k { x with sent := x.sent + 1, since := s.now,
                        fly := x.fly ++ [{ n := x.sent, phase := ph, src := src, dst := dst, len := len, data := [] }] } s

/-- The oldest line of a command whose source is read over the fabric and that has not been written. -/
def Cmd.fetching (x : Cmd) : Option KFly :=
  x.fly.find? (fun f => match f.phase with | .reading | .held | .refused _ => true | _ => false)

/-- Whether every line of a command has been performed. -/
def Cmd.performed (x : Cmd) : Bool := (x.allSent || x.stop.isSome) && x.fly.all (fun f => decide (f.phase = .done))

/-- A KMARK holds the lines of later commands until every line of the earlier ones has been performed (R226). -/
def heldByMark (c : Core) (x : Cmd) : Bool :=
  c.kcmds.any (fun m => isMark m.i && decide (m.no < x.no)
    && c.kcmds.any (fun y => decide (y.no < m.no) && !isMark y.i && !y.performed))

/-- A line that `makeLine` gives is checked and issued (R224). -/
def issueLine (g : Nat) (x : Cmd) (s0 : State) : State :=
  match makeLine g x s0 with
  | .line dst bs fl al x' s =>
    (match kPut g x x.sent dst bs s al with
    | .ok ph s => orFlags g fl (lineSent g x' ph 0 dst bs.length s)
    | .bad c ad qa s => stopLine g x c ad qa s
    | .wait s | .far _ _ s => s)
  | .add rop dst bs al x' s =>
    (match kAdd g x x.sent rop dst bs al s with
    | .ok ph s => lineSent g x' ph 0 dst bs.length s
    | .bad c ad qa s => stopLine g x c ad qa s
    | .wait s | .far _ _ s => s)
  | .elems t ws x' s =>
    (match kPutElems g x x.sent t ws s with
    | .ok ph s => lineSent g x' ph 0 0 0 s
    | .bad c ad qa s => stopLine g x c ad qa s
    | .wait s | .far _ _ s => s)
  | .far dev va len src dst al x' s =>
    (match kCheckDst g dst len al s with
    | .ok _ s =>
      (match sendPacket (coreDie g) dev 0 (s.core g).unitTag .read va len [] [] (.line g x.no x.sent) s with
      | .sent s => lineSent g x' .reading src dst len s
      | .full => s
      | .unreachable => stopLine g x cUNREACH (qLogged src) src s)
    | .bad c ad qa s => stopLine g x c ad qa s
    | .wait s | .far _ _ s => s)
  | .ahead dev va len src x' s =>
    (match sendPacket (coreDie g) dev 0 (s.core g).unitTag .read va len [] [] (.ahead g x.no) s with
    | .sent s => keepCmd g .k { x' with ahead := true } s
    | .full => s
    | .unreachable => stopLine g x cUNREACH (qLogged src) src s)
  | .xf (.ok s) x' => lineSent g x' .done 0 0 0 s
  | .xf (.bad c ad s) _ => stopLine g x c ad (x.slots.getD 0 0) s
  | .more fl x' s => orFlags g fl (keepCmd g .k { x' with since := s.now } s)
  | .fin x' s => keepCmd g .k { x' with allSent := true } s
  | .bad c ad qa x' s => stopLine g x' c ad qa s
  | .wait s => s

/-- The place in a cycle of what a command does in the own scratchpad (07 R147). -/
def kRank (i : Instr) : Nat :=
  match i with
  | .kxfTranspose .. | .kxfOrbitPack .. | .kxfOrbitUnpack .. | .kxfRequantise .. | .kxfZeroFill .. => 1
  | _ => 4

/-- K issues the next line of command n, or writes the oldest line whose source has arrived: such lines are written in
delivery order (R224). -/
def kAdvance (g n : Nat) (s : State) : State :=
  match (s.core g).cmd? .k n with
  | none => s
  | some x =>
    if x.started.isNone || heldByMark (s.core g) x || !bankOpen s g (kRank x.i) then s
    else
      let s0 := enterBank g (kRank x.i) s
      nameCorrected x.seq x.pc s <|
      let more := if x.allSent || x.stop.isSome || decide ((x.fly.map KFly.n).foldl min x.sent + 64 ≤ x.sent) then s0
        else issueLine g x s0
      match x.fetching with
      | none => more
      | some f =>
        match f.phase with
        | .held =>
          (match kPut g x f.n f.dst f.data s0 with
          | .ok ph s => settleCmd g { x with since := s.now, fly := x.fly.map (fun y => if y.n = f.n then { y with phase := ph, data := [] } else y) } s
          | .bad c ad qa s => stopFetched g x f.n c ad qa s
          | .wait s | .far _ _ s => s)
        | .refused c => stopFetched g x f.n c (qLogged f.src) f.src s0
        | _ => more

/-- A line is acknowledged, or receives an error response. -/
def lineAcked (g cmd n code : Nat) (addr qa : Word) (s : State) : State :=
  match (s.core g).cmd? .k cmd with
  | none => s
  | some x =>
    let x := { x with fly := x.fly.filter (fun f => decide (f.n ≠ n)) }
    if code = 0 then settleCmd g x s
    else stopLine g { x with failed := x.failed ++ [n] } code addr qa s

/-- The response to a line's packet (17 R337): the source's bytes, or the acknowledgment of its destination. -/
def lineAnswered (g cmd n code : Nat) (bs : List Byte) (marks : List Bool) (s : State) : State :=
  match (s.core g).cmd? .k cmd with
  | none => s
  | some x =>
    match x.fly.find? (fun f => decide (f.n = n)) with
    | none => s
    | some f =>
      match f.phase with
      | .reading =>
        let data := bs.zipIdx.map (fun b => (b.1, marks.getD (b.2 / 8) false))
        let ph : LinePhase := if code = 0 then .held else .refused code
        let x := { x with fly := x.fly.map (fun y => if y.n = n then { y with phase := ph, data := data } else y) }
        kAdvance g cmd (keepCmd g .k x s)
      | .dropped => keepCmd g .k { x with fly := x.fly.filter (fun y => decide (y.n ≠ n)), failed := x.failed ++ [n] } s
      | _ => lineAcked g cmd n code (qLogged f.dst) f.dst s

/-- The response to a read ahead. A poisoned word ends what can be used. -/
def aheadAnswered (g cmd code : Nat) (bs : List Byte) (marks : List Bool) (s : State) : State :=
  match (s.core g).cmd? .k cmd with
  | none => s
  | some x =>
    let ad : Word := BitVec.ofNat 64 (qByte (x.slots.getD 0 0) + x.bytes.length)
    let x := { x with ahead := false }
    if code ≠ 0 then keepCmd g .k { x with endAt := some (code, ad) } s
    else match marks.findIdx? id with
      | some k => keepCmd g .k { x with bytes := x.bytes ++ bs.take (8 * k), endAt := some (cPOISON, ad + BitVec.ofNat 64 (8 * k)) } s
      | none => keepCmd g .k { x with bytes := x.bytes ++ bs } s

/-- LINE_RESPONSE: command n's oldest performed line is acknowledged (R224). -/
def execLineResponse (g n : Nat) (s : State) : Host.Outcome State Fault Refusal :=
  .next (match (s.core g).cmd? .k n with
    | none => s
    | some x => match x.fly.find? (fun f => decide (f.phase = .done)) with
      | none => s
      | some f => lineAcked g n f.n 0 0 0 s)

/-- The places of the notify queue that are taken (06 R133): a record being handled keeps its own (20 R373). -/
def notifyTaken (c : Core) : Nat := c.notifyQ.length + (if c.uiact && !c.uiBound then 1 else 0)

/-- K_COMMAND_COMPLETION (R222, R225, R238): a command whose lines are all answered completes or stops; a KMARK
completes when every earlier command has. With nfy set its record needs a place in the notify queue. -/
def kComplete (g n : Nat) (s : State) : State :=
  let c := s.core g
  match c.cmd? .k n with
  | none => s
  | some x =>
    if isMark x.i then
      if c.kcmds.any (fun y => decide (y.no < x.no)) then s else leaveCmd g .k x s
    else if x.started.isNone || !x.fly.isEmpty || x.ahead || !(x.allSent || x.stop.isSome) then s
    else if x.nfy && decide (16 ≤ notifyTaken c) then s
    else
      let status := match x.stop with | some f => f.code | none => 0
      let rec16 : BitVec 16 := BitVec.ofNat 8 status ++ BitVec.ofNat 8 x.seq
      let s := if x.nfy then s.setCore g { c with notifyQ := c.notifyQ ++ [rec16] } else s
      match x.stop with
      | none => leaveCmd g .k x (bindArrive g x true s)
      | some f =>
        let s := match x.bind with | some (b, _) => arriveFaulted g b s | none => s
        let lines := x.sent - x.failed.length
        stopCmd g .k x { f with ebx := BitVec.ofNat 32 x.prefixDone ++ BitVec.ofNat 32 lines } s

def execKCommandCompletion (g n : Nat) (s : State) : Host.Outcome State Fault Refusal := .next (kComplete g n s)

/-- The oldest reduce packet whose target does not zero its state is performed at its home and acknowledged (18 R354); a target whose tag
has changed refuses it (07 R137), and a fenced die cannot be reached (20 R379). -/
def reduceArrives (s : State) : State :=
  let waits (f : RedFlight) : Bool := match f.core with | some t => zeroingNow s t | none => false
  match s.redFlight.find? (fun f => !waits f) with
  | none => s
  | some f =>
    let seq := (((s.core f.g).cmd? .k f.cmd).map Cmd.seq).getD 0
    let pc := (((s.core f.g).cmd? .k f.cmd).map Cmd.pc).getD 0
    let s := { s with redFlight := s.redFlight.erase f }
    nameCorrected seq pc s <|
    let refused := match f.core with | some t => tagCheck s f.g t | none => none
    let lost := match f.core with
      | some t => fencedDie s (coreDie t) && decide (coreDie t ≠ coreDie f.g)
      | none => f.runs.any (fun r => cutOff s (coreDie f.g) r.1)
    let r : Except Nat State := match f.core with
      | some t => reduceSp f.rop t (f.runs.headD (0, 0)).1 f.data s
      | none => reduceSegs f.rop f.runs f.data (s.core f.g).unitTag s
    if lost then lineAcked f.g f.cmd f.line cUNREACH (qLogged f.va) f.va s
    else match refused with
    | some e => lineAcked f.g f.cmd f.line e (qLogged f.va) f.va s
    | none => match r with
    | .ok s => lineAcked f.g f.cmd f.line 0 0 0 s
    | .error k =>
      let ad := if f.core.isSome then BitVec.ofNat 64 k else BitVec.ofNat 64 ((qByte f.va + k) / 8 * 8)
      lineAcked f.g f.cmd f.line cPOISON ad f.va s

/-- REDUCE_PACKET. -/
def execReducePacket (s : State) : Host.Outcome State Fault Refusal := .next (reduceArrives s)

/- Single-word instructions. -/

/-- KBIND (R237). -/
def execKbind (b : BitVec 6) (e : BitVec 5) (tk : BitVec 3) (s : State) : Host.Outcome State Fault Refusal :=
  let w := s.me.barrier b.toNat
  let flt := if bMode w = 0 || s.me.kbind.isSome then some (s.me.faultHere .k cILLEGAL)
    else if bFlt w then some (s.me.faultHere .k cBARRIER) else none
  issue { eng := .k, tk := tk, bound := some e, holds := [{ kind := 0x2, obj := 0, await := 1 }] } flt s (fun s =>
    complete .k tk (s.onMe (fun c =>
      let n := ((c.popVals 0 1).headD 0).toNat
      { c.popN 0 1 with kbind := some (b.toNat, (n + 63) / 64) })))

/-- KMARK (R226): it stands among the commands until every earlier one has completed; it waits for them, so that a path
leads from them to it and to every later instruction (06 R132). -/
def execKmark (tk : BitVec 3) (s : State) : Host.Outcome State Fault Refusal :=
  issue { eng := .k, tk := tk } none s (fun s =>
    let h : CmdHdr := { (default : CmdHdr) with tk := tk }
    let x := newCmd s.me s.now .k h (.kmark tk) []
    s.onMe (fun c =>
      let path := c.reachAll .k c.cmdNo
      { c with cmdNo := c.cmdNo + 1, kcmds := c.kcmds ++ [{ x with checked := true, path := unionPath x.path path }] }.addPath .k path
        |>.advancePc .k s.now 1))

def execKwtp (b : BitVec 6) (e : BitVec 5) (tk : BitVec 3) (s : State) : Host.Outcome State Fault Refusal :=
  mkWaitPhase .k b.toNat e tk s
def execKbrq (off : BitVec 17) (e : BitVec 5) (tk : BitVec 3) (s : State) : Host.Outcome State Fault Refusal :=
  mkBranch { eng := .k, tk := tk, bound := some e, holds := [{ kind := 0x2, obj := 6, await := 1 }] } (some 6)
    (branchTarget (s.me.pcOf .k) off) s
def execKbr (off : BitVec 18) (tk : BitVec 3) (s : State) : Host.Outcome State Fault Refusal :=
  mkBranch { eng := .k, tk := tk } none (branchTarget (s.me.pcOf .k) off) s
def execKnop (tk : BitVec 3) (s : State) : Host.Outcome State Fault Refusal :=
  issue { eng := .k, tk := tk } none s (complete .k tk)
/-- KEND (R240): refused while a binding is pending (R237). -/
def execKend (tk : BitVec 3) (s : State) : Host.Outcome State Fault Refusal :=
  mkEnd .k tk (if s.me.kbind.isSome then some (s.me.faultHere .k cILLEGAL) else none) s

end Sys2Proof.Machine
end

