-- ==== Sys2Proof/Machine/Residue.lean ====
section
/-!
DEFINITION. The N3 residue tuples of the M engine (01 R31 to R33) and the split of I16 operands (R13).
-/
namespace Sys2Proof.Machine

/-- An N3 tuple: m255 in [7:0], m256 in [15:8], m257 in [24:16], m253 in [32:25] (R31). -/
abbrev Tuple := BitVec 33

/-- The least non-negative residue. -/
def residue (x : Int) (m : Nat) : Nat := (x % (m : Int)).toNat

/-- Packs the four residues. -/
def tupleOf (a b c d : Nat) : Tuple :=
  BitVec.ofNat 33 (a % 256 + (b % 256) * 2 ^ 8 + (c % 512) * 2 ^ 16 + (d % 256) * 2 ^ 25)

/-- The tuple of an integer. -/
def tupleOfInt (x : Int) : Tuple := tupleOf (residue x 255) (residue x 256) (residue x 257) (residue x 253)

def tM255 (t : Tuple) : Nat := (t.extractLsb' 0 8).toNat
def tM256 (t : Tuple) : Nat := (t.extractLsb' 8 8).toNat
def tM257 (t : Tuple) : Nat := (t.extractLsb' 16 9).toNat
def tM253 (t : Tuple) : Nat := (t.extractLsb' 25 8).toNat

/-- The tuple of a product or sum, channel by channel. -/
def tupleMulAdd (acc a b : Tuple) : Tuple :=
  tupleOf ((tM255 acc + tM255 a * tM255 b) % 255) ((tM256 acc + tM256 a * tM256 b) % 256)
    ((tM257 acc + tM257 a * tM257 b) % 257) ((tM253 acc + tM253 a * tM253 b) % 253)

/-- The signed reconstruction (R32). -/
def crt (t : Tuple) : Int :=
  let u := (tM255 t * 65792 * 128 + tM256 t * 65535 * 255 + tM257 t * 65280 * 129) % 16776960
  if 8388480 ≤ u then (u : Int) - 16776960 else (u : Int)

/-- The check of R33: the reconstructed value agrees with the check residue. -/
def tupleChecks (t : Tuple) : Bool := decide (residue (crt t) 253 = tM253 t)

/-- The signed high byte of an I16 operand (R13). -/
def splitHigh (x : Int) : Int := x / 256
/-- Its unsigned low byte (R13). -/
def splitLow (x : Int) : Int := x - 256 * (x / 256)

end Sys2Proof.Machine
end

