-- ==== Sys2Proof/Machine/Tiles.lean ====
section
/-!
DEFINITION. The M engine's operands and arithmetic: profiles (12 R279), tiles (R277, R278), alignment (R280), passes
through residue sums (R281), and what an A row adds to an accumulator row (R282).
-/
namespace Sys2Proof.Machine

/- Sequencing of reads. -/

def Got.bind {α β : Type} (x : Got α) (f : α → State → Got β) : Got β :=
  match x with
  | .ok a s => f a s
  | .bad c ad q s => .bad c ad q s
  | .wait s => .wait s
  | .far d v s => .far d v s

/-- Reads one after the other. -/
def gotAll {α β : Type} (f : α → State → Got β) : List α → State → Got (List β)
  | [], s => .ok [] s
  | x :: xs, s => (f x s).bind (fun y s => (gotAll f xs s).bind (fun ys s => .ok (y :: ys) s))

/- Profiles (R279). -/

/-- A profile: the formats of A and B, the first one for a bank of no format; the widths of its A plane groups and of its
B segments; the K length of a residue sum; the accumulator's kind, or its kinds. -/
structure Profile where
  fmts : List Fmt
  planes : List Nat
  segs : List Nat
  kc : Nat
  kinds : List Nat
  deriving DecidableEq, Repr, Inhabited

def profileOf (p : Nat) : Profile :=
  match p with
  | 1 => { fmts := [.i8], planes := [8], segs := [8], kc := 512, kinds := [1, 2] }
  | 2 => { fmts := [.i4], planes := [4], segs := [4], kc := 512, kinds := [1] }
  | 3 => { fmts := [.i16], planes := [8, 8], segs := [8, 8], kc := 128, kinds := [2] }
  | 4 => { fmts := [.bf16], planes := [6, 6], segs := [9], kc := 32, kinds := [0] }
  | 5 => { fmts := [.fp16], planes := [6, 6, 2], segs := [8, 4], kc := 32, kinds := [0] }
  | 6 => { fmts := [.e4m3, .e5m2], planes := [6, 4], segs := [9], kc := 32, kinds := [0] }
  | 7 => { fmts := [.e2m1], planes := [5], segs := [5], kc := 32, kinds := [0] }
  | _ => { fmts := [.fp32], planes := [6, 6, 6, 6, 1], segs := [8, 8, 9], kc := 32, kinds := [0] }

def Profile.wA (p : Profile) : Nat := p.planes.foldl (· + ·) 0
def Profile.wB (p : Profile) : Nat := p.segs.foldl (· + ·) 0
def Profile.fmt (p : Profile) : Fmt := p.fmts.headD .i8
def Profile.isFloat (p : Profile) : Bool := p.fmt.isFloat

/- Tile operands (R277, R278). -/

/-- The fields of a place field. -/
def pLine (p : BitVec 25) : Nat := (p.extractLsb' 0 17).toNat
/-- The tile's origin along rows or columns: the tile's size times index plus index copy. -/
def pRow (c : Core) (p : BitVec 25) (tr : Nat) : Nat :=
  tr * ((p.extractLsb' 12 10).toNat + (Tbl.get 0 c.mx (p.extractLsb' 22 3).toNat).toNat)
def pCol (c : Core) (p : BitVec 25) (tc : Nat) : Nat :=
  tc * ((p.extractLsb' 0 9).toNat + (Tbl.get 0 c.mx (p.extractLsb' 9 3).toNat).toNat)

/-- The address of unit `u` of a striped tile. -/
def stripe (base u ub : Nat) : Nat := (base + u % 16 * 2 ^ 19) % 2 ^ 23 + u / 16 * ub

/-- Whether some unit of an untyped tile passes the end of the bank that its stripe starts in (R277). -/
def tilePast (base units ub : Nat) : Bool :=
  (List.range units).any (fun u => decide (2 ^ 19 < base % 2 ^ 19 + u / 16 * ub + ub))

/-- The bytes of a B tile's K row of 256 elements, of an accumulator row, and of a piece of an A row; the pieces. -/
def bUnit (f : Fmt) : Nat := 32 * f.width
def accUnit (kind : Nat) : Nat := if kind = 2 then 2048 else 1024
def aUnit (f : Fmt) : Nat := min 512 (64 * f.width)
def aPieces (f : Fmt) : Nat := max 1 (f.width / 8)

/-- Whether the bank of an address breaks the rules for an untyped operand of these formats; `a`: it is an A row,
`zs`: under a profile that takes scales. -/
def bankBreaks (c : Core) (fmts : List Fmt) (a zs : Bool) (addr : Nat) : Bool :=
  let b := bfOf c addr
  let known := bfFmt b = 0xFF || (match fmtOfCode (bfFmt b) with | some f => fmts.contains f | none => false)
  !known || (bfApack b && !a) || (bfScaled b && !(a && zs))

/-- The format in which a unit at an address is read. -/
def unitFmt (c : Core) (p : Profile) (addr : Nat) : Fmt :=
  match fmtOfCode (bfFmt (bfOf c addr)) with
  | some f => if p.fmts.contains f then f else p.fmt
  | none => p.fmt

/-- The M engine's reading of a code: I8 is symmetric (01 R12). -/
def mCode (f : Fmt) (c : Nat) : Nat × Flags := if f = .i8 && c = 0x80 then (0x81, flCLAMP) else (c, flNone)

/-- An operand element: its format, its code, its scale code, and flags of its reading. -/
structure Elem where
  fmt : Fmt
  code : Nat
  scale : Nat
  fl : Flags
  deriving DecidableEq, Repr, Inhabited

/-- The scale code of an unscaled operand. -/
def scaleOne : Nat := 508
def Elem.zero (f : Fmt) : Elem := { fmt := f, code := 0, scale := scaleOne, fl := flNone }
/-- An element's code and value after the sign and the symmetric reading. -/
def Elem.of (f : Fmt) (neg : Bool) (code scale : Nat) : Elem :=
  let (c, fl) := mCode f code
  let (c', fl') := applySign f neg c
  { fmt := f, code := c', scale := scale, fl := fl ||| fl' }

def lAddr (a : Nat) : Word := 1#3 ++ BitVec.ofNat 61 a

/-- Reads a unit of a striped operand at its address: its elements, in the bank's format. An A row's fetch expands an
A-pack bank; `raw`: every other read of the engine takes the bytes as they stand (07 R153). -/
def mUnit (g : Nat) (p : Profile) (addr n : Nat) (s : State) (raw : Bool := true) : Got (List Elem) :=
  let f := unitFmt (s.core g) p addr
  (kReadClean g (lAddr addr) n s 1 raw).bind (fun bs s =>
    .ok ((unpackCodes f.width (n * 8 / f.width) false bs).map (fun c => Elem.of f false c scaleOne)) s)

/-- Reads a stored element of a type that must not be poisoned. -/
def mStored (g : Nat) (t : TType) (off : Int) (s : State) (raw : Bool := true) : Got Nat :=
  let (a, nib) := elemAddr t off
  (kReadClean g (tyQa t a) ((t.fmt.width + 7) / 8) s 1 raw).bind (fun bs s =>
    let v := leNat bs
    .ok (if t.fmt.width = 4 then (if nib = 0 then v % 16 else v / 16) else v) s)

/-- The scale code of an element offset of a type (02 R42). -/
def mScale (g : Nat) (t : TType) (off : Int) (s : State) (raw : Bool := true) : Got Nat :=
  if t.scaled then (kReadClean g (tyQa t (scaleAddr t off)) 2 s 1 raw).bind (fun bs s => .ok (leNat bs % 1024) s) else .ok scaleOne s

/-- Reads element (i, j) through a type (02 R44); beyond the extents it is clipped (R278). `signed`: the sign of its
orbit is applied. -/
def mElem (g : Nat) (t : TType) (signed : Bool) (x : List Nat) (s : State) (raw : Bool := true) : Got Elem :=
  if !inExtents t x then .ok (Elem.zero t.fmt) s
  else
    let l := locate t x
    if l.zero then .ok (Elem.zero t.fmt) s
    else (mStored g t l.off s raw).bind (fun c s => (mScale g t l.off s raw).bind (fun z s =>
      .ok (Elem.of t.fmt (signed && l.neg) c z) s))

/-- The flags of elements. -/
def elemFlags (es : List Elem) : Flags := es.foldl (fun f e => f ||| e.fl) flNone

/-- Lines of a type's representatives and scales, of the index tuples named. -/
def mTyFoot (g : Nat) (t : TType) (idxs : List (List Nat)) (write : Bool) : List Foot :=
  let xs := idxs.filter (inExtents t)
  tyFoot g t xs write ++ (if t.scaled && t.space = 1 then
    xs.flatMap (fun x => let l := locate t x
      if l.zero || scaleAddr t l.off < 0 then [] else footOf g (scaleAddr t l.off).toNat 2 false) else [])

/-- The index tuples of a tile. -/
def tileIdx (o0 o1 tr tc : Nat) : List (List Nat) :=
  (List.range tr).flatMap (fun i => (List.range tc).map (fun j => [o0 + i, o1 + j]))

/- Alignment (R280). -/

/-- A block of 32 elements aligned to `w` bits: the integers, the exponent and the non-finite mark. `np7`: a block of
E2M1 under NP7, which is exact. -/
def alignBlock (np7 : Bool) (w : Nat) (es : List Elem) (scale : Nat) : List Int × Int × Bool :=
  let vals := es.map (fun e => decodeVal e.fmt e.code)
  let zeros := es.map (fun _ => (0 : Int))
  if zs10Nan scale || vals.any (fun v => match v with | .fin _ _ _ => false | _ => true) then (zeros, 0, true)
  else if np7 then
    (vals.map (fun v => match v with | .fin n m e => signedNat n (shl m (e + 1)) | _ => 0), -1, false)
  else
    let tops := vals.filterMap (fun v => match v with
      | .fin _ m e => if m = 0 then none else some (e + (natBits m : Int) - 1)
      | _ => none)
    match tops with
    | [] => (zeros, 0, false)
    | t :: ts =>
      let e := ts.foldl max t - ((w : Int) - 2)
      let lim : Nat := 2 ^ (w - 1) - 1
      (vals.map (fun v => match v with
        | .fin n m x => signedNat n (min lim (roundUnits .nearest n m x e).1)
        | _ => 0), e, false)

/-- An integer element's value. -/
def intElem (e : Elem) : Int := intOfCode e.fmt.width e.code

/-- The parts of a value: unsigned from bit 0 on, the last one signed with what remains. -/
def partsOf : List Nat → Int → List Int
  | [], _ => []
  | [_], x => [x]
  | w :: ws, x => (x % (2 ^ w : Nat)) :: partsOf ws (x / (2 ^ w : Nat))

/-- The first bit of each part. -/
def partBits : Nat → List Nat → List Nat
  | _, [] => []
  | k, w :: ws => k :: partBits (k + w) ws

/- Groups. -/

/-- A row of tuples. -/
def tuplesRow (ts : List Tuple) : BitVec 8448 := ts.foldr (fun t acc => (acc <<< 33) ||| t.zeroExtend 8448) 0
def rowTuple (r : BitVec 8448) (n : Nat) : Tuple := r.extractLsb' (33 * n) 33

/-- The residue sum of one pass over K rows [k0, k0 + vals.length) in column n. -/
def residueSum (grp : MGroup) (n : Nat) : Nat → List Int → Tuple → Tuple
  | _, [], acc => acc
  | k, a :: as, acc => residueSum grp n (k + 1) as (tupleMulAdd acc (tupleOfInt a) (rowTuple (Tbl.get 0 grp.rows k) n))

/-- The plane groups of a row: a pass's values of A. -/
def planeGroup (p : Profile) (j : Nat) (qs : List Int) : List Int := qs.map (fun x => (partsOf p.planes x).getD j 0)

/-- What one pass (j, s) yields (R281): the tuple of each chunk of Kc rows and of each of the 256 columns. -/
def passTuples (p : Profile) (grps : List MGroup) (pass : Nat) (qs : List Int) : List Tuple :=
  let grp := grps.getD (pass % grps.length) MGroup.reset
  let as := planeGroup p (pass / grps.length) qs
  (List.range (512 / p.kc)).flatMap (fun c => (List.range 256).map (fun n =>
    residueSum grp n (p.kc * c) ((as.drop (p.kc * c)).take p.kc) 0))

/-- The weight of a pass's sums in T: 2^(pj + 8 s). -/
def passWeight (p : Profile) (nseg pass : Nat) : Nat := 2 ^ ((partBits 0 p.planes).getD (pass / nseg) 0 + 8 * (pass % nseg))

/-- The tuples of a pass converted, checked and added into T (01 R32, R33; R281): none where a check fails. -/
def convertPass (p : Profile) (nseg pass : Nat) (sums : List Int) (ts : List Tuple) : Option (List Int) :=
  if ts.all tupleChecks then some (List.zipWith (fun a t => a + crt t * (passWeight p nseg pass : Int)) sums ts) else none

/- Accumulators (R273). -/

def packNat (w : Nat) (xs : List Nat) : Nat := xs.foldr (fun x acc => x % 2 ^ w + 2 ^ w * acc) 0
def unpackNat (w n v : Nat) : List Nat := (List.range n).map (fun i => v / 2 ^ (w * i) % 2 ^ w)

/-- The 256 codes of an accumulator row. -/
def accGet (c : Core) (acc kind r : Nat) : List Nat :=
  let row (a : Nat) : List Nat := unpackNat 32 256 (Tbl.get 0 c.acc (64 * a + r)).toNat
  if kind = 2 then List.zipWith (fun l h => l + 2 ^ 32 * h) (row acc) (row (acc + 1)) else row acc

def accSet (c : Core) (acc kind r : Nat) (xs : List Nat) : Core :=
  let put (t : Tbl AccRow) (a : Nat) (ys : List Nat) : Tbl AccRow := Tbl.set 0 t (64 * a + r) (BitVec.ofNat 8192 (packNat 32 ys))
  if kind = 2 then { c with acc := put (put c.acc acc xs) (acc + 1) (xs.map (fun x => x / 2 ^ 32)) } else { c with acc := put c.acc acc xs }

/-- A kind's format. -/
def kindFmt (kind : Nat) : Fmt := match kind with | 0 => .fp32 | 1 => .i32 | _ => .i64

/-- The value of a scale code times the value of another, as a dyadic number. -/
def scalePair (a b : Nat) : Nat × Int :=
  let x := zs10Val a
  let y := zs10Val b
  (x.1 * y.1, x.2 + y.2)

/-- Only the flags that the M engine sets on a rounding (R276). -/
def onlyOFL (f : Flags) : Flags := f &&& flOFL

/-- Adds an exact value to an FP32 accumulator element: a NaN is written in its canonical form, an infinity stays, zero
changes nothing (R282, 01 R15). -/
def accAdd (a : Nat) (m : Int) (e : Int) : Nat × Flags :=
  if m = 0 then (a, flNone)
  else match decodeVal .fp32 a with
    | .nan => (Fmt.fp32.nanCode, flNone)
    | .inf _ => (a, flNone)
    | v =>
      let r := encodeVal .fp32 .nearest false (addVal .nearest v (.fin (decide (m < 0)) m.natAbs e))
      (r.1, onlyOFL r.2)

/-- An aligned A row: its integers, and for a float profile each block's exponent, mark and scale code. -/
structure ARow where
  qs : List Int
  blocks : List (Int × Bool × Nat)
  deriving Repr, Inhabited

/-- Aligns or takes an A row's 512 elements. -/
def alignRow (p : Nat) (es : List Elem) : ARow :=
  let pf := profileOf p
  if pf.isFloat then
    let bs := (List.range 16).map (fun k =>
      let b := (es.drop (32 * k)).take 32
      let z := (b.headD default).scale
      (alignBlock (decide (p = 7)) pf.wA b z, z))
    { qs := bs.flatMap (fun b => b.1.1), blocks := bs.map (fun b => (b.1.2.1, b.1.2.2, b.2)) }
  else { qs := es.map intElem, blocks := [] }

/-- Adds block k's sum into an accumulator element of column n under a float profile; `m`: the B side's record. -/
def addBlock (blocks : List (Int × Bool × Nat)) (m : MGroup) (sums : List Int) (n : Nat) (acc : Nat × Flags) (k : Nat) : Nat × Flags :=
  let (ea, nfa, sa) := blocks.getD k default
  let b := Tbl.get BlockMeta.reset m.blocks (256 * k + n)
  if nfa || b.nf then (Fmt.fp32.nanCode, acc.2)
  else
    let z := scalePair sa b.scale
    let r := accAdd acc.1 (sums.getD (256 * k + n) 0 * (z.1 : Int)) (ea + b.ex + z.2)
    (r.1, acc.2 ||| r.2)

/-- Applies the sums T of an A row to one accumulator element (R282). -/
def addElem (p : Profile) (m : MGroup) (kind : Nat) (blocks : List (Int × Bool × Nat)) (sums : List Int) (a n : Nat) : Nat × Flags :=
  if p.isFloat then (List.range 16).foldl (addBlock blocks m sums n) (a, flNone)
  else
    let t := ((List.range (512 / p.kc)).map (fun c => sums.getD (256 * c + n) 0)).foldl (· + ·) 0
    saturate (kindFmt kind) (intOfCode (kindFmt kind).width a + t)

/-- Applies the sums of an A row to an accumulator row. -/
def addRow (p : Profile) (m : MGroup) (kind : Nat) (blocks : List (Int × Bool × Nat)) (sums : List Int) (as : List Nat) :
    List Nat × Flags :=
  let ys := as.zipIdx.map (fun x => addElem p m kind blocks sums x.1 x.2)
  (ys.map Prod.fst, ys.foldl (fun f y => f ||| y.2) flNone)

/- Nests (R274, R289). -/

def lnExt (w : Word) : Nat := (w.extractLsb' 0 16).toNat
def lnRow (w : Word) : Int := (w.extractLsb' 16 8).toInt
def lnStride (w : Word) : Int := (w.extractLsb' 32 32).toInt

/-- The number of tuples of a nest. -/
def nestCount (nest : List Word) : Nat := (nest.map lnExt).foldl (· * ·) 1

/-- The accumulator row and the A offset of a nest's tuple k, in lexicographic order. -/
def nestAt (nest : List Word) (k : Nat) : Int × Int :=
  let ix := unrank (nest.map lnExt) k
  ((List.zipWith (fun w (i : Nat) => (i : Int) * lnRow w) nest ix).foldl (· + ·) 0,
   (List.zipWith (fun w (i : Nat) => (i : Int) * lnStride w) nest ix).foldl (· + ·) 0)

/-- Whether some tuple gives an accumulator row outside 0 to 63. -/
def nestRowsOut (nest : List Word) : Bool :=
  let ends := nest.map (fun w => ((lnExt w : Int) - 1) * lnRow w)
  decide (nestCount nest ≠ 0)
    && (decide ((ends.map (min 0)).foldl (· + ·) 0 < 0) || decide (63 < (ends.map (max 0)).foldl (· + ·) 0))

/-- The A rows of a nest: their offsets. -/
def nestOffs (nest : List Word) : List Int := (List.range (nestCount nest)).map (fun k => (nestAt nest k).2)

/-- The addresses of the pieces of an untyped A row. -/
def aRowAddrs (f : Fmt) (base : Nat) (off : Int) : List Nat :=
  let a := (((base : Int) + off) % (2 ^ 23 : Nat)).toNat
  (List.range (aPieces f)).map (fun u => stripe a u (aUnit f))

/- Element conversions of the accumulator tiles (R293, R296). -/

/-- MLDA: an element taken to a kind. -/
def loadElem (kind : Nat) (t : TType) (e : Elem) : Nat × Flags :=
  if kind = 0 then
    let r := if t.scaled then decodeScaled e.fmt .fp32 e.scale e.code else convertK e.fmt .fp32 e.code
    (r.1, onlyOFL r.2)
  else
    let r := saturate (kindFmt kind) (match decodeVal e.fmt e.code with | .fin n m _ => signedNat n m | _ => 0)
    (r.1, e.fl ||| r.2)

/-- MSTA: an accumulator code taken to the type's format. -/
def storeElem (kind : Nat) (f : Fmt) (c : Nat) : Nat × Flags :=
  if kind = 0 then let r := convertK .fp32 f c; (r.1, onlyOFL r.2)
  else saturate f (intOfCode (kindFmt kind).width c)

/-- The clamp of a drain. -/
def clampCode (f : Fmt) (clamp : BitVec 2) (c : Nat) : Nat :=
  let c1 := if clamp.getLsbD 0 then (match decodeVal f c with
    | .fin true _ _ => 0
    | .inf true => 0
    | _ => c) else c
  if clamp.getLsbD 1 then (match decodeVal f c1 with
    | .inf n => withSign f n f.maxFinite
    | _ => c1) else c1

/-- MDRAIN: a destination element plus an accumulator element (R296). The destination is an operand of the M engine, so
an I8 code 0x80 follows R12 (DEDUCED, log 59). -/
def drainElem (kind : Nat) (clamp : BitVec 2) (f : Fmt) (d a : Nat) : Nat × Flags :=
  let (d, fl) := mCode f d
  if kind = 0 then
    let r := encodeVal f .nearest false (addVal .nearest (decodeVal f d) (decodeVal .fp32 a))
    (clampCode f clamp r.1, fl ||| onlyOFL r.2)
  else
    let x : Int := match decodeVal f d with | .fin n m _ => signedNat n m | _ => 0
    let r := saturate f (x + intOfCode (kindFmt kind).width a)
    (clampCode f clamp r.1, fl ||| r.2)

end Sys2Proof.Machine
end

