-- ==== Sys2Proof/Machine/Matrix.lean ====
section
/-!
DEFINITION. The M stream (12) but for the solver's algorithms: the issue of its commands, what they do at their start,
their rows and steps, and its single-word instructions.
-/
namespace Sys2Proof.Machine

/- Issue (R276). -/

/-- An M command issues. `foot`: its footprint, none for an MGO. -/
def mIssue (h : CmdHdr) (i : Instr) (flt : Option FaultInfo) (foot : State → Cmd → Option (List Foot)) (s : State) :
    Host.Outcome State Fault Refusal :=
  issue (cmdNeed .m h.tk) (flt.map (fun f => { f with seq := h.seq.toNat })) s (fun s =>
    let x := newCmd s.me s.now .m h i []
    let f := if s.me.detOn then foot s x else none
    enterCmd .m x f f.isNone s)

def noFoot (_ : State) (_ : Cmd) : Option (List Foot) := some []

def mIllegal (s : State) (b : Bool) : Option FaultInfo := if b then some (s.me.faultHere .m cILLEGAL) else none
def mProtect (s : State) (q : Word) : Option FaultInfo := some (accFault cPROTECT 2 (s.me.pcOf .m) q)

/-- The faults at issue of an untyped tile. -/
def lineFault (s : State) (p : BitVec 25) (units ub : Nat) : Option FaultInfo :=
  if tilePast (64 * pLine p) units ub then mProtect s (lAddr (64 * pLine p)) else none

/-- The faults at issue of a typed tile: a bound type of rank 2 and an allowed format, and the tile's origin (R278). -/
def typeFault (s : State) (t : TType) (ok : Bool) (p : BitVec 25) (tr tc : Nat) : Option FaultInfo :=
  if !t.valid || decide (t.rank ≠ 2) || !ok then some (s.me.faultHere .m cILLEGAL)
  else if idx t.ext 0 ≤ pRow s.me p tr || decide (idx t.ext 1 ≤ pCol s.me p tc) then mProtect s (tyQa t t.base)
  else none

/-- MLNT (R283): the shadow level is written when it starts. -/
def execMlnt (h : CmdHdr) (lv : BitVec 3) (rstr : BitVec 8) (ext : BitVec 16) (astr : BitVec 32) (s : State) :
    Host.Outcome State Fault Refusal := mIssue h (.mlnt h lv rstr ext astr) none noFoot s

/-- MTYP (R284, 02 R41): a type register receives a descriptor of the object in bound form. -/
def execMtyp (ty : BitVec 6) (i : BitVec 8) (tk : BitVec 3) (s : State) : Host.Outcome State Fault Refusal :=
  let d := match s.me.unit with
    | some u => (s.objs.find? (fun (o : LoadedObj) => decide (o.handle = u.handle))).bind (fun (o : LoadedObj) => o.tensors[i.toNat]?)
    | none => none
  issue { eng := .m, tk := tk } (mIllegal s d.isNone) s (fun s =>
    complete .m tk (s.onMe (fun c => 
      { c with ty := Tbl.set 0 c.ty ty.toNat (d.getD 0),
               cyc := { c.cyc with ty := (ty.toNat, Tbl.get 0 c.ty ty.toNat) :: c.cyc.ty } })))

/-- MPROF (R285). -/
def execMprof (prof : BitVec 4) (tk : BitVec 3) (s : State) : Host.Outcome State Fault Refusal :=
  issue { eng := .m, tk := tk } none s (fun s => complete .m tk (s.onMe (fun c => { c with mprof := prof.toNat })))

/-- MLDB (R286). -/
def execMldb (h : CmdHdr) (grp : BitVec 2) (p : BitVec 25) (s : State) : Host.Outcome State Fault Refusal :=
  let pn := s.me.profOf h.prof
  let pf := profileOf pn
  let t := ttypeOf (s.me.tyOf h.ta)
  let flt := if pn = 0 || decide (3 < grp.toNat + nsegOf pn - 1) then some (s.me.faultHere .m cILLEGAL)
    else if h.ta = 63 then lineFault s p 512 (bUnit pf.fmt)
    else typeFault s t (pf.fmts.contains t.fmt && (!t.scaled || decide (t.kidx = 0))) p 512 256
  mIssue h (.mldb h grp p) flt (fun s x =>
    let t := ttypeOf x.ta
    some (if h.ta = 63 then (List.range 512).flatMap (fun u => footOf s.cur (stripe (64 * pLine p) u (bUnit pf.fmt)) (bUnit pf.fmt) false)
      else mTyFoot s.cur t (tileIdx (pRow s.me p 512) (pCol s.me p 256) 512 256) false)) s

/-- MSEL (R287). -/
def execMsel (h : CmdHdr) (grp : BitVec 2) (inv : BitVec 1) (s : State) : Host.Outcome State Fault Refusal :=
  mIssue h (.msel h grp inv) none noFoot s

/-- MGO (R288). -/
def execMgo (h : CmdHdr) (acc : BitVec 3) (kind : BitVec 2) (p : BitVec 25) (s : State) : Host.Outcome State Fault Refusal :=
  let pn := s.me.profOf h.prof
  let pf := profileOf pn
  let t := ttypeOf (s.me.tyOf h.ta)
  let bad := pn = 0 || !pf.kinds.contains kind.toNat
    || (h.ta ≠ 63 && (!t.valid || decide (t.rank ≠ 2) || !pf.fmts.contains t.fmt || (t.scaled && decide (t.kidx ≠ 1))))
    || (h.tb ≠ 63 && !(ttypeOf (s.me.tyOf h.tb)).valid)
  mIssue h (.mgo h acc kind p) (mIllegal s bad) (fun _ _ => none) s

/-- The lines of a representative of each joint orbit's operand (R292). -/
def orbitLines (g : Nat) (t : TType) (offs : List Int) : List Foot :=
  if t.space ≠ 1 then []
  else offs.flatMap (fun o =>
    (if (elemAddr t o).1 < 0 then [] else footOf g (elemAddr t o).1.toNat ((t.fmt.width + 7) / 8) false)
    ++ (if t.scaled && 0 ≤ scaleAddr t o then footOf g (scaleAddr t o).toNat 2 false else []))

/-- MORB (R292, 02 R46). -/
def execMorb (h : CmdHdr) (wr : BitVec 1) (line : BitVec 17) (s : State) : Host.Outcome State Fault Refusal :=
  let pn := s.me.profOf h.prof
  let x := ttypeOf (s.me.tyOf h.ta)
  let y := ttypeOf (s.me.tyOf h.tb)
  let bad := pn = 0 || h.ta = 63 || h.tb = 63 || !x.valid || !y.valid || decide (x.fmt ≠ y.fmt)
    || !(profileOf pn).fmts.contains x.fmt || decide (x.rank ≠ y.rank) || decide (x.ext.take x.rank ≠ y.ext.take y.rank)
  mIssue h (.morb h wr line) (mIllegal s bad) (fun s c =>
    let x := ttypeOf c.ta
    let y := ttypeOf c.tb
    let js := jointOrbits x y
    some (orbitLines s.cur x (js.map JointOrbit.px) ++ orbitLines s.cur y (js.map JointOrbit.py)
      ++ (if wr = 1 then footOf s.cur (64 * line.toNat) 8 true else []))) s

/-- The faults at issue of an accumulator tile (R293). -/
def accTileFault (s : State) (f : BitVec 6) (load : Bool) (kind : BitVec 2) (p : BitVec 25) : Option FaultInfo :=
  let t := ttypeOf (s.me.tyOf f)
  if f = 63 then lineFault s p 64 (accUnit kind.toNat)
  else typeFault s t (decide (t.fmt.isFloat = decide (kind = 0)) && (!t.scaled || (load && decide (t.kidx = 1)))) p 64 256

/-- The footprint of an accumulator tile. -/
def accTileFoot (f : BitVec 6) (r : BitVec 640) (kind : BitVec 2) (p : BitVec 25) (write : Bool) (s : State) : List Foot :=
  let ub := accUnit kind.toNat
  if f = 63 then (List.range 64).flatMap (fun u => footOf s.cur (stripe (64 * pLine p) u ub) ub write)
  else mTyFoot s.cur (ttypeOf r) (tileIdx (pRow s.me p 64) (pCol s.me p 256) 64 256) write

def execMzero (h : CmdHdr) (acc : BitVec 3) (kind : BitVec 2) (clamp : BitVec 2) (p : BitVec 25) (s : State) :
    Host.Outcome State Fault Refusal := mIssue h (.mzero h acc kind clamp p) none noFoot s

def execMlda (h : CmdHdr) (acc : BitVec 3) (kind : BitVec 2) (clamp : BitVec 2) (p : BitVec 25) (s : State) :
    Host.Outcome State Fault Refusal :=
  mIssue h (.mlda h acc kind clamp p) (accTileFault s h.ta true kind p) (fun s x => some (accTileFoot h.ta x.ta kind p false s)) s

def execMsta (h : CmdHdr) (acc : BitVec 3) (kind : BitVec 2) (clamp : BitVec 2) (p : BitVec 25) (s : State) :
    Host.Outcome State Fault Refusal :=
  mIssue h (.msta h acc kind clamp p) (accTileFault s h.tb false kind p) (fun s x => some (accTileFoot h.tb x.tb kind p true s)) s

def execMdrain (h : CmdHdr) (acc : BitVec 3) (kind : BitVec 2) (clamp : BitVec 2) (p : BitVec 25) (s : State) :
    Host.Outcome State Fault Refusal :=
  mIssue h (.mdrain h acc kind clamp p) (accTileFault s h.tb false kind p) (fun s x => some (accTileFoot h.tb x.tb kind p true s)) s

/-- The command that an MWAIT names: once its tokens and places are there, the one found then, whatever takes the number later
(08 R172). -/
def Core.mwaitNames (c : Core) (seq : Nat) : Nat :=
  match (c.stream .m).wait.bind (fun w => w.holds.find? (fun h => decide (h.kind = 0x7))) with
  | some h => h.await
  | none => c.namedBy seq

/-- MWAIT (R297): M is held until the named command has completed. -/
def execMwait (seq : BitVec 8) (e : BitVec 5) (tk : BitVec 3) (s : State) : Host.Outcome State Fault Refusal :=
  let n := s.me.mwaitNames seq.toNat
  let nd : Need := { eng := .m, tk := tk, bound := some e }
  issue { nd with events := if n = 0 || (firstHold s nd).isSome then [] else [{ kind := 0x7, obj := seq.toNat, await := n }] } none s
    (fun s => complete .m tk (s.onMe (fun c => c.waitedFor .m n)))

def execMwtp (b : BitVec 6) (e : BitVec 5) (tk : BitVec 3) (s : State) : Host.Outcome State Fault Refusal :=
  mkWaitPhase .m b.toNat e tk s

/-- MARRB (R299): it arrives when it runs. -/
def execMarrb (h : CmdHdr) (b obs : BitVec 6) (dam : BitVec 1) (s : State) : Host.Outcome State Fault Refusal :=
  let w := s.me.barrier b.toNat
  mIssue h (.marrb h b obs dam) (if bMode w = 0 then some (s.me.faultHere .m cILLEGAL)
    else if bFlt w then some (s.me.faultHere .m cBARRIER) else none) noFoot s

def execMbrq (off : BitVec 17) (e : BitVec 5) (tk : BitVec 3) (s : State) : Host.Outcome State Fault Refusal :=
  mkBranch { eng := .m, tk := tk, bound := some e, holds := [{ kind := 0x2, obj := 5, await := 1 }] } (some 5)
    (branchTarget (s.me.pcOf .m) off) s
def execMbr (off : BitVec 18) (tk : BitVec 3) (s : State) : Host.Outcome State Fault Refusal :=
  mkBranch { eng := .m, tk := tk } none (branchTarget (s.me.pcOf .m) off) s
def execMnop (tk : BitVec 3) (s : State) : Host.Outcome State Fault Refusal :=
  issue { eng := .m, tk := tk } none s (complete .m tk)
def execMend (tk : BitVec 3) (s : State) : Host.Outcome State Fault Refusal := mkEnd .m tk none s

/- Running. -/

/-- A running M command stops with a fault; `rows`: the rows it has performed. -/
def mStop (g : Nat) (x : Cmd) (code : Nat) (addr qa : Word) (rows : Nat) (s : State) : State :=
  stopCmd g .m x { cmdFault .m x code addr rows 0 with spc := qSpcBits qa, xtra := qXtra qa } s

/-- One more row or step has been performed, of `total`. -/
def mStep (g : Nat) (x : Cmd) (total : Nat) (s : State) : State :=
  keepCmd g .m { x with sent := x.sent + 1, allSent := decide (total ≤ x.sent + 1) } s

/-- Goes on with what a step has read, or stops; a step that waits for a walk has joined it (07 R143). -/
def mGot {α : Type} (g : Nat) (x : Cmd) (rows : Nat) (r : Got α) (k : α → State → State) : State :=
  match r with
  | .ok a s => k a s
  | .bad c ad q s => mStop g x c ad q rows s
  | .wait s | .far _ _ s => s

/- MLDB. -/

/-- An element as kept until its block is whole. -/
def encElem (pf : Profile) (e : Elem) : Nat := e.code + 2 ^ 32 * e.scale + 2 ^ 42 * (pf.fmts.findIdx (· = e.fmt))
def decElem (pf : Profile) (v : Nat) : Elem :=
  { fmt := pf.fmts.getD (v / 2 ^ 42) .i8, code := v % 2 ^ 32, scale := v / 2 ^ 32 % 2 ^ 10, fl := flNone }

/-- A column's block: its integers and its record. -/
def bBlock (p : Nat) (es : List Elem) : List Int × BlockMeta :=
  let pf := profileOf p
  let z := (es.headD default).scale
  if pf.isFloat then
    let (qs, e, nf) := alignBlock (decide (p = 7)) pf.wB es z
    (qs, { ex := e, scale := z, nf := nf })
  else (es.map intElem, { ex := 0, scale := z, nf := false })

/-- Block k of a B tile, 32 rows of 256 elements, goes into groups grp on, one segment each (R286). -/
def putBlock (p grp k : Nat) (es : List Elem) (c : Core) : Core :=
  let pf := profileOf p
  let cols := (List.range 256).map (fun n => bBlock p ((List.range 32).map (fun i => es.getD (256 * i + n) default)))
  { c with mgrp := (List.range pf.segs.length).foldl (fun t s =>
      let m := Tbl.get MGroup.reset t (grp + s)
      let rows := (List.range 32).foldl (fun r i =>
        Tbl.set 0 r (32 * k + i) (tuplesRow (cols.map (fun cb => tupleOfInt ((partsOf pf.segs (cb.1.getD i 0)).getD s 0))))) m.rows
      let blocks := cols.zipIdx.foldl (fun b cb => Tbl.set BlockMeta.reset b (256 * k + cb.2) cb.1.2) m.blocks
      Tbl.set MGroup.reset t (grp + s) { m with rows := rows, blocks := blocks }) c.mgrp }

/-- The groups' records of a loaded tile. -/
def setRecords (grp nseg prof : Nat) (valid : Bool) (src : TileSrc) (k0 : Nat) (c : Core) : Core :=
  { c with mgrp := (List.range nseg).foldl (fun t s =>
      Tbl.set MGroup.reset t (grp + s)
        { Tbl.get MGroup.reset t (grp + s) with valid := valid, prof := prof, seg := s, src := src, k0 := k0 }) c.mgrp }

/-- The tile's source and K origin. -/
def bSource (c : Core) (h : CmdHdr) (x : Cmd) (p : BitVec 25) : TileSrc × Nat :=
  if h.ta = 63 then (.line (pLine p), 0) else (.typed x.ta (pRow c p 512) (pCol c p 256), pRow c p 512)

/-- The next K row of MLDB. -/
def loadRow (g : Nat) (h : CmdHdr) (grp : Nat) (p : BitVec 25) (x : Cmd) (s : State) : State :=
  let pf := profileOf x.prof
  let r := x.sent
  let t := ttypeOf x.ta
  let c := s.core g
  let read := if h.ta = 63 then mUnit g pf (stripe (64 * pLine p) r (bUnit pf.fmt)) (bUnit pf.fmt) s
    else gotAll (fun j s => mElem g t true [pRow c p 512 + r, pCol c p 256 + j] s) (List.range 256) s
  mGot g x r read (fun es s =>
    let s := orFlags g (elemFlags es) s
    let nums := x.nums ++ es.map (encElem pf)
    if r % 32 ≠ 31 then mStep g { x with nums := nums } 512 s
    else
      let s := s.setCore g (putBlock x.prof grp (r / 32) (nums.map (decElem pf)) (s.core g))
      let (src, k0) := bSource c h x p
      let s := if r = 511 then s.setCore g (setRecords grp (nsegOf x.prof) x.prof true src k0 (s.core g)) else s
      mStep g { x with nums := [] } 512 s)

/- MGO. -/

/-- The 512 elements of an untyped A row. -/
def aLineRow (g : Nat) (pf : Profile) (base : Nat) (off : Int) (s : State) : Got (List Elem) :=
  let a := (((base : Int) + off) % (2 ^ 23 : Nat)).toNat
  let q := lAddr a
  let ub := aUnit pf.fmt
  let addrs := aRowAddrs pf.fmt base off
  if a % 64 ≠ 0 then .bad cALIGN (qLogged q) q s
  else if addrs.any (fun y => decide (2 ^ 19 < y % 2 ^ 19 + ub)) then .bad cPROTECT (qLogged q) q s
  else (gotAll (fun y s => mUnit g pf y ub s (raw := false)) addrs s).bind (fun us s =>
    let es := us.flatten
    let b := bfOf (s.core g) a
    if bfScaled b && !bfApack b then
      if pastScales b a ub || scalePast b (a % 2 ^ 19 * 8 / pf.fmt.width + 480) then .bad cPROTECT (qLogged q) q s
      else
        let e0 := a % 2 ^ 19 * 8 / pf.fmt.width
        (gotAll (fun k s => kReadClean g (lAddr (scaleSpot b (a / 2 ^ 19) (e0 + 32 * k))) 2 s) (List.range 16) s).bind (fun zs s =>
          .ok (es.zipIdx.map (fun e => { e.1 with scale := leNat (zs.getD (e.2 / 32) []) % 1024 })) s)
    else .ok es s)

/-- The 512 elements of a typed A row: a row outside the type is clipped whole (R289). -/
def aTypeRow (g : Nat) (t : TType) (row : Int) (k0 : Nat) (s : State) : Got (List Elem) :=
  if row < 0 || decide ((idx t.ext 0 : Int) ≤ row) then .ok (List.replicate 512 (Elem.zero t.fmt)) s
  else gotAll (fun j s => mElem g t true [row.toNat, k0 + j] s (raw := false)) (List.range 512) s

/-- The groups that an MGO uses. -/
def goGroups (c : Core) (gsel prof : Nat) : List MGroup := (List.range (nsegOf prof)).map (fun k => Tbl.get MGroup.reset c.mgrp (gsel + k))

/-- MGO fetches and aligns the row of its next tuple (R289, R280). -/
def goFetch (g : Nat) (h : CmdHdr) (p : BitVec 25) (x : Cmd) (grps : List MGroup) (s : State) : State :=
  let pf := profileOf x.prof
  let off := (nestAt x.nest x.sent).2
  let read := if h.ta = 63 then aLineRow g pf (64 * pLine p) off s
    else aTypeRow g (ttypeOf x.ta) ((pRow (s.core g) p 64 : Int) + off) (grps.headD MGroup.reset).k0 s
  mGot g x x.sent read (fun es s =>
    let a := alignRow x.prof es
    let r : GoRow := { qs := a.qs, blocks := a.blocks, fl := elemFlags es, pass := 0, tuples := [], again := false,
                       restored := false, sums := List.replicate (256 * (512 / pf.kc)) 0 }
    keepCmd g .m { x with arr := some r } s)

/-- MGO runs a pass (R281): its tuples stand to be converted, each with the bit that an upset has turned. -/
def goPass (g : Nat) (x : Cmd) (grps : List MGroup) (r : GoRow) (s : State) : State :=
  let flip (k : Nat) (t : Tuple) : Tuple :=
    s.flips.foldl (fun t f => if f.1 = flipPass g ∧ f.2 / 33 = k then t ^^^ (1#33 <<< (f.2 % 33)) else t) t
  let ts := (passTuples (profileOf x.prof) grps r.pass r.qs).zipIdx.map (fun t => (flip t.2 t.1).zeroExtend 64)
  keepCmd g .m { x with arr := some { r with pass := r.pass + 1, tuples := ts } }
    { s with flips := s.flips.filter (fun f => decide (f.1 ≠ flipPass g)) }

/-- The tuples of MGO's last pass are converted (01 R33): at a first mismatch the pass is executed once more; a second one,
or one of a restored tuple (01 R35), is RESIDUE; one that the second execution clears is a corrected error of SRC 2 (20
R375). MODEL'S CHOICE (log 68): R31 and R35 let residues be seen in fault records, in which R374 has no field for them; the record
holds no tuple, and in LINES the rows performed. -/
def goConvert (g : Nat) (x : Cmd) (grps : List MGroup) (r : GoRow) (s : State) : State :=
  let ts := r.tuples.map (fun t => t.extractLsb' 0 33)
  match convertPass (profileOf x.prof) grps.length (r.pass - 1) r.sums ts with
  | some sums =>
    let s := if r.again then s.setBank (.core g) ((s.bank (.core g)).correctable (s.core g).unitTag (cmdFaultHere (s.core g) .m x 0))
      else s
    keepCmd g .m { x with arr := some { r with sums := sums, tuples := [], again := false, restored := false } } s
  | none =>
    if r.again || r.restored then
      stopCmd g .m x { cmdFaultHere (s.core g) .m x cRESIDUE with ebx := BitVec.ofNat 64 x.sent } s
    else keepCmd g .m { x with arr := some { r with pass := r.pass - 1, tuples := [], again := true } } s

/-- The sums of MGO's row are applied to its accumulator row (R282). -/
def goApply (g acc kind : Nat) (x : Cmd) (grps : List MGroup) (r : GoRow) (s : State) : State :=
  let row := (nestAt x.nest x.sent).1.toNat
  let (ys, fl) := addRow (profileOf x.prof) (grps.headD MGroup.reset) kind r.blocks r.sums (accGet (s.core g) acc kind row)
  mStep g { x with arr := none } (nestCount x.nest) (orFlags g (r.fl ||| fl) (s.setCore g (accSet (s.core g) acc kind row ys)))

/-- MGO's next step: the fetch of its next tuple's row, a pass, the conversion of a pass's tuples, or the row's sums. It halts
between steps, with all that stands in the array (R291). -/
def goTuple (g : Nat) (h : CmdHdr) (acc kind : Nat) (p : BitVec 25) (x : Cmd) (s : State) : State :=
  let grps := goGroups (s.core g) x.gsel x.prof
  match x.arr with
  | none => goFetch g h p x grps s
  | some r =>
    if !r.tuples.isEmpty then goConvert g x grps r s
    else if r.pass < (profileOf x.prof).planes.length * grps.length then goPass g x grps r s
    else goApply g acc kind x grps r s

/-- The footprint of an MGO at its start (06 R400). -/
def goFoot (g : Nat) (h : CmdHdr) (p : BitVec 25) (x : Cmd) (k0 : Nat) (c : Core) : List Foot :=
  let pf := profileOf x.prof
  let t := ttypeOf x.ta
  (nestOffs x.nest).flatMap (fun off =>
    if h.ta = 63 then
      (aRowAddrs pf.fmt (64 * pLine p) off).flatMap (fun a =>
        let b := bfOf c a
        if bfApack b then
          let w := apackWidth b
          let n0 := a % 2 ^ 19 / w / 64
          (List.range ((aUnit pf.fmt + 64 * w - 1) / (64 * w) + 1)).flatMap (fun k =>
            if (a % 2 ^ 19 + aUnit pf.fmt - 1) / w / 64 < n0 + k then []
            else
              let dir := a / 2 ^ 19 * 2 ^ 19 + bfXoff b * 4096 + 4 * (n0 + k)
              let d := a / 2 ^ 19 * 2 ^ 19 + numAt c.sp dir 4 % 2 ^ 19
              footOf g dir 4 false ++ footOf g d (8 + popCount (BitVec.ofNat 64 (numAt c.sp d 8)) * w) false)
        else footOf g a (aUnit pf.fmt) false
          ++ (if bfScaled b then footOf g (scaleSpot b (a / 2 ^ 19) (a % 2 ^ 19 * 8 / pf.fmt.width)) 32 false else []))
    else
      let row : Int := (pRow c p 64 : Int) + off
      if row < 0 || decide ((idx t.ext 0 : Int) ≤ row) then [] else mTyFoot g t (tileIdx row.toNat k0 1 512) false)

/-- Whether an MGO breaks a rule that is checked at its start (R288). -/
def goIllegal (c : Core) (h : CmdHdr) (p : BitVec 25) (x : Cmd) (nest : List Word) (gsel : Nat) : Bool :=
  let pf := profileOf x.prof
  let grps := goGroups c gsel x.prof
  let src := (grps.headD MGroup.reset).src
  decide (4 < gsel + nsegOf x.prof) || grps.zipIdx.any (fun m => !m.1.valid || decide (m.1.seg ≠ m.2) || decide (m.1.prof ≠ x.prof)
      || decide (m.1.src ≠ src) || decide (m.1.k0 ≠ (grps.headD MGroup.reset).k0))
    || (h.tb ≠ 63 && (match src with | .typed ty _ _ => decide (ty ≠ x.tb) | .line _ => true))
    || decide (2 ^ 24 < nestCount nest) || nestRowsOut nest
    || (h.ta = 63 && (nestOffs nest).any (fun off => (aRowAddrs pf.fmt (64 * pLine p) off).any
        (bankBreaks c pf.fmts true (decide (x.prof = 6) || decide (x.prof = 7)))))

/- Accumulator tiles (R293 to R296). -/

/-- The next row of MLDA. -/
def ldaRow (g : Nat) (h : CmdHdr) (acc kind : Nat) (p : BitVec 25) (x : Cmd) (s : State) : State :=
  let r := x.sent
  let c := s.core g
  let t := ttypeOf x.ta
  if h.ta = 63 then
    let ub := accUnit kind
    mGot g x r (kReadClean g (lAddr (stripe (64 * pLine p) r ub)) ub s 1 true) (fun bs s =>
      mStep g x 64 (s.setCore g (accSet (s.core g) acc kind r (numsOf (ub / 256) bs))))
  else
    mGot g x r (gotAll (fun j s => mElem g t true [pRow c p 64 + r, pCol c p 256 + j] s) (List.range 256) s) (fun es s =>
      let ys := es.map (loadElem kind t)
      mStep g x 64 (orFlags g (ys.foldl (fun f y => f ||| y.2) flNone) (s.setCore g (accSet (s.core g) acc kind r (ys.map Prod.fst)))))

/-- Where a stored element lies, once it may be written (07 R136): in the module's DRAM, or in the own scratchpad (none). -/
def elemPlace (g : Nat) (t : TType) (w : Int × Nat) (s : State) : Got (Option (List Seg)) :=
  let q := tyQa t (elemAddr t w.1).1
  let n := (t.fmt.width + 7) / 8
  match resolve s g q n 1 with
  | .error e => .bad e (qLogged q) q s
  | .ok (.d va) => (match dSegments g va n true s with
    | (.error e, s) => segFails e q s
    | (.ok r, s) => .ok (some r) s)
  | .ok (.cew _) => .bad cPROTECT (qLogged q) q s
  | .ok _ => .ok none s

/-- Writes an element into its place; a nibble is merged into the byte that stands there. -/
def placeElem (g : Nat) (t : TType) (s : State) (w : (Int × Nat) × Option (List Seg)) : State :=
  let a := (elemAddr t w.1.1).1.toNat
  let n := (t.fmt.width + 7) / 8
  let nib := decide (t.fmt.width = 4)
  let bytes (old : List MByte) : List MByte :=
    if nib then [(BitVec.ofNat 8 (putNibble t w.1.1 (leNat (old.map Prod.fst)) w.1.2), old.any Prod.snd)]
    else (natLE (t.fmt.width / 8) w.1.2).map (fun b => (b, false))
  match w.2 with
  | some r =>
    let s := if nib then correctSegs r (s.core g).unitTag s else s
    writeSegsM r (bytes ((readSegs s r).zip (segMarks s r))) s
  | none =>
    let s := if nib then correctSp g a n s else s
    writeSpM g a (bytes (spRaw (s.core g) a n)) s

/-- Checks that every element of a row's part can be written, then writes them. -/
def mWriteElems (g : Nat) (t : TType) (ws : List (Int × Nat)) (s : State) : Got Unit :=
  (gotAll (elemPlace g t) ws s).bind (fun rs s => .ok () ((ws.zip rs).foldl (placeElem g t) s))

/-- The whole typed store of an accumulator tile: its plan, and the flags of each row's conversions (R294). `drain`: the
values are the addends. MODEL'S CHOICE (log 63): 02 R50 compares in the element format, and R49 says that a drain's values are the
addends; they are compared and negated, with its saturation, in the format of the accumulator's kind, and not in that of the type. -/
def tilePlan (c : Core) (t : TType) (acc kind : Nat) (o0 o1 : Nat) (drain : Bool) : StorePlan × List Flags :=
  let rows := (List.range (min 64 (idx t.ext 0 - o0))).map (fun i =>
    ((accGet c acc kind i).take (idx t.ext 1 - o1)).zipIdx.map (fun v =>
      let y := if drain then (v.1, flNone) else storeElem kind t.fmt v.1
      (([o0 + i, o1 + v.2], y.1), y.2)))
  (planStore (if drain then { t with fmt := kindFmt kind } else t) (rows.flatten.map Prod.fst),
   rows.map (fun r => r.foldl (fun f y => f ||| y.2) flNone))

/-- The next row of MSTA or MDRAIN. MODEL'S CHOICE (log 54): the spec does not say how the additions of an MDRAIN combine
where strides put two representatives on one location; a row's representatives are read first and then written in order, so
that the last one's sum remains. -/
def staRow (g : Nat) (h : CmdHdr) (acc kind : Nat) (drain : Bool) (clamp : BitVec 2) (p : BitVec 25) (x : Cmd) (s : State) : State :=
  let r := x.sent
  let c := s.core g
  if h.tb = 63 then
    let ub := accUnit kind
    let q := lAddr (stripe (64 * pLine p) r ub)
    let codes := accGet c acc kind r
    let f := kindFmt kind
    if drain then
      mGot g x r (kReadClean g q ub s 1 true) (fun bs s =>
        let ys := List.zipWith (drainElem kind clamp f) (numsOf (ub / 256) bs) codes
        mGot g x r (kPut g x r q ((packCodes f.width (ys.map Prod.fst)).map (fun b => (b, false))) s) (fun _ s =>
          mStep g x 64 (orFlags g (ys.foldl (fun f y => f ||| y.2) flNone) s)))
    else
      mGot g x r (kPut g x r q ((packCodes f.width codes).map (fun b => (b, false))) s) (fun _ s => mStep g x 64 s)
  else
    let t := ttypeOf x.tb
    let o0 := pRow c p 64
    let (plan, fls) := tilePlan c t acc kind o0 (pCol c p 256) drain
    if r = 0 && t.strict && plan.breaks then
      let q := tyQa t (plan.strictAddr t)
      mStop g x cORBIT (qLogged q) q 0 s
    else
      let s := if r = 0 then orFlags g (plan.flags ||| flIf plan.breaks flSYMLOSS) s else s
      let part := (plan.writes.filter (fun w => decide (w.2.2 = o0 + r))).map (fun w => (w.1, w.2.1))
      let read := if drain then gotAll (fun (w : Int × Nat) s => (mStored g t w.1 s).bind (fun d s => .ok (w.1, drainElem kind clamp t.fmt d w.2) s)) part s
        else .ok (part.map (fun w => (w.1, (w.2, flNone)))) s
      mGot g x r read (fun ys s =>
        mGot g x r (mWriteElems g t (ys.map (fun y => (y.1, y.2.1))) s) (fun _ s =>
          mStep g x 64 (orFlags g (ys.foldl (fun f y => f ||| y.2.2) (fls.getD r flNone)) s)))

/- MORB (R292). -/

/-- One contribution of a float format. -/
def orbitTerm (w : Int) (x y : Elem) : Val :=
  mulVal (valOfInt w) (mulVal (scaledVal x.fmt x.scale x.code) (scaledVal y.fmt y.scale y.code))

/-- A block of at most 32 joint orbits is added to the result (R292): under a float format its exact sum, with one rounding. -/
def orbitBlock (f : Fmt) (o : OrbitRun) (js : List (Int × Elem × Elem)) : OrbitRun × Flags :=
  let fl := js.foldl (fun a j => a ||| j.2.1.fl ||| j.2.2.fl) flNone
  if f.isFloat then
    let ts := js.map (fun j => orbitTerm j.1 j.2.1 j.2.2)
    let t : Int × Int := ts.foldl (fun acc v => match v with
      | .fin n m e =>
        let q := min acc.2 e
        (acc.1 * (2 ^ (acc.2 - q).toNat : Nat) + signedNat n (shl m (e - q)), q)
      | _ => acc) ((0 : Int), (0 : Int))
    let y := accAdd o.acc t.1 t.2
    ({ o with acc := y.1, nan := o.nan || ts.contains .nan, pos := o.pos || ts.contains (.inf false),
              neg := o.neg || ts.contains (.inf true) }, fl ||| y.2)
  else ({ o with sum := o.sum + (js.map (fun j => j.1 * intElem j.2.1 * intElem j.2.2)).foldl (· + ·) 0 }, fl)

/-- The value of a full contraction. -/
def orbitResult (f : Fmt) (o : OrbitRun) : Nat × Flags :=
  if !f.isFloat then saturate .i64 o.sum
  else if o.nan || (o.pos && o.neg) then (Fmt.fp32.nanCode, flNone)
  else if o.pos || o.neg then (withSign .fp32 o.neg (Fmt.fp32.maxFinite + 1), flNone)
  else (o.acc, flNone)

/-- A stored element by its offset, without a sign. -/
def mRep (g : Nat) (t : TType) (off : Int) (s : State) : Got Elem :=
  (mStored g t off s).bind (fun c s => (mScale g t off s).bind (fun z s => .ok (Elem.of t.fmt false c z) s))

/-- MORB contracts the next block of 32 joint orbits, between which it halts (R291); after the last it writes its result,
and its MQ entry waits in `nums`. -/
def orbStep (g : Nat) (wr : BitVec 1) (line : BitVec 17) (x : Cmd) (s : State) : State :=
  let tx := ttypeOf x.ta
  let ty := ttypeOf x.tb
  match ((jointOrbits tx ty).drop (32 * x.sent)).take 32 with
  | [] =>
    let (v, fl) := orbitResult tx.fmt x.orb
    let s := orFlags g fl s
    let x' := { x with ready := true, nums := [v] }
    if wr = 1 then mGot g x 0 (kPut g x 0 (lAddr (64 * line.toNat)) ((natLE 8 v).map (fun b => (b, false))) s) (fun _ s => keepCmd g .m x' s)
    else keepCmd g .m x' s
  | js =>
    mGot g x 0 (gotAll (fun (j : JointOrbit) s => (mRep g tx j.px s).bind (fun a s => (mRep g ty j.py s).bind (fun b s => .ok (j.weight, a, b) s)))
      js s) (fun js s =>
        let (o, fl) := orbitBlock tx.fmt x.orb js
        keepCmd g .m { x with sent := x.sent + 1, orb := o } (orFlags g fl s))

/- Pushes to MQ (R275). -/

def pushesMq : Instr → Bool
  | .morb .. | .msres .. => true
  | _ => false

/-- A command pushes its next MQ entry, once earlier pushers have pushed all of theirs and a place is free. -/
def pushMq (g : Nat) (x : Cmd) (s : State) : State :=
  let c := s.core g
  if c.mcmds.any (fun y => pushesMq y.i && decide (y.no < x.no) && !y.allSent) || decide (queueDepth 3 ≤ (c.queue 3).length) then s
  else match x.nums with
    | [] => s
    | v :: vs => keepCmd g .m { x with nums := vs, allSent := vs.isEmpty } (s.setCore g (c.push s.now 3 (BitVec.ofNat 64 v) 0 x.pc))

/- MARRB (R299). -/

/-- MARRB arrives; a second arrival in one phase of a domain object is held. -/
def arriveStep (g b : Nat) (obs : BitVec 6) (dam : Bool) (x : Cmd) (s : State) : State :=
  let c := s.core g
  let w := c.barrier b
  if bFlt w then stopCmd g .m x (cmdFaultHere c .m x cBARRIER) s
  else if c.hasArrived b || c.laterArrived .m b || (decide (obs &&& 0x30 ≠ 0) && owed s g .m) then s
  else keepCmd g .m { x with allSent := true } (arriveAt g b .m dam (if obs = 0 then s else noteRelease g b .m 0 s))

end Sys2Proof.Machine
end

