-- ==== Sys2Proof/Machine/Solver.lean ====
section
/-!
DEFINITION. The solver of the M engine (12 R301 to R308): its arithmetic, conjugate gradient, LDLT, deadlines, the state
record, updates of A and the reading of the record.
-/
namespace Sys2Proof.Machine

/- Arithmetic (R302). -/

def v32 (c : Nat) : Val := decodeVal .fp32 c
/-- One rounding to FP32. -/
def rnd (v : Val) : Nat × Flags := let r := encodeVal .fp32 .nearest false v; (r.1, onlyOFL r.2)
def isFin (c : Nat) : Bool := match v32 c with | .fin _ _ _ => true | _ => false

/-- The sum of products in blocks of 32, each added with one rounding. -/
def dotVals (ps : List Val) : Nat × Flags :=
  ((List.range ((ps.length + 31) / 32)).map (fun k => (ps.drop (32 * k)).take 32)).foldl (fun acc b =>
    let y := rnd (addVal .nearest (v32 acc.1) (b.foldl (addVal .nearest) (.fin false 0 0)))
    (y.1, acc.2 ||| y.2)) (0, flNone)
def dot (us vs : List Nat) : Nat × Flags := dotVals (List.zipWith (fun u v => mulVal (v32 u) (v32 v)) us vs)
def gdot (us vs ws : List Nat) : Nat × Flags :=
  dotVals (List.zipWith (fun p w => mulVal p (v32 w)) (List.zipWith (fun u v => mulVal (v32 u) (v32 v)) us vs) ws)

/-- The rounded difference. -/
def subRnd (a b : Nat) : Nat × Flags := rnd (addVal .nearest (v32 a) (negVal (v32 b)))

/-- The correctly rounded quotient. -/
def divRnd (a b : Nat) : Nat × Flags :=
  match v32 a, v32 b with
  | .nan, _ => (Fmt.fp32.nanCode, flNone)
  | _, .nan => (Fmt.fp32.nanCode, flNone)
  | .inf _, .inf _ => (Fmt.fp32.nanCode, flNone)
  | .inf n, .fin k _ _ => rnd (.inf (n != k))
  | .fin n _ _, .inf k => rnd (.fin (n != k) 0 0)
  | .fin n m e, .fin k d f =>
    if d = 0 then (if m = 0 then (Fmt.fp32.nanCode, flNone) else rnd (.inf (n != k)))
    else
      let num := m * 2 ^ (64 + natBits d)
      let quot := 2 * (num / d) + (if num % d = 0 then 0 else 1)
      rnd (.fin (n != k) quot (e - f - ((64 + natBits d : Nat) : Int) - 1))

/-- z = x + a * y, one rounding an element; `neg`: x - a * y. -/
def axpy (neg : Bool) (xs : List Nat) (a : Nat) (ys : List Nat) : List (Nat × Flags) :=
  List.zipWith (fun x y => let p := mulVal (v32 a) (v32 y); rnd (addVal .nearest (v32 x) (if neg then negVal p else p))) xs ys

def codesOf (l : List (Nat × Flags)) : List Nat := l.map Prod.fst
def flagsOf (l : List (Nat × Flags)) : Flags := l.foldl (fun f y => f ||| y.2) flNone

/- Operands. -/

/-- R301's conditions on a matrix. -/
def solverType (t : TType) : Bool :=
  t.valid && decide (t.fmt = .fp32) && decide (t.space = 1) && decide (t.rank = 2) && decide (idx t.ext 0 = idx t.ext 1)
    && decide (idx t.ext 0 ≤ 1024) && decide (t.sym.getD 0 { grp := .none, ia := 0, ib := 0 } = { grp := .sym, ia := 0, ib := 1 })
    && decide ((t.sym.getD 1 { grp := .none, ia := 0, ib := 0 }).grp = .none)
    && decide (t.stride.getD 0 0 = 1) && decide (t.stride.getD 1 0 = 0)

/-- The bytes of a matrix's representatives. -/
def solverBytes (t : TType) : Nat := 4 * (idx t.ext 0 * (idx t.ext 0 + 1) / 2)

/-- Element i of vector k of area V: b 0, x 1, r 2, p 3, q 4, best 5. -/
def vecQa (base k i : Nat) : Word := lAddr (base + 4096 * k + 4 * i)
/-- Element (i, j) of a matrix, at its representative (02 R44). -/
def matQa (t : TType) (i j : Nat) : Word := tyQa t (elemAddr t (locate t [i, j]).off).1
/-- Writes elements of a matrix. -/
def putElems (g : Nat) (f : TType) (ws : List ((Nat × Nat) × Nat)) (s : State) : Got Unit :=
  mWriteElems g f (ws.map (fun w => ((locate f [w.1.1, w.1.2]).off, w.2))) s

/- What a solve does. -/

/-- How a part of a solve comes out: it goes on with the next part, with its iteration or column and its scalars; it is to fail with
SOLVER; it is to end with a status; it has ended, or failed, with a residual norm. -/
inductive SolveRes where
  | next (v : Nat × Nat × Nat × Nat)
  | fails (v : Nat × Nat × Nat × Nat)
  | closes (status : Nat)
  | ended (status rr : Nat)
  | failed (rr : Nat)
  deriving DecidableEq, Repr

/-- A part of a solve: the accesses of one element each by which it meets memory, for no larger access is single-copy atomic (15 R316);
the flags of what it computes; and, from `commit` on, what its deadline does not stop any more. -/
inductive Prog where
  | fin (r : SolveRes)
  | read (q : Word) (k : Nat → Prog)
  | write (q : Word) (v : Nat) (k : Prog)
  | flags (f : Flags) (k : Prog)
  | commit (k : Prog)

/-- What is left of a part after the steps it has done, each with what it read. -/
def Prog.after : Prog → List Nat → Prog
  | .read _ k, v :: l => (k v).after l
  | .write _ _ k, _ :: l => k.after l
  | .flags _ k, _ :: l => k.after l
  | .commit k, _ :: l => k.after l
  | .fin r, _ => .fin r
  | .read q k, [] => .read q k
  | .write q v k, [] => .write q v k
  | .flags f k, [] => .flags f k
  | .commit k, [] => .commit k

/-- Does the same for each, and goes on with the results. -/
def eachOf {α β : Type} (f : α → (β → Prog) → Prog) : List α → (List β → Prog) → Prog
  | [], k => k []
  | x :: xs, k => f x (fun y => eachOf f xs (fun ys => k (y :: ys)))
def readAll (qs : List Word) (k : List Nat → Prog) : Prog := eachOf (fun q k => .read q k) qs k
def writeAll (ws : List (Word × Nat)) (k : Prog) : Prog := eachOf (β := Unit) (fun w k => .write w.1 w.2 (k ())) ws (fun _ => k)
/-- Copies elements one by one. -/
def copyAll (ps : List (Word × Word)) (k : Prog) : Prog := eachOf (β := Unit) (fun p k => .read p.1 (fun v => .write p.2 v (k ()))) ps (fun _ => k)

def readVec (base k n : Nat) : (List Nat → Prog) → Prog := readAll ((List.range n).map (vecQa base k))
def writeVec (base k : Nat) (vs : List Nat) : Prog → Prog := writeAll (vs.zipIdx.map (fun v => (vecQa base k v.2, v.1)))
def copyVec (base a b n : Nat) : Prog → Prog := copyAll ((List.range n).map (fun i => (vecQa base a i, vecQa base b i)))
def matRow (t : TType) (i : Nat) (js : List Nat) : (List Nat → Prog) → Prog := readAll (js.map (matQa t i))

/-- A times a vector. -/
def matVec (t : TType) (n : Nat) (v : List Nat) (k : List (Nat × Flags) → Prog) : Prog :=
  eachOf (fun i k => matRow t i (List.range n) (fun row => k (dot row v))) (List.range n) k

/-- b - A * x. -/
def residual (t : TType) (n : Nat) (b x : List Nat) (k : List (Nat × Flags) → Prog) : Prog :=
  matVec t n x (fun ax => k (List.zipWith (fun bi d => let y := subRnd bi d.1; (y.1, y.2 ||| d.2)) b ax))

/-- The residual norm of what stands in the x area. -/
def normOfX (base : Nat) (t : TType) (n : Nat) (k : Nat → Prog) : Prog :=
  readVec base 0 n (fun b => readVec base 1 n (fun v => residual t n b v (fun r =>
    let rr := dot (codesOf r) (codesOf r)
    .flags (flagsOf r ||| rr.2) (k rr.1))))

/- Issue (R301, R307, R308). -/

/-- A solve that issues; `f`: the factor store's type field. -/
def solveIssue (h : CmdHdr) (i : Instr) (ldlt : Bool) (line : BitVec 17) (s : State) : Host.Outcome State Fault Refusal :=
  let a := ttypeOf (s.me.tyOf h.ta)
  let f := ttypeOf (s.me.tyOf h.tb)
  let meet := decide (a.base < f.base + solverBytes f) && decide (f.base < a.base + solverBytes a)
  let bad := h.ta = 63 || !solverType a || (ldlt && (h.tb = 63 || !solverType f || decide (idx f.ext 0 ≠ idx a.ext 0) || meet))
  let base := 64 * line.toNat
  let flt := if bad then some (s.me.faultHere .m cILLEGAL)
    else if 2 ^ 23 < base + 0x6000 then mProtect s (lAddr base) else none
  mIssue h i flt (fun s x =>
    let a := ttypeOf x.ta
    let n := idx a.ext 0
    let vec (k : Nat) (w : Bool) : List Foot := footOf s.cur (base + 4096 * k) (4 * n) w
    some (footOf s.cur a.base (solverBytes a) false ++ vec 0 false ++ vec 1 true ++ vec 2 true
      ++ (if ldlt then footOf s.cur (ttypeOf x.tb).base (solverBytes a) true else vec 3 true ++ vec 4 true ++ vec 5 true))) s

def execMsolvCg (h : CmdHdr) (tolx : BitVec 6) (line : BitVec 17) (dline : BitVec 32) (s : State) : Host.Outcome State Fault Refusal :=
  solveIssue h (.msolvCg h tolx line dline) false line s
def execMsolvLdlt (h : CmdHdr) (resumed : Bool) (tolx : BitVec 6) (line : BitVec 17) (dline : BitVec 32) (s : State) :
    Host.Outcome State Fault Refusal := solveIssue h (.msolvLdlt h resumed tolx line dline) true line s

def execMsupd (h : CmdHdr) (cnt : BitVec 12) (line : BitVec 17) (s : State) : Host.Outcome State Fault Refusal :=
  let t := ttypeOf (s.me.tyOf h.ta)
  let base := 64 * line.toNat
  let flt := if h.ta = 63 || !solverType t then some (s.me.faultHere .m cILLEGAL)
    else if 2 ^ 23 < base + 8 * cnt.toNat then mProtect s (lAddr base) else none
  mIssue h (.msupd h cnt line) flt (fun s x =>
    let t := ttypeOf x.ta
    let n := idx t.ext 0
    let pairs := (numsOf 4 (bytesAt s.me.sp base (8 * cnt.toNat))).zipIdx.filterMap (fun v => if v.2 % 2 = 0 then some v.1 else none)
    let ix := (pairs.map (fun v => [v % 65536, v / 65536])).filter (fun ij => ij.all (fun k => decide (k < n)))
    some (footOf s.cur base (8 * cnt.toNat) false ++ mTyFoot s.cur t ix true)) s

def execMsres (h : CmdHdr) (off : BitVec 8) (cnt : BitVec 4) (s : State) : Host.Outcome State Fault Refusal :=
  mIssue h (.msres h off cnt) none noFoot s

/- The state record (R306). -/

/-- A solve's method, tolerance and deadline. -/
def solveArgs : Instr → Nat × Nat × Nat × Nat
  | .msolvCg _ tolx line dline => (0, tolx.toNat, 64 * line.toNat, dline.toNat)
  | .msolvLdlt _ resumed tolx line dline => (if resumed then 2 else 1, tolx.toNat, 64 * line.toNat, dline.toNat)
  | _ => (0, 0, 0, 0)

/-- Writes the record when a solve ends, and resumability, which a partial factorisation sets and every other outcome
clears (R304). -/
def writeRecord (g : Nat) (x : Cmd) (res : Bool) (status count rr bb : Nat) (s : State) : State :=
  let c := s.core g
  let (meth, tolx, _, _) := solveArgs x.i
  let n := idx (ttypeOf x.ta).ext 0
  let w0 := status + 256 * meth + (if res then 1024 else 0) + 2 ^ 32 * count
  let ws : List Word := [BitVec.ofNat 64 w0, BitVec.ofNat 64 rr, BitVec.ofNat 64 bb, BitVec.ofNat 64 (s.now - x.started.getD s.now),
    BitVec.ofNat 64 (n + 2048 * tolx)]
  (overSpill g .m 0 5 s).setCore g { c.spillClean .m 0 5 with spillM := Tbl.setRun 0 c.spillM 0 ws, resumable := if res then some (n, x.ta, x.tb) else none }

/-- RES is cleared (R307). -/
def clearRes (c : Core) : Core :=
  { c with spillM := Tbl.set 0 c.spillM 0 (Tbl.get 0 c.spillM 0 &&& ~~~1024#64), resumable := none }

/-- A solve ends normally. -/
def solveEnd (g : Nat) (x : Cmd) (status count rr : Nat) (s : State) : State :=
  keepCmd g .m { x with allSent := true } (writeRecord g x (decide (status = 3)) status count rr x.solve.bb s)

/-- A solve stops with a fault: its record is written first. The record has no status for a fault other than SOLVER: it is
a free value (log 11). -/
def solveStop (g : Nat) (x : Cmd) (f : FaultInfo) (rr : Nat) (s : State) : State :=
  let status := if f.code = cSOLVER then 5 else (Config.faultedSolve s.tick).toNat
  stopCmd g .m x f (writeRecord g x false status x.solve.it rr x.solve.bb { s with tick := s.tick + 1 })

/-- Goes on with what a solve has read, or stops. -/
def solveGot {α : Type} (g : Nat) (x : Cmd) (r : Got α) (s0 : State) (k : α → State → State) : State :=
  match r with
  | .ok a s => k a s
  | .bad c ad q s => solveStop g x { cmdFault .m x c ad 0 0 with spc := qSpcBits q, xtra := qXtra q } x.solve.brr s
  | _ => s0

/-- The fault SOLVER, logged at ta's base (20 R371). -/
def solverFault (x : Cmd) : FaultInfo :=
  let t := ttypeOf x.ta
  let q := tyQa t t.base
  { cmdFault .m x cSOLVER (qLogged q) 0 0 with spc := qSpcBits q }

/- Conjugate gradient (R303). -/

/-- Whether rr > 2^(-2 tolx) * bb. -/
def cgGoesOn (x : Cmd) : Bool :=
  let (_, tolx, _, _) := solveArgs x.i
  let thr := match v32 x.solve.bb with | .fin n m e => Val.fin n m (e - 2 * tolx) | v => v
  decide (cmpVal (v32 x.solve.rr) thr = some .gt)

/-- Before its first iteration: r, p, rr, bb and the best iterate. -/
def cgInit (base : Nat) (t : TType) (n : Nat) : Prog :=
  readVec base 0 n (fun b => readVec base 1 n (fun v => residual t n b v (fun r =>
    let rr := dot (codesOf r) (codesOf r)
    let bb := dot b b
    let out := (0, rr.1, bb.1, rr.1)
    .flags (flagsOf r ||| rr.2 ||| bb.2) (writeVec base 2 (codesOf r) (writeVec base 3 (codesOf r) (writeVec base 5 v
      (.fin (if isFin rr.1 then .next out else .fails out))))))))

/-- One iteration. Once a better iterate is known, the deadline lets it be kept whole (log 73). -/
def cgIterate (base : Nat) (t : TType) (n : Nat) (y : Solve) : Prog :=
  readVec base 3 n (fun p => matVec t n p (fun q =>
    let pq := dot p (codesOf q)
    .flags (flagsOf q ||| pq.2) (writeVec base 4 (codesOf q) (
      if !isFin pq.1 || decide (cmpVal (v32 pq.1) (.fin false 0 0) ≠ some .gt) then .fin (.fails (y.it, y.rr, y.bb, y.brr))
      else
        let al := divRnd y.rr pq.1
        readVec base 1 n (fun v => readVec base 2 n (fun r =>
          let v' := axpy false v al.1 p
          let r' := axpy true r al.1 (codesOf q)
          let rrn := dot (codesOf r') (codesOf r')
          let be := divRnd rrn.1 y.rr
          let p' := axpy false (codesOf r') be.1 p
          .flags (al.2 ||| flagsOf v' ||| flagsOf r' ||| rrn.2 ||| be.2 ||| flagsOf p')
            (writeVec base 1 (codesOf v') (writeVec base 2 (codesOf r') (writeVec base 3 (codesOf p')
              (if !isFin rrn.1 then .fin (.fails (y.it + 1, rrn.1, y.bb, y.brr))
               else if cmpVal (v32 rrn.1) (v32 y.brr) = some .lt then
                 .commit (writeVec base 5 (codesOf v') (.fin (.next (y.it + 1, rrn.1, y.bb, rrn.1))))
               else .fin (.next (y.it + 1, rrn.1, y.bb, y.brr))))))))))))

/-- The parts of a conjugate gradient. Its x area receives the best iterate in the end. -/
def cgProg (x : Cmd) : Prog :=
  let (_, _, base, _) := solveArgs x.i
  let t := ttypeOf x.ta
  let n := idx t.ext 0
  match x.solve.stage with
  | .start => cgInit base t n
  | .close st => copyVec base 5 1 n (.fin (.ended st x.solve.brr))
  | .fail => copyVec base 5 1 n (.fin (.failed x.solve.brr))
  | .run | .keep =>
    if !cgGoesOn x then .fin (.closes 1)
    else if 4 * n ≤ x.solve.it then .fin (.closes 4)
    else cgIterate base t n x.solve

/- LDLT (R304). -/

/-- The diagonal of the first j columns. -/
def diagRow (f : TType) (j : Nat) : (List Nat → Prog) → Prog := readAll ((List.range j).map (fun k => matQa f k k))

/-- Before its first column, which is `c0`. -/
def ldltInit (base n c0 : Nat) : Prog :=
  readVec base 0 n (fun b => let bb := dot b b; .flags bb.2 (.fin (.next (c0, 0, bb.1, 0))))

/-- Column j of the factorisation. -/
def ldltColumn (t f : TType) (n : Nat) (y : Solve) : Prog :=
  let j := y.it
  diagRow f j (fun d => matRow f j (List.range j) (fun lj => .read (matQa t j j) (fun a =>
    let gd := gdot lj lj d
    let dj := subRnd a gd.1
    .flags (gd.2 ||| dj.2) (
      if !isFin dj.1 || decide (cmpVal (v32 dj.1) (.fin false 0 0) ≠ some .gt) then .fin (.fails (j, y.rr, y.bb, y.brr))
      else
        let below (i : Nat) (k : Unit → Prog) : Prog := matRow f i (List.range j) (fun li => .read (matQa t i j) (fun a =>
          let gd := gdot li lj d
          let u := subRnd a gd.1
          let z := divRnd u.1 dj.1
          .flags (gd.2 ||| u.2 ||| z.2) (.write (matQa f j i) z.1 (k ()))))
        .write (matQa f j j) dj.1 (eachOf below ((List.range (n - j - 1)).map (fun k => j + 1 + k)) (fun _ =>
          .fin (.next (j + 1, y.rr, y.bb, y.brr))))))))

/-- A triangular solve: element by element, each from those before it. `row`: the elements that meet element k. -/
def triSolve (rows : List (List Nat)) (rhs : List Nat) : List (Nat × Flags) :=
  (rows.zip rhs).foldl (fun acc rb =>
    let d := dot rb.1 (codesOf acc)
    let y := subRnd rb.2 d.1
    acc ++ [(y.1, d.2 ||| y.2)]) []

/-- The backward solve, from the last element: each sum runs over the later elements in ascending order. -/
def triBack (cols : List (List Nat)) (rhs : List Nat) : List (Nat × Flags) :=
  (cols.zip rhs).foldr (fun cb acc =>
    let d := dot cb.1 (codesOf acc)
    let y := subRnd cb.2 d.1
    (y.1, d.2 ||| y.2) :: acc) []

/-- The two triangular solves and the residual. A deadline that falls in them leaves the x area as it was at entry (R305); once they are
done it does not stop what is left, which writes x and r. -/
def ldltSolve (base : Nat) (t f : TType) (n : Nat) : Prog :=
  readVec base 0 n (fun b => diagRow f n (fun d =>
    eachOf (fun i k => matRow f i (List.range i) k) (List.range n) (fun rows =>
      eachOf (fun i k => matRow f i ((List.range (n - i - 1)).map (fun k => i + 1 + k)) k) (List.range n) (fun cols =>
        let z := triSolve rows b
        let y := List.zipWith divRnd (codesOf z) d
        let v := triBack cols (codesOf y)
        .flags (flagsOf z ||| flagsOf y ||| flagsOf v) (residual t n b (codesOf v) (fun r =>
          let rr := dot (codesOf r) (codesOf r)
          .flags (flagsOf r ||| rr.2) (.commit (writeVec base 1 (codesOf v) (writeVec base 2 (codesOf r) (.fin (.ended 1 rr.1)))))))))))

/-- The parts of a factorisation. `c0`: the column of a resumed one. -/
def ldltProg (c0 : Nat) (x : Cmd) : Prog :=
  let (_, _, base, _) := solveArgs x.i
  let t := ttypeOf x.ta
  let n := idx t.ext 0
  match x.solve.stage with
  | .start => ldltInit base n c0
  | .close st => normOfX base t n (fun rr => .fin (.ended st rr))
  | .fail => normOfX base t n (fun rr => .fin (.failed rr))
  | .run | .keep => if x.solve.it < n then ldltColumn t (ttypeOf x.tb) n x.solve else ldltSolve base t (ttypeOf x.tb) n

/- The sequencer. -/

/-- A solve begins a part. -/
def solveStage (x : Cmd) (st : SolveStage) : Cmd := { x with solve := { x.solve with stage := st, log := [] } }

/-- How a solve goes on after a part. -/
def solveNext (g : Nat) (x : Cmd) (r : SolveRes) (s : State) : State :=
  let go (st : SolveStage) (v : Nat × Nat × Nat × Nat) : State :=
    keepCmd g .m { x with sent := 1, solve := { stage := st, it := v.1, rr := v.2.1, bb := v.2.2.1, brr := v.2.2.2, log := [] } } s
  match r with
  | .next v => go .run v
  | .fails v => go .fail v
  | .closes st => keepCmd g .m (solveStage x (.close st)) s
  | .ended st rr => solveEnd g x st x.solve.it rr s
  | .failed rr => solveStop g x (solverFault x) rr s

/-- The next access of what is left of a part, or its end. -/
def solveTurn (g : Nat) : Prog → Cmd → State → State
  | .fin r, x, s => solveNext g x r s
  | .flags f k, x, s => solveTurn g k { x with solve := { x.solve with log := x.solve.log ++ [0] } } (orFlags g f s)
  | .commit k, x, s => solveTurn g k { x with solve := { x.solve with log := x.solve.log ++ [0], stage := .keep } } s
  | .read q _, x, s => solveGot g x (kReadClean g q 4 s 1 true) s (fun bs s =>
      keepCmd g .m { x with solve := { x.solve with log := x.solve.log ++ [leNat bs] } } s)
  | .write q v _, x, s => solveGot g x (kPut g x 0 q ((natLE 4 v).map (fun b => (b, false))) s) s (fun _ s =>
      keepCmd g .m { x with solve := { x.solve with log := x.solve.log ++ [0] } } s)

/- Deadlines (R305). -/

/-- Whether a running solve has reached its deadline. MODEL'S CHOICE (log 73): before its first iteration or column is prepared, and
once a part is to be kept whole or the solve is ending, there is nothing to stop. -/
def deadlineDue (x : Cmd) (now : Nat) : Bool :=
  let (_, _, _, dline) := solveArgs x.i
  match x.started with
  | some t => decide (dline ≠ 0) && decide (t + dline ≤ now) && !x.allSent && decide (x.solve.stage = .run)
  | none => false

/-- The sequencer stops at its deadline: what it was doing is abandoned, and the solve ends with status 2, or 3 for a factorisation. -/
def deadlineEnd (g : Nat) (x : Cmd) (s : State) : State :=
  keepCmd g .m (solveStage x (.close (if (solveArgs x.i).1 = 0 then 2 else 3))) s

/-- The cycle in which a running solve reaches its deadline. -/
def deadlineAt (x : Cmd) : Option Nat :=
  let (_, _, _, dline) := solveArgs x.i
  if dline = 0 || x.allSent then none else x.started.map (· + dline)

/-- The next step of a solve: its next access. A resumed one takes its column from the record (R304). -/
def solveStep (g : Nat) (x : Cmd) (s : State) : State :=
  let c := s.core g
  let meth := (solveArgs x.i).1
  let first := decide (x.solve.stage = .start) && decide (meth = 2)
  if deadlineDue x s.now then deadlineEnd g x s
  else match (if first then c.spillBad .m 0 1 else none) with
  | some w => solveGot (α := Unit) g x (.bad cPOISON (BitVec.ofNat 64 (8 * w)) 0 s) s (fun _ s => s)
  | none =>
    let c0 := if meth = 2 then ((Tbl.get 0 c.spillM 0).extractLsb' 32 32).toNat else 0
    solveTurn g (((if meth = 0 then cgProg x else ldltProg c0 x)).after x.solve.log) x s

/-- The next pair of MSUPD (R307). -/
def updStep (g cnt base : Nat) (x : Cmd) (s : State) : State :=
  let t := ttypeOf x.ta
  let n := idx t.ext 0
  mGot g x x.sent (kReadClean g (lAddr (base + 8 * x.sent)) 8 s 1 true) (fun bs s =>
    let v := leNat bs
    let i := v % 2 ^ 16
    let j := v / 2 ^ 16 % 2 ^ 16
    if n ≤ i || n ≤ j then let q := tyQa t t.base; mStop g x cPROTECT (qLogged q) q x.sent s
    else mGot g x x.sent (putElems g t [((i, j), v / 2 ^ 32)] s) (fun _ s => mStep g x cnt s))

end Sys2Proof.Machine
end

