-- ==== Sys2Proof/Machine/OrderFirst.lean ====
section
/-!
DEFINITION. Order-first transactions: the instructions (09 R212 to R218), the Meridian sequencers and the unit
queues (18 R360 to R364, 21 R388, R389).
-/
namespace Sys2Proof.Machine

def Core.ofSlot (c : Core) (i : Nat) : OfSlot := Tbl.get OfSlot.reset c.ofs i
def Core.setOf (c : Core) (i : Nat) (o : OfSlot) : Core := { c with ofs := Tbl.set OfSlot.reset c.ofs i o }

/-- The slot a handle names (09 R212). -/
def ofNamed (c : Core) (h : Word) : Option Nat :=
  let i := (h.extractLsb' 0 2).toNat
  let o := c.ofSlot i
  if h.extractLsb' 18 46 = 0 && o.st ≠ .free && o.gen = h.extractLsb' 2 16 then some i else none

/-- An order-first instruction faults with ILLEGAL at issue where its handle names no transaction or `ok` fails. -/
def ofFault (c : Core) (h : Word) (ok : OfSlot → Bool) : Option FaultInfo :=
  match ofNamed c h with
  | none => some (c.faultHere .s cILLEGAL)
  | some i => if ok (c.ofSlot i) then none else some (c.faultHere .s cILLEGAL)

/-- An OFSUB of the handle's slot has not been accepted yet. -/
def ofBusy (c : Core) (h : Word) : Bool :=
  match ofNamed c h with | some i => decide ((c.ofSlot i).st = .submitting) | none => false

def freeSlots (c : Core) : List Nat := (List.range 4).filter (fun i => decide ((c.ofSlot i).st = .free))

/-- OFOPEN takes a free slot, which one is open (09 R212, log 10). -/
def execOfopen (sd : BitVec 6) (tk : BitVec 3) (s : State) : Host.Outcome State Fault Refusal :=
  issue (sNeed s tk [sd]) (if freeSlots s.me = [] then some (s.me.faultHere .s cILLEGAL) else none) s (fun s =>
    let c := s.me
    let free := freeSlots c
    let i := free.getD (Config.freeSlot free % free.length) 0
    let g := (c.ofSlot i).gen + 1
    let c := (c.setOf i { OfSlot.reset with st := .opened, gen := g }).setS sd
      ((0 : BitVec 46) ++ g ++ BitVec.ofNat 2 i)
    complete .s tk (s.setMe c))

/-- The range an OFDECL adds, or the code of its error response (09 R213). -/
def declRange (s : State) (q : Word) (count : Nat) (write : Bool) : Except Nat OfRange :=
  match formFault q with
  | some e => .error e
  | none =>
    match qSpc q with
    | 0 =>
      let first := qVa q / 4096
      if 2 ^ 45 < first + count then .error cPROTECT else .ok { space := 0, core := 0, first := first, count := count, write := write }
    | 1 =>
      let first := qAddr q / 4096
      if 2048 < first + count then .error cPROTECT else .ok { space := 1, core := s.cur, first := first, count := count, write := write }
    | _ =>
      match nTarget s.me.placeOf s.cur q with
      | none => .error cPLACE
      | some t => match tagCheck s s.cur t with
        | some e => .error e
        | none =>
          let first := qAddr q / 4096
          if 2048 < first + count then .error cPROTECT else .ok { space := 1, core := t, first := first, count := count, write := write }

def execOfdecl (sh sa sc : BitVec 6) (rw : BitVec 4) (tk : BitVec 3) (s : State) : Host.Outcome State Fault Refusal :=
  let c := s.me
  let h := c.getS sh
  let q := c.getS sa
  let count := (c.getS sc).toNat
  let ill := ofFault c h (fun o => decide (o.st = .opened) && decide (o.ranges.length < 16) && decide (1 ≤ count)
    && decide (count ≤ 65536) && decide (qSpc q ≤ 2))
  issue { sNeed s tk [sh, sa, sc] with busy := [sh, sa, sc].any (sBusy c) || ofBusy c h } ill s (fun s =>
    match declRange s q count (decide (rw = 1)) with
    | .error e => unitFault s.cur (accFault e 0 (s.me.pcOf .s) q) s
    | .ok r =>
      complete .s tk (s.onMe (fun c => match ofNamed c h with
        | some i => c.setOf i { c.ofSlot i with ranges := (c.ofSlot i).ranges ++ [r] }
        | none => c)))

/-- OFSUB: the transaction is on its way to its die's sequencer, which accepts it when its tiles are translated
(09 R214, 21 R388). -/
def execOfsub (sh : BitVec 6) (tk : BitVec 3) (s : State) : Host.Outcome State Fault Refusal :=
  let h := s.me.getS sh
  issue { sNeed s tk [sh] with busy := sBusy s.me sh || ofBusy s.me h } (ofFault s.me h (fun o => decide (o.st = .opened))) s (fun s =>
    let c := s.me
    match ofNamed c h with
    | none => s
    | some i =>
      let c' := c.setOf i { c.ofSlot i with st := .submitting }
      s.setMe ({ c' with subs := c'.subs ++ [(i, s.now, c.pcOf .s, fifosPushed .s (c.tokenSet .s tk), (c.stream .s).path)] }.advancePc .s s.now 1))

def ofAwait (h : Word) : Nat := (h.extractLsb' 0 8).toNat

/-- The transaction ends and its slot is free; its generation stays. -/
def Core.freeOf (c : Core) (i : Nat) : Core := c.setOf i { OfSlot.reset with gen := (c.ofSlot i).gen }

def execOfwait (pd : BitVec 4) (sh : BitVec 6) (e : BitVec 5) (tk : BitVec 3) (s : State) :
    Host.Outcome State Fault Refusal :=
  let h := s.me.getS sh
  issue { sNeed s tk [sh] with bound := some e, busy := sBusy s.me sh || ofBusy s.me h,
                               events := [{ kind := 0x6, obj := 0, await := ofAwait h }] }
    (ofFault s.me h (fun o => decide (o.st = .submitted) || decide (o.st = .granted))) s (fun s =>
      match ofNamed s.me h with
      | none => s
      | some i =>
        let o := s.me.ofSlot i
        if o.lost then
          complete .s tk (releaseTx o.tx (s.onMe (fun c => ((c.setP pd false).setCause cUNREACH).freeOf i)))
        else complete .s tk (s.onMe (fun c => (c.setP pd true).setOf i { o with st := .granted })))

/-- OFEND (09 R217). -/
def execOfend (sh : BitVec 6) (tk : BitVec 3) (s : State) : Host.Outcome State Fault Refusal :=
  let h := s.me.getS sh
  let waits : Bool := match ofNamed s.me h with | some i => decide ((s.me.ofSlot i).st = .submitted) | none => false
  issue { sNeed s tk [sh] with busy := sBusy s.me sh || ofBusy s.me h,
                               events := if waits then [{ kind := 0x6, obj := 0, await := ofAwait h }] else [] }
    (ofFault s.me h (fun _ => true)) s (fun s =>
      match ofNamed s.me h with
      | none => s
      | some i =>
        let o := s.me.ofSlot i
        match o.st with
        | .opened => complete .s tk (s.onMe (fun c => c.freeOf i))
        | .granted =>
          let c := s.me
          let p : Pending := { e := .s, dredOnly := false, far := true, ord := c.sOrd, pc := c.pcOf .s, kind := .ofend o.tx,
                               places := fifosPushed .s (c.tokenSet .s tk), path := (c.stream .s).path }
          settle s.cur (s.setMe ({ c.freeOf i with pend := c.pend ++ [p] }.advancePc .s s.now 1))
        | _ => complete .s tk (releaseTx o.tx (s.onMe (fun c => c.freeOf i))))

/- The sequencers. -/

/-- Adds a unit to a transaction's distinct units; a unit declared both ways counts for write (21 R389). -/
def addUnit (us : List (OfUnit × Bool)) (u : OfUnit) (write : Bool) : List (OfUnit × Bool) :=
  if us.any (fun x => x.1 = u) then us.map (fun x => if x.1 = u then (u, x.2 || write) else x) else us ++ [(u, write)]

/-- Whether a D tile is declared for write in any range. -/
def tileWrites (rs : List OfRange) (tile : Nat) : Bool :=
  rs.any (fun r => r.space = 0 && r.write && r.first ≤ tile && decide (tile < r.first + r.count))

/-- The units of a transaction's ranges, each D tile translated, a write-declared one as a write (09 R214). -/
def txUnits (g : Nat) (all : List OfRange) : List OfRange → State → Except (Nat × Nat) (List (OfUnit × Bool)) × State
  | [], s => (.ok [], s)
  | r :: rs, s =>
    let rec tiles : Nat → Nat → List (OfUnit × Bool) → State → Except (Nat × Nat) (List (OfUnit × Bool)) × State
      | 0, _, us, s => (.ok us, s)
      | k + 1, t, us, s =>
        match translateVa g (4096 * t) (tileWrites all t) s with
        | (.error e, s) => (.error (e, 4096 * t), s)
        | (.ok pa, s) => tiles k (t + 1) (addUnit us (.tile (pa / 4096)) (tileWrites all t)) s
    let here := if r.space = 0 then tiles r.count r.first [] s
      else (.ok ((List.range r.count).map (fun k => (OfUnit.slot r.core (r.first + k), r.write))), s)
    match here with
    | (.error e, s) => (.error e, s)
    | (.ok us, s) =>
      match txUnits g all rs s with
      | (.error e, s) => (.error e, s)
      | (.ok vs, s) => (.ok (vs.foldl (fun acc x => addUnit acc x.1 x.2) us), s)

/-- The core whose transaction stands in a batch. -/
def txCore (m : Meridian) (id : Nat) : Nat := ((m.txs.find? (fun t => decide (t.id = id))).map OfTx.g).getD 0

/-- Enters a transaction of core g in its die's batch: after those accepted before, and in one cycle by ascending g (21 R388). -/
def addPending (m : Meridian) (id now g : Nat) (l : List (Nat × Nat)) : List (Nat × Nat) :=
  let later (x : Nat × Nat) : Bool := decide (x.2 = now) && decide (g < txCore m x.1)
  l.filter (fun x => !later x) ++ (id, now) :: l.filter later

/-- An OFSUB of core g is accepted, or waits on: never earlier than 4 cycles after it issued (21 R388). The first translation fault
gives an error response, and the transaction stays OPEN (09 R214). -/
def acceptSub (g slot : Nat) (s : State) : State :=
  let c := s.core g
  match c.subs.find? (fun x => x.1 = slot) with
  | none => s
  | some (i, since, pc, places, path) =>
    if s.now < since + 4 then s
    else
      let o := c.ofSlot i
      let s := s.setCore g { c with subs := c.subs.filter (fun x => decide (x.1 ≠ slot)) }
      match txUnits g o.ranges o.ranges s with
      | (.error x, s) =>
        -- a walk of one of its pages is under way, or waits for a place (07 R143)
        if walkWaits x.1 then s.setCore g { s.core g with subs := c.subs }
        else
        let s := s.setCore g ((s.core g).setOf i { o with st := .opened })
        unitFault g { code := x.1, src := 0, pc := pc, addr := BitVec.ofNat 64 x.2 } s
      | (.ok us, s) =>
        let m := s.meridian
        let die := coreDie g
        let tx : OfTx := { id := m.nextTx, g := g, slot := i, die := die, units := us, arrived := [], beat := none, released := false }
        let m := { m with nextTx := m.nextTx + 1, txs := m.txs ++ [tx],
                          pending := Tbl.set [] m.pending die (addPending m tx.id s.now g (Tbl.get [] m.pending die)) }
        let lost := us.any (fun u => fencedDie s (unitDie (match u.1 with | .tile t => .tile (4096 * t) | x => x)))
        let c := ((s.core g).setOf i { o with st := .submitted, tx := tx.id, lost := lost }).deliverAll path places
        endStream g .s { s.setCore g c with meridian := m }

/-- OFSUB_ACCEPTANCE: where a tile missed, when its walk has returned (21 R388). -/
def execOfsubAcceptance (g slot : Nat) (s : State) : Host.Outcome State Fault Refusal := .next (acceptSub g slot s)

/-- Every D tile of a slot's ranges hits in the core's translation cache (21 R388). -/
def allHit (c : Core) (slot : Nat) : Bool :=
  (c.ofSlot slot).ranges.all (fun r => decide (r.space ≠ 0)
    || (List.range r.count).all (fun k => c.tlb.any (fun t => t.covers (4096 * (r.first + k)))))

/-- The cycles in which the OFSUBs of core g whose tiles all hit are accepted: 4 after they issued (21 R388). -/
def subTimes (c : Core) : List Nat := (c.subs.filter (fun x => allHit c x.1)).map (fun x => x.2.1 + 4)

/-- Every OFSUB of core g whose time has come and whose tiles all hit is accepted. -/
def acceptSubs (s : State) (g : Nat) : State :=
  let c := s.core g
  if c.subs.isEmpty || c.unit.isNone || c.stopped then s else ((c.subs.filter (fun x => allHit c x.1)).map Prod.fst).foldl (fun s i => acceptSub g i s) s

/-- The four dies. -/
def dies : List Nat := [0, 1, 2, 3]

/-- BEAT_END: at the end of its beat a sequencer sends its batch, of at most 64 transactions in acceptance order, to
every sequencer; its own copy is there at once (18 R360). A fenced die's batch is empty. -/
def execBeatEnd (die : Nat) (s : State) : Host.Outcome State Fault Refusal :=
  let m := s.meridian
  let b := Tbl.get 0 m.beats die
  if s.now < 600 * (b + 1) || 4 ≤ die then .next s
  else
    let mine := Tbl.get [] m.pending die
    let batch := ((mine.filter (fun x => decide (x.2 < 600 * (b + 1)))).take 64).map Prod.fst
    let sent := if fencedDie s die then [] else batch
    let rest := mine.filter (fun x => !batch.contains x.1)
    let mk (d : Nat) : OfBatch := { dst := d, src := die, beat := b, txs := sent }
    .next { s with meridian := { m with
      beats := Tbl.set 0 m.beats die (b + 1), pending := Tbl.set [] m.pending die rest,
      sent := m.sent ++ (dies.filter (fun d => decide (d ≠ die))).map mk, got := m.got ++ [mk die] } }

/-- Merges the beats for which a sequencer holds all four batches: by die rank, then by position (18 R361). The order
is one; the first sequencer to merge a beat writes it down. -/
def mergeBeats : Nat → Nat → Meridian → Meridian
  | 0, _, m => m
  | fuel + 1, dst, m =>
    let b := Tbl.get 0 m.merged dst
    let mine := m.got.filter (fun x => x.dst = dst && x.beat = b)
    if mine.length < 4 then m
    else
      let txs := dies.flatMap (fun d => (mine.filter (fun x => x.src = d)).flatMap OfBatch.txs)
      let first := !(m.order.any (fun x => x.1 = b))
      mergeBeats fuel dst { m with
        merged := Tbl.set 0 m.merged dst (b + 1)
        got := m.got.filter (fun x => !(x.dst = dst && x.beat = b))
        order := if first then m.order ++ txs.map (fun t => (b, t)) else m.order
        txs := m.txs.map (fun t => if txs.contains t.id then { t with beat := some b } else t) }

/-- BATCH_ARRIVAL (18 R360, R361). -/
def execBatchArrival (dst src : Nat) (s : State) : Host.Outcome State Fault Refusal :=
  let m := s.meridian
  match m.sent.find? (fun x => x.dst = dst && x.src = src) with
  | none => .next s
  | some x => .next { s with meridian := mergeBeats 4096 dst { m with sent := m.sent.erase x, got := m.got ++ [x] } }

/-- Enters one request in a unit's queue. -/
def addReq (qs : List (OfUnit × List OfReq)) (u : OfUnit) (r : OfReq) : List (OfUnit × List OfReq) :=
  if qs.any (fun x => x.1 = u) then qs.map (fun x => if x.1 = u then (u, x.2 ++ [r]) else x) else qs ++ [(u, [r])]

/-- The unit as its queue names it: a tile by the address of its first byte. -/
def queueUnit : OfUnit → OfUnit
  | .tile t => .tile (4096 * t)
  | u => u

/-- Marks a transaction's slot as granted. -/
def markReady (t : OfTx) (s : State) : State :=
  let c := s.unitCore t.g
  let o := c.ofSlot t.slot
  if o.tx = t.id && o.st = .submitted then s.setUnitCore t.g (c.setOf t.slot { o with ready := true }) else s

/-- GRANT_QUEUE_TAKE: the unit queues of a die take the requests of their next beat in global order, 480 cycles after
the beat has ended and every sequencer has merged it (18 R362). A transaction without units is granted when its own
die's queues reach its place. -/
def execGrantQueueTake (die : Nat) (s : State) : Host.Outcome State Fault Refusal :=
  let m := s.meridian
  let b := Tbl.get 0 m.taken die
  if s.now < 600 * (b + 1) + 480 || dies.any (fun d => decide (Tbl.get 0 m.merged d ≤ b)) || 4 ≤ die then .next s
  else
    let txs := (m.order.filter (fun x => x.1 = b)).filterMap (fun x => m.txs.find? (fun t => t.id = x.2))
    let live := txs.filter (fun t => !t.released)
    let qs := live.foldl (fun qs t =>
      (t.units.filter (fun u => decide (unitDie (queueUnit u.1) = die))).foldl (fun qs u =>
        addReq qs (queueUnit u.1) { tx := t.id, write := u.2, granted := false }) qs) m.queues
    let taken := Tbl.set 0 m.taken die (b + 1)
    let gone (t : OfTx) : Bool := t.released && (match t.beat with | some x => dies.all (fun d => decide (x < Tbl.get 0 taken d)) | none => false)
    let s := { s with meridian := { m with queues := qs, taken := taken, txs := m.txs.filter (fun t => !gone t) } }
    let s := (live.filter (fun t => t.units.isEmpty && decide (t.die = die))).foldl (fun s t => markReady t s) s
    .next (grantAll s)

/-- GRANT_ARRIVAL: the n-th grant on its way reaches its core (18 R362). -/
def execGrantArrival (n : Nat) (s : State) : Host.Outcome State Fault Refusal :=
  let m := s.meridian
  match m.grants[n]? with
  | none => .next s
  | some x =>
    if s.now < x.due then .next s
    else
      let txs := m.txs.map (fun t => if t.id = x.tx then { t with arrived := t.arrived ++ [x.unit] } else t)
      let s := { s with meridian := { m with grants := m.grants.eraseIdx n, txs := txs } }
      match txs.find? (fun t => t.id = x.tx) with
      | none => .next s
      | some t => .next (if t.units.all (fun u => t.arrived.contains (queueUnit u.1)) then markReady t s else s)

end Sys2Proof.Machine
end

