-- ==== Sys2Proof/Machine/Special.lean ====
section
/-!
DEFINITION. The tag table (07 R155 to R158, 09 R205) and the special registers (09 R219 to R221).
-/
namespace Sys2Proof.Machine

/- Tag table entries (07 R155): V 0, DTY 1, PIN 2, SLOT [13:3], TAG [59:15]. -/
def tagV (t : Word) : Bool := t.getLsbD 0
def tagDirty (t : Word) : Bool := t.getLsbD 1
def tagPin (t : Word) : Bool := t.getLsbD 2
def tagSlot (t : Word) : BitVec 11 := t.extractLsb' 3 11
def tagTag (t : Word) : BitVec 45 := t.extractLsb' 15 45

def Core.tagEntry (c : Core) (set way : Nat) : Word := Tbl.get 0 c.tags (8 * set + way)
def Core.setTag (c : Core) (set way : Nat) (v : Word) : Core := { c with tags := Tbl.set 0 c.tags (8 * set + way) v }

/-- The recency order of an untouched set, most recent first (log 3). -/
def recencyReset : List Nat := [0, 1, 2, 3, 4, 5, 6, 7]
def Core.recent (c : Core) (set : Nat) : List Nat := Tbl.get recencyReset c.recency set
def Core.touch (c : Core) (set way : Nat) : Core :=
  { c with recency := Tbl.set recencyReset c.recency set (way :: (c.recent set).filter (fun w => decide (w ≠ way))) }
def Core.untouch (c : Core) (set way : Nat) : Core :=
  { c with recency := Tbl.set recencyReset c.recency set ((c.recent set).filter (fun w => decide (w ≠ way)) ++ [way]) }

/-- The way that holds a tag. -/
def tagHit (c : Core) (set : Nat) (tag : BitVec 45) : Option Nat :=
  (List.range 8).find? (fun w => tagV (c.tagEntry set w) && decide (tagTag (c.tagEntry set w) = tag))

/-- On a miss: the lowest invalid way, else the least recent unpinned way (07 R157). -/
def tagVictim (c : Core) (set : Nat) : Option Nat :=
  match (List.range 8).find? (fun w => !tagV (c.tagEntry set w)) with
  | some w => some w
  | none => (c.recent set).reverse.find? (fun w => !tagPin (c.tagEntry set w))

/-- TLK's word (07 R157). -/
def tlkWord (set : Nat) (hit full : Bool) (way : Nat) (e : Word) : Word :=
  (0 : BitVec 37) ++ BitVec.ofNat 8 set ++ (if full then (0 : BitVec 11) else tagSlot e) ++ (0 : BitVec 1)
    ++ BitVec.ofBool (!full && tagDirty e) ++ BitVec.ofBool (!full && tagV e) ++ BitVec.ofNat 3 way
    ++ BitVec.ofBool full ++ BitVec.ofBool hit

/-- TLK's result and its effect on recency (07 R156, R157). -/
def tagLookup (c : Core) (va : Nat) : Word × Core :=
  let set := tagSet va
  match tagHit c set (BitVec.ofNat 45 (va / 4096)) with
  | some w => (tlkWord set true false w (c.tagEntry set w), c.touch set w)
  | none => match tagVictim c set with
    | some w => (tlkWord set false false w (c.tagEntry set w), c)
    | none => (tlkWord set false true 0 0, c)

/-- The tag-table operations need SPC D (09 R205). -/
def tagFault (s : State) (sa : BitVec 6) : Option FaultInfo :=
  if qSpc (s.me.getS sa) = 0 then none else some (s.me.faultHere .s cILLEGAL)

def execTlk (sd sa : BitVec 6) (tk : BitVec 3) (s : State) : Host.Outcome State Fault Refusal :=
  issue (sNeed s tk [sd, sa]) (tagFault s sa) s (fun s => complete .s tk (s.onMe (fun c =>
    let r := tagLookup c (qVa (c.getS sa))
    r.2.setS sd r.1)))

def execTins (sa sb : BitVec 6) (way : BitVec 4) (tk : BitVec 3) (s : State) : Host.Outcome State Fault Refusal :=
  issue (sNeed s tk [sa, sb]) (tagFault s sa) s (fun s => complete .s tk (s.onMe (fun c =>
    let va := qVa (c.getS sa)
    let set := tagSet va
    let tag := BitVec.ofNat 45 (va / 4096)
    let b := c.getS sb
    let e : Word := (0 : BitVec 4) ++ tag ++ (0 : BitVec 1) ++ b.extractLsb' 3 11 ++ b.extractLsb' 1 2 ++ (1 : BitVec 1)
    let c := match (List.range 8).find? (fun w => decide (w ≠ way.toNat) && tagV (c.tagEntry set w) && decide (tagTag (c.tagEntry set w) = tag)) with
      | some w => c.setTag set w (c.tagEntry set w &&& ~~~1)
      | none => c
    (c.setTag set way.toNat e).touch set way.toNat)))

def execTinv (sa : BitVec 6) (way : BitVec 4) (tk : BitVec 3) (s : State) : Host.Outcome State Fault Refusal :=
  issue (sNeed s tk [sa]) (tagFault s sa) s (fun s => complete .s tk (s.onMe (fun c =>
    let set := tagSet (qVa (c.getS sa))
    (c.setTag set way.toNat (c.tagEntry set way.toNat &&& ~~~1)).untouch set way.toNat)))

def execTrd (sd sa : BitVec 6) (way : BitVec 4) (tk : BitVec 3) (s : State) : Host.Outcome State Fault Refusal :=
  issue (sNeed s tk [sd, sa]) (tagFault s sa) s (fun s => complete .s tk (s.onMe (fun c =>
    c.setS sd (c.tagEntry (tagSet (qVa (c.getS sa))) way.toNat))))

/- Special registers. -/

/-- COREID (09 R221). -/
def coreIdWord (g : Nat) : Word :=
  BitVec.ofNat 64 (coreX g + 8 * coreY g + 64 * coreDie g + 256 * g)

/-- UICTL (06 R133). -/
def Core.uictl (c : Core) : Word :=
  BitVec.ofNat 64 ((if c.uien then 1 else 0) + (if c.uiact then 2 else 0) + 4 * c.notifyQ.length)

/-- The depths of FIFOs `f` to `f + n - 1`, one a byte (06 R119). -/
def Core.slipWord (c : Core) (f n : Nat) : Word :=
  BitVec.ofNat 64 ((List.range n).foldl (fun acc k => acc + c.depth (f + k) % 128 * 256 ^ k) 0)

/-- The value RSR reads (09 R219, R220). -/
def readSr (s : State) (g : Nat) (sr : Nat) : Word :=
  let c := s.core g
  if 0x040 ≤ sr && decide (sr ≤ 0x04F) then Tbl.get 0xFF c.bf (sr - 0x040)
  else if 0x080 ≤ sr && decide (sr ≤ 0x0BF) then c.barrier (sr - 0x080)
  else match sr with
    | 0x000 => c.fpctl
    | 0x001 => c.fstk
    | 0x002 => c.dbnd
    | 0x003 => c.trapcause
    | 0x004 => c.brec
    | 0x008 => coreIdWord g
    | 0x009 => c.unitTag.zeroExtend 64
    | 0x00A => BitVec.ofNat 64 (s.now - c.cycBase)
    | 0x010 => Tbl.get 0 c.dom 1
    | 0x011 => Tbl.get 0 c.dom 2
    | 0x012 => Tbl.get 0 c.dom 3
    | 0x013 => Tbl.get 0 c.dom 4
    | 0x018 => Tbl.get 0 c.tks 0
    | 0x019 => Tbl.get 0 c.tks 1
    | 0x01A => Tbl.get 0 c.tks 2
    | 0x01B => Tbl.get 0 c.tks 3
    | 0x01C => c.slipWord 0 8
    | 0x01D => c.slipWord 8 4
    | 0x01E => c.rb.zeroExtend 64
    | 0x020 => c.uivec
    | 0x021 => c.uictl
    | 0x022 => c.uiinfo
    | 0x023 => c.uiepc
    | _ => 0

def execRsr (sd : BitVec 6) (sr : BitVec 12) (tk : BitVec 3) (s : State) : Host.Outcome State Fault Refusal :=
  issue (sNeed s tk [sd]) none s (fun s =>
    complete .s tk (s.onMe (fun c => c.setS sd (readSr s s.cur sr.toNat))))

/-- The values BFn refuses (07 R149). -/
def bfRefused (v : Word) : Bool :=
  let fmt := fmtOfCode (bfFmt v)
  v &&& 0xFFFFFFFFFF80FC00 ≠ 0
    || (bfFmt v ≠ 0xFF && fmt.isNone)
    || (bfScaled v && !(match fmt with | some f => f.scalable | none => false))
    || (bfApack v && !(match fmt with | some f => f.width = 8 || f.width = 16 || f.width = 32 | none => false))
    || (bfScaled v && bfApack v)

/-- The effect of WSR (09 R219): RW fields take the written bits, W1C fields clear where a 1 is written, RO fields
ignore writes. The block at UIVEC stays checked in the fetch buffer only while EN is set (06 R116). In one cycle RM is as a VSETF leaves it (01 R17), and a flag that an engine sets stays set (R21). -/
def writeSr (c : Core) (sr : Nat) (v : Word) : Core :=
  if 0x040 ≤ sr && decide (sr ≤ 0x04F) then
    { c with bf := Tbl.set 0xFF c.bf (sr - 0x040) v, cyc := { c.cyc with rank := max c.cyc.rank 5 } }
  else match sr with
    | 0x000 => { c with fpctl := if c.cyc.rm then (v &&& 0x3FFC) ||| (c.fpctl &&& 3) else v &&& 0x3FFF }
    | 0x001 => { c with fstk := fstkWrite c.fstk (v &&& ~~~(c.cyc.flags.zeroExtend 64)) }
    | 0x002 => { c with dbnd := v &&& 0x1F1F1F1F }
    | 0x003 => { c with trapcause := v &&& 0xFF }
    | 0x020 => { c with uivec := v &&& 0xFFFFFFFF, hBlk := if c.uivec = v &&& 0xFFFFFFFF then c.hBlk else none }
    | 0x021 => { c with uien := v.getLsbD 0, hBlk := if v.getLsbD 0 then c.hBlk else none }
    | _ => c

def execWsr (ss : BitVec 6) (sr : BitVec 12) (tk : BitVec 3) (s : State) : Host.Outcome State Fault Refusal :=
  let isBf := decide (0x040 ≤ sr.toNat) && decide (sr.toNat ≤ 0x04F)
  issue { sNeed s tk [ss] with busy := sBusy s.me ss || (isBf && !bankOpen s s.cur 5) } (if isBf && bfRefused (s.me.getS ss) then some (s.me.faultHere .s cILLEGAL) else none) s (fun s =>
    complete .s tk (s.onMe (fun c => writeSr c sr.toNat (c.getS ss))))

end Sys2Proof.Machine
end

