-- ==== Sys2Proof/Machine/StreamEvents.lean ====
section
/-!
DEFINITION. The events of a stream: block signature checks (06 R116), illegal words (08 R179), cycle-bound overruns
of instruction waits (06 R124, R125), entries of the user-level handler (06 R134, 20 R373), answers of SYSC
(09 R195), and walks (07 R142).
-/
namespace Sys2Proof.Machine

/-- One byte into the CRC-16 of R80: polynomial 0x1021, most significant bit first. -/
def crcByte (crc : BitVec 16) (b : Byte) : BitVec 16 :=
  (List.range 8).foldl (fun (c : BitVec 16) _ => if c.getLsbD 15 then (c <<< 1) ^^^ 0x1021 else c <<< 1)
    (crc ^^^ ((b.zeroExtend 16) <<< 8))

/-- The CRC-16 of bytes in memory order, from 0x0000 (04 R80). -/
def crc16 (bs : List Byte) : BitVec 16 := bs.foldl crcByte 0

/-- Fills every fetch line of [off, off + n). -/
def fillRange (g : Nat) (e : Eng) : Nat → Nat → State → Except (Nat × Nat) Unit × State
  | 0, _, s => (.ok (), s)
  | k + 1, off, s =>
    match fillLine g e off s with
    | (.error x, s) => (.error x, s)
    | (.ok _, s) => fillRange g e k (off + 256) s

/-- The cycles of a block's check: ceil(len/16) (R401). The first instruction of a handler issues within 12 cycles of its
record, 4 of which the transfer takes, so that no more than 8 of them are left to a handler's block (R134, log 47). -/
def checkCycles (handler : Bool) (len : Nat) : Nat :=
  let n := (len + 15) / 16
  if handler then min n 8 else n

/-- BLOCK_SIGNATURE_CHECK: the SIG word at which the stream stands is checked against the CRC of the `len` words that
follow (06 R116). The check takes ceil(len/16) cycles after the one before it or after the transfer's 4 cycles
(R401); then the stream goes on at the word after the SIG word, or where a handler's return resumes it. A kernel's blocks are
checked on its first pass only (11 R266), the handler's block once each time it is fetched (R116). -/
def execBlockSignatureCheck (e : Eng) (len : BitVec 9) (crc : BitVec 16) (s : State) : Host.Outcome State Fault Refusal :=
  let g := s.cur
  let off := s.me.pcOf e
  let n := 4 * len.toNat
  let again := (decide (e = .v) && (match s.me.vloop with | some l => decide (1 ≤ l.pass) | none => false))
    || (decide (e = .s) && decide (s.me.hBlk = some (off, off + 4 + n)))
  match fillRange g e (if n = 0 then 0 else (off + 3 + n) / 256 - (off + 4) / 256 + 1) (off + 4) s with
  | (.error x, s) => .next (fetchFails g e x s)
  | (.ok _, s) =>
    let st := s.me.stream e
    if again then
      .next (s.onMe (fun c => c.setStream e { st with lo := off, hi := off + 4 + n, pc := st.resume.getD (off + 4), resume := none,
                                                      chkEnd := if e = .s then st.ready else st.chkEnd }))
    else if crc16 (Tbl.getRun 0 st.buf (off + 4) n) ≠ crc || len = 0 || decide ((s.me.text e).2 < off + 4 + n) then
      .next (unitFault g { code := cSIGMISMATCH, src := engNum e, pc := off, addr := s.me.textAddr e off } s)
    else
      let handler := decide (e = .s) && s.me.uien && decide (off = s.me.uivec.toNat % 2 ^ 32)
      let fin := (if st.hi = off && st.lo < st.hi then st.chkEnd else st.ready)
        + checkCycles (handler && s.me.uiact) len.toNat
      let st := { st with lo := off, hi := off + 4 + n, pc := st.resume.getD (off + 4), resume := none,
                          chkEnd := fin, ready := max st.ready fin }
      .next (s.onMe (fun c => { c with hBlk := if handler then some (off, off + 4 + n) else c.hBlk }.setStream e st))

/-- ILLEGAL_WORD: the stream faults with ILLEGAL before the word issues (08 R179). -/
def execIllegalWord (e : Eng) (s : State) : Host.Outcome State Fault Refusal :=
  .next (unitFault s.cur (s.me.faultHere e cILLEGAL) s)

/-- A core has use for a page that its translation cache does not hold: an access that stands at a queue's head names it, a
command runs, or a stream fetches from it. -/
def needsPage (s : State) (g page : Nat) : Bool :=
  let c := s.core g
  let head (l : List Access) : Bool := (l.take 1).any (fun a => a.pieces.any (fun p => qSpc p.qa = 0 && decide (qVa p.qa / 2 ^ 21 = page)))
  c.unit.isSome && !c.tlb.any (fun t => t.covers (page * 2 ^ 21))
    && ([Eng.s, .v].any (fun e => head (c.loads e) || head (c.stores e))
      || (c.mcmds ++ c.kcmds).any (fun x => x.started.isSome)
      || [Eng.s, .v, .m, .k].any (fun e => !(c.stream e).ended && decide (((c.text e).1 + c.pcOf e) / 2 ^ 21 = page)))

/-- The end of a page's walk: every core that has joined it caches the page, or is to receive the fault (07 R142, R143). -/
def endWalk (k : Nat) (die : Nat) (m : Miss) (s : State) : State :=
  let va := m.page * 2 ^ 21
  let w := walkAt s die va false false
  let s := noteWalk die va (s.core (m.cores.headD 0)).unitTag w s
  let s := s.setMisses k ((s.missTable k).filter (fun x => decide (x.page ≠ m.page)))
  m.cores.foldl (fun s g =>
    let c := s.core g
    { s.setCore g (match w.res with
      | .ok t => cachePage c s.tick t
      | .error e => { c with walkFault := c.walkFault ++ [(m.page, e)] }) with tick := s.tick + 1 }) s

/-- A miss of core g enters its walker's table where there is room, or the walk of a page that stands there ends. -/
def walkTurn (g va : Nat) (s : State) : State :=
  let die := coreDie g
  let k := walkerOf die va
  let page := va / 2 ^ 21
  match (s.missTable k).find? (fun m => decide (m.page = page)) with
  | some m => endWalk k die m s
  | none =>
    if needsPage s g page && decide ((s.missTable k).length < 512) then
      s.setMisses k (s.missTable k ++ [{ page := page, cores := [g] }])
    else s

/-- TRANSLATION_WALK (07 R142, R143). -/
def execTranslationWalk (g : Nat) (va : BitVec 57) (s : State) : Host.Outcome State Fault Refusal := .next (walkTurn g va.toNat s)

/- Overruns (06 R124 to R126). -/

/-- A trap record in BREC's layout. -/
def brecOf (strm kind obj pos await : Nat) (dead : Bool) (pc : Nat) : Word :=
  BitVec.ofNat 32 pc ++ (0 : BitVec 3) ++ BitVec.ofBool dead ++ BitVec.ofNat 8 await ++ BitVec.ofNat 8 (min pos 255)
    ++ BitVec.ofNat 6 obj ++ BitVec.ofNat 4 kind ++ BitVec.ofNat 2 strm

/-- The place of a record among those of one cycle: ascending stream, an instruction wait before commands, commands in
issue order (06 R126). -/
def boundRank (strm : Nat) (cmd : Option Nat) : Nat := strm * 2 ^ 40 + (match cmd with | none => 0 | some n => n + 1)

/-- Inserts a record into the BOUND queue, in the order of overrun cycles and of the ranks within one (06 R126). -/
def insertBound (r : BoundRec) : List BoundRec → List BoundRec
  | [] => [r]
  | x :: xs => if r.at_ < x.at_ || (r.at_ = x.at_ && decide (r.rank < x.rank)) then r :: x :: xs else x :: insertBound r xs

/-- A record reaches the core: it is held in the BOUND queue, or ends the unit where S cannot take it (06 R126,
20 R373). -/
def raiseBound (g : Nat) (cmd : Option Nat) (r : Word) (s : State) : State :=
  let c := s.core g
  let dead := r.getLsbD 28
  if (c.stream .s).ended || (!c.uien && dead && r.extractLsb' 0 2 = 0) then boundFault g r s
  else s.setCore g { c with boundQ := insertBound { record := r, at_ := s.now, rank := boundRank (r.extractLsb' 0 2).toNat cmd } c.boundQ }

/-- Whether a hold can never end: an empty FIFO or queue whose producer has ended, or a place in a full one whose consumer
has ended (06 R125). -/
def holdDead (c : Core) (h : Hold) : Bool :=
  match h.kind with
  | 0x0 => (c.fifo h.obj).isEmpty && (c.stream (engOfNum (fifoFrom h.obj))).ended
  | 0x1 => decide (c.depth h.obj ≤ c.occupancy h.obj) && (c.stream (engOfNum (fifoDest h.obj))).ended
  | 0x2 => decide ((c.queue h.obj).length < h.await) && (c.stream (engOfNum (queueFrom h.obj))).ended
  | 0x3 => decide (queueDepth h.obj ≤ (c.queue h.obj).length) && (c.stream (engOfNum (queueDest h.obj))).ended
  | _ => false

/-- The occupancy that POS reports. -/
def holdPos (s : State) (g : Nat) (e : Eng) (h : Hold) : Nat :=
  let c := s.core g
  match h.kind with
  | 0x0 | 0x1 => c.occupancy h.obj
  | 0x2 | 0x3 => (c.queue h.obj).length
  | 0xA => if h.obj = 0 then (c.loads e).length else (c.stores e).length
  | 0xB => 64
  | 0x7 => h.obj
  | _ => 0

/-- The hold that an overrun of a wait reports. MODEL'S CHOICE (log 65): of several awaited items the first that can never end, else
the first that stands, in the order token pops, token places, queue entries and places, and the event or phase; each token pop awaits one
token. R124 does not say which is reported. -/
def waitHoldOf (s : State) (g : Nat) (e : Eng) (w : Wait) : Option Hold :=
  match w.holds.find? (holdDead (s.core g)) with
  | some h => some h
  | none => w.holds.find? (holdStands s g e)

/-- The cycle in which a wait overruns while the hold stands: 2^e after its start; none where it is unbounded. A place in a
load or store queue is bounded by DBND. MODEL'S CHOICE (log 65): of a V access that awaits SQ entries and such a place the bound is
that of the hold that it reports. -/
def waitDeadline (w : Wait) (h : Hold) : Option Nat :=
  let e := if h.kind = 0xA then w.dbnd else w.bound
  if e = 0 then none else some (w.start + 2 ^ e)

/-- The overrun of stream `e`'s instruction wait: its count has reached 2^e, or it can never end; once for each wait
(06 R123 to R125). A stream that has ended its unit in this cycle waits no more. -/
def overrunWait (g : Nat) (e : Eng) (s : State) : State :=
  let c := s.core g
  let st := c.stream e
  match st.wait with
  | none => s
  | some w =>
    match waitHoldOf s g e w with
    | none => s
    | some h =>
      let dead := holdDead c h
      let due := match waitDeadline w h with | some t => decide (t ≤ s.now) | none => false
      if w.raised || !(dead || due) || (c.stopped && c.cyc.issued.getLsbD (engNum e)) then s
      else
        let await := match h.kind with
          | 0x2 => h.await - poppable s g h.obj h.await
          | 0x0 | 0x4 | 0x6 => h.await
          | _ => 0
        let obj := match h.kind with
          | 0x4 => h.obj % 64
          | 0x5 | 0x6 | 0x7 | 0x8 | 0xB => 0
          | _ => h.obj
        let s := s.setCore g (c.setStream e { st with wait := some { w with raised := true } })
        raiseBound g none (brecOf (engNum e) h.kind obj (holdPos s g e h) await dead st.pc) s

/- Entries of the handler. -/

/-- The fault of a VEC that is no block's first word (06 R134), once the word it names has been fetched. -/
def vecFault (g : Nat) (s : State) : Option FaultInfo × State :=
  let c := s.core g
  let vec := c.uivec.toNat % 2 ^ 32
  let epc := if c.uiact then c.uiepc.toNat % 2 ^ 32 else nextOffset (c.stream .s)
  let flt (code : Nat) : FaultInfo := { code := code, src := 0, pc := epc, addr := c.textAddr .s vec }
  if vec % 4 ≠ 0 then (some (flt cALIGN), s)
  else if (c.text .s).2 ≤ vec then (some (flt cPROTECT), s)
  else match fillLine g .s vec s with
    | (.error x, s) => (some (fetchFault (s.core g) .s x), s)
    | (.ok _, s) => if isSig (((s.core g).stream .s).word vec) then (none, s) else (some (flt cSIGMISMATCH), s)

/-- S stands at an instruction boundary of a running unit: an instruction is still to issue (log 60). -/
def atBoundary (c : Core) : Bool :=
  c.unit.isSome && !c.stopped && !(c.stream .s).ended && (c.stream .s).ending.isNone && c.sysc.isNone && c.undeclared.isNone

/-- BOUND_TRAP_ENTRY: S enters the handler for the oldest BOUND record, also out of a handler of a notify record,
whose record goes back to the head of its queue (20 R373). -/
def execBoundTrapEntry (g : Nat) (s : State) : Host.Outcome State Fault Refusal :=
  let c := s.core g
  match c.boundQ with
  | [] => .next s
  | r :: rs =>
    if !atBoundary c || !c.uien || (c.uiact && c.uiBound) then .next s
    else match vecFault g s with
      | (some f, s) => .next (if walkWaits f.code then s else unitFault g f s)
      | (none, s) =>
        let c := s.core g
        let r := r.record
        let c := { c with boundQ := rs, brec := r,
                          notifyQ := if c.uiact then c.uiinfo.extractLsb' 0 16 :: c.notifyQ else c.notifyQ }
        .next (enterHandler g (0x0400 + (r.extractLsb' 0 2).zeroExtend 16) true (s.setCore g c))

/-- USER_INTERRUPT_ENTRY: with EN set, ACT clear and a record queued, S enters the handler at its next instruction
boundary (06 R134); a BOUND record is taken first (06 R126). -/
def execUserInterruptEntry (g : Nat) (s : State) : Host.Outcome State Fault Refusal :=
  let c := s.core g
  match c.notifyQ with
  | [] => .next s
  | r :: rs =>
    if !atBoundary c || !c.uien || c.uiact || !c.boundQ.isEmpty then .next s
    else match vecFault g s with
      | (some f, s) => .next (if walkWaits f.code then s else unitFault g f s)
      | (none, s) => .next (enterHandler g r false (s.setCore g { s.core g with notifyQ := rs }))

/-- The answers of SYSC (09 R195). -/
def syscWord (s : State) (c : Core) (code : Nat) : Word :=
  match code with
  | 0 => 0
  | 1 => BitVec.ofNat 64 s.now
  | 2 => match c.unit with | some u => BitVec.ofNat 64 u.record | none => 0
  | 3 => match c.unit with | some u => u.handle.zeroExtend 64 | none => 0
  | _ => BitVec.allOnes 64

/-- SYSC completes: the answer stands in s8 and S goes on at pc + 4. -/
def answerSysc (g : Nat) (s : State) : State :=
  let c := s.core g
  match c.sysc with
  | none => s
  | some (code, places) =>
    let c := { c with sysc := none }.setS 8 (syscWord s c code)
    s.setCore g ((c.deliverAll (c.stream .s).path places).advancePc .s s.now 1)

end Sys2Proof.Machine
end

