-- ==== Sys2Proof/Machine/Vector.lean ====
section
/-!
DEFINITION. The V stream's element, compare, predicate, move and axis instructions (11 R247 to R257), the issue of a
V instruction with its loop and its row groups (06 R128 to R130), and VSETF and the spill slots (R265, R272).
-/
namespace Sys2Proof.Machine

/- The issue of a V instruction. -/

/-- The rows are divided into more than one group (06 R130). -/
def Core.divided (c : Core) : Bool := !c.groups.isEmpty

/-- The lowest row of a group. -/
def lowRow (rows : BitVec 16) : Nat := ((List.range 16).find? (fun r => rows.getLsbD r)).getD 16

/-- The running group as data, and a group made the running one. -/
def Core.thisGroup (c : Core) (atJoin : Option (Nat × Nat)) : Group :=
  let st := c.stream .v
  { rows := c.rows, pc := st.pc, lo := st.lo, hi := st.hi, ready := st.ready, chkEnd := st.chkEnd, atJoin := atJoin, wait := st.wait, dbnd := st.dbnd }
def Core.runGroup (c : Core) (x : Group) : Core :=
  { c with rows := x.rows }.setStream .v
    { c.stream .v with pc := x.pc, lo := x.lo, hi := x.hi, ready := x.ready, chkEnd := x.chkEnd, wait := x.wait, dbnd := x.dbnd }

/-- The group whose turn comes after rows beginning at `low`: in ascending order of the lowest row, passing over those
that wait at a join (11 R267). -/
def nextGroup (gs : List Group) (low : Nat) : Option Group :=
  let ready := gs.filter (fun x => x.atJoin.isNone)
  let least (l : List Group) : Option Group :=
    l.foldl (fun acc x => match acc with | some y => if lowRow x.rows < lowRow y.rows then some x else acc | none => some x) none
  match least (ready.filter (fun x => decide (low < lowRow x.rows))) with
  | some x => some x
  | none => least ready

/-- Another group takes the turn. -/
def Core.switchTo (c : Core) : Option Group → Core
  | none => c
  | some x => { c with groups := c.thisGroup none :: c.groups.erase x }.runGroup x

/-- After a group's turn the next group takes one. -/
def Core.rotate (c : Core) : Core := c.switchTo (nextGroup c.groups (lowRow c.rows))

/-- A group that a transfer or the check of its block holds is skipped (11 R267). -/
def Core.skipHeld (c : Core) (now : Nat) : Core :=
  if (c.stream .v).ready ≤ now then c
  else c.switchTo (nextGroup (c.groups.filter (fun x => decide (x.ready ≤ now))) (lowRow c.rows))

/-- A taken transfer or a join inside the rows: the group waits at a join, and another takes its turn; where every
group waits, the least comes again. -/
def Core.parkGroup (c : Core) (jk : Nat) : Core :=
  let gs := c.thisGroup (some (jk, (c.stream .v).pc)) :: c.groups
  match nextGroup gs (lowRow c.rows) with
  | some x => { c with groups := gs.erase x }.runGroup x
  | none =>
    match c.groups with
    | x :: _ => { c with groups := gs.erase x }.runGroup x
    | [] => c

/-- The stage predicates before pass `t` (06 R128). -/
def stagePreds (stages trips t : Nat) (c : Core) : Core :=
  { c with vp := (List.range 8).foldl (fun vp k =>
      Tbl.set 0 vp (8 + k) (if k < stages && decide (k ≤ t) && decide (t < k + trips) then BitVec.allOnes 1024 else 0)) c.vp }

/-- The kernel's end: another pass with RB lowered by one, or the loop is over (06 R128, 11 R266). -/
def Core.loopBack (c : Core) : Core :=
  match c.vloop with
  | none => c
  | some l =>
    let st := c.stream .v
    if st.pc ≠ l.hi then c
    else if l.pass + 1 < l.trips + l.stages - 1 then
      let c := { c with rb := c.rb - 1, vloop := some { l with pass := l.pass + 1 } }.setStream .v { st with pc := l.lo, lo := 0, hi := 0 }
      stagePreds l.stages l.trips (l.pass + 1) c
    else stagePreds 0 0 0 { c with vloop := none }

/-- A V instruction issues: with `lone` it is refused while rows are divided, as is one with a tk field that is not
zero; afterwards the kernel's end and the groups' turns follow (06 R128, R130). -/
def vIssue (nd : Need) (lone : Bool) (flt : Option FaultInfo) (s : State) (k : State → State) : Host.Outcome State Fault Refusal :=
  let c := s.me
  let flt := if c.divided && (lone || decide (nd.tk ≠ 0)) then some (c.faultHere .v cILLEGAL) else flt
  match issue nd flt s (fun s => (k s).onMe Core.loopBack) with
  | .next t => .next (t.onMe Core.rotate)
  | o => o

/-- A load or VAMO in flight will write this V register (06 R115 item 4). -/
def vBusy (c : Core) (r : BitVec 6) : Bool :=
  (c.loads .v).any (fun a => decide (a.dst = c.vPhys r) && a.kind.loads)

/-- What a V instruction asks for: its registers ready and its tokens. -/
def vNeed (s : State) (tk : BitVec 3) (regs : List (BitVec 6)) : Need :=
  { eng := .v, tk := tk, busy := regs.any (vBusy s.me) }

/-- The words an instruction writes: p[pg] in the issuing group's rows (R244, 06 R130). -/
def Core.vMask (c : Core) (pg : BitVec 4) : VPred := c.getVp pg &&& rowsMask c.rows

def Core.setV (c : Core) (n : BitVec 6) (x : VReg) : Core := { c with v := Tbl.set 0 c.v (c.vPhys n) x }

/-- Writes the masked bits of a V predicate; a write to p0 is discarded (R242). -/
def Core.setVp (c : Core) (n : BitVec 4) (mask x : VPred) : Core :=
  if n = 0 then c else { c with vp := Tbl.set 0 c.vp n.toNat ((Tbl.get 0 c.vp n.toNat &&& ~~~mask) ||| (x &&& mask)) }

/-- ILLEGAL at issue where a condition holds. -/
def vIllegal (s : State) (b : Bool) : Option FaultInfo := if b then some (s.me.faultHere .v cILLEGAL) else none

/-- A register result: enabled elements of width `w` receive `f c i` and set flags (R244, 01 R21). -/
def vResult (lone : Bool) (flt : Option FaultInfo) (tk : BitVec 3) (pg : BitVec 4) (vd : BitVec 6) (srcs : List (BitVec 6))
    (w : Core → Nat) (f : Core → Nat → Nat × Flags) (s : State) : Host.Outcome State Fault Refusal :=
  vIssue (vNeed s tk (vd :: srcs)) lone flt s (fun s =>
    complete .v tk (s.onMe (fun c =>
      let r := vEach (w c) (c.vMask pg) (c.getV vd) (f c)
      (c.setV vd r.1).addFlags r.2)))

/-- The width that EW selects in core c. -/
def Core.vw (c : Core) : Nat := ewWidth c.vmode
def Core.vf (c : Core) : Fmt := ewFmt c.vmode

/-- Floating-point instructions refuse EW 3 (R243). -/
def vFpFault (s : State) : Option FaultInfo := vIllegal s (s.me.vmode = 3)

/-- The floating-point forms of two sources, of one, and of three (R247). -/
def vFp2 (op : Word → Fmt → Nat → Nat → Nat × Flags) (vd va vb : BitVec 6) (pg : BitVec 4) (tk : BitVec 3) (s : State) :
    Host.Outcome State Fault Refusal :=
  vResult false (vFpFault s) tk pg vd [va, vb] Core.vw
    (fun c => let a := c.getV va; let b := c.getV vb; fun i => op c.fpctl c.vf (vElem c.vw a i) (vElem c.vw b i)) s
def vFp1 (op : Word → Fmt → Nat → Nat × Flags) (vd va : BitVec 6) (pg : BitVec 4) (tk : BitVec 3) (s : State) :
    Host.Outcome State Fault Refusal :=
  vResult false (vFpFault s) tk pg vd [va] Core.vw (fun c => let a := c.getV va; fun i => op c.fpctl c.vf (vElem c.vw a i)) s
def vFp3 (op : Word → Fmt → Nat → Nat → Nat → Nat × Flags) (vd va vb : BitVec 6) (pg : BitVec 4) (tk : BitVec 3) (s : State) :
    Host.Outcome State Fault Refusal :=
  vResult false (vFpFault s) tk pg vd [va, vb] Core.vw
    (fun c => let a := c.getV va; let b := c.getV vb; let d := c.getV vd
              fun i => op c.fpctl c.vf (vElem c.vw a i) (vElem c.vw b i) (vElem c.vw d i)) s

/-- The integer forms (R252). -/
def vInt2 (op : Nat → Nat → Nat → Nat) (vd va vb : BitVec 6) (pg : BitVec 4) (tk : BitVec 3) (s : State) :
    Host.Outcome State Fault Refusal :=
  vResult false none tk pg vd [va, vb] Core.vw
    (fun c => let a := c.getV va; let b := c.getV vb; fun i => (op c.vw (vElem c.vw a i) (vElem c.vw b i), flNone)) s
def vInt1 (op : Nat → Nat → Nat) (vd va : BitVec 6) (pg : BitVec 4) (tk : BitVec 3) (s : State) :
    Host.Outcome State Fault Refusal :=
  vResult false none tk pg vd [va] Core.vw (fun c => let a := c.getV va; fun i => (op c.vw (vElem c.vw a i), flNone)) s

/-- A compare (R253): the bits of p[pg] in the group's rows are written. -/
def vCmp (fp : Bool) (rel : Core → Nat → Nat → Bool) (pd : BitVec 4) (va vb : BitVec 6) (pg : BitVec 4) (tk : BitVec 3) (s : State) :
    Host.Outcome State Fault Refusal :=
  vIssue (vNeed s tk [va, vb]) false (if fp then vFpFault s else none) s (fun s =>
    complete .v tk (s.onMe (fun c =>
      c.setVp pd (c.vMask pg) (vpOf (vCompare c.vw (rel c) (c.getV va) (c.getV vb))))))

/-- A predicate operation (R254). -/
def vPred (f : Core → VPred) (pd pg : BitVec 4) (tk : BitVec 3) (s : State) : Host.Outcome State Fault Refusal :=
  vIssue (vNeed s tk []) false none s (fun s => complete .v tk (s.onMe (fun c => c.setVp pd (c.vMask pg) (f c))))

/-- A move of whole words (R255, R256): word k of the result is `f a k`. -/
def vWords (lone : Bool) (vd va : BitVec 6) (pg : BitVec 4) (tk : BitVec 3) (f : VReg → Nat → Nat) (s : State) :
    Host.Outcome State Fault Refusal :=
  vResult lone none tk pg vd [va] (fun _ => 32) (fun c => let a := c.getV va; fun k => (f a k, flNone)) s

def execVadd (vd va vb : BitVec 6) (pg : BitVec 4) (tk : BitVec 3) (s : State) : Host.Outcome State Fault Refusal :=
  vFp2 fAdd vd va vb pg tk s
def execVsub (vd va vb : BitVec 6) (pg : BitVec 4) (tk : BitVec 3) (s : State) : Host.Outcome State Fault Refusal :=
  vFp2 fSub vd va vb pg tk s
def execVmul (vd va vb : BitVec 6) (pg : BitVec 4) (tk : BitVec 3) (s : State) : Host.Outcome State Fault Refusal :=
  vFp2 fMul vd va vb pg tk s
def execVmin (vd va vb : BitVec 6) (pg : BitVec 4) (tk : BitVec 3) (s : State) : Host.Outcome State Fault Refusal :=
  vFp2 fMin vd va vb pg tk s
def execVmax (vd va vb : BitVec 6) (pg : BitVec 4) (tk : BitVec 3) (s : State) : Host.Outcome State Fault Refusal :=
  vFp2 fMax vd va vb pg tk s
def execVfma (vd va vb : BitVec 6) (pg : BitVec 4) (tk : BitVec 3) (s : State) : Host.Outcome State Fault Refusal :=
  vFp3 (fFma false false) vd va vb pg tk s
def execVfms (vd va vb : BitVec 6) (pg : BitVec 4) (tk : BitVec 3) (s : State) : Host.Outcome State Fault Refusal :=
  vFp3 (fFma false true) vd va vb pg tk s
def execVfnma (vd va vb : BitVec 6) (pg : BitVec 4) (tk : BitVec 3) (s : State) : Host.Outcome State Fault Refusal :=
  vFp3 (fFma true false) vd va vb pg tk s
def execVabs (vd va : BitVec 6) (pg : BitVec 4) (tk : BitVec 3) (s : State) : Host.Outcome State Fault Refusal :=
  vFp1 (fun _ f a => fAbs f a) vd va pg tk s
def execVneg (vd va : BitVec 6) (pg : BitVec 4) (tk : BitVec 3) (s : State) : Host.Outcome State Fault Refusal :=
  vFp1 (fun _ f a => fNeg f a) vd va pg tk s
def execVrcp (vd va : BitVec 6) (pg : BitVec 4) (tk : BitVec 3) (s : State) : Host.Outcome State Fault Refusal :=
  vFp1 (fSpecial .rcp) vd va pg tk s
def execVrsq (vd va : BitVec 6) (pg : BitVec 4) (tk : BitVec 3) (s : State) : Host.Outcome State Fault Refusal :=
  vFp1 (fSpecial .rsq) vd va pg tk s
def execVsqrt (vd va : BitVec 6) (pg : BitVec 4) (tk : BitVec 3) (s : State) : Host.Outcome State Fault Refusal :=
  vFp1 (fSpecial .sqrt) vd va pg tk s
def execVexp2 (vd va : BitVec 6) (pg : BitVec 4) (tk : BitVec 3) (s : State) : Host.Outcome State Fault Refusal :=
  vFp1 (fSpecial .exp2) vd va pg tk s
def execVlog2 (vd va : BitVec 6) (pg : BitVec 4) (tk : BitVec 3) (s : State) : Host.Outcome State Fault Refusal :=
  vFp1 (fSpecial .log2) vd va pg tk s
/-- VCVT (R250): 1,024 elements at their own widths; a narrower result leaves zeros above. -/
def execVcvt (vd va : BitVec 6) (cf ct : BitVec 3) (pg : BitVec 4) (tk : BitVec 3) (s : State) : Host.Outcome State Fault Refusal :=
  vIssue (vNeed s tk [vd, va]) false none s (fun s =>
    complete .v tk (s.onMe (fun c =>
      let mask := c.vMask pg
      if mask = 0 then c
      else
        let src := cvtFmt cf
        let dst := cvtFmt ct
        let a := c.getV va
        let d := c.getV vd
        let rs := (List.range 1024).map (fun k =>
          if mask.getLsbD k then convert src dst (fpRm c.fpctl) (fziOf c.fpctl src) (fzoOf c.fpctl dst) (vElem src.width a k)
          else (vElem dst.width d k, flNone))
        (c.setV vd (vOfElems dst.width (rs.map Prod.fst))).addFlags (rs.foldl (fun f r => f ||| r.2) flNone))))
/-- VDOT (R251). -/
def execVdot (vd va vb : BitVec 6) (pg : BitVec 4) (tk : BitVec 3) (s : State) : Host.Outcome State Fault Refusal :=
  vResult false (vIllegal s (s.me.vmode = 0)) tk pg vd [va, vb] (fun _ => 32)
    (fun c => let a := c.getV va; let b := c.getV vb; let d := c.getV vd
              fun k => fDot c.fpctl c.vmode (vElem 32 d k) (vElem 32 a k) (vElem 32 b k)) s
def execViadd (vd va vb : BitVec 6) (pg : BitVec 4) (tk : BitVec 3) (s : State) : Host.Outcome State Fault Refusal :=
  vInt2 (fun w a b => (a + b) % 2 ^ w) vd va vb pg tk s
def execVisub (vd va vb : BitVec 6) (pg : BitVec 4) (tk : BitVec 3) (s : State) : Host.Outcome State Fault Refusal :=
  vInt2 (fun w a b => (a + 2 ^ w - b) % 2 ^ w) vd va vb pg tk s
def execVimul (vd va vb : BitVec 6) (pg : BitVec 4) (tk : BitVec 3) (s : State) : Host.Outcome State Fault Refusal :=
  vInt2 (fun w a b => a * b % 2 ^ w) vd va vb pg tk s
def execVimulh (vd va vb : BitVec 6) (pg : BitVec 4) (tk : BitVec 3) (s : State) : Host.Outcome State Fault Refusal :=
  vInt2 iMulh vd va vb pg tk s
def execVand (vd va vb : BitVec 6) (pg : BitVec 4) (tk : BitVec 3) (s : State) : Host.Outcome State Fault Refusal :=
  vInt2 (fun _ a b => a &&& b) vd va vb pg tk s
def execVor (vd va vb : BitVec 6) (pg : BitVec 4) (tk : BitVec 3) (s : State) : Host.Outcome State Fault Refusal :=
  vInt2 (fun _ a b => a ||| b) vd va vb pg tk s
def execVxor (vd va vb : BitVec 6) (pg : BitVec 4) (tk : BitVec 3) (s : State) : Host.Outcome State Fault Refusal :=
  vInt2 (fun _ a b => a ^^^ b) vd va vb pg tk s
def execVshl (vd va vb : BitVec 6) (pg : BitVec 4) (tk : BitVec 3) (s : State) : Host.Outcome State Fault Refusal :=
  vInt2 (fun w a b => a * 2 ^ (b % w) % 2 ^ w) vd va vb pg tk s
def execVshrl (vd va vb : BitVec 6) (pg : BitVec 4) (tk : BitVec 3) (s : State) : Host.Outcome State Fault Refusal :=
  vInt2 (fun w a b => a / 2 ^ (b % w)) vd va vb pg tk s
def execVshra (vd va vb : BitVec 6) (pg : BitVec 4) (tk : BitVec 3) (s : State) : Host.Outcome State Fault Refusal :=
  vInt2 iShra vd va vb pg tk s
def execVimin (vd va vb : BitVec 6) (pg : BitVec 4) (tk : BitVec 3) (s : State) : Host.Outcome State Fault Refusal :=
  vInt2 iMin vd va vb pg tk s
def execVimax (vd va vb : BitVec 6) (pg : BitVec 4) (tk : BitVec 3) (s : State) : Host.Outcome State Fault Refusal :=
  vInt2 iMax vd va vb pg tk s
def execVpopc (vd va : BitVec 6) (pg : BitVec 4) (tk : BitVec 3) (s : State) : Host.Outcome State Fault Refusal :=
  vInt1 iPopc vd va pg tk s
def execVclz (vd va : BitVec 6) (pg : BitVec 4) (tk : BitVec 3) (s : State) : Host.Outcome State Fault Refusal :=
  vInt1 iClz vd va pg tk s
def execVceq (pd : BitVec 4) (va vb : BitVec 6) (pg : BitVec 4) (tk : BitVec 3) (s : State) : Host.Outcome State Fault Refusal :=
  vCmp false (fun _ a b => decide (a = b)) pd va vb pg tk s
def execVclt (pd : BitVec 4) (va vb : BitVec 6) (pg : BitVec 4) (tk : BitVec 3) (s : State) : Host.Outcome State Fault Refusal :=
  vCmp false (fun c a b => decide (intOfCode c.vw a < intOfCode c.vw b)) pd va vb pg tk s
def execVcle (pd : BitVec 4) (va vb : BitVec 6) (pg : BitVec 4) (tk : BitVec 3) (s : State) : Host.Outcome State Fault Refusal :=
  vCmp false (fun c a b => decide (intOfCode c.vw a ≤ intOfCode c.vw b)) pd va vb pg tk s
def execVfceq (pd : BitVec 4) (va vb : BitVec 6) (pg : BitVec 4) (tk : BitVec 3) (s : State) : Host.Outcome State Fault Refusal :=
  vCmp true (fun c => fRel (fun o => decide (o = .eq)) c.fpctl c.vf) pd va vb pg tk s
def execVfclt (pd : BitVec 4) (va vb : BitVec 6) (pg : BitVec 4) (tk : BitVec 3) (s : State) : Host.Outcome State Fault Refusal :=
  vCmp true (fun c => fRel (fun o => decide (o = .lt)) c.fpctl c.vf) pd va vb pg tk s
def execVfcle (pd : BitVec 4) (va vb : BitVec 6) (pg : BitVec 4) (tk : BitVec 3) (s : State) : Host.Outcome State Fault Refusal :=
  vCmp true (fun c => fRel (fun o => decide (o ≠ .gt)) c.fpctl c.vf) pd va vb pg tk s
/-- VSEL is not predicated; ps selects (R255). -/
def execVsel (vd va vb : BitVec 6) (ps : BitVec 4) (tk : BitVec 3) (s : State) : Host.Outcome State Fault Refusal :=
  vResult false none tk 0 vd [va, vb] (fun _ => 32)
    (fun c => let a := c.getV va; let b := c.getV vb; let p := c.getVp ps
              fun k => (if p.getLsbD k then vElem 32 a k else vElem 32 b k, flNone)) s
def execVpand (pd pa pb pg : BitVec 4) (tk : BitVec 3) (s : State) : Host.Outcome State Fault Refusal :=
  vPred (fun c => c.getVp pa &&& c.getVp pb) pd pg tk s
def execVpor (pd pa pb pg : BitVec 4) (tk : BitVec 3) (s : State) : Host.Outcome State Fault Refusal :=
  vPred (fun c => c.getVp pa ||| c.getVp pb) pd pg tk s
def execVpnot (pd pa pg : BitVec 4) (tk : BitVec 3) (s : State) : Host.Outcome State Fault Refusal :=
  vPred (fun c => ~~~(c.getVp pa)) pd pg tk s
def execVmov (vd va : BitVec 6) (pg : BitVec 4) (tk : BitVec 3) (s : State) : Host.Outcome State Fault Refusal :=
  vWords false vd va pg tk (fun a k => vElem 32 a k) s
def execViota (vd : BitVec 6) (pg : BitVec 4) (tk : BitVec 3) (s : State) : Host.Outcome State Fault Refusal :=
  vResult false none tk pg vd [] Core.vw (fun c i => (i % 2 ^ c.vw, flNone)) s
/-- VBCS pops one SQ entry, whatever its predicate, into every enabled element (R255). -/
def execVbcs (vd : BitVec 6) (e : BitVec 5) (pg : BitVec 4) (tk : BitVec 3) (s : State) : Host.Outcome State Fault Refusal :=
  vIssue { vNeed s tk [vd] with bound := some e, holds := [{ kind := 0x2, obj := 1, await := 1 }] } true none s (fun s =>
    complete .v tk (s.onMe (fun c =>
      let x := ((c.popVals 1 1).headD 0).toNat
      let r := vEach c.vw (c.vMask pg) (c.getV vd) (fun _ => (x % 2 ^ c.vw, flNone))
      (c.popN 1 1).setV vd r.1)))
def execVrotr (vd va n : BitVec 6) (pg : BitVec 4) (tk : BitVec 3) (s : State) : Host.Outcome State Fault Refusal :=
  vWords true vd va pg tk (fun a k => vElem 32 a ((k + 64 * n.toNat) % 1024)) s
def execVbcr (vd va n : BitVec 6) (pg : BitVec 4) (tk : BitVec 3) (s : State) : Host.Outcome State Fault Refusal :=
  vWords true vd va pg tk (fun a k => vElem 32 a (64 * n.toNat + k % 64)) s
def execVrotc (vd va n : BitVec 6) (pg : BitVec 4) (tk : BitVec 3) (s : State) : Host.Outcome State Fault Refusal :=
  vWords false vd va pg tk (fun a k => vElem 32 a (k / 64 * 64 + (k + n.toNat) % 64)) s
def execVbcc (vd va n : BitVec 6) (pg : BitVec 4) (tk : BitVec 3) (s : State) : Host.Outcome State Fault Refusal :=
  vWords false vd va pg tk (fun a k => vElem 32 a (k / 64 * 64 + n.toNat)) s
/-- VREDR (R257). -/
def execVredr (vd va rop : BitVec 6) (pg : BitVec 4) (tk : BitVec 3) (s : State) : Host.Outcome State Fault Refusal :=
  vResult true (if rop.toNat < 3 then vFpFault s else none) tk pg vd [va] Core.vw
    (fun c => let r := redRows rop c.fpctl c.vmode (c.getV va); fun i => r.getD (i % r.length) (0, flNone)) s
/-- VREDC (R257). -/
def execVredc (vd va rop : BitVec 6) (pg : BitVec 4) (tk : BitVec 3) (s : State) : Host.Outcome State Fault Refusal :=
  vResult false (if rop.toNat < 3 then vFpFault s else none) tk pg vd [va] Core.vw
    (fun c => let r := redCols rop c.fpctl c.vmode (c.getV va); fun i => r.getD (i / (vCount c.vw / 16)) (0, flNone)) s
/-- VSETF writes FPCTL.RM and VMODE.EW (R265). -/
def execVsetf (rm ew : BitVec 2) (tk : BitVec 3) (s : State) : Host.Outcome State Fault Refusal :=
  vIssue (vNeed s tk []) false none s (fun s =>
    complete .v tk (s.onMe (fun c => 
      { c with fpctl := (c.fpctl &&& ~~~(3 : Word)) ||| rm.zeroExtend 64, vmode := ew, cyc := { c.cyc with rm := true } })))

/-- The first poisoned word of a slot of the V spill memory in the rows of the running group (06 R127, R130). -/
def slotBad (c : Core) (slot : Nat) : Option Nat :=
  ((List.range 16).filter (fun r => c.rows.getLsbD r)).findSome? (fun r => c.spillBad .v (512 * slot + 32 * r) 32)

/-- Those words are overwritten. -/
def overSlot (slot : Nat) (s : State) : State :=
  ((List.range 16).filter (fun r => s.me.rows.getLsbD r)).foldl (fun s r => overSpill s.cur .v (512 * slot + 32 * r) 32 s) s

/-- VSPL and VSPR: a whole register, or the group's rows of it (R272, 06 R127, R130). A poisoned word is a faulted load (07
R160); its record names the word's offset in the spill memory (log 14). -/
def execVspl (vd : BitVec 6) (slot : BitVec 5) (tk : BitVec 3) (s : State) : Host.Outcome State Fault Refusal :=
  match slotBad s.me slot.toNat with
  | none =>
    vResult false none tk 0 vd [] (fun _ => 32) (fun c => let a := Tbl.get 0 c.spillV slot.toNat; fun k => (vElem 32 a k, flNone))
      (correctSlots s.cur .v 0 (4096 * slot.toNat) 4096 s)
  | some w =>
    vIssue (vNeed s tk [vd]) false none s (fun s =>
      let f : FaultInfo := { s.me.faultHere .v cPOISON with addr := BitVec.ofNat 64 (8 * w) }
      let free := vEach 32 (s.me.vMask 0) (s.me.getV vd) (fun k => ((Config.faultedLoad s.tick k).toNat % 2 ^ 32, flNone))
      unitFault s.cur f { s.onMe (fun c => { c with v := Tbl.set 0 c.v (c.vPhys vd) free.1 }) with tick := s.tick + 1 })
def execVspr (va : BitVec 6) (slot : BitVec 5) (tk : BitVec 3) (s : State) : Host.Outcome State Fault Refusal :=
  vIssue (vNeed s tk [va]) false none s (fun s =>
    complete .v tk ((overSlot slot.toNat s).onMe (fun c =>
      let a := c.getV va
      let r := vEach 32 (c.vMask 0) (Tbl.get 0 c.spillV slot.toNat) (fun k => (vElem 32 a k, flNone))
      let c := ((List.range 16).filter (fun r => c.rows.getLsbD r)).foldl (fun c r => c.spillClean .v (512 * slot.toNat + 32 * r) 32) c
      { c with spillV := Tbl.set 0 c.spillV slot.toNat r.1 })))

end Sys2Proof.Machine
end

