-- ==== Sys2Proof/Machine/CommandEvents.lean ====
section
/-!
DEFINITION. The events of the M and K engines: starts (08 R172, 12 R275), advances, completions, the checker's comparisons
(06 R131), overruns (06 R123 to R126), deadlines (12 R305) and the landing of W stores (07 R138).
-/
namespace Sys2Proof.Machine

/-- The core runs a unit that has not faulted, halted or begun to wait for its state's zeroing. -/
def Core.runs (c : Core) : Bool := c.unit.isSome && !c.stopped && !c.halted && c.zeroing.isNone

/-- What the core does counts: its unit runs, or has taken its first fault in this cycle, and the faults of the cycle are all recorded
(20 R375). -/
def Core.acts (c : Core) : Bool := c.runs || (c.unit.isSome && c.stopped && c.cyc.faulted)

/- Starts. -/

/-- An M command starts (R275): its checks, and the effects that it has at its start. -/
def startM (g : Nat) (x : Cmd) (s : State) : State :=
  let c := s.core g
  let x' := { x with started := some s.now }
  let refuse := stopCmd g .m x (cmdFaultHere c .m x cILLEGAL) s
  let done (c : Core) : State := keepCmd g .m { x' with allSent := true } (s.setCore g c)
  let go := keepCmd g .m x' s
  let tileBreaks (units ub : Nat) (p : BitVec 25) (fmts : List Fmt) : Bool :=
    (List.range units).any (fun u => bankBreaks c fmts false false (stripe (64 * pLine p) u ub))
  match x.i with
  | .mlnt _ lv rstr ext astr => done { c with ln := Tbl.set 1 c.ln lv.toNat (astr ++ (0 : BitVec 8) ++ rstr ++ ext) }
  | .msel _ grp inv =>
    if inv = 1 then
      done { c with mgrp := Tbl.set MGroup.reset c.mgrp grp.toNat { Tbl.get MGroup.reset c.mgrp grp.toNat with valid := false } }
    else done { c with gsel := grp }
  | .mldb h grp p =>
    let pf := profileOf x.prof
    if h.ta = 63 && tileBreaks 512 (bUnit pf.fmt) p pf.fmts then refuse
    else
      let (src, k0) := bSource c h x p
      keepCmd g .m x' (s.setCore g (setRecords grp.toNat (nsegOf x.prof) x.prof false src k0 c))
  | .mgo h _ _ p =>
    let nest := (List.range 6).map (fun l => Tbl.get 1 c.ln l)
    let gsel := c.gsel.toNat
    if goIllegal c h p x nest gsel then refuse
    else
      let x' := { x' with nest := nest, gsel := gsel, allSent := decide (nestCount nest = 0) }
      match (if c.detOn then lateFoot x.no (goFoot g h p x' ((goGroups c gsel x.prof).headD MGroup.reset).k0 c) c else (none, c)) with
      | (some l, _) => keepCmd g .m { x with stop := some (raceFault .m x l) } s
      | (none, c) => keepCmd g .m x' (s.setCore g { c with ln := Tbl.setRun 1 c.ln 8 nest })
  | .mlda h _ kind _ p => if h.ta = 63 && tileBreaks 64 (accUnit kind.toNat) p [kindFmt kind.toNat] then refuse else go
  | .msta h _ kind _ p => if h.tb = 63 && tileBreaks 64 (accUnit kind.toNat) p [kindFmt kind.toNat] then refuse else go
  | .mdrain h _ kind _ p => if h.tb = 63 && tileBreaks 64 (accUnit kind.toNat) p [kindFmt kind.toNat] then refuse else go
  | .msolvLdlt _ resumed _ _ _ =>
    if resumed && decide (c.resumable ≠ some (idx (ttypeOf x.ta).ext 0, x.ta, x.tb)) then refuse else go
  | .msupd .. => keepCmd g .m x' (s.setCore g (clearRes c))
  | .msres _ off cnt =>
    match c.spillBad .m off.toNat cnt.toNat with
    | some w => keepCmd g .m { x with stop := some (cmdFault .m x cPOISON (BitVec.ofNat 64 (8 * w)) 0 0) } s
    | none =>
      keepCmd g .m { x' with nums := (Tbl.getRun 0 c.spillM off.toNat cnt.toNat).map BitVec.toNat }
        (correctSpill g .m (8 * off.toNat) (8 * cnt.toNat) s)
  | _ => go

/-- COMMAND_START: the engine's next command starts, where it may. A command that faults with RACE makes no access; its error response comes when the
engine's earlier commands have completed (10's litmus of R226, 14's of R132, log 34). -/
def startCommand (g : Nat) (e : Eng) (s : State) : State :=
  let c := s.core g
  match c.nextStart e with
  | none => s
  | some x =>
    if !c.acts then s
    else match x.stop with
    | some f =>
      if (c.cmds e).any (fun y => decide (y.no < x.no)) then s
      else (match e with
        | .m => stopCmd g .m x f s
        | _ => keepCmd g e { x with started := some s.now, since := s.now } s)
    | none =>
      if !mayStart c e x then s
      else match e with
        | .m => nameCorrected x.seq x.pc s (startM g x s)
        | _ => keepCmd g e { x with started := some s.now, since := s.now } s

def execCommandStart (g : Nat) (e : Eng) (s : State) : Host.Outcome State Fault Refusal := .next (startCommand g e s)

/- Advances. -/

/-- A running M command performs its next row, tuple, pair or step. -/
def mAdvance (g n : Nat) (s : State) : State :=
  match (s.core g).cmd? .m n with
  | none => s
  | some x =>
    if x.started.isNone || x.allSent || !bankOpen s g 2 then s
    else
    let s := enterBank g 2 s
    nameCorrected x.seq x.pc s <| match x.i with
      | .mldb h grp p => loadRow g h grp.toNat p x s
      | .mgo h acc kind p => goTuple g h acc.toNat kind.toNat p x s
      | .morb _ wr line => if x.ready then pushMq g x s else orbStep g wr line x s
      | .mzero _ acc kind _ _ =>
        mStep g x 64 (s.setCore g (accSet (s.core g) acc.toNat kind.toNat x.sent (List.replicate 256 0)))
      | .mlda h acc kind _ p => ldaRow g h acc.toNat kind.toNat p x s
      | .msta h acc kind clamp p => staRow g h acc.toNat kind.toNat false clamp p x s
      | .mdrain h acc kind clamp p => staRow g h acc.toNat kind.toNat true clamp p x s
      | .marrb _ b obs dam => arriveStep g b.toNat obs (decide (dam = 1)) x s
      | .msolvCg .. | .msolvLdlt .. => solveStep g x s
      | .msupd _ cnt line => updStep g cnt.toNat (64 * line.toNat) x s
      | .msres .. => pushMq g x s
      | _ => s

/-- A command's turn to advance. -/
def advance (g : Nat) (e : Eng) (n : Nat) (s : State) : State :=
  if !(s.core g).acts then s else match e with | .m => mAdvance g n s | _ => kAdvance g n s

/-- M_COMMAND_COMPLETION: a command whose effect is complete leaves its engine and delivers its tokens (R275). -/
def execMCommandCompletion (g n : Nat) (s : State) : Host.Outcome State Fault Refusal :=
  .next (match (s.core g).cmd? .m n with
    | none => s
    | some x => if x.allSent then leaveCmd g .m x s else s)

/-- SOLVER_DEADLINE: a running solve that has reached its deadline stops (12 R305). -/
def execSolverDeadline (g : Nat) (s : State) : Host.Outcome State Fault Refusal :=
  .next (match (s.core g).mcmds.find? (fun x => deadlineDue x s.now) with
    | none => s
    | some x => if (s.core g).acts then deadlineEnd g x s else s)

/- The checker (06 R131). -/

/-- The offset, stream and number of the oldest entry of an object whose checker copy has not arrived: queues AQ 0, BV 4,
BM 5 and BK 6, the M command queue 7 and the K command queue 8. -/
def uncheckedAt (c : Core) (obj : Nat) : Option (Nat × Eng × Nat) :=
  if obj = 7 then (c.mcmds.find? (fun x => !x.checked)).map (fun x => (x.pc, Eng.m, x.seq))
  else if obj = 8 then (c.kcmds.find? (fun x => !x.checked)).map (fun x => (x.pc, Eng.k, x.seq))
  else if queueChecked obj then ((c.queue obj).find? (fun x => !x.checked)).map (fun x => (x.pc, Eng.s, 0))
  else none

/-- CHECKER_COMPARE: the checker's copy of the oldest unchecked entry arrives: the entry proceeds, or LOCKSTEP is
raised and it is not issued. -/
def execCheckerCompare (g obj : Nat) (agree : Bool) (s : State) : Host.Outcome State Fault Refusal :=
  let c := s.core g
  match uncheckedAt c obj with
  | none => .next s
  | some (pc, e, seq) =>
    if !c.acts then .next s
    else if !agree then
      .next (unitFault g { code := cLOCKSTEP, src := 4, seq := seq, pc := pc, addr := c.textAddr e pc } s)
    else
      let mark (l : List Cmd) : List Cmd := updFirst (fun x => !x.checked) (fun x => { x with checked := true }) l
      .next (s.setCore g (if obj = 7 then { c with mcmds := mark c.mcmds } else if obj = 8 then { c with kcmds := mark c.kcmds }
        else c.setQueue obj (updFirst (fun x => !x.checked) (fun x => { x with checked := true }) (c.queue obj))))

/- Overruns (06 R123 to R126). -/

/-- A command waits for a place in a full MQ whose popping stream has ended: its wait can never end (06 R125, 12 R308). -/
def pushDead (c : Core) (x : Cmd) : Bool :=
  pushesMq x.i && x.started.isSome && !x.allSent && !x.nums.isEmpty && decide (queueDepth 3 ≤ (c.queue 3).length) && (c.stream .s).ended

/-- A command's overrun: its count from issue has reached 2^e, or it waits for what can never come; once. -/
def overrunCmd (g : Nat) (e : Eng) (n : Nat) (s : State) : State :=
  let c := s.core g
  match c.cmd? e n with
  | none => s
  | some x =>
    let dead := decide (e = .m) && pushDead c x
    if x.raised || isMark x.i || !(dead || (decide (x.bound ≠ 0) && decide (x.issued + 2 ^ x.bound ≤ s.now))) then s
    else
      raiseBound g (some x.no) (brecOf (engNum e) (match e with | .m => 0x7 | _ => 0x8) 0 x.seq 0 dead x.pc) (keepCmd g e { x with raised := true } s)

/-- Every waiting group of the V stream is looked at, the running one first (06 R130). -/
def overrunGroups (g : Nat) (s : State) : State :=
  let s := overrunWait g .v s
  (s.core g).groups.foldl (fun s x =>
    let c := s.core g
    match c.groups.find? (fun y => decide (y.rows = x.rows)) with
    | none => s
    | some y =>
      let own := c.thisGroup none
      let s := overrunWait g .v (s.setCore g (c.runGroup y))
      let c := s.core g
      let y' := c.thisGroup y.atJoin
      s.setCore g ({ c with groups := c.groups.map (fun (z : Group) => if z.rows = x.rows then y' else z) }.runGroup own)) s

/-- A GO write that is held by a full input FIFO of the collective engine overruns DBND.ES (17 R343). -/
def overrunGo (g : Nat) (s : State) : State :=
  let c := s.core g
  match nextAccess c .s true with
  | none => s
  | some a =>
    let held := match a.pieces.head?, a.kind with
      | some p, .store => decide (cewOffset s a = some 0x38)
          && decide (16 ≤ (Tbl.get [] s.collIn ((qVa p.qa - s.plat.cew.toNat) / 0x1000 % 4)).length)
      | _, _ => false
    if !held || a.bound = 0 || decide (s.now < a.since + 2 ^ a.bound) || decide (c.goRaised = a.ord + 1) then s
    else raiseBound g none (brecOf 0 0xA 3 16 0 false a.pc) (s.setCore g { c with goRaised := a.ord + 1 })

/-- Accesses of a stream that wait for a place in a walker's full miss table, or for room in a full retry buffer, overrun (06 R124, 07
R143, 17 R337). MODEL'S CHOICE (log 41): BREC has no code for the retry buffer; the record names the queue in which the access stands. -/
def overrunFull (g : Nat) (e : Eng) (s : State) : State :=
  let late (s : State) (a : Access) : Bool :=
    match a.full with
    | some t => decide (a.bound ≠ 0) && !a.fullRaised && decide (t + 2 ^ a.bound ≤ s.now) && (a.findsFull s g || a.findsNoRoom s g)
    | none => false
  let what (s : State) (a : Access) : Nat × Nat :=
    let c := s.core g
    if a.findsFull s g then (2, 512)
    else if a.kind.loads then (0, (c.loads e).length) else (1, (c.stores e).length)
  (((s.core g).loads e ++ (s.core g).stores e).filter (late s)).foldl (fun s a =>
    let w := what s a
    raiseBound g none (brecOf (engNum e) 0xA w.1 w.2 0 false a.pc) (s.setCore g (updateAccess (s.core g) e { a with fullRaised := true }))) s

/-- BOUND_OVERRUN: a wait of a stream, or a command of an engine, has overrun. -/
def execBoundOverrun (g : Nat) (e : Eng) (cmd : Option Nat) (s : State) : Host.Outcome State Fault Refusal :=
  if !(s.core g).acts then .next s
  else match cmd with
    | some n => .next (overrunCmd g e n s)
    | none => .next (match e with
      | .v => overrunFull g .v (overrunGroups g s)
      | .s => overrunFull g .s (overrunGo g (overrunWait g .s s))
      | _ => overrunWait g e s)

/-- Everything of core g that has overrun, or can never end, by now (06 R123 to R126). -/
def raiseOverruns (s : State) (g : Nat) : State :=
  let c := s.core g
  if !c.acts then s
  else
    let s := overrunFull g .s (overrunGo g (overrunWait g .s s))
    let s := overrunFull g .v (overrunGroups g s)
    let s := c.mcmds.foldl (fun s x => overrunCmd g .m x.no s) (overrunWait g .m s)
    c.kcmds.foldl (fun s x => overrunCmd g .k x.no s) (overrunWait g .k s)

/-- The cycles at which something of core g overruns while it still waits or runs. -/
def overrunTimes (s : State) (g : Nat) : List Nat :=
  let c := s.core g
  let wait (w : Option Wait) : List Nat :=
    match w with
    | none => []
    | some w => if w.raised then [] else w.holds.filterMap (waitDeadline w)
  let go : List Nat := match nextAccess c .s true with
    | some a => if a.bound = 0 then [] else [a.since + 2 ^ a.bound]
    | none => []
  let full : List Nat := (c.loads .s ++ c.stores .s ++ c.loads .v ++ c.stores .v).filterMap (fun a =>
    match a.full with
    | some t => if a.bound = 0 || a.fullRaised then none else some (t + 2 ^ a.bound)
    | none => none)
  if !c.runs then []
  else [Eng.s, .v, .m, .k].flatMap (fun e => wait (c.stream e).wait) ++ c.groups.flatMap (fun x => wait x.wait) ++ go ++ full
    ++ (c.mcmds ++ c.kcmds).filterMap (fun x => if x.raised || x.bound = 0 then none else some (x.issued + 2 ^ x.bound))

/- Landings. -/

/-- Everything due lands; a landed line of a KMC is acknowledged (07 R138, 10 R224). -/
def landAll (s : State) : State :=
  let due := s.wFlight.filter (fun f => decide (f.due ≤ s.now) && decide (f.e = .k))
  due.foldl (fun s f => lineAcked f.g f.cmd f.line 0 0 0 s) (landDue s)

/-- W_STORE_LANDING (07 R138). -/
def execWStoreLanding (s : State) : Host.Outcome State Fault Refusal := .next (landAll s)

end Sys2Proof.Machine
end

