-- ==== Sys2Proof/WellFormed.lean ====
section
/-!
DEFINITION. The limits of an instruction's fields: what 08 R179 says an encoding must meet beyond its
opcode and its zero fields.
-/
namespace Sys2Proof

/-- A register number that RSR may read (09 R220). -/
def srReadable (n : Nat) : Bool :=
  n ≤ 0x004 || (0x008 ≤ n && n ≤ 0x00A) || (0x010 ≤ n && n ≤ 0x013) || (0x018 ≤ n && n ≤ 0x01E)
    || (0x020 ≤ n && n ≤ 0x023) || (0x040 ≤ n && n ≤ 0x04F) || (0x080 ≤ n && n ≤ 0x0BF)

/-- A register number that WSR may write: one with an RW or W1C field (09 R219, R220). -/
def srWritable (n : Nat) : Bool :=
  n ≤ 0x003 || n == 0x020 || n == 0x021 || (0x040 ≤ n && n ≤ 0x04F)

/-- A code of 02 R37. -/
def fmtCode (n : Nat) : Bool := n ≤ 0x08 || (0x10 ≤ n && n ≤ 0x15)

/-- The formats that may carry ZS10 scales (02 R39). -/
def scalable (n : Nat) : Bool := n == 0x13 || n == 0x14 || n == 0x15

/-- A source format of KQNT (10 R231). -/
def quantSrc (n : Nat) : Bool := n ≤ 0x08 || (0x10 ≤ n && n ≤ 0x12)

/-- A type field of a command: a register number or 63 (08 R162). -/
def tyField (t : BitVec 6) : Bool := decide (t.toNat < 16) || t == 63

/-- The place field of an untyped tile operand has bits [24:17] zero (12 R277). -/
def placeOk (untyped : Bool) (p : BitVec 25) : Bool := !untyped || decide (p.toNat < 2 ^ 17)

/-- kind 3 is reserved, and kind 2 takes an even accumulator (12 R288, R293). -/
def kindOk (acc : BitVec 3) (kind : BitVec 2) : Bool := kind != 3 && (kind != 2 || decide (acc.toNat % 2 = 0))

/-- am 3 is reserved, and spill slots stay within 256 words (10 R223). -/
def amOk (am : BitVec 2) (so : BitVec 8) (slots : Nat) : Bool :=
  am != 3 && (am == 0 || decide (so.toNat + slots ≤ 256))

/-- The number of address slots of a KCPY (10 R227). -/
def kcpySlots (ta tb : BitVec 6) (dims : BitVec 2) : Nat :=
  (if ta = 63 then 1 else 0) + (if tb = 63 then 1 else 0) + (dims.toNat - 1)

/-- An M command carries seq 0 to 0x7F (08 R172). -/
def mHdr (h : CmdHdr) : Bool := decide (h.seq.toNat < 0x80)

/-- A K command carries seq 0 or 0x80 to 0xFF, and bits [25:23] zero (08 R172, R173). -/
def kHdr (h : CmdHdr) : Bool := (h.seq == 0 || decide (0x80 ≤ h.seq.toNat)) && decide (h.prof.toNat % 8 = 0)

/-- The limits of 08 R162, R169, R171 to R174 and of the instruction chapters, and for an event the
range of the places it names. Every limit is one check; a term that breaks it is not an instruction (R179). -/
def Instr.wf : Instr → Bool
  | .add _ _ _ _ _ => true
  | .sub _ _ _ _ _ => true
  | .mul _ _ _ _ _ => true
  | .mulh _ _ _ _ _ => true
  | .mulhn _ _ _ _ _ => true
  | .divs _ _ _ _ _ => true
  | .divn _ _ _ _ _ => true
  | .rems _ _ _ _ _ => true
  | .remn _ _ _ _ _ => true
  | .and _ _ _ _ _ => true
  | .or _ _ _ _ _ => true
  | .xor _ _ _ _ _ => true
  | .andn _ _ _ _ _ => true
  | .shl _ _ _ _ _ => true
  | .shrl _ _ _ _ _ => true
  | .shra _ _ _ _ _ => true
  | .rotl _ _ _ _ _ => true
  | .min _ _ _ _ _ => true
  | .max _ _ _ _ _ => true
  | .minn _ _ _ _ _ => true
  | .maxn _ _ _ _ _ => true
  | .clz _ _ _ _ => true
  | .popc _ _ _ _ => true
  | .sext _ _ _ _ _ => true
  | .zext _ _ _ _ _ => true
  | .addi _ _ _ _ => true
  | .andi _ _ _ _ => true
  | .ori _ _ _ _ => true
  | .xori _ _ _ _ => true
  | .shli _ _ imm _ => decide (imm.toNat < 64)
  | .shrli _ _ imm _ => decide (imm.toNat < 64)
  | .shrai _ _ imm _ => decide (imm.toNat < 64)
  | .ldi _ _ _ => true
  | .ldhi _ _ _ => true
  | .lea _ _ _ _ => true
  | .plc _ _ _ _ _ _ => true
  | .cmpeq _ _ _ _ _ => true
  | .cmpne _ _ _ _ _ => true
  | .cmplt _ _ _ _ _ => true
  | .cmple _ _ _ _ _ => true
  | .cmpltn _ _ _ _ _ => true
  | .cmplen _ _ _ _ _ => true
  | .cmpeqi _ _ _ _ => true
  | .cmpnei _ _ _ _ => true
  | .cmplti _ _ _ _ => true
  | .cmplei _ _ _ _ => true
  | .cmpltni _ _ _ _ => true
  | .cmpleni _ _ _ _ => true
  | .pand _ _ _ _ _ => true
  | .por _ _ _ _ _ => true
  | .pxor _ _ _ _ _ => true
  | .pnot _ _ _ _ => true
  | .pmov _ _ _ _ => true
  | .pset _ val _ _ => decide (val.toNat < 2)
  | .sel _ _ _ _ _ => true
  | .ld _ _ _ _ => true
  | .st _ _ _ _ => true
  | .ldacq _ _ obs _ _ => obs != 0
  | .strel _ _ obs _ _ => obs != 0
  | .mark _ _ => true
  | .fence obs _ => obs != 0
  | .spl _ _ _ => true
  | .spr _ _ _ => true
  | .amo _ _ _ aop _ => decide (aop.toNat ≤ 9)
  | .cas sd _ _ _ => sd != 0 && sd.toNat % 2 == 0
  | .dred _ _ aop _ => aop == 0 || aop == 9
  | .tlk _ _ _ => true
  | .tins _ _ way _ => decide (way.toNat < 8)
  | .tinv _ way _ => decide (way.toNat < 8)
  | .trd _ _ way _ => decide (way.toNat < 8)
  | .qpush _ q _ _ => decide (q.toNat < 2)
  | .qpop _ q _ _ => q == 2 || q == 3
  | .bop _ q _ _ => q == 4 || q == 5 || q == 6
  | .rsr _ sr _ => srReadable sr.toNat
  | .wsr _ sr _ => srWritable sr.toNat
  | .br _ _ _ => true
  | .bc _ _ _ => true
  | .brl _ _ _ => true
  | .jr _ _ _ => true
  | .loop _ _ _ => true
  | .arr _ _ _ _ _ => true
  | .wtp _ _ _ _ => true
  | .binit _ _ _ => true
  | .bexp _ _ _ => true
  | .wfe _ _ => true
  | .sev _ _ => true
  | .ofopen _ _ => true
  | .ofdecl _ _ _ rw _ => decide (rw.toNat < 2)
  | .ofsub _ _ => true
  | .ofwait _ _ _ _ => true
  | .ofend _ _ => true
  | .trap _ _ => true
  | .sysc _ _ => true
  | .uiret _ _ => true
  | .nop _ _ => true
  | .endS _ _ => true
  | .vadd _ _ _ _ _ => true
  | .vsub _ _ _ _ _ => true
  | .vmul _ _ _ _ _ => true
  | .vfma _ _ _ _ _ => true
  | .vfms _ _ _ _ _ => true
  | .vfnma _ _ _ _ _ => true
  | .vmin _ _ _ _ _ => true
  | .vmax _ _ _ _ _ => true
  | .vabs _ _ _ _ => true
  | .vneg _ _ _ _ => true
  | .vrcp _ _ _ _ => true
  | .vrsq _ _ _ _ => true
  | .vsqrt _ _ _ _ => true
  | .vexp2 _ _ _ _ => true
  | .vlog2 _ _ _ _ => true
  | .vcvt _ _ _ _ _ _ => true
  | .vdot _ _ _ _ _ => true
  | .viadd _ _ _ _ _ => true
  | .visub _ _ _ _ _ => true
  | .vimul _ _ _ _ _ => true
  | .vimulh _ _ _ _ _ => true
  | .vand _ _ _ _ _ => true
  | .vor _ _ _ _ _ => true
  | .vxor _ _ _ _ _ => true
  | .vshl _ _ _ _ _ => true
  | .vshrl _ _ _ _ _ => true
  | .vshra _ _ _ _ _ => true
  | .vpopc _ _ _ _ => true
  | .vclz _ _ _ _ => true
  | .vimin _ _ _ _ _ => true
  | .vimax _ _ _ _ _ => true
  | .vceq _ _ _ _ _ => true
  | .vclt _ _ _ _ _ => true
  | .vcle _ _ _ _ _ => true
  | .vfceq _ _ _ _ _ => true
  | .vfclt _ _ _ _ _ => true
  | .vfcle _ _ _ _ _ => true
  | .vsel _ _ _ _ _ => true
  | .vpand _ _ _ _ _ => true
  | .vpor _ _ _ _ _ => true
  | .vpnot _ _ _ _ => true
  | .vmov _ _ _ _ => true
  | .viota _ _ _ => true
  | .vbcs _ _ _ _ => true
  | .vrotr _ _ n _ _ => decide (n.toNat < 16)
  | .vbcr _ _ n _ _ => decide (n.toNat < 16)
  | .vredr _ _ rop _ _ => decide (rop.toNat < 6)
  | .vrotc _ _ _ _ _ => true
  | .vbcc _ _ _ _ _ => true
  | .vredc _ _ rop _ _ => decide (rop.toNat < 6)
  | .vld _ _ _ _ => true
  | .vst _ _ _ _ => true
  | .vldx _ _ _ _ _ => true
  | .vstx _ _ _ _ _ => true
  | .vstc _ _ _ _ => true
  | .vamo _ _ aop _ _ => decide (aop.toNat ≤ 8)
  | .vdred _ _ aop _ _ => aop == 0 || aop == 9
  | .vsetf _ _ _ => true
  | .vloop _ len _ _ => len != 0
  | .vfork _ _ _ => true
  | .vjoin _ _ => true
  | .vbrq _ _ _ => true
  | .vbr _ _ _ => true
  | .vqpush _ _ _ _ => true
  | .vwtp _ _ _ _ => true
  | .varr _ _ _ _ _ => true
  | .vspl _ _ _ => true
  | .vspr _ _ _ => true
  | .vnop _ _ => true
  | .vend _ _ => true
  | .mlnt h lv _ _ _ => mHdr h && h.prof == 0 && h.ta == 63 && h.tb == 63 && decide (lv.toNat < 6)
  | .mtyp ty _ _ => decide (ty.toNat < 16)
  | .mprof prof _ => decide (1 ≤ prof.toNat ∧ prof.toNat ≤ 8)
  | .mldb h _ p => mHdr h && decide (h.prof.toNat ≤ 8) && tyField h.ta && h.tb == 63 && placeOk (h.ta == 63) p
  | .msel h _ _ => mHdr h && h.prof == 0 && h.ta == 63 && h.tb == 63
  | .mgo h acc kind p => mHdr h && decide (h.prof.toNat ≤ 8) && tyField h.ta && tyField h.tb && kindOk acc kind && placeOk (h.ta == 63) p && (h.ta == 63 || decide (p.toNat % 4096 = 0))
  | .morb h wr line => mHdr h && decide (h.prof.toNat ≤ 8) && tyField h.ta && tyField h.tb && (wr == 1 || line == 0)
  | .mzero h acc kind clamp p => mHdr h && h.prof == 0 && h.ta == 63 && h.tb == 63 && kindOk acc kind && clamp == 0 && p == 0
  | .mlda h acc kind clamp p => mHdr h && h.prof == 0 && tyField h.ta && h.tb == 63 && kindOk acc kind && clamp == 0 && placeOk (h.ta == 63) p
  | .msta h acc kind clamp p => mHdr h && h.prof == 0 && h.ta == 63 && tyField h.tb && kindOk acc kind && clamp == 0 && placeOk (h.tb == 63) p
  | .mdrain h acc kind _ p => mHdr h && h.prof == 0 && h.ta == 63 && tyField h.tb && kindOk acc kind && placeOk (h.tb == 63) p
  | .mwait seq _ _ => seq != 0
  | .mwtp _ _ _ => true
  | .marrb h _ _ _ => mHdr h && h.prof == 0 && h.ta == 63 && h.tb == 63
  | .msolvCg h _ _ _ => mHdr h && h.prof == 0 && tyField h.ta && h.tb == 63
  | .msolvLdlt h _ _ _ _ => mHdr h && h.prof == 0 && tyField h.ta && tyField h.tb
  | .msupd h cnt _ => mHdr h && h.prof == 0 && tyField h.ta && h.tb == 63 && cnt != 0
  | .msres h off cnt => mHdr h && h.prof == 0 && h.ta == 63 && h.tb == 63 && decide (1 ≤ cnt.toNat ∧ cnt.toNat ≤ 8 ∧ off.toNat + cnt.toNat ≤ 256)
  | .mbrq _ _ _ => true
  | .mbr _ _ => true
  | .mnop _ => true
  | .mend _ => true
  | .kcpy h am so dims len0 n1 n2 => kHdr h && tyField h.ta && tyField h.tb && decide (1 ≤ dims.toNat) && len0 != 0 && n1 != 0 && n2 != 0 && (dims != 1 || n1 == 1) && (dims == 3 || n2 == 1) && amOk am so (kcpySlots h.ta h.tb dims)
  | .kgth h am so esz _ cnt => kHdr h && h.ta == 63 && h.tb == 63 && decide (esz.toNat ≤ 12) && cnt != 0 && amOk am so 3
  | .ksct h am so esz _ cnt => kHdr h && h.ta == 63 && h.tb == 63 && decide (esz.toNat ≤ 12) && cnt != 0 && amOk am so 3
  | .kmc h am so len => kHdr h && h.ta == 63 && h.tb == 63 && decide (64 ≤ len.toNat ∧ len.toNat ≤ 4194240 ∧ len.toNat % 64 = 0) && amOk am so 2
  | .kqnt h am so sfmt efmt nblk => kHdr h && h.ta == 63 && h.tb == 63 && quantSrc sfmt.toNat && efmt != 3 && nblk != 0 && amOk am so 3
  | .kexp h => kHdr h && h.ta == 63 && h.tb == 63
  | .kxfTranspose h am so fp sc cnt => kHdr h && h.ta == 63 && h.tb == 63 && amOk am so 1 && decide (fp.toNat ≤ 2) && sc == 0 && cnt != 0
  | .kxfOrbitPack h am so fp sc cnt => kHdr h && decide (h.ta.toNat < 16) && h.tb == 63 && amOk am so 1 && fp == 0 && sc == 0 && cnt == 0
  | .kxfOrbitUnpack h am so fp sc cnt => kHdr h && decide (h.ta.toNat < 16) && h.tb == 63 && amOk am so 1 && fp == 0 && sc == 0 && cnt == 0
  | .kxfRequantise h am so fp sc cnt => kHdr h && h.ta == 63 && h.tb == 63 && amOk am so 1 && fmtCode fp.toNat && (sc == 0 || scalable fp.toNat) && cnt != 0
  | .kxfZeroFill h am so fp sc cnt => kHdr h && h.ta == 63 && h.tb == 63 && amOk am so 1 && fp == 0 && sc == 0 && decide (1 ≤ cnt.toNat ∧ cnt.toNat ≤ 1024)
  | .kred h am so rop cnt => kHdr h && h.ta == 63 && h.tb == 63 && rop != 3 && cnt != 0 && amOk am so 2
  | .kexpt h => kHdr h && h.ta == 63 && h.tb == 63
  | .kbind _ _ _ => true
  | .kmark _ => true
  | .kwtp _ _ _ => true
  | .kbrq _ _ _ => true
  | .kbr _ _ => true
  | .knop _ => true
  | .kend _ => true
  | .blockSignatureCheck _ len _ => len != 0
  | .illegalWord _ => true
  | .commandStart g _ => decide (g < 256)
  | .lineResponse g _ => decide (g < 256)
  | .kCommandCompletion g _ => decide (g < 256)
  | .mCommandCompletion g _ => decide (g < 256)
  | .memoryResponse g _ _ => decide (g < 256)
  | .wStoreLanding => true
  | .translationWalk g _ => decide (g < 256)
  | .storeQueuePriority g _ => decide (g < 256)
  | .checkerCompare g obj _ => decide (g < 256) && decide (obj < 9)
  | .boundOverrun g _ _ => decide (g < 256)
  | .boundTrapEntry g => decide (g < 256)
  | .userInterruptEntry g => decide (g < 256)
  | .syscAnswer g => decide (g < 256)
  | .zenithArrival g a => decide (g < 256) && decide (a.b < 64)
  | .domainRelease g b => decide (g < 256) && decide (b < 64)
  | .updateAcceptance => true
  | .closeTag c => decide (c.slice < 128)
  | .reducePacket => true
  | .ofsubAcceptance g slot => decide (g < 256) && decide (slot < 4)
  | .beatEnd die => decide (die < 4)
  | .batchArrival dst src => decide (dst < 4) && decide (src < 4)
  | .grantQueueTake die => decide (die < 4)
  | .grantArrival _ => true
  | .packetReceive _ => true
  | .responseReceive _ => true
  | .retryBufferRoom die => decide (die < 4)
  | .linkDown die dev path => decide (die < 4) && decide (dev < 4096) && decide (path < 4)
  | .linkSilenceTimeout die dev path => decide (die < 4) && decide (dev < 4096) && decide (path < 4)
  | .switchReport die dev path => decide (die < 4) && decide (dev < 4096) && decide (path < 4)
  | .responseTimeout die dev cls => decide (die < 4) && decide (dev < 4096) && decide (cls < 4)
  | .pathUpResync die dev path => decide (die < 4) && decide (dev < 4096) && decide (path < 4)
  | .stagingWordWrite g k _ => decide (g < 256) && decide (k < 7)
  | .collectiveGo g _ => decide (g < 256)
  | .collectiveStatusPop g => decide (g < 256)
  | .chunkComplete die _ _ => decide (die < 4)
  | .collectiveFailure die _ _ => decide (die < 4)
  | .kickScan => true
  | .headLinkWaitEnd q => decide (q < 64)
  | .objectLoad q _ => decide (q < 64)
  | .objectUnload q => decide (q < 64)
  | .unloadTakesEffect _ => true
  | .unitHandOut g => decide (g < 256)
  | .unitStart g => decide (g < 256)
  | .tagChangeZeroing g => decide (g < 256)
  | .preEmption q => decide (q < 64)
  | .halt g => decide (g < 256)
  | .contextSave g => decide (g < 256)
  | .budgetExhausted q => decide (q < 64)
  | .solverDeadline g => decide (g < 256)
  | .endReport g => decide (g < 256)
  | .completionPosting q => decide (q < 64)
  | .purgeComplete _ => true
  | .dieFence c => decide (c.die < 5)
  | .dispatcherTakeOver => true
  | .errorBankClear _ => true
  | .moduleReset _ => true
  | .throttle _ => true
  | .thermalTrip => true
  | .readSensors dev _ => decide (dev < 4096)
  | .setPowerCap dev _ => decide (dev < 4096)
  | .counterAdvance dev _ _ => decide (dev < 4096)
  | .installPlatformRecord dev _ _ => decide (dev < 4096)
  | .flitCrcRetry die dev t => decide (die < 4) && decide (dev < 4096) && decide (t.path < 4)

end Sys2Proof
end

