-- ==== Sys2Proof/Decode.lean ====
section
/-!
DEFINITION. Decoding: from a stream's words to an instruction or a named refusal, total on any bytes;
and, after it, the encoder written from the same layouts.
-/
namespace Sys2Proof

/-- Why a sequence of words is no instruction (08 R179). -/
inductive DecodeError where
  | truncated      -- the bytes end before the instruction does
  | unusedOpcode   -- the opcode's slot is empty
  | zeroField      -- a zero field is not zero
  | reservedValue  -- a field value outside its limits
  deriving DecidableEq, Repr

/-- The header and control word's fields (08 R172, R173). -/
def hdr (w0 w1 : BitVec 32) : CmdHdr :=
  { seq := w0.extractLsb' 17 8, dep0 := w0.extractLsb' 9 8, dep1 := w0.extractLsb' 1 8,
    e := w1.extractLsb' 27 5, prof := w1.extractLsb' 23 4, ta := w1.extractLsb' 17 6,
    tb := w1.extractLsb' 11 6, tk := w1.extractLsb' 0 3 }

/-- Refuses an encoding whose zero fields, gathered in `z`, hold a one. -/
def zeroed (z : BitVec 32) (i : Instr) : Except DecodeError Instr :=
  if z = 0 then .ok i else .error .zeroField

/-- The S stream's map (08 R175): the opcode alone picks the row; `w0` to `w3` are the words of the instruction. -/
def decodeWordsS (w0 _w1 _w2 _w3 : BitVec 32) : Except DecodeError Instr :=
  match (w0.extractLsb' 25 7).toNat with
  | 0x01 => .ok (.add (w0.extractLsb' 19 6) (w0.extractLsb' 13 6) (w0.extractLsb' 7 6) (w0.extractLsb' 3 4) (w0.extractLsb' 0 3))
  | 0x02 => .ok (.sub (w0.extractLsb' 19 6) (w0.extractLsb' 13 6) (w0.extractLsb' 7 6) (w0.extractLsb' 3 4) (w0.extractLsb' 0 3))
  | 0x03 => .ok (.mul (w0.extractLsb' 19 6) (w0.extractLsb' 13 6) (w0.extractLsb' 7 6) (w0.extractLsb' 3 4) (w0.extractLsb' 0 3))
  | 0x04 => .ok (.mulh (w0.extractLsb' 19 6) (w0.extractLsb' 13 6) (w0.extractLsb' 7 6) (w0.extractLsb' 3 4) (w0.extractLsb' 0 3))
  | 0x05 => .ok (.mulhn (w0.extractLsb' 19 6) (w0.extractLsb' 13 6) (w0.extractLsb' 7 6) (w0.extractLsb' 3 4) (w0.extractLsb' 0 3))
  | 0x06 => .ok (.divs (w0.extractLsb' 19 6) (w0.extractLsb' 13 6) (w0.extractLsb' 7 6) (w0.extractLsb' 3 4) (w0.extractLsb' 0 3))
  | 0x07 => .ok (.divn (w0.extractLsb' 19 6) (w0.extractLsb' 13 6) (w0.extractLsb' 7 6) (w0.extractLsb' 3 4) (w0.extractLsb' 0 3))
  | 0x08 => .ok (.rems (w0.extractLsb' 19 6) (w0.extractLsb' 13 6) (w0.extractLsb' 7 6) (w0.extractLsb' 3 4) (w0.extractLsb' 0 3))
  | 0x09 => .ok (.remn (w0.extractLsb' 19 6) (w0.extractLsb' 13 6) (w0.extractLsb' 7 6) (w0.extractLsb' 3 4) (w0.extractLsb' 0 3))
  | 0x0A => .ok (.and (w0.extractLsb' 19 6) (w0.extractLsb' 13 6) (w0.extractLsb' 7 6) (w0.extractLsb' 3 4) (w0.extractLsb' 0 3))
  | 0x0B => .ok (.or (w0.extractLsb' 19 6) (w0.extractLsb' 13 6) (w0.extractLsb' 7 6) (w0.extractLsb' 3 4) (w0.extractLsb' 0 3))
  | 0x0C => .ok (.xor (w0.extractLsb' 19 6) (w0.extractLsb' 13 6) (w0.extractLsb' 7 6) (w0.extractLsb' 3 4) (w0.extractLsb' 0 3))
  | 0x0D => .ok (.andn (w0.extractLsb' 19 6) (w0.extractLsb' 13 6) (w0.extractLsb' 7 6) (w0.extractLsb' 3 4) (w0.extractLsb' 0 3))
  | 0x0E => .ok (.shl (w0.extractLsb' 19 6) (w0.extractLsb' 13 6) (w0.extractLsb' 7 6) (w0.extractLsb' 3 4) (w0.extractLsb' 0 3))
  | 0x0F => .ok (.shrl (w0.extractLsb' 19 6) (w0.extractLsb' 13 6) (w0.extractLsb' 7 6) (w0.extractLsb' 3 4) (w0.extractLsb' 0 3))
  | 0x10 => .ok (.shra (w0.extractLsb' 19 6) (w0.extractLsb' 13 6) (w0.extractLsb' 7 6) (w0.extractLsb' 3 4) (w0.extractLsb' 0 3))
  | 0x11 => .ok (.rotl (w0.extractLsb' 19 6) (w0.extractLsb' 13 6) (w0.extractLsb' 7 6) (w0.extractLsb' 3 4) (w0.extractLsb' 0 3))
  | 0x12 => .ok (.min (w0.extractLsb' 19 6) (w0.extractLsb' 13 6) (w0.extractLsb' 7 6) (w0.extractLsb' 3 4) (w0.extractLsb' 0 3))
  | 0x13 => .ok (.max (w0.extractLsb' 19 6) (w0.extractLsb' 13 6) (w0.extractLsb' 7 6) (w0.extractLsb' 3 4) (w0.extractLsb' 0 3))
  | 0x14 => .ok (.minn (w0.extractLsb' 19 6) (w0.extractLsb' 13 6) (w0.extractLsb' 7 6) (w0.extractLsb' 3 4) (w0.extractLsb' 0 3))
  | 0x15 => .ok (.maxn (w0.extractLsb' 19 6) (w0.extractLsb' 13 6) (w0.extractLsb' 7 6) (w0.extractLsb' 3 4) (w0.extractLsb' 0 3))
  | 0x16 => zeroed (w0 &&& 0x00001F80) (.clz (w0.extractLsb' 19 6) (w0.extractLsb' 13 6) (w0.extractLsb' 3 4) (w0.extractLsb' 0 3))
  | 0x17 => zeroed (w0 &&& 0x00001F80) (.popc (w0.extractLsb' 19 6) (w0.extractLsb' 13 6) (w0.extractLsb' 3 4) (w0.extractLsb' 0 3))
  | 0x18 => .ok (.sext (w0.extractLsb' 19 6) (w0.extractLsb' 13 6) (w0.extractLsb' 7 6) (w0.extractLsb' 3 4) (w0.extractLsb' 0 3))
  | 0x19 => .ok (.zext (w0.extractLsb' 19 6) (w0.extractLsb' 13 6) (w0.extractLsb' 7 6) (w0.extractLsb' 3 4) (w0.extractLsb' 0 3))
  | 0x21 => .ok (.addi (w0.extractLsb' 19 6) (w0.extractLsb' 13 6) (w0.extractLsb' 3 10) (w0.extractLsb' 0 3))
  | 0x22 => .ok (.andi (w0.extractLsb' 19 6) (w0.extractLsb' 13 6) (w0.extractLsb' 3 10) (w0.extractLsb' 0 3))
  | 0x23 => .ok (.ori (w0.extractLsb' 19 6) (w0.extractLsb' 13 6) (w0.extractLsb' 3 10) (w0.extractLsb' 0 3))
  | 0x24 => .ok (.xori (w0.extractLsb' 19 6) (w0.extractLsb' 13 6) (w0.extractLsb' 3 10) (w0.extractLsb' 0 3))
  | 0x25 => .ok (.shli (w0.extractLsb' 19 6) (w0.extractLsb' 13 6) (w0.extractLsb' 3 10) (w0.extractLsb' 0 3))
  | 0x26 => .ok (.shrli (w0.extractLsb' 19 6) (w0.extractLsb' 13 6) (w0.extractLsb' 3 10) (w0.extractLsb' 0 3))
  | 0x27 => .ok (.shrai (w0.extractLsb' 19 6) (w0.extractLsb' 13 6) (w0.extractLsb' 3 10) (w0.extractLsb' 0 3))
  | 0x28 => .ok (.ldi (w0.extractLsb' 19 6) (w0.extractLsb' 3 16) (w0.extractLsb' 0 3))
  | 0x29 => .ok (.ldhi (w0.extractLsb' 19 6) (w0.extractLsb' 3 16) (w0.extractLsb' 0 3))
  | 0x2A => .ok (.lea (w0.extractLsb' 19 6) (w0.extractLsb' 13 6) (w0.extractLsb' 3 10) (w0.extractLsb' 0 3))
  | 0x2B => .ok (.plc (w0.extractLsb' 19 6) (w0.extractLsb' 13 6) (w0.extractLsb' 9 4) (w0.extractLsb' 5 4) (w0.extractLsb' 3 2) (w0.extractLsb' 0 3))
  | 0x30 => zeroed (w0 &&& 0x01800000) (.cmpeq (w0.extractLsb' 19 4) (w0.extractLsb' 13 6) (w0.extractLsb' 7 6) (w0.extractLsb' 3 4) (w0.extractLsb' 0 3))
  | 0x31 => zeroed (w0 &&& 0x01800000) (.cmpne (w0.extractLsb' 19 4) (w0.extractLsb' 13 6) (w0.extractLsb' 7 6) (w0.extractLsb' 3 4) (w0.extractLsb' 0 3))
  | 0x32 => zeroed (w0 &&& 0x01800000) (.cmplt (w0.extractLsb' 19 4) (w0.extractLsb' 13 6) (w0.extractLsb' 7 6) (w0.extractLsb' 3 4) (w0.extractLsb' 0 3))
  | 0x33 => zeroed (w0 &&& 0x01800000) (.cmple (w0.extractLsb' 19 4) (w0.extractLsb' 13 6) (w0.extractLsb' 7 6) (w0.extractLsb' 3 4) (w0.extractLsb' 0 3))
  | 0x34 => zeroed (w0 &&& 0x01800000) (.cmpltn (w0.extractLsb' 19 4) (w0.extractLsb' 13 6) (w0.extractLsb' 7 6) (w0.extractLsb' 3 4) (w0.extractLsb' 0 3))
  | 0x35 => zeroed (w0 &&& 0x01800000) (.cmplen (w0.extractLsb' 19 4) (w0.extractLsb' 13 6) (w0.extractLsb' 7 6) (w0.extractLsb' 3 4) (w0.extractLsb' 0 3))
  | 0x38 => zeroed (w0 &&& 0x01800000) (.cmpeqi (w0.extractLsb' 19 4) (w0.extractLsb' 13 6) (w0.extractLsb' 3 10) (w0.extractLsb' 0 3))
  | 0x39 => zeroed (w0 &&& 0x01800000) (.cmpnei (w0.extractLsb' 19 4) (w0.extractLsb' 13 6) (w0.extractLsb' 3 10) (w0.extractLsb' 0 3))
  | 0x3A => zeroed (w0 &&& 0x01800000) (.cmplti (w0.extractLsb' 19 4) (w0.extractLsb' 13 6) (w0.extractLsb' 3 10) (w0.extractLsb' 0 3))
  | 0x3B => zeroed (w0 &&& 0x01800000) (.cmplei (w0.extractLsb' 19 4) (w0.extractLsb' 13 6) (w0.extractLsb' 3 10) (w0.extractLsb' 0 3))
  | 0x3C => zeroed (w0 &&& 0x01800000) (.cmpltni (w0.extractLsb' 19 4) (w0.extractLsb' 13 6) (w0.extractLsb' 3 10) (w0.extractLsb' 0 3))
  | 0x3D => zeroed (w0 &&& 0x01800000) (.cmpleni (w0.extractLsb' 19 4) (w0.extractLsb' 13 6) (w0.extractLsb' 3 10) (w0.extractLsb' 0 3))
  | 0x40 => zeroed (w0 &&& 0x01861800) (.pand (w0.extractLsb' 19 4) (w0.extractLsb' 13 4) (w0.extractLsb' 7 4) (w0.extractLsb' 3 4) (w0.extractLsb' 0 3))
  | 0x41 => zeroed (w0 &&& 0x01861800) (.por (w0.extractLsb' 19 4) (w0.extractLsb' 13 4) (w0.extractLsb' 7 4) (w0.extractLsb' 3 4) (w0.extractLsb' 0 3))
  | 0x42 => zeroed (w0 &&& 0x01861800) (.pxor (w0.extractLsb' 19 4) (w0.extractLsb' 13 4) (w0.extractLsb' 7 4) (w0.extractLsb' 3 4) (w0.extractLsb' 0 3))
  | 0x43 => zeroed (w0 &&& 0x01861F80) (.pnot (w0.extractLsb' 19 4) (w0.extractLsb' 13 4) (w0.extractLsb' 3 4) (w0.extractLsb' 0 3))
  | 0x44 => zeroed (w0 &&& 0x01861F80) (.pmov (w0.extractLsb' 19 4) (w0.extractLsb' 13 4) (w0.extractLsb' 3 4) (w0.extractLsb' 0 3))
  | 0x45 => zeroed (w0 &&& 0x01801F80) (.pset (w0.extractLsb' 19 4) (w0.extractLsb' 13 6) (w0.extractLsb' 3 4) (w0.extractLsb' 0 3))
  | 0x46 => .ok (.sel (w0.extractLsb' 19 6) (w0.extractLsb' 13 6) (w0.extractLsb' 7 6) (w0.extractLsb' 3 4) (w0.extractLsb' 0 3))
  | 0x48 => zeroed (w0 &&& 0x00001FF0) (.ld (w0.extractLsb' 19 6) (w0.extractLsb' 13 6) (w0.extractLsb' 3 1) (w0.extractLsb' 0 3))
  | 0x49 => zeroed (w0 &&& 0x00001FF0) (.st (w0.extractLsb' 19 6) (w0.extractLsb' 13 6) (w0.extractLsb' 3 1) (w0.extractLsb' 0 3))
  | 0x4A => zeroed (w0 &&& 0x00000070) (.ldacq (w0.extractLsb' 19 6) (w0.extractLsb' 13 6) (w0.extractLsb' 7 6) (w0.extractLsb' 3 1) (w0.extractLsb' 0 3))
  | 0x4B => zeroed (w0 &&& 0x00000070) (.strel (w0.extractLsb' 19 6) (w0.extractLsb' 13 6) (w0.extractLsb' 7 6) (w0.extractLsb' 3 1) (w0.extractLsb' 0 3))
  | 0x4C => zeroed (w0 &&& 0x01FFFF80) (.mark (w0.extractLsb' 3 4) (w0.extractLsb' 0 3))
  | 0x4D => zeroed (w0 &&& 0x01FFE078) (.fence (w0.extractLsb' 7 6) (w0.extractLsb' 0 3))
  | 0x4E => zeroed (w0 &&& 0x000001F8) (.spl (w0.extractLsb' 19 6) (w0.extractLsb' 9 10) (w0.extractLsb' 0 3))
  | 0x4F => zeroed (w0 &&& 0x000001F8) (.spr (w0.extractLsb' 19 6) (w0.extractLsb' 9 10) (w0.extractLsb' 0 3))
  | 0x50 => .ok (.amo (w0.extractLsb' 19 6) (w0.extractLsb' 13 6) (w0.extractLsb' 7 6) (w0.extractLsb' 3 4) (w0.extractLsb' 0 3))
  | 0x51 => zeroed (w0 &&& 0x00000078) (.cas (w0.extractLsb' 19 6) (w0.extractLsb' 13 6) (w0.extractLsb' 7 6) (w0.extractLsb' 0 3))
  | 0x52 => zeroed (w0 &&& 0x00001F80) (.dred (w0.extractLsb' 19 6) (w0.extractLsb' 13 6) (w0.extractLsb' 3 4) (w0.extractLsb' 0 3))
  | 0x54 => zeroed (w0 &&& 0x00001FF8) (.tlk (w0.extractLsb' 19 6) (w0.extractLsb' 13 6) (w0.extractLsb' 0 3))
  | 0x55 => zeroed (w0 &&& 0x01F80000) (.tins (w0.extractLsb' 13 6) (w0.extractLsb' 7 6) (w0.extractLsb' 3 4) (w0.extractLsb' 0 3))
  | 0x56 => zeroed (w0 &&& 0x01F81F80) (.tinv (w0.extractLsb' 13 6) (w0.extractLsb' 3 4) (w0.extractLsb' 0 3))
  | 0x57 => zeroed (w0 &&& 0x00001F80) (.trd (w0.extractLsb' 19 6) (w0.extractLsb' 13 6) (w0.extractLsb' 3 4) (w0.extractLsb' 0 3))
  | 0x58 => zeroed (w0 &&& 0x01F80018) (.qpush (w0.extractLsb' 13 6) (w0.extractLsb' 10 3) (w0.extractLsb' 5 5) (w0.extractLsb' 0 3))
  | 0x59 => zeroed (w0 &&& 0x0007E018) (.qpop (w0.extractLsb' 19 6) (w0.extractLsb' 10 3) (w0.extractLsb' 5 5) (w0.extractLsb' 0 3))
  | 0x5A => zeroed (w0 &&& 0x01FE0018) (.bop (w0.extractLsb' 13 4) (w0.extractLsb' 10 3) (w0.extractLsb' 5 5) (w0.extractLsb' 0 3))
  | 0x5C => zeroed (w0 &&& 0x00000078) (.rsr (w0.extractLsb' 19 6) (w0.extractLsb' 7 12) (w0.extractLsb' 0 3))
  | 0x5D => zeroed (w0 &&& 0x00000078) (.wsr (w0.extractLsb' 19 6) (w0.extractLsb' 7 12) (w0.extractLsb' 0 3))
  | 0x60 => .ok (.br (w0.extractLsb' 7 18) (w0.extractLsb' 3 4) (w0.extractLsb' 0 3))
  | 0x61 => .ok (.bc (w0.extractLsb' 7 18) (w0.extractLsb' 3 4) (w0.extractLsb' 0 3))
  | 0x62 => .ok (.brl (w0.extractLsb' 19 6) (w0.extractLsb' 3 16) (w0.extractLsb' 0 3))
  | 0x63 => zeroed (w0 &&& 0x01F81F80) (.jr (w0.extractLsb' 13 6) (w0.extractLsb' 3 4) (w0.extractLsb' 0 3))
  | 0x64 => .ok (.loop (w0.extractLsb' 19 6) (w0.extractLsb' 3 16) (w0.extractLsb' 0 3))
  | 0x68 => zeroed (w0 &&& 0x00000F80) (.arr (w0.extractLsb' 19 6) (w0.extractLsb' 13 6) (w0.extractLsb' 12 1) (w0.extractLsb' 3 4) (w0.extractLsb' 0 3))
  | 0x69 => zeroed (w0 &&& 0x018000F8) (.wtp (w0.extractLsb' 19 4) (w0.extractLsb' 13 6) (w0.extractLsb' 8 5) (w0.extractLsb' 0 3))
  | 0x6A => zeroed (w0 &&& 0x00001FF8) (.binit (w0.extractLsb' 19 6) (w0.extractLsb' 13 6) (w0.extractLsb' 0 3))
  | 0x6B => zeroed (w0 &&& 0x00001FF8) (.bexp (w0.extractLsb' 19 6) (w0.extractLsb' 13 6) (w0.extractLsb' 0 3))
  | 0x6C => zeroed (w0 &&& 0x01FFE0F8) (.wfe (w0.extractLsb' 8 5) (w0.extractLsb' 0 3))
  | 0x6D => zeroed (w0 &&& 0x01F81FF8) (.sev (w0.extractLsb' 13 6) (w0.extractLsb' 0 3))
  | 0x70 => zeroed (w0 &&& 0x0007FFF8) (.ofopen (w0.extractLsb' 19 6) (w0.extractLsb' 0 3))
  | 0x71 => .ok (.ofdecl (w0.extractLsb' 19 6) (w0.extractLsb' 13 6) (w0.extractLsb' 7 6) (w0.extractLsb' 3 4) (w0.extractLsb' 0 3))
  | 0x72 => zeroed (w0 &&& 0x0007FFF8) (.ofsub (w0.extractLsb' 19 6) (w0.extractLsb' 0 3))
  | 0x73 => zeroed (w0 &&& 0x018000F8) (.ofwait (w0.extractLsb' 19 4) (w0.extractLsb' 13 6) (w0.extractLsb' 8 5) (w0.extractLsb' 0 3))
  | 0x74 => zeroed (w0 &&& 0x0007FFF8) (.ofend (w0.extractLsb' 19 6) (w0.extractLsb' 0 3))
  | 0x78 => zeroed (w0 &&& 0x01F80000) (.trap (w0.extractLsb' 3 16) (w0.extractLsb' 0 3))
  | 0x79 => zeroed (w0 &&& 0x01F80000) (.sysc (w0.extractLsb' 3 16) (w0.extractLsb' 0 3))
  | 0x7A => zeroed (w0 &&& 0x01FFFF80) (.uiret (w0.extractLsb' 3 4) (w0.extractLsb' 0 3))
  | 0x7D => zeroed (w0 &&& 0x01FFFF80) (.nop (w0.extractLsb' 3 4) (w0.extractLsb' 0 3))
  | 0x7E => zeroed (w0 &&& 0x01FFFF80) (.endS (w0.extractLsb' 3 4) (w0.extractLsb' 0 3))
  | 0x7F => .ok (.blockSignatureCheck .s (w0.extractLsb' 16 9) (w0.extractLsb' 0 16))
  | _ => .error .unusedOpcode

/-- The V stream's map (08 R176): the opcode alone picks the row; `w0` to `w3` are the words of the instruction. -/
def decodeWordsV (w0 _w1 _w2 _w3 : BitVec 32) : Except DecodeError Instr :=
  match (w0.extractLsb' 25 7).toNat with
  | 0x01 => .ok (.vadd (w0.extractLsb' 19 6) (w0.extractLsb' 13 6) (w0.extractLsb' 7 6) (w0.extractLsb' 3 4) (w0.extractLsb' 0 3))
  | 0x02 => .ok (.vsub (w0.extractLsb' 19 6) (w0.extractLsb' 13 6) (w0.extractLsb' 7 6) (w0.extractLsb' 3 4) (w0.extractLsb' 0 3))
  | 0x03 => .ok (.vmul (w0.extractLsb' 19 6) (w0.extractLsb' 13 6) (w0.extractLsb' 7 6) (w0.extractLsb' 3 4) (w0.extractLsb' 0 3))
  | 0x04 => .ok (.vfma (w0.extractLsb' 19 6) (w0.extractLsb' 13 6) (w0.extractLsb' 7 6) (w0.extractLsb' 3 4) (w0.extractLsb' 0 3))
  | 0x05 => .ok (.vfms (w0.extractLsb' 19 6) (w0.extractLsb' 13 6) (w0.extractLsb' 7 6) (w0.extractLsb' 3 4) (w0.extractLsb' 0 3))
  | 0x06 => .ok (.vfnma (w0.extractLsb' 19 6) (w0.extractLsb' 13 6) (w0.extractLsb' 7 6) (w0.extractLsb' 3 4) (w0.extractLsb' 0 3))
  | 0x07 => .ok (.vmin (w0.extractLsb' 19 6) (w0.extractLsb' 13 6) (w0.extractLsb' 7 6) (w0.extractLsb' 3 4) (w0.extractLsb' 0 3))
  | 0x08 => .ok (.vmax (w0.extractLsb' 19 6) (w0.extractLsb' 13 6) (w0.extractLsb' 7 6) (w0.extractLsb' 3 4) (w0.extractLsb' 0 3))
  | 0x09 => zeroed (w0 &&& 0x00001F80) (.vabs (w0.extractLsb' 19 6) (w0.extractLsb' 13 6) (w0.extractLsb' 3 4) (w0.extractLsb' 0 3))
  | 0x0A => zeroed (w0 &&& 0x00001F80) (.vneg (w0.extractLsb' 19 6) (w0.extractLsb' 13 6) (w0.extractLsb' 3 4) (w0.extractLsb' 0 3))
  | 0x10 => zeroed (w0 &&& 0x00001F80) (.vrcp (w0.extractLsb' 19 6) (w0.extractLsb' 13 6) (w0.extractLsb' 3 4) (w0.extractLsb' 0 3))
  | 0x11 => zeroed (w0 &&& 0x00001F80) (.vrsq (w0.extractLsb' 19 6) (w0.extractLsb' 13 6) (w0.extractLsb' 3 4) (w0.extractLsb' 0 3))
  | 0x12 => zeroed (w0 &&& 0x00001F80) (.vsqrt (w0.extractLsb' 19 6) (w0.extractLsb' 13 6) (w0.extractLsb' 3 4) (w0.extractLsb' 0 3))
  | 0x13 => zeroed (w0 &&& 0x00001F80) (.vexp2 (w0.extractLsb' 19 6) (w0.extractLsb' 13 6) (w0.extractLsb' 3 4) (w0.extractLsb' 0 3))
  | 0x14 => zeroed (w0 &&& 0x00001F80) (.vlog2 (w0.extractLsb' 19 6) (w0.extractLsb' 13 6) (w0.extractLsb' 3 4) (w0.extractLsb' 0 3))
  | 0x15 => .ok (.vcvt (w0.extractLsb' 19 6) (w0.extractLsb' 13 6) (w0.extractLsb' 10 3) (w0.extractLsb' 7 3) (w0.extractLsb' 3 4) (w0.extractLsb' 0 3))
  | 0x16 => .ok (.vdot (w0.extractLsb' 19 6) (w0.extractLsb' 13 6) (w0.extractLsb' 7 6) (w0.extractLsb' 3 4) (w0.extractLsb' 0 3))
  | 0x18 => .ok (.viadd (w0.extractLsb' 19 6) (w0.extractLsb' 13 6) (w0.extractLsb' 7 6) (w0.extractLsb' 3 4) (w0.extractLsb' 0 3))
  | 0x19 => .ok (.visub (w0.extractLsb' 19 6) (w0.extractLsb' 13 6) (w0.extractLsb' 7 6) (w0.extractLsb' 3 4) (w0.extractLsb' 0 3))
  | 0x1A => .ok (.vimul (w0.extractLsb' 19 6) (w0.extractLsb' 13 6) (w0.extractLsb' 7 6) (w0.extractLsb' 3 4) (w0.extractLsb' 0 3))
  | 0x1B => .ok (.vimulh (w0.extractLsb' 19 6) (w0.extractLsb' 13 6) (w0.extractLsb' 7 6) (w0.extractLsb' 3 4) (w0.extractLsb' 0 3))
  | 0x1C => .ok (.vand (w0.extractLsb' 19 6) (w0.extractLsb' 13 6) (w0.extractLsb' 7 6) (w0.extractLsb' 3 4) (w0.extractLsb' 0 3))
  | 0x1D => .ok (.vor (w0.extractLsb' 19 6) (w0.extractLsb' 13 6) (w0.extractLsb' 7 6) (w0.extractLsb' 3 4) (w0.extractLsb' 0 3))
  | 0x1E => .ok (.vxor (w0.extractLsb' 19 6) (w0.extractLsb' 13 6) (w0.extractLsb' 7 6) (w0.extractLsb' 3 4) (w0.extractLsb' 0 3))
  | 0x1F => .ok (.vshl (w0.extractLsb' 19 6) (w0.extractLsb' 13 6) (w0.extractLsb' 7 6) (w0.extractLsb' 3 4) (w0.extractLsb' 0 3))
  | 0x20 => .ok (.vshrl (w0.extractLsb' 19 6) (w0.extractLsb' 13 6) (w0.extractLsb' 7 6) (w0.extractLsb' 3 4) (w0.extractLsb' 0 3))
  | 0x21 => .ok (.vshra (w0.extractLsb' 19 6) (w0.extractLsb' 13 6) (w0.extractLsb' 7 6) (w0.extractLsb' 3 4) (w0.extractLsb' 0 3))
  | 0x22 => zeroed (w0 &&& 0x00001F80) (.vpopc (w0.extractLsb' 19 6) (w0.extractLsb' 13 6) (w0.extractLsb' 3 4) (w0.extractLsb' 0 3))
  | 0x23 => zeroed (w0 &&& 0x00001F80) (.vclz (w0.extractLsb' 19 6) (w0.extractLsb' 13 6) (w0.extractLsb' 3 4) (w0.extractLsb' 0 3))
  | 0x24 => .ok (.vimin (w0.extractLsb' 19 6) (w0.extractLsb' 13 6) (w0.extractLsb' 7 6) (w0.extractLsb' 3 4) (w0.extractLsb' 0 3))
  | 0x25 => .ok (.vimax (w0.extractLsb' 19 6) (w0.extractLsb' 13 6) (w0.extractLsb' 7 6) (w0.extractLsb' 3 4) (w0.extractLsb' 0 3))
  | 0x28 => zeroed (w0 &&& 0x01800000) (.vceq (w0.extractLsb' 19 4) (w0.extractLsb' 13 6) (w0.extractLsb' 7 6) (w0.extractLsb' 3 4) (w0.extractLsb' 0 3))
  | 0x29 => zeroed (w0 &&& 0x01800000) (.vclt (w0.extractLsb' 19 4) (w0.extractLsb' 13 6) (w0.extractLsb' 7 6) (w0.extractLsb' 3 4) (w0.extractLsb' 0 3))
  | 0x2A => zeroed (w0 &&& 0x01800000) (.vcle (w0.extractLsb' 19 4) (w0.extractLsb' 13 6) (w0.extractLsb' 7 6) (w0.extractLsb' 3 4) (w0.extractLsb' 0 3))
  | 0x2B => zeroed (w0 &&& 0x01800000) (.vfceq (w0.extractLsb' 19 4) (w0.extractLsb' 13 6) (w0.extractLsb' 7 6) (w0.extractLsb' 3 4) (w0.extractLsb' 0 3))
  | 0x2C => zeroed (w0 &&& 0x01800000) (.vfclt (w0.extractLsb' 19 4) (w0.extractLsb' 13 6) (w0.extractLsb' 7 6) (w0.extractLsb' 3 4) (w0.extractLsb' 0 3))
  | 0x2D => zeroed (w0 &&& 0x01800000) (.vfcle (w0.extractLsb' 19 4) (w0.extractLsb' 13 6) (w0.extractLsb' 7 6) (w0.extractLsb' 3 4) (w0.extractLsb' 0 3))
  | 0x30 => .ok (.vsel (w0.extractLsb' 19 6) (w0.extractLsb' 13 6) (w0.extractLsb' 7 6) (w0.extractLsb' 3 4) (w0.extractLsb' 0 3))
  | 0x31 => zeroed (w0 &&& 0x01861800) (.vpand (w0.extractLsb' 19 4) (w0.extractLsb' 13 4) (w0.extractLsb' 7 4) (w0.extractLsb' 3 4) (w0.extractLsb' 0 3))
  | 0x32 => zeroed (w0 &&& 0x01861800) (.vpor (w0.extractLsb' 19 4) (w0.extractLsb' 13 4) (w0.extractLsb' 7 4) (w0.extractLsb' 3 4) (w0.extractLsb' 0 3))
  | 0x33 => zeroed (w0 &&& 0x01861F80) (.vpnot (w0.extractLsb' 19 4) (w0.extractLsb' 13 4) (w0.extractLsb' 3 4) (w0.extractLsb' 0 3))
  | 0x34 => zeroed (w0 &&& 0x00001F80) (.vmov (w0.extractLsb' 19 6) (w0.extractLsb' 13 6) (w0.extractLsb' 3 4) (w0.extractLsb' 0 3))
  | 0x35 => zeroed (w0 &&& 0x0007FF80) (.viota (w0.extractLsb' 19 6) (w0.extractLsb' 3 4) (w0.extractLsb' 0 3))
  | 0x36 => zeroed (w0 &&& 0x0007E080) (.vbcs (w0.extractLsb' 19 6) (w0.extractLsb' 8 5) (w0.extractLsb' 3 4) (w0.extractLsb' 0 3))
  | 0x38 => .ok (.vrotr (w0.extractLsb' 19 6) (w0.extractLsb' 13 6) (w0.extractLsb' 7 6) (w0.extractLsb' 3 4) (w0.extractLsb' 0 3))
  | 0x39 => .ok (.vbcr (w0.extractLsb' 19 6) (w0.extractLsb' 13 6) (w0.extractLsb' 7 6) (w0.extractLsb' 3 4) (w0.extractLsb' 0 3))
  | 0x3A => .ok (.vredr (w0.extractLsb' 19 6) (w0.extractLsb' 13 6) (w0.extractLsb' 7 6) (w0.extractLsb' 3 4) (w0.extractLsb' 0 3))
  | 0x3C => .ok (.vrotc (w0.extractLsb' 19 6) (w0.extractLsb' 13 6) (w0.extractLsb' 7 6) (w0.extractLsb' 3 4) (w0.extractLsb' 0 3))
  | 0x3D => .ok (.vbcc (w0.extractLsb' 19 6) (w0.extractLsb' 13 6) (w0.extractLsb' 7 6) (w0.extractLsb' 3 4) (w0.extractLsb' 0 3))
  | 0x3E => .ok (.vredc (w0.extractLsb' 19 6) (w0.extractLsb' 13 6) (w0.extractLsb' 7 6) (w0.extractLsb' 3 4) (w0.extractLsb' 0 3))
  | 0x40 => zeroed (w0 &&& 0x0007E080) (.vld (w0.extractLsb' 19 6) (w0.extractLsb' 8 5) (w0.extractLsb' 3 4) (w0.extractLsb' 0 3))
  | 0x41 => zeroed (w0 &&& 0x0007E080) (.vst (w0.extractLsb' 19 6) (w0.extractLsb' 8 5) (w0.extractLsb' 3 4) (w0.extractLsb' 0 3))
  | 0x42 => zeroed (w0 &&& 0x00000080) (.vldx (w0.extractLsb' 19 6) (w0.extractLsb' 13 6) (w0.extractLsb' 8 5) (w0.extractLsb' 3 4) (w0.extractLsb' 0 3))
  | 0x43 => zeroed (w0 &&& 0x00000080) (.vstx (w0.extractLsb' 19 6) (w0.extractLsb' 13 6) (w0.extractLsb' 8 5) (w0.extractLsb' 3 4) (w0.extractLsb' 0 3))
  | 0x44 => zeroed (w0 &&& 0x0007E080) (.vstc (w0.extractLsb' 19 6) (w0.extractLsb' 8 5) (w0.extractLsb' 3 4) (w0.extractLsb' 0 3))
  | 0x48 => zeroed (w0 &&& 0x00000180) (.vamo (w0.extractLsb' 19 6) (w0.extractLsb' 13 6) (w0.extractLsb' 9 4) (w0.extractLsb' 3 4) (w0.extractLsb' 0 3))
  | 0x49 => zeroed (w0 &&& 0x00000180) (.vdred (w0.extractLsb' 19 6) (w0.extractLsb' 13 6) (w0.extractLsb' 9 4) (w0.extractLsb' 3 4) (w0.extractLsb' 0 3))
  | 0x50 => zeroed (w0 &&& 0x001FFFF8) (.vsetf (w0.extractLsb' 23 2) (w0.extractLsb' 21 2) (w0.extractLsb' 0 3))
  | 0x51 => zeroed (w0 &&& 0x000000F8) (.vloop (w0.extractLsb' 22 3) (w0.extractLsb' 13 9) (w0.extractLsb' 8 5) (w0.extractLsb' 0 3))
  | 0x52 => zeroed (w0 &&& 0x01800000) (.vfork (w0.extractLsb' 19 4) (w0.extractLsb' 16 3) (w0.extractLsb' 0 16))
  | 0x53 => zeroed (w0 &&& 0x0001FFFF) (.vjoin (w0.extractLsb' 22 3) (w0.extractLsb' 17 5))
  | 0x54 => .ok (.vbrq (w0.extractLsb' 8 17) (w0.extractLsb' 3 5) (w0.extractLsb' 0 3))
  | 0x55 => .ok (.vbr (w0.extractLsb' 7 18) (w0.extractLsb' 3 4) (w0.extractLsb' 0 3))
  | 0x58 => zeroed (w0 &&& 0x01F80080) (.vqpush (w0.extractLsb' 13 6) (w0.extractLsb' 8 5) (w0.extractLsb' 3 4) (w0.extractLsb' 0 3))
  | 0x59 => zeroed (w0 &&& 0x018000F8) (.vwtp (w0.extractLsb' 19 4) (w0.extractLsb' 13 6) (w0.extractLsb' 8 5) (w0.extractLsb' 0 3))
  | 0x5A => zeroed (w0 &&& 0x00000F80) (.varr (w0.extractLsb' 19 6) (w0.extractLsb' 13 6) (w0.extractLsb' 12 1) (w0.extractLsb' 3 4) (w0.extractLsb' 0 3))
  | 0x78 => zeroed (w0 &&& 0x00003FF8) (.vspl (w0.extractLsb' 19 6) (w0.extractLsb' 14 5) (w0.extractLsb' 0 3))
  | 0x79 => zeroed (w0 &&& 0x00003FF8) (.vspr (w0.extractLsb' 19 6) (w0.extractLsb' 14 5) (w0.extractLsb' 0 3))
  | 0x7D => zeroed (w0 &&& 0x01FFFF80) (.vnop (w0.extractLsb' 3 4) (w0.extractLsb' 0 3))
  | 0x7E => zeroed (w0 &&& 0x01FFFF80) (.vend (w0.extractLsb' 3 4) (w0.extractLsb' 0 3))
  | 0x7F => .ok (.blockSignatureCheck .v (w0.extractLsb' 16 9) (w0.extractLsb' 0 16))
  | _ => .error .unusedOpcode

/-- The M stream's map (08 R177): the opcode alone picks the row; `w0` to `w3` are the words of the instruction. -/
def decodeWordsM (w0 w1 w2 w3 : BitVec 32) : Except DecodeError Instr :=
  match (w0.extractLsb' 25 7).toNat with
  | 0x01 => zeroed ((w0 &&& 0x00000001) ||| (w1 &&& 0x000007F8) ||| (w2 &&& 0x1F000000)) (.mlnt (hdr w0 w1) (w2.extractLsb' 29 3) (w2.extractLsb' 16 8) (w2.extractLsb' 0 16) (w3.extractLsb' 0 32))
  | 0x02 => zeroed (w0 &&& 0x000007F8) (.mtyp (w0.extractLsb' 19 6) (w0.extractLsb' 11 8) (w0.extractLsb' 0 3))
  | 0x03 => zeroed (w0 &&& 0x001FFFF8) (.mprof (w0.extractLsb' 21 4) (w0.extractLsb' 0 3))
  | 0x08 => zeroed ((w0 &&& 0x00000001) ||| (w1 &&& 0x000007F8) ||| (w2 &&& 0x3E000000)) (.mldb (hdr w0 w1) (w2.extractLsb' 30 2) (w2.extractLsb' 0 25))
  | 0x09 => zeroed ((w0 &&& 0x00000001) ||| (w1 &&& 0x000007F8) ||| (w2 &&& 0x1FFFFFFF)) (.msel (hdr w0 w1) (w2.extractLsb' 30 2) (w2.extractLsb' 29 1))
  | 0x10 => zeroed ((w0 &&& 0x00000001) ||| (w1 &&& 0x000007F8) ||| (w2 &&& 0x06000000)) (.mgo (hdr w0 w1) (w2.extractLsb' 29 3) (w2.extractLsb' 27 2) (w2.extractLsb' 0 25))
  | 0x11 => zeroed ((w0 &&& 0x00000001) ||| (w1 &&& 0x000007F8) ||| (w2 &&& 0x7FFE0000)) (.morb (hdr w0 w1) (w2.extractLsb' 31 1) (w2.extractLsb' 0 17))
  | 0x18 => zeroed ((w0 &&& 0x00000001) ||| (w1 &&& 0x000007F8)) (.mzero (hdr w0 w1) (w2.extractLsb' 29 3) (w2.extractLsb' 27 2) (w2.extractLsb' 25 2) (w2.extractLsb' 0 25))
  | 0x19 => zeroed ((w0 &&& 0x00000001) ||| (w1 &&& 0x000007F8)) (.mlda (hdr w0 w1) (w2.extractLsb' 29 3) (w2.extractLsb' 27 2) (w2.extractLsb' 25 2) (w2.extractLsb' 0 25))
  | 0x1A => zeroed ((w0 &&& 0x00000001) ||| (w1 &&& 0x000007F8)) (.msta (hdr w0 w1) (w2.extractLsb' 29 3) (w2.extractLsb' 27 2) (w2.extractLsb' 25 2) (w2.extractLsb' 0 25))
  | 0x1B => zeroed ((w0 &&& 0x00000001) ||| (w1 &&& 0x000007F8)) (.mdrain (hdr w0 w1) (w2.extractLsb' 29 3) (w2.extractLsb' 27 2) (w2.extractLsb' 25 2) (w2.extractLsb' 0 25))
  | 0x20 => zeroed (w0 &&& 0x00000FF8) (.mwait (w0.extractLsb' 17 8) (w0.extractLsb' 12 5) (w0.extractLsb' 0 3))
  | 0x21 => zeroed (w0 &&& 0x01F800F8) (.mwtp (w0.extractLsb' 13 6) (w0.extractLsb' 8 5) (w0.extractLsb' 0 3))
  | 0x22 => zeroed ((w0 &&& 0x00000001) ||| (w1 &&& 0x000007F8) ||| (w2 &&& 0x0007FFFF)) (.marrb (hdr w0 w1) (w2.extractLsb' 26 6) (w2.extractLsb' 20 6) (w2.extractLsb' 19 1))
  | 0x28 =>
    match (w2.extractLsb' 30 2).toNat with
    | 0 => zeroed ((w0 &&& 0x00000001) ||| (w1 &&& 0x000007F8) ||| (w2 &&& 0x00FE0000)) (.msolvCg (hdr w0 w1) (w2.extractLsb' 24 6) (w2.extractLsb' 0 17) (w3.extractLsb' 0 32))
    | 1 => zeroed ((w0 &&& 0x00000001) ||| (w1 &&& 0x000007F8) ||| (w2 &&& 0x00FE0000)) (.msolvLdlt (hdr w0 w1) (w2.extractLsb' 30 2 == 2) (w2.extractLsb' 24 6) (w2.extractLsb' 0 17) (w3.extractLsb' 0 32))
    | 2 => zeroed ((w0 &&& 0x00000001) ||| (w1 &&& 0x000007F8) ||| (w2 &&& 0x00FE0000)) (.msolvLdlt (hdr w0 w1) (w2.extractLsb' 30 2 == 2) (w2.extractLsb' 24 6) (w2.extractLsb' 0 17) (w3.extractLsb' 0 32))
    | _ => .error .reservedValue
  | 0x29 => zeroed ((w0 &&& 0x00000001) ||| (w1 &&& 0x000007F8) ||| (w2 &&& 0x000E0000)) (.msupd (hdr w0 w1) (w2.extractLsb' 20 12) (w2.extractLsb' 0 17))
  | 0x2A => zeroed ((w0 &&& 0x00000001) ||| (w1 &&& 0x000007F8) ||| (w2 &&& 0x000FFFFF)) (.msres (hdr w0 w1) (w2.extractLsb' 24 8) (w2.extractLsb' 20 4))
  | 0x30 => .ok (.mbrq (w0.extractLsb' 8 17) (w0.extractLsb' 3 5) (w0.extractLsb' 0 3))
  | 0x31 => zeroed (w0 &&& 0x00000078) (.mbr (w0.extractLsb' 7 18) (w0.extractLsb' 0 3))
  | 0x7D => zeroed (w0 &&& 0x01FFFFF8) (.mnop (w0.extractLsb' 0 3))
  | 0x7E => zeroed (w0 &&& 0x01FFFFF8) (.mend (w0.extractLsb' 0 3))
  | 0x7F => .ok (.blockSignatureCheck .m (w0.extractLsb' 16 9) (w0.extractLsb' 0 16))
  | _ => .error .unusedOpcode

/-- The K stream's map (08 R177): the opcode alone picks the row; `w0` to `w3` are the words of the instruction. -/
def decodeWordsK (w0 w1 w2 w3 : BitVec 32) : Except DecodeError Instr :=
  match (w0.extractLsb' 25 7).toNat with
  | 0x01 => zeroed ((w0 &&& 0x00000001) ||| (w1 &&& 0x000007F8)) (.kcpy (hdr w0 w1) (w2.extractLsb' 30 2) (w2.extractLsb' 22 8) (w2.extractLsb' 20 2) (w2.extractLsb' 0 20) (w3.extractLsb' 16 16) (w3.extractLsb' 0 16))
  | 0x02 => zeroed ((w0 &&& 0x00000001) ||| (w1 &&& 0x000007F8) ||| (w2 &&& 0x00010000)) (.kgth (hdr w0 w1) (w2.extractLsb' 30 2) (w2.extractLsb' 22 8) (w2.extractLsb' 18 4) (w2.extractLsb' 17 1) (w2.extractLsb' 0 16))
  | 0x03 => zeroed ((w0 &&& 0x00000001) ||| (w1 &&& 0x000007F8) ||| (w2 &&& 0x00010000)) (.ksct (hdr w0 w1) (w2.extractLsb' 30 2) (w2.extractLsb' 22 8) (w2.extractLsb' 18 4) (w2.extractLsb' 17 1) (w2.extractLsb' 0 16))
  | 0x04 => zeroed ((w0 &&& 0x00000001) ||| (w1 &&& 0x000007F8)) (.kmc (hdr w0 w1) (w2.extractLsb' 30 2) (w2.extractLsb' 22 8) (w2.extractLsb' 0 22))
  | 0x08 => zeroed ((w0 &&& 0x00000001) ||| (w1 &&& 0x000007F8)) (.kqnt (hdr w0 w1) (w2.extractLsb' 30 2) (w2.extractLsb' 22 8) (w2.extractLsb' 14 8) (w2.extractLsb' 12 2) (w2.extractLsb' 0 12))
  | 0x09 => zeroed ((w0 &&& 0x00000001) ||| (w1 &&& 0x000007F8)) (.kexp (hdr w0 w1))
  | 0x0A =>
    match (w2.extractLsb' 19 3).toNat with
    | 0 => zeroed ((w0 &&& 0x00000001) ||| (w1 &&& 0x000007F8)) (.kxfTranspose (hdr w0 w1) (w2.extractLsb' 30 2) (w2.extractLsb' 22 8) (w2.extractLsb' 14 5) (w2.extractLsb' 13 1) (w2.extractLsb' 0 13))
    | 1 => zeroed ((w0 &&& 0x00000001) ||| (w1 &&& 0x000007F8)) (.kxfOrbitPack (hdr w0 w1) (w2.extractLsb' 30 2) (w2.extractLsb' 22 8) (w2.extractLsb' 14 5) (w2.extractLsb' 13 1) (w2.extractLsb' 0 13))
    | 2 => zeroed ((w0 &&& 0x00000001) ||| (w1 &&& 0x000007F8)) (.kxfOrbitUnpack (hdr w0 w1) (w2.extractLsb' 30 2) (w2.extractLsb' 22 8) (w2.extractLsb' 14 5) (w2.extractLsb' 13 1) (w2.extractLsb' 0 13))
    | 3 => zeroed ((w0 &&& 0x00000001) ||| (w1 &&& 0x000007F8)) (.kxfRequantise (hdr w0 w1) (w2.extractLsb' 30 2) (w2.extractLsb' 22 8) (w2.extractLsb' 14 5) (w2.extractLsb' 13 1) (w2.extractLsb' 0 13))
    | 4 => zeroed ((w0 &&& 0x00000001) ||| (w1 &&& 0x000007F8)) (.kxfZeroFill (hdr w0 w1) (w2.extractLsb' 30 2) (w2.extractLsb' 22 8) (w2.extractLsb' 14 5) (w2.extractLsb' 13 1) (w2.extractLsb' 0 13))
    | _ => .error .reservedValue
  | 0x0B => zeroed ((w0 &&& 0x00000001) ||| (w1 &&& 0x000007F8)) (.kred (hdr w0 w1) (w2.extractLsb' 30 2) (w2.extractLsb' 22 8) (w2.extractLsb' 20 2) (w2.extractLsb' 0 20))
  | 0x0C => zeroed ((w0 &&& 0x00000001) ||| (w1 &&& 0x000007F8)) (.kexpt (hdr w0 w1))
  | 0x10 => zeroed (w0 &&& 0x01F800F8) (.kbind (w0.extractLsb' 13 6) (w0.extractLsb' 8 5) (w0.extractLsb' 0 3))
  | 0x11 => zeroed (w0 &&& 0x01FFFFF8) (.kmark (w0.extractLsb' 0 3))
  | 0x12 => zeroed (w0 &&& 0x01F800F8) (.kwtp (w0.extractLsb' 13 6) (w0.extractLsb' 8 5) (w0.extractLsb' 0 3))
  | 0x18 => .ok (.kbrq (w0.extractLsb' 8 17) (w0.extractLsb' 3 5) (w0.extractLsb' 0 3))
  | 0x19 => zeroed (w0 &&& 0x00000078) (.kbr (w0.extractLsb' 7 18) (w0.extractLsb' 0 3))
  | 0x7D => zeroed (w0 &&& 0x01FFFFF8) (.knop (w0.extractLsb' 0 3))
  | 0x7E => zeroed (w0 &&& 0x01FFFFF8) (.kend (w0.extractLsb' 0 3))
  | 0x7F => .ok (.blockSignatureCheck .k (w0.extractLsb' 16 9) (w0.extractLsb' 0 16))
  | _ => .error .unusedOpcode

/-- The number of words of an instruction, from its opcode alone (08 R161, R177). -/
def instrWords : Eng → BitVec 32 → Nat
  | .s, _ => 1
  | .v, _ => 1
  | .m, w =>
    match (w.extractLsb' 25 7).toNat with
    | 0x01 => 4
    | 0x28 => 4
    | 0x08 | 0x09 | 0x10 | 0x11 | 0x18 | 0x19 | 0x1A | 0x1B | 0x22 | 0x29 | 0x2A => 3
    | _ => 1
  | .k, w =>
    match (w.extractLsb' 25 7).toNat with
    | 0x01 => 4
    | 0x09 | 0x0C => 2
    | 0x02 | 0x03 | 0x04 | 0x08 | 0x0A | 0x0B => 3
    | _ => 1

/-- Decoding by stream, without the limits. -/
def decodeRaw : Eng → BitVec 32 → BitVec 32 → BitVec 32 → BitVec 32 → Except DecodeError Instr
  | .s => decodeWordsS
  | .v => decodeWordsV
  | .m => decodeWordsM
  | .k => decodeWordsK

/-- The instruction that the words hold in stream `e`, its limits checked (08 R179). -/
def decodeWords (e : Eng) (w0 w1 w2 w3 : BitVec 32) : Except DecodeError Instr :=
  match decodeRaw e w0 w1 w2 w3 with
  | .ok i => if i.wf then .ok i else .error .reservedValue
  | .error r => .error r

/-- Four bytes, little-endian, as a word (00 R7). -/
def word32 (b0 b1 b2 b3 : BitVec 8) : BitVec 32 := b3 ++ b2 ++ b1 ++ b0

/-- The words that the bytes hold, whole words only. -/
def wordsOf : List (BitVec 8) → List (BitVec 32)
  | b0 :: b1 :: b2 :: b3 :: rest => word32 b0 b1 b2 b3 :: wordsOf rest
  | _ => []

/-- The instruction at the head of a list of words, and the words after it. -/
def decodeList (e : Eng) : List (BitVec 32) → Except DecodeError (Instr × List (BitVec 32))
  | [] => .error .truncated
  | w0 :: rest =>
    let n := instrWords e w0
    if rest.length + 1 < n then .error .truncated
    else
      match decodeWords e w0 (rest.getD 0 0) (rest.getD 1 0) (rest.getD 2 0) with
      | .ok i => .ok (i, rest.drop (n - 1))
      | .error r => .error r

/-- Total on any bytes: the instruction that stream `e` reads from them. -/
def decodeBytes (e : Eng) (bytes : List (BitVec 8)) : Except DecodeError Instr :=
  match decodeList e (wordsOf bytes) with
  | .ok (i, _) => .ok i
  | .error r => .error r

/-- The stream whose map accepts the words, tried in engine order S, V, M, K: the table's rows carry no
stream, and the four maps overlap (DESIGN CHOICE, log 2). -/
def streamOf (bytes : List (BitVec 8)) : Option Eng :=
  match decodeBytes .s bytes with
  | .ok _ => some .s
  | .error _ =>
    match decodeBytes .v bytes with
    | .ok _ => some .v
    | .error _ =>
      match decodeBytes .m bytes with
      | .ok _ => some .m
      | .error _ =>
        match decodeBytes .k bytes with
        | .ok _ => some .k
        | .error _ => none

/-- `n` bytes of a number, the least significant first. -/
def bytesOfNat : Nat → Nat → List (BitVec 8)
  | 0, _ => []
  | n + 1, w => BitVec.ofNat 8 w :: bytesOfNat n (w / 256)

/-- The bytes of a table word as a text section holds them: the longest instruction is four words. -/
def tableBytes (nbits w : Nat) : List (BitVec 8) := bytesOfNat 16 (w % 2 ^ nbits)

/-- What the decoder reads from a word of the opcode table. -/
def decodeTableWord (nbits w : Nat) : Option Instr :=
  match streamOf (tableBytes nbits w) with
  | none => none
  | some e =>
    match decodeBytes e (tableBytes nbits w) with
    | .ok i => some i
    | .error _ => none

/-- A command's header word (08 R172). -/
def hdrWord (op : BitVec 7) (h : CmdHdr) : BitVec 32 := op ++ h.seq ++ h.dep0 ++ h.dep1 ++ 0#1

/-- A command's control word (08 R173). -/
def ctlWord (h : CmdHdr) : BitVec 32 := h.e ++ h.prof ++ h.ta ++ h.tb ++ 0#8 ++ h.tk

/-- The words of an instruction, from the layouts of 08 R168 to R174; an event has none. -/
def encode : Instr → List (BitVec 32)
  | .add sd sa sb pg tk => [0x01#7 ++ sd ++ sa ++ sb ++ pg ++ tk]
  | .sub sd sa sb pg tk => [0x02#7 ++ sd ++ sa ++ sb ++ pg ++ tk]
  | .mul sd sa sb pg tk => [0x03#7 ++ sd ++ sa ++ sb ++ pg ++ tk]
  | .mulh sd sa sb pg tk => [0x04#7 ++ sd ++ sa ++ sb ++ pg ++ tk]
  | .mulhn sd sa sb pg tk => [0x05#7 ++ sd ++ sa ++ sb ++ pg ++ tk]
  | .divs sd sa sb pg tk => [0x06#7 ++ sd ++ sa ++ sb ++ pg ++ tk]
  | .divn sd sa sb pg tk => [0x07#7 ++ sd ++ sa ++ sb ++ pg ++ tk]
  | .rems sd sa sb pg tk => [0x08#7 ++ sd ++ sa ++ sb ++ pg ++ tk]
  | .remn sd sa sb pg tk => [0x09#7 ++ sd ++ sa ++ sb ++ pg ++ tk]
  | .and sd sa sb pg tk => [0x0A#7 ++ sd ++ sa ++ sb ++ pg ++ tk]
  | .or sd sa sb pg tk => [0x0B#7 ++ sd ++ sa ++ sb ++ pg ++ tk]
  | .xor sd sa sb pg tk => [0x0C#7 ++ sd ++ sa ++ sb ++ pg ++ tk]
  | .andn sd sa sb pg tk => [0x0D#7 ++ sd ++ sa ++ sb ++ pg ++ tk]
  | .shl sd sa sb pg tk => [0x0E#7 ++ sd ++ sa ++ sb ++ pg ++ tk]
  | .shrl sd sa sb pg tk => [0x0F#7 ++ sd ++ sa ++ sb ++ pg ++ tk]
  | .shra sd sa sb pg tk => [0x10#7 ++ sd ++ sa ++ sb ++ pg ++ tk]
  | .rotl sd sa sb pg tk => [0x11#7 ++ sd ++ sa ++ sb ++ pg ++ tk]
  | .min sd sa sb pg tk => [0x12#7 ++ sd ++ sa ++ sb ++ pg ++ tk]
  | .max sd sa sb pg tk => [0x13#7 ++ sd ++ sa ++ sb ++ pg ++ tk]
  | .minn sd sa sb pg tk => [0x14#7 ++ sd ++ sa ++ sb ++ pg ++ tk]
  | .maxn sd sa sb pg tk => [0x15#7 ++ sd ++ sa ++ sb ++ pg ++ tk]
  | .clz sd sa pg tk => [0x16#7 ++ sd ++ sa ++ 0#6 ++ pg ++ tk]
  | .popc sd sa pg tk => [0x17#7 ++ sd ++ sa ++ 0#6 ++ pg ++ tk]
  | .sext sd sa n pg tk => [0x18#7 ++ sd ++ sa ++ n ++ pg ++ tk]
  | .zext sd sa n pg tk => [0x19#7 ++ sd ++ sa ++ n ++ pg ++ tk]
  | .addi sd sa imm tk => [0x21#7 ++ sd ++ sa ++ imm ++ tk]
  | .andi sd sa imm tk => [0x22#7 ++ sd ++ sa ++ imm ++ tk]
  | .ori sd sa imm tk => [0x23#7 ++ sd ++ sa ++ imm ++ tk]
  | .xori sd sa imm tk => [0x24#7 ++ sd ++ sa ++ imm ++ tk]
  | .shli sd sa imm tk => [0x25#7 ++ sd ++ sa ++ imm ++ tk]
  | .shrli sd sa imm tk => [0x26#7 ++ sd ++ sa ++ imm ++ tk]
  | .shrai sd sa imm tk => [0x27#7 ++ sd ++ sa ++ imm ++ tk]
  | .ldi sd imm tk => [0x28#7 ++ sd ++ imm ++ tk]
  | .ldhi sd imm tk => [0x29#7 ++ sd ++ imm ++ tk]
  | .lea sd sa imm tk => [0x2A#7 ++ sd ++ sa ++ imm ++ tk]
  | .plc sd sa dx dy dd tk => [0x2B#7 ++ sd ++ sa ++ dx ++ dy ++ dd ++ tk]
  | .cmpeq pd sa sb pg tk => [0x30#7 ++ 0#2 ++ pd ++ sa ++ sb ++ pg ++ tk]
  | .cmpne pd sa sb pg tk => [0x31#7 ++ 0#2 ++ pd ++ sa ++ sb ++ pg ++ tk]
  | .cmplt pd sa sb pg tk => [0x32#7 ++ 0#2 ++ pd ++ sa ++ sb ++ pg ++ tk]
  | .cmple pd sa sb pg tk => [0x33#7 ++ 0#2 ++ pd ++ sa ++ sb ++ pg ++ tk]
  | .cmpltn pd sa sb pg tk => [0x34#7 ++ 0#2 ++ pd ++ sa ++ sb ++ pg ++ tk]
  | .cmplen pd sa sb pg tk => [0x35#7 ++ 0#2 ++ pd ++ sa ++ sb ++ pg ++ tk]
  | .cmpeqi pd sa imm tk => [0x38#7 ++ 0#2 ++ pd ++ sa ++ imm ++ tk]
  | .cmpnei pd sa imm tk => [0x39#7 ++ 0#2 ++ pd ++ sa ++ imm ++ tk]
  | .cmplti pd sa imm tk => [0x3A#7 ++ 0#2 ++ pd ++ sa ++ imm ++ tk]
  | .cmplei pd sa imm tk => [0x3B#7 ++ 0#2 ++ pd ++ sa ++ imm ++ tk]
  | .cmpltni pd sa imm tk => [0x3C#7 ++ 0#2 ++ pd ++ sa ++ imm ++ tk]
  | .cmpleni pd sa imm tk => [0x3D#7 ++ 0#2 ++ pd ++ sa ++ imm ++ tk]
  | .pand pd pa pb pg tk => [0x40#7 ++ 0#2 ++ pd ++ 0#2 ++ pa ++ 0#2 ++ pb ++ pg ++ tk]
  | .por pd pa pb pg tk => [0x41#7 ++ 0#2 ++ pd ++ 0#2 ++ pa ++ 0#2 ++ pb ++ pg ++ tk]
  | .pxor pd pa pb pg tk => [0x42#7 ++ 0#2 ++ pd ++ 0#2 ++ pa ++ 0#2 ++ pb ++ pg ++ tk]
  | .pnot pd pa pg tk => [0x43#7 ++ 0#2 ++ pd ++ 0#2 ++ pa ++ 0#6 ++ pg ++ tk]
  | .pmov pd pa pg tk => [0x44#7 ++ 0#2 ++ pd ++ 0#2 ++ pa ++ 0#6 ++ pg ++ tk]
  | .pset pd val pg tk => [0x45#7 ++ 0#2 ++ pd ++ val ++ 0#6 ++ pg ++ tk]
  | .sel sd sa sb ps tk => [0x46#7 ++ sd ++ sa ++ sb ++ ps ++ tk]
  | .ld sd sa w tk => [0x48#7 ++ sd ++ sa ++ 0#6 ++ 0#3 ++ w ++ tk]
  | .st ss sa w tk => [0x49#7 ++ ss ++ sa ++ 0#6 ++ 0#3 ++ w ++ tk]
  | .ldacq sd sa obs w tk => [0x4A#7 ++ sd ++ sa ++ obs ++ 0#3 ++ w ++ tk]
  | .strel ss sa obs w tk => [0x4B#7 ++ ss ++ sa ++ obs ++ 0#3 ++ w ++ tk]
  | .mark pg tk => [0x4C#7 ++ 0#18 ++ pg ++ tk]
  | .fence obs tk => [0x4D#7 ++ 0#6 ++ 0#6 ++ obs ++ 0#4 ++ tk]
  | .spl sd off tk => [0x4E#7 ++ sd ++ off ++ 0#6 ++ tk]
  | .spr ss off tk => [0x4F#7 ++ ss ++ off ++ 0#6 ++ tk]
  | .amo sd sa obs aop tk => [0x50#7 ++ sd ++ sa ++ obs ++ aop ++ tk]
  | .cas sd sa obs tk => [0x51#7 ++ sd ++ sa ++ obs ++ 0#4 ++ tk]
  | .dred ss sa aop tk => [0x52#7 ++ ss ++ sa ++ 0#6 ++ aop ++ tk]
  | .tlk sd sa tk => [0x54#7 ++ sd ++ sa ++ 0#6 ++ 0#4 ++ tk]
  | .tins sa sb way tk => [0x55#7 ++ 0#6 ++ sa ++ sb ++ way ++ tk]
  | .tinv sa way tk => [0x56#7 ++ 0#6 ++ sa ++ 0#6 ++ way ++ tk]
  | .trd sd sa way tk => [0x57#7 ++ sd ++ sa ++ 0#6 ++ way ++ tk]
  | .qpush sa q e tk => [0x58#7 ++ 0#6 ++ sa ++ q ++ e ++ 0#2 ++ tk]
  | .qpop sd q e tk => [0x59#7 ++ sd ++ 0#6 ++ q ++ e ++ 0#2 ++ tk]
  | .bop pa q e tk => [0x5A#7 ++ 0#6 ++ 0#2 ++ pa ++ q ++ e ++ 0#2 ++ tk]
  | .rsr sd sr tk => [0x5C#7 ++ sd ++ sr ++ 0#4 ++ tk]
  | .wsr ss sr tk => [0x5D#7 ++ ss ++ sr ++ 0#4 ++ tk]
  | .br off pg tk => [0x60#7 ++ off ++ pg ++ tk]
  | .bc off pc tk => [0x61#7 ++ off ++ pc ++ tk]
  | .brl sd off tk => [0x62#7 ++ sd ++ off ++ tk]
  | .jr sa pg tk => [0x63#7 ++ 0#6 ++ sa ++ 0#6 ++ pg ++ tk]
  | .loop sa off tk => [0x64#7 ++ sa ++ off ++ tk]
  | .arr b obs dam pg tk => [0x68#7 ++ b ++ obs ++ dam ++ 0#5 ++ pg ++ tk]
  | .wtp pd b e tk => [0x69#7 ++ 0#2 ++ pd ++ b ++ e ++ 0#5 ++ tk]
  | .binit b sa tk => [0x6A#7 ++ b ++ sa ++ 0#6 ++ 0#4 ++ tk]
  | .bexp b sa tk => [0x6B#7 ++ b ++ sa ++ 0#6 ++ 0#4 ++ tk]
  | .wfe e tk => [0x6C#7 ++ 0#6 ++ 0#6 ++ e ++ 0#5 ++ tk]
  | .sev sa tk => [0x6D#7 ++ 0#6 ++ sa ++ 0#6 ++ 0#4 ++ tk]
  | .ofopen sd tk => [0x70#7 ++ sd ++ 0#6 ++ 0#6 ++ 0#4 ++ tk]
  | .ofdecl sh sa sc rw tk => [0x71#7 ++ sh ++ sa ++ sc ++ rw ++ tk]
  | .ofsub sh tk => [0x72#7 ++ sh ++ 0#6 ++ 0#6 ++ 0#4 ++ tk]
  | .ofwait pd sh e tk => [0x73#7 ++ 0#2 ++ pd ++ sh ++ e ++ 0#5 ++ tk]
  | .ofend sh tk => [0x74#7 ++ sh ++ 0#6 ++ 0#6 ++ 0#4 ++ tk]
  | .trap code tk => [0x78#7 ++ 0#6 ++ code ++ tk]
  | .sysc code tk => [0x79#7 ++ 0#6 ++ code ++ tk]
  | .uiret pg tk => [0x7A#7 ++ 0#18 ++ pg ++ tk]
  | .nop pg tk => [0x7D#7 ++ 0#18 ++ pg ++ tk]
  | .endS pg tk => [0x7E#7 ++ 0#18 ++ pg ++ tk]
  | .vadd vd va vb pg tk => [0x01#7 ++ vd ++ va ++ vb ++ pg ++ tk]
  | .vsub vd va vb pg tk => [0x02#7 ++ vd ++ va ++ vb ++ pg ++ tk]
  | .vmul vd va vb pg tk => [0x03#7 ++ vd ++ va ++ vb ++ pg ++ tk]
  | .vfma vd va vb pg tk => [0x04#7 ++ vd ++ va ++ vb ++ pg ++ tk]
  | .vfms vd va vb pg tk => [0x05#7 ++ vd ++ va ++ vb ++ pg ++ tk]
  | .vfnma vd va vb pg tk => [0x06#7 ++ vd ++ va ++ vb ++ pg ++ tk]
  | .vmin vd va vb pg tk => [0x07#7 ++ vd ++ va ++ vb ++ pg ++ tk]
  | .vmax vd va vb pg tk => [0x08#7 ++ vd ++ va ++ vb ++ pg ++ tk]
  | .vabs vd va pg tk => [0x09#7 ++ vd ++ va ++ 0#6 ++ pg ++ tk]
  | .vneg vd va pg tk => [0x0A#7 ++ vd ++ va ++ 0#6 ++ pg ++ tk]
  | .vrcp vd va pg tk => [0x10#7 ++ vd ++ va ++ 0#6 ++ pg ++ tk]
  | .vrsq vd va pg tk => [0x11#7 ++ vd ++ va ++ 0#6 ++ pg ++ tk]
  | .vsqrt vd va pg tk => [0x12#7 ++ vd ++ va ++ 0#6 ++ pg ++ tk]
  | .vexp2 vd va pg tk => [0x13#7 ++ vd ++ va ++ 0#6 ++ pg ++ tk]
  | .vlog2 vd va pg tk => [0x14#7 ++ vd ++ va ++ 0#6 ++ pg ++ tk]
  | .vcvt vd va cf ct pg tk => [0x15#7 ++ vd ++ va ++ cf ++ ct ++ pg ++ tk]
  | .vdot vd va vb pg tk => [0x16#7 ++ vd ++ va ++ vb ++ pg ++ tk]
  | .viadd vd va vb pg tk => [0x18#7 ++ vd ++ va ++ vb ++ pg ++ tk]
  | .visub vd va vb pg tk => [0x19#7 ++ vd ++ va ++ vb ++ pg ++ tk]
  | .vimul vd va vb pg tk => [0x1A#7 ++ vd ++ va ++ vb ++ pg ++ tk]
  | .vimulh vd va vb pg tk => [0x1B#7 ++ vd ++ va ++ vb ++ pg ++ tk]
  | .vand vd va vb pg tk => [0x1C#7 ++ vd ++ va ++ vb ++ pg ++ tk]
  | .vor vd va vb pg tk => [0x1D#7 ++ vd ++ va ++ vb ++ pg ++ tk]
  | .vxor vd va vb pg tk => [0x1E#7 ++ vd ++ va ++ vb ++ pg ++ tk]
  | .vshl vd va vb pg tk => [0x1F#7 ++ vd ++ va ++ vb ++ pg ++ tk]
  | .vshrl vd va vb pg tk => [0x20#7 ++ vd ++ va ++ vb ++ pg ++ tk]
  | .vshra vd va vb pg tk => [0x21#7 ++ vd ++ va ++ vb ++ pg ++ tk]
  | .vpopc vd va pg tk => [0x22#7 ++ vd ++ va ++ 0#6 ++ pg ++ tk]
  | .vclz vd va pg tk => [0x23#7 ++ vd ++ va ++ 0#6 ++ pg ++ tk]
  | .vimin vd va vb pg tk => [0x24#7 ++ vd ++ va ++ vb ++ pg ++ tk]
  | .vimax vd va vb pg tk => [0x25#7 ++ vd ++ va ++ vb ++ pg ++ tk]
  | .vceq pd va vb pg tk => [0x28#7 ++ 0#2 ++ pd ++ va ++ vb ++ pg ++ tk]
  | .vclt pd va vb pg tk => [0x29#7 ++ 0#2 ++ pd ++ va ++ vb ++ pg ++ tk]
  | .vcle pd va vb pg tk => [0x2A#7 ++ 0#2 ++ pd ++ va ++ vb ++ pg ++ tk]
  | .vfceq pd va vb pg tk => [0x2B#7 ++ 0#2 ++ pd ++ va ++ vb ++ pg ++ tk]
  | .vfclt pd va vb pg tk => [0x2C#7 ++ 0#2 ++ pd ++ va ++ vb ++ pg ++ tk]
  | .vfcle pd va vb pg tk => [0x2D#7 ++ 0#2 ++ pd ++ va ++ vb ++ pg ++ tk]
  | .vsel vd va vb ps tk => [0x30#7 ++ vd ++ va ++ vb ++ ps ++ tk]
  | .vpand pd pa pb pg tk => [0x31#7 ++ 0#2 ++ pd ++ 0#2 ++ pa ++ 0#2 ++ pb ++ pg ++ tk]
  | .vpor pd pa pb pg tk => [0x32#7 ++ 0#2 ++ pd ++ 0#2 ++ pa ++ 0#2 ++ pb ++ pg ++ tk]
  | .vpnot pd pa pg tk => [0x33#7 ++ 0#2 ++ pd ++ 0#2 ++ pa ++ 0#6 ++ pg ++ tk]
  | .vmov vd va pg tk => [0x34#7 ++ vd ++ va ++ 0#6 ++ pg ++ tk]
  | .viota vd pg tk => [0x35#7 ++ vd ++ 0#6 ++ 0#6 ++ pg ++ tk]
  | .vbcs vd e pg tk => [0x36#7 ++ vd ++ 0#6 ++ e ++ 0#1 ++ pg ++ tk]
  | .vrotr vd va n pg tk => [0x38#7 ++ vd ++ va ++ n ++ pg ++ tk]
  | .vbcr vd va n pg tk => [0x39#7 ++ vd ++ va ++ n ++ pg ++ tk]
  | .vredr vd va rop pg tk => [0x3A#7 ++ vd ++ va ++ rop ++ pg ++ tk]
  | .vrotc vd va n pg tk => [0x3C#7 ++ vd ++ va ++ n ++ pg ++ tk]
  | .vbcc vd va n pg tk => [0x3D#7 ++ vd ++ va ++ n ++ pg ++ tk]
  | .vredc vd va rop pg tk => [0x3E#7 ++ vd ++ va ++ rop ++ pg ++ tk]
  | .vld vd e pg tk => [0x40#7 ++ vd ++ 0#6 ++ e ++ 0#1 ++ pg ++ tk]
  | .vst va e pg tk => [0x41#7 ++ va ++ 0#6 ++ e ++ 0#1 ++ pg ++ tk]
  | .vldx vd vi e pg tk => [0x42#7 ++ vd ++ vi ++ e ++ 0#1 ++ pg ++ tk]
  | .vstx va vi e pg tk => [0x43#7 ++ va ++ vi ++ e ++ 0#1 ++ pg ++ tk]
  | .vstc va e pg tk => [0x44#7 ++ va ++ 0#6 ++ e ++ 0#1 ++ pg ++ tk]
  | .vamo vb vi aop pg tk => [0x48#7 ++ vb ++ vi ++ aop ++ 0#2 ++ pg ++ tk]
  | .vdred vb vi aop pg tk => [0x49#7 ++ vb ++ vi ++ aop ++ 0#2 ++ pg ++ tk]
  | .vsetf rm ew tk => [0x50#7 ++ rm ++ ew ++ 0#18 ++ tk]
  | .vloop st len e tk => [0x51#7 ++ st ++ len ++ e ++ 0#5 ++ tk]
  | .vfork pa jk off => [0x52#7 ++ 0#2 ++ pa ++ jk ++ off]
  | .vjoin jk e => [0x53#7 ++ jk ++ e ++ 0#17]
  | .vbrq off e tk => [0x54#7 ++ off ++ e ++ tk]
  | .vbr off pg tk => [0x55#7 ++ off ++ pg ++ tk]
  | .vqpush va e pg tk => [0x58#7 ++ 0#6 ++ va ++ e ++ 0#1 ++ pg ++ tk]
  | .vwtp pd b e tk => [0x59#7 ++ 0#2 ++ pd ++ b ++ e ++ 0#5 ++ tk]
  | .varr b obs dam pg tk => [0x5A#7 ++ b ++ obs ++ dam ++ 0#5 ++ pg ++ tk]
  | .vspl vd slot tk => [0x78#7 ++ vd ++ slot ++ 0#11 ++ tk]
  | .vspr va slot tk => [0x79#7 ++ va ++ slot ++ 0#11 ++ tk]
  | .vnop pg tk => [0x7D#7 ++ 0#18 ++ pg ++ tk]
  | .vend pg tk => [0x7E#7 ++ 0#18 ++ pg ++ tk]
  | .mlnt h lv rstr ext astr => [hdrWord 0x01 h, ctlWord h, lv ++ 0#5 ++ rstr ++ ext, astr]
  | .mtyp ty idx tk => [0x02#7 ++ ty ++ idx ++ 0#8 ++ tk]
  | .mprof prof tk => [0x03#7 ++ prof ++ 0#18 ++ tk]
  | .mldb h grp p => [hdrWord 0x08 h, ctlWord h, grp ++ 0#5 ++ p]
  | .msel h grp inv => [hdrWord 0x09 h, ctlWord h, grp ++ inv ++ 0#29]
  | .mgo h acc kind p => [hdrWord 0x10 h, ctlWord h, acc ++ kind ++ 0#2 ++ p]
  | .morb h wr line => [hdrWord 0x11 h, ctlWord h, wr ++ 0#14 ++ line]
  | .mzero h acc kind clamp p => [hdrWord 0x18 h, ctlWord h, acc ++ kind ++ clamp ++ p]
  | .mlda h acc kind clamp p => [hdrWord 0x19 h, ctlWord h, acc ++ kind ++ clamp ++ p]
  | .msta h acc kind clamp p => [hdrWord 0x1A h, ctlWord h, acc ++ kind ++ clamp ++ p]
  | .mdrain h acc kind clamp p => [hdrWord 0x1B h, ctlWord h, acc ++ kind ++ clamp ++ p]
  | .mwait seq e tk => [0x20#7 ++ seq ++ e ++ 0#9 ++ tk]
  | .mwtp b e tk => [0x21#7 ++ 0#6 ++ b ++ e ++ 0#5 ++ tk]
  | .marrb h b obs dam => [hdrWord 0x22 h, ctlWord h, b ++ obs ++ dam ++ 0#19]
  | .msolvCg h tolx line dline => [hdrWord 0x28 h, ctlWord h, 0#2 ++ tolx ++ 0#7 ++ line, dline]
  | .msolvLdlt h resumed tolx line dline => [hdrWord 0x28 h, ctlWord h, (if resumed then 2#2 else 1#2) ++ tolx ++ 0#7 ++ line, dline]
  | .msupd h cnt line => [hdrWord 0x29 h, ctlWord h, cnt ++ 0#3 ++ line]
  | .msres h off cnt => [hdrWord 0x2A h, ctlWord h, off ++ cnt ++ 0#20]
  | .mbrq off e tk => [0x30#7 ++ off ++ e ++ tk]
  | .mbr off tk => [0x31#7 ++ off ++ 0#4 ++ tk]
  | .mnop tk => [0x7D#7 ++ 0#22 ++ tk]
  | .mend tk => [0x7E#7 ++ 0#22 ++ tk]
  | .kcpy h am so dims len0 n1 n2 => [hdrWord 0x01 h, ctlWord h, am ++ so ++ dims ++ len0, n1 ++ n2]
  | .kgth h am so esz ixw cnt => [hdrWord 0x02 h, ctlWord h, am ++ so ++ esz ++ ixw ++ 0#1 ++ cnt]
  | .ksct h am so esz ixw cnt => [hdrWord 0x03 h, ctlWord h, am ++ so ++ esz ++ ixw ++ 0#1 ++ cnt]
  | .kmc h am so len => [hdrWord 0x04 h, ctlWord h, am ++ so ++ len]
  | .kqnt h am so sfmt efmt nblk => [hdrWord 0x08 h, ctlWord h, am ++ so ++ sfmt ++ efmt ++ nblk]
  | .kexp h => [hdrWord 0x09 h, ctlWord h]
  | .kxfTranspose h am so fp sc cnt => [hdrWord 0x0A h, ctlWord h, am ++ so ++ 0#3 ++ fp ++ sc ++ cnt]
  | .kxfOrbitPack h am so fp sc cnt => [hdrWord 0x0A h, ctlWord h, am ++ so ++ 1#3 ++ fp ++ sc ++ cnt]
  | .kxfOrbitUnpack h am so fp sc cnt => [hdrWord 0x0A h, ctlWord h, am ++ so ++ 2#3 ++ fp ++ sc ++ cnt]
  | .kxfRequantise h am so fp sc cnt => [hdrWord 0x0A h, ctlWord h, am ++ so ++ 3#3 ++ fp ++ sc ++ cnt]
  | .kxfZeroFill h am so fp sc cnt => [hdrWord 0x0A h, ctlWord h, am ++ so ++ 4#3 ++ fp ++ sc ++ cnt]
  | .kred h am so rop cnt => [hdrWord 0x0B h, ctlWord h, am ++ so ++ rop ++ cnt]
  | .kexpt h => [hdrWord 0x0C h, ctlWord h]
  | .kbind b e tk => [0x10#7 ++ 0#6 ++ b ++ e ++ 0#5 ++ tk]
  | .kmark tk => [0x11#7 ++ 0#22 ++ tk]
  | .kwtp b e tk => [0x12#7 ++ 0#6 ++ b ++ e ++ 0#5 ++ tk]
  | .kbrq off e tk => [0x18#7 ++ off ++ e ++ tk]
  | .kbr off tk => [0x19#7 ++ off ++ 0#4 ++ tk]
  | .knop tk => [0x7D#7 ++ 0#22 ++ tk]
  | .kend tk => [0x7E#7 ++ 0#22 ++ tk]
  | .blockSignatureCheck _ len crc => [0x7F#7 ++ len ++ crc]
  | .illegalWord _ => []
  | .commandStart _ _ => []
  | .lineResponse _ _ => []
  | .kCommandCompletion _ _ => []
  | .mCommandCompletion _ _ => []
  | .memoryResponse _ _ _ => []
  | .wStoreLanding => []
  | .translationWalk _ _ => []
  | .storeQueuePriority _ _ => []
  | .checkerCompare _ _ _ => []
  | .boundOverrun _ _ _ => []
  | .boundTrapEntry _ => []
  | .userInterruptEntry _ => []
  | .syscAnswer _ => []
  | .zenithArrival _ _ => []
  | .domainRelease _ _ => []
  | .updateAcceptance => []
  | .closeTag _ => []
  | .reducePacket => []
  | .ofsubAcceptance _ _ => []
  | .beatEnd _ => []
  | .batchArrival _ _ => []
  | .grantQueueTake _ => []
  | .grantArrival _ => []
  | .packetReceive _ => []
  | .responseReceive _ => []
  | .retryBufferRoom _ => []
  | .linkDown _ _ _ => []
  | .linkSilenceTimeout _ _ _ => []
  | .switchReport _ _ _ => []
  | .responseTimeout _ _ _ => []
  | .pathUpResync _ _ _ => []
  | .stagingWordWrite _ _ _ => []
  | .collectiveGo _ _ => []
  | .collectiveStatusPop _ => []
  | .chunkComplete _ _ _ => []
  | .collectiveFailure _ _ _ => []
  | .kickScan => []
  | .headLinkWaitEnd _ => []
  | .objectLoad _ _ => []
  | .objectUnload _ => []
  | .unloadTakesEffect _ => []
  | .unitHandOut _ => []
  | .unitStart _ => []
  | .tagChangeZeroing _ => []
  | .preEmption _ => []
  | .halt _ => []
  | .contextSave _ => []
  | .budgetExhausted _ => []
  | .solverDeadline _ => []
  | .endReport _ => []
  | .completionPosting _ => []
  | .purgeComplete _ => []
  | .dieFence _ => []
  | .dispatcherTakeOver => []
  | .errorBankClear _ => []
  | .moduleReset _ => []
  | .throttle _ => []
  | .thermalTrip => []
  | .readSensors _ _ => []
  | .setPowerCap _ _ => []
  | .counterAdvance _ _ _ => []
  | .installPlatformRecord _ _ _ => []
  | .flitCrcRetry _ _ _ => []

/-- The bytes of a list of words, each little-endian. -/
def bytesOfWords (ws : List (BitVec 32)) : List (BitVec 8) := ws.flatMap fun w => bytesOfNat 4 w.toNat

end Sys2Proof
end

