-- ==== Sys2Proof/Machine/Loader.lean ====
section
/-!
DEFINITION. The Zhenov loader (03 R51 to R68): the checks of an image in the order of R68, relocation, and binding. A
check gives the file offsets of the bytes that offend; the image is rejected at the least of them (R67, log 30).
-/
namespace Sys2Proof.Machine

abbrev Img := List Byte

/-- A little-endian field of the image. -/
def imgNum (m : Img) (off n : Nat) : Nat := leNat ((m.drop off).take n)

/-- The bytes of a zero field that are not zero. -/
def nonzeroAt (m : Img) (off n : Nat) : List Nat :=
  (((m.drop off).take n).zipIdx.filter (fun b => decide (b.1 ≠ 0))).map (fun b => off + b.2)

/-- A field that must meet a condition offends at its first byte. -/
def need (ok : Bool) (off : Nat) : List Nat := if ok then [] else [off]

/-- Rejects with a code where a byte offends. -/
def reject (code : Nat) (offs : List Nat) : Except (Nat × Nat) Unit :=
  match offs with
  | [] => .ok ()
  | o :: os => .error (code, os.foldl min o)

/-- A section (R52), with the file offset of its table entry. -/
structure Sect where
  kind : Nat
  align : Nat
  off : Nat
  size : Nat
  entry : Nat
  deriving DecidableEq, Repr, Inhabited

def sectsOf (m : Img) : List Sect :=
  (List.range (imgNum m 8 2)).map (fun i =>
    let b := 64 + 32 * i
    { kind := imgNum m b 1, align := imgNum m (b + 2) 2, off := imgNum m (b + 8) 8, size := imgNum m (b + 16) 8, entry := b })

def findSect (l : List Sect) (kind : Nat) : Option Sect := l.find? (fun x => decide (x.kind = kind))
def Sect.bytes (x : Sect) (m : Img) : Img := (m.drop x.off).take x.size

/-- Code 0x01: the header (R51). -/
def badHeader (m : Img) : List Nat :=
  need (imgNum m 0 1 = 0x41) 0 ++ need (imgNum m 1 1 = 0x58) 1 ++ need (imgNum m 2 1 = 0x4F) 2 ++ need (imgNum m 3 1 = 0x31) 3
    ++ need (imgNum m 4 2 = 64) 4 ++ need (imgNum m 0xA 2 = 32) 0xA ++ need (imgNum m 0xC 4 = 64) 0xC
    ++ need (imgNum m 0x10 8 = m.length) 0x10 ++ nonzeroAt m 0x28 24

/-- The kinds of R53. -/
def sectKinds : List Nat := [0x01, 0x02, 0x03, 0x04, 0x10, 0x11, 0x12, 0x13, 0x20, 0x21, 0x30, 0x31, 0x7F]

/-- One entry of the section table after the end and the kind of the one before it (R52, R54). -/
def badSect (m : Img) (prevEnd prevKind : Nat) (x : Sect) : List Nat :=
  let b := x.entry
  need (sectKinds.contains x.kind && decide (prevKind < x.kind)) b ++ nonzeroAt m (b + 1) 1 ++ need (x.align ≤ 21) (b + 2)
    ++ nonzeroAt m (b + 4) 4 ++ need (decide (x.off % 16 = 0) && decide (prevEnd ≤ x.off)) (b + 8)
    ++ need (decide (x.off + x.size ≤ m.length)
        && (decide (4 < x.kind) || (decide (x.size ≠ 0) && decide (x.size % 4 = 0) && decide (x.size ≤ 2 ^ 22)))) (b + 16)
    ++ nonzeroAt m (b + 24) 8 ++ (if prevEnd ≤ x.off then nonzeroAt m prevEnd (x.off - prevEnd) else [])

def badSects (m : Img) : Nat → Nat → List Sect → List Nat
  | _, _, [] => []
  | e, k, x :: xs => badSect m e k x ++ badSects m (x.off + x.size) x.kind xs

/-- Code 0x02: the section table (R52 to R54). MODEL'S CHOICE (log 30): where a required section is absent the byte that offends is the
first of the table entry that stands where its own should stand, of the last entry where none does. -/
def badTable (m : Img) : List Nat :=
  let n := imgNum m 8 2
  if n < 3 || 13 < n || decide (m.length < 64 + 32 * n) then [8]
  else
    let l := sectsOf m
    let last := l.getLastD default
    let missing (k : Nat) : List Nat :=
      if (findSect l k).isSome then [] else [((l.find? (fun x => decide (k < x.kind))).getD last).entry]
    let entries := (List.range 4).flatMap (fun e =>
      let at_ := imgNum m (0x18 + 4 * e) 4
      need (match findSect l (e + 1) with
        | some x => decide (at_ % 4 = 0) && decide (at_ < x.size)
        | none => decide (at_ = 0)) (0x18 + 4 * e))
    badSects m (64 + 32 * n) 0 l ++ missing 0x01 ++ missing 0x10 ++ missing 0x7F
      ++ need (last.off + last.size = m.length) (last.entry + 16) ++ entries

/-- Code 0x03: the signature block and the signature (R66). -/
def signed (m : Img) (sig : Sect) : Bool :=
  let b := sig.bytes m
  let be (off n : Nat) : Nat := beNat ((b.drop off).take n)
  decide (b.length = 288) && decide (imgNum b 0 2 = 1) && (nonzeroAt b 2 2).isEmpty && (nonzeroAt b 0xA 6).isEmpty
    && decide (imgNum b 0x10 1 = 4) && (nonzeroAt b 0x95 3).isEmpty && (nonzeroAt b 0x11C 4).isEmpty
    && ecdsaP521 (be 0x11 66) (be 0x53 66) (be 0x98 66) (be 0xDA 66) (sha512 (m.take (sig.off + 0x98)))

/- Text (R55, R58, R63, 08 R179). -/

/-- An instruction of a text section: its byte offset, its first two words, and what it is by its opcode and zero fields, and
with its limits. -/
structure TextInstr where
  off : Nat
  words : BitVec 32 × BitVec 32
  raw : Except DecodeError Instr
  full : Except DecodeError Instr

/-- The instructions of a block's words, from its first after the SIG word, each instruction's length taken from its opcode (08
R179). What follows an opcode that is none cannot be told apart (log 30). -/
def scanBlock (e : Eng) : Nat → Nat → List (BitVec 32) → List TextInstr
  | 0, _, _ => []
  | _, _, [] => []
  | k + 1, i, w :: ws =>
    let n := instrWords e w
    let at_ (f : Eng → BitVec 32 → BitVec 32 → BitVec 32 → BitVec 32 → Except DecodeError Instr) : Except DecodeError Instr :=
      if ws.length + 1 < n then .error .truncated else f e w (ws.getD 0 0) (ws.getD 1 0) (ws.getD 2 0)
    let x : TextInstr := { off := i, words := (w, ws.getD 0 0), raw := at_ decodeRaw, full := at_ decodeWords }
    match x.raw with
    | .error .unusedOpcode => [x]
    | _ => x :: scanBlock e k (i + 4 * n) ((w :: ws).drop n)

/-- A text section divided into blocks: the offsets of the SIG words that begin them, those of faulty blocks, and the
instructions. -/
structure TextScan where
  starts : List Nat
  bad : List Nat
  instrs : List TextInstr

def isSigInstr (x : TextInstr) : Bool := match x.raw with | .ok (.blockSignatureCheck ..) => true | _ => false

/-- The number of words up to the next SIG word, instruction by instruction. -/
def runLen (e : Eng) : Nat → List (BitVec 32) → Nat
  | 0, _ => 0
  | _, [] => 0
  | k + 1, w :: ws => if isSig w then 0 else let n := min (instrWords e w) (ws.length + 1); n + runLen e k ((w :: ws).drop n)

/-- The blocks of a text section (04 R80): each begins with a SIG word whose length and CRC match it and holds no other.
Where a block should begin and no SIG word stands, the words up to the next one are a faulty block (log 30). -/
def scanText (e : Eng) : Nat → Nat → List (BitVec 32) → TextScan
  | 0, _, _ => { starts := [], bad := [], instrs := [] }
  | _, _, [] => { starts := [], bad := [], instrs := [] }
  | k + 1, i, w :: ws =>
    if !isSig w then
      let n := runLen e (ws.length + 1) (w :: ws)
      let r := scanText e k (i + 4 * n) ((w :: ws).drop n)
      { starts := r.starts, bad := i :: r.bad, instrs := scanBlock e n i ((w :: ws).take n) ++ r.instrs }
    else
      let len := (w.extractLsb' 16 9).toNat
      let body := ws.take len
      let xs := scanBlock e len (i + 4) body
      let ok := decide (len ≠ 0) && decide (len ≤ ws.length) && decide (crc16 (bytesOfWords body) = w.extractLsb' 0 16) && !xs.any isSigInstr
      let r := scanText e k (i + 4 * (len + 1)) (ws.drop len)
      { starts := i :: r.starts, bad := (if ok then r.bad else i :: r.bad), instrs := xs ++ r.instrs }

/-- The signed word offset of an immediate target (R63). -/
def immTarget : Instr → Option Int
  | .br off _ _ | .bc off _ _ | .vbr off _ _ | .mbr off _ | .kbr off _ => some off.toInt
  | .brl _ off _ | .loop _ off _ => some off.toInt
  | .vfork _ _ off => some off.toInt
  | .vbrq off _ _ | .mbrq off _ _ | .kbrq off _ _ => some off.toInt
  | _ => none

/-- The profile that an M instruction names, with the place of its field in the instruction, by its opcode (R58). -/
def profileNamed (w0 w1 : BitVec 32) : Option (Nat × Nat) :=
  match (w0.extractLsb' 25 7).toNat with
  | 0x03 => some ((w0.extractLsb' 21 4).toNat, 2)
  | 0x01 | 0x08 | 0x09 | 0x10 | 0x11 | 0x18 | 0x19 | 0x1A | 0x1B | 0x22 | 0x28 | 0x29 | 0x2A => some ((hdr w0 w1).prof.toNat, 6)
  | _ => none

/-- The text sections with their scans. -/
def scansOf (m : Img) (l : List Sect) : List (Eng × Sect × TextScan) :=
  [Eng.s, .v, .m, .k].filterMap (fun e => (findSect l (engNum e + 1)).map (fun x =>
    let ws := wordsOf (x.bytes m)
    (e, x, scanText e (ws.length + 1) 0 ws)))

/-- The templates of .launch (R59): their file offsets. MODEL'S CHOICE (log 30): R68 gives no code for a count that does not fit
the section's size, or for its zero bytes; the section then holds the lesser number of templates. -/
def templatesOf (m : Img) (l : List Sect) : List Nat :=
  match findSect l 0x13 with
  | none => []
  | some x => (List.range (min (imgNum m x.off 4) ((x.size - 8) / 256))).map (fun i => x.off + 8 + 256 * i)

/-- The numbers of .profiles (R58). -/
def profilesOf (m : Img) (l : List Sect) : List Nat :=
  match findSect l 0x12 with
  | none => []
  | some x => ((x.bytes m).drop 2).map BitVec.toNat

/-- Code 0x07 (R58). -/
def badProfiles (m : Img) (l : List Sect) (scans : List (Eng × Sect × TextScan)) : List Nat :=
  let ps := profilesOf m l
  let named (p : Nat) : Bool := decide (p = 0) || ps.contains p
  (match findSect l 0x12 with
    | none => []
    | some x =>
      let n := imgNum m x.off 2
      need (decide (1 ≤ n) && decide (n ≤ 8) && decide (x.size = 2 + n)) x.off
        ++ ps.zipIdx.flatMap (fun p =>
          need (decide (1 ≤ p.1) && decide (p.1 ≤ 8) && (decide (p.2 = 0) || decide (ps.getD (p.2 - 1) 0 < p.1))) (x.off + 2 + p.2)))
    ++ scans.flatMap (fun t => if t.1 ≠ .m then [] else t.2.2.instrs.flatMap (fun x =>
      match x.raw, profileNamed x.words.1 x.words.2 with
      | .error .truncated, _ => []
      | _, some (p, o) => need (named p) (t.2.1.off + x.off + o)
      | _, none => []))
    ++ (templatesOf m l).flatMap (fun o => need (named (imgNum m (o + 0x0C) 1)) (o + 0x0C))

/-- The number of descriptors. -/
def ntypesOf (m : Img) (l : List Sect) : Nat := match findSect l 0x11 with | some x => imgNum m x.off 2 | none => 0

/-- Code 0x08 (08 R179), at the instruction's first byte (log 30). A SIG word inside a block's body is code 0x09, whatever its
length (04 R80). -/
def badEncodings (m : Img) (l : List Sect) (scans : List (Eng × Sect × TextScan)) : List Nat :=
  scans.flatMap (fun t => (t.2.2.instrs.filter (fun x => !isSigInstr x)).flatMap (fun x => match x.full with
    | .error _ => [t.2.1.off + x.off]
    | .ok (.mtyp _ idx _) => need (decide (idx.toNat < ntypesOf m l)) (t.2.1.off + x.off)
    | .ok _ => []))

/-- Code 0x09 (R55, R63), at the first byte of a faulty block or of the branch, and at the header's field for an entry
(log 30). -/
def badBlocks (m : Img) (scans : List (Eng × Sect × TextScan)) : List Nat :=
  scans.flatMap (fun t =>
    let entry := 0x18 + 4 * engNum t.1
    t.2.2.bad.map (fun o => t.2.1.off + o) ++ need (t.2.2.starts.contains (imgNum m entry 4)) entry
      ++ t.2.2.instrs.flatMap (fun x => match x.full with
        | .ok i => (match immTarget i with
          | some o =>
            let a : Int := x.off + 4 * o
            need (decide (0 ≤ a) && t.2.2.starts.contains a.toNat) (t.2.1.off + x.off)
          | none => [])
        | .error _ => []))

/-- Code 0x0A (R56). MODEL'S CHOICE (log 30): a FIFO that has tokens on one side only offends at its PUSHES. -/
def badSync (m : Img) (l : List Sect) (x : Sect) : List Nat :=
  if x.size ≠ 104 then [x.off]
  else
    let o := x.off
    let entry (e i : Nat) : BitVec 8 := BitVec.ofNat 8 (imgNum m (o + 8 + 8 * e + i) 1)
    let all := (List.range 4).flatMap (fun e => (List.range 8).map (fun i => (e, entry e i)))
    let pushes (f : Nat) : Nat := (all.filter (fun t => (fifosPushed (engOfNum t.1) t.2).contains f)).length
    let pops (f : Nat) : Nat := (all.filter (fun t => (fifosPopped (engOfNum t.1) t.2).contains f)).length
    need (imgNum m o 4 = 1) o ++ nonzeroAt m (o + 4) 4
      ++ (List.range 4).flatMap (fun e => (List.range 8).flatMap (fun i =>
        need (if i = 0 then entry e i = 0 else (entry e i).toNat < 64) (o + 8 + 8 * e + i)))
      ++ (List.range 12).flatMap (fun f =>
        let d := imgNum m (o + 0x28 + f) 1
        need (decide (1 ≤ d) && decide (d ≤ 64)) (o + 0x28 + f))
      ++ nonzeroAt m (o + 0x34) 4
      ++ (List.range 12).flatMap (fun f =>
        let there (e : Nat) : Bool := (findSect l (e + 1)).isSome
        need (decide (imgNum m (o + 0x38 + 2 * f) 2 = pushes f) && (decide (pushes f = 0) == decide (pops f = 0))
          && (decide (pushes f = 0) || (there (fifoFrom f) && there (fifoDest f)))) (o + 0x38 + 2 * f)
        ++ need (imgNum m (o + 0x50 + 2 * f) 2 = pops f) (o + 0x50 + 2 * f))

/-- A descriptor at a file offset: the rules of 02 R36 to R39 but for the base fields. MODEL'S CHOICE (log 30): what breaks the rules
of a SCALED type offends at the flags byte. -/
def badShape (m : Img) (o : Nat) : List Nat :=
  let u (off n : Nat) : Nat := imgNum m (o + off) n
  let rank := u 1 1
  let ext (k : Nat) : Nat := u (4 + 4 * k) 4
  let stride (k : Nat) : Int := (BitVec.ofNat 64 (u (0x20 + 8 * k) 8)).toInt
  let flags := u 3 1
  let scaled := decide (flags % 2 = 1)
  let kidx := flags / 4 % 4
  let slot (i : Nat) : Nat := u (0x14 + 2 * i) 2
  let grp (i : Nat) : Nat := slot i % 8
  let ia (i : Nat) : Nat := slot i / 8 % 4
  let ib (i : Nat) : Nat := slot i / 32 % 4
  let full (i : Nat) : Bool := decide (grp i ≠ 0)
  let isN := decide (5 ≤ u 0 1) && decide (u 0 1 ≤ 8)
  let inSlot (k : Nat) : Bool := [0, 1].any (fun i => full i && (decide (ia i = k) || decide (ib i = k)))
  need (fmtOfCode (u 0 1)).isSome o ++ need (decide (1 ≤ rank) && decide (rank ≤ 4)) (o + 1) ++ need (u 2 1 ≤ 1) (o + 2)
    ++ need (decide (flags < 16) && (!scaled || (scalable (u 0 1) && decide (kidx < rank) && !inSlot kidx
        && decide (stride kidx = 1) && decide (ext kidx % 32 = 0)
        && (List.range 4).all (fun k => decide (k = kidx) || decide (stride k % 32 = 0))))) (o + 3)
    ++ (List.range 4).flatMap (fun k => need (if k < rank then decide (1 ≤ ext k) && decide (ext k < 2 ^ 24) else decide (ext k = 1)) (o + 4 + 4 * k))
    ++ [0, 1].flatMap (fun i => need (decide (slot i < 2 ^ 7) && decide (grp i ≤ 4)
        && (!full i || (decide (ia i < ib i) && decide (ib i < rank) && decide (ext (ia i) = ext (ib i)) && decide (stride (ib i) = 0)))
        && !(decide (grp i = 2) && isN)) (o + 0x14 + 2 * i))
    ++ need (!(full 0 && full 1) || ([ia 0, ib 0, ia 1, ib 1].eraseDups.length = 4)) (o + 0x16)
    ++ nonzeroAt m (o + 0x48) 8

/-- The base fields of a descriptor, out of their ranges (02 R36, R63). MODEL'S CHOICE (log 30): the spec gives a range for a
base as written and for a relocated sbase; a SCALED type's sbase as written is held to the same range. -/
def badBase (m : Img) (o : Nat) : Bool × Bool :=
  let lim := if imgNum m (o + 2) 1 = 1 then 2 ^ 23 else 2 ^ 57
  let scaled := decide (imgNum m (o + 3) 1 % 2 = 1)
  (decide (lim ≤ imgNum m (o + 0x18) 8), if scaled then decide (lim ≤ imgNum m (o + 0x40) 8) else decide (imgNum m (o + 0x40) 8 ≠ 0))

/-- Code 0x0B (R57, 02 R39). -/
def badTensors (m : Img) (x : Sect) : List Nat :=
  let o := x.off
  let nt := imgNum m o 2
  let nb := imgNum m (o + 2) 2
  let head := need (nt ≤ 256) o ++ need (nb ≤ 16) (o + 2) ++ nonzeroAt m (o + 4) 4
  if x.size ≠ 8 + 80 * nt + 2 * nb || !head.isEmpty then (if head.isEmpty then [o] else head)
  else
    let bo := o + 8 + 80 * nt
    (List.range nt).flatMap (fun i =>
      let d := o + 8 + 80 * i
      badShape m d ++ need (!(badBase m d).1) (d + 0x18) ++ need (!(badBase m d).2) (d + 0x40))
    ++ (List.range nb).flatMap (fun i =>
      let r := imgNum m (bo + 2 * i) 1
      need (decide (r ≤ 15) && !(List.range i).any (fun j => decide (imgNum m (bo + 2 * j) 1 = r))) (bo + 2 * i)
        ++ need (imgNum m (bo + 2 * i + 1) 1 < nt) (bo + 2 * i + 1))

/- Symbols and relocations. -/

/-- A symbol (R60). -/
structure ImgSym where
  name : Nat
  sect : Nat
  bind : Nat
  value : Nat
  size : Nat
  entry : Nat
  deriving DecidableEq, Repr, Inhabited

def symsOf (m : Img) (l : List Sect) : List ImgSym :=
  match findSect l 0x31 with
  | none => []
  | some x => (List.range (min (imgNum m x.off 4) ((x.size - 8) / 24))).map (fun i =>
      let o := x.off + 8 + 24 * i
      { name := imgNum m o 4, sect := imgNum m (o + 4) 1, bind := imgNum m (o + 5) 1, value := imgNum m (o + 8) 8,
        size := imgNum m (o + 16) 8, entry := o })

/-- A symbol's address (R62). -/
def symAddr (pl : Placement) (y : ImgSym) : Int :=
  match y.sect with
  | 0x13 => pl.launch + y.value
  | 0x20 => pl.rodata + y.value
  | 0x21 => pl.data + y.value
  | _ => y.value

/-- A relocation (R61). -/
structure Reloc where
  off : Nat
  target : Nat
  type : Nat
  sym : Nat
  addend : Int
  entry : Nat
  deriving DecidableEq, Repr, Inhabited

def relocsOf (m : Img) (l : List Sect) : List Reloc :=
  match findSect l 0x30 with
  | none => []
  | some x => (List.range (x.size / 24)).map (fun i =>
      let o := x.off + 24 * i
      { off := imgNum m o 8, target := imgNum m (o + 8) 1, type := imgNum m (o + 9) 1, sym := imgNum m (o + 12) 4,
        addend := (BitVec.ofNat 64 (imgNum m (o + 16) 8)).toInt, entry := o })

def Reloc.width (r : Reloc) : Nat := if r.type = 3 then 4 else 8

/-- The value a relocation writes. -/
def relocValue (pl : Placement) (handle : BitVec 32) (syms : List ImgSym) (r : Reloc) : Int :=
  let y := syms.getD r.sym default
  match r.type with
  | 3 => handle.toNat
  | 4 => y.size + r.addend
  | _ => symAddr pl y + r.addend

/-- Whether a relocation's value rests on a placement that has failed: it then has none to be checked, and the load ends with
code 0x0E. -/
def Reloc.unplaced (r : Reloc) (pl : Placement) (syms : List ImgSym) : Bool :=
  !pl.room && decide (r.type = 1) && [0x13, 0x20, 0x21].contains (syms.getD r.sym default).sect

/-- One relocation, after those before it (R61, R62). MODEL'S CHOICE (log 30): where its target kind is reserved, or names a section
that is absent, the section's size counts as 0, so that its offset field offends too, which is the earlier one; a value out of its range
offends at the addend; and in an image without a .sym section no symbol number is below the count, 0 of a HANDLE relocation either. -/
def badReloc (m : Img) (l : List Sect) (pl : Placement) (handle : BitVec 32) (before : List Reloc) (r : Reloc) : List Nat :=
  let syms := symsOf m l
  let o := r.entry
  let y := syms.getD r.sym default
  let v := relocValue pl handle syms r
  let lim : Int := if r.type = 2 then 2 ^ 23 else 2 ^ 57
  let size := match findSect l r.target with | some x => x.size | none => 0
  need (decide (r.off + r.width ≤ size) && !before.any (fun b => decide (b.target = r.target) && decide (b.off < r.off + r.width)
      && decide (r.off < b.off + b.width))
      && (decide (r.target ≠ 0x11) || (decide (8 ≤ r.off) && decide (r.off < 8 + 80 * ntypesOf m l)
        && (decide ((r.off - 8) % 80 = 0x18) || decide ((r.off - 8) % 80 = 0x40))))) o
    ++ need ([0x11, 0x13, 0x20, 0x21].contains r.target && (findSect l r.target).isSome) (o + 8)
    ++ need (decide (1 ≤ r.type) && decide (r.type ≤ 4)) (o + 9) ++ nonzeroAt m (o + 10) 2
    ++ need (decide (r.sym < syms.length) && (if r.type = 3 then decide (r.sym = 0) else decide (r.sym ≠ 0))
      && (decide (r.type ≠ 2) || decide (y.sect = 0xFE))) (o + 12)
    ++ need (if r.type = 3 then decide (r.addend = 0) else r.unplaced pl syms || (decide (0 ≤ v) && decide (v < lim))) (o + 16)

def badRelocList (m : Img) (l : List Sect) (pl : Placement) (handle : BitVec 32) : List Reloc → List Reloc → List Nat
  | _, [] => []
  | before, r :: rs => badReloc m l pl handle before r ++ badRelocList m l pl handle (before ++ [r]) rs

/-- Writes bytes over the image. -/
def patch (m : Img) (off : Nat) (bs : List Byte) : Img := m.take off ++ bs ++ m.drop (off + bs.length)

/-- Applies the relocations in order to the loader's copy (R62). -/
def relocate (m : Img) (l : List Sect) (pl : Placement) (handle : BitVec 32) : Img :=
  let syms := symsOf m l
  (relocsOf m l).foldl (fun c r =>
    match findSect l r.target with
    | none => c
    | some x => patch c (x.off + r.off) (natLE r.width (relocValue pl handle syms r).toNat)) m

/-- Code 0x0C (R61, R62): a relocated base or sbase out of its range offends at its relocation, and is looked for when no
relocation has another fault (log 30). -/
def badRelocs (m : Img) (l : List Sect) (pl : Placement) (handle : BitVec 32) : List Nat :=
  let rs := relocsOf m l
  let part := match findSect l 0x30 with | some x => need (x.size % 24 = 0) (x.off + x.size / 24 * 24) | none => []
  let first := part ++ badRelocList m l pl handle [] rs
  if !first.isEmpty then first
  else
    let m' := relocate m l pl handle
    match findSect l 0x11 with
    | none => []
    | some x => (rs.filter (fun r => decide (r.target = 0x11))).flatMap (fun r =>
        let d := x.off + 8 + (r.off - 8) / 80 * 80
        let b := badBase m' d
        need (r.unplaced pl (symsOf m l) || !(if (r.off - 8) % 80 = 0x18 then b.1 else b.2)) r.entry)

/-- Code 0x0D (R60). MODEL'S CHOICE (log 30): where two global symbols have one name, the later one offends. -/
def badSyms (m : Img) (l : List Sect) : List Nat :=
  match findSect l 0x31 with
  | none => []
  | some x =>
    let n := imgNum m x.off 4
    if n = 0 || decide (x.size < 8 + 24 * n) then [x.off]
    else
      let so := imgNum m (x.off + 4) 4
      let area := ((x.bytes m).drop so)
      let ys := symsOf m l
      let name (y : ImgSym) : List Byte := (area.drop y.name).takeWhile (fun b => decide (b ≠ 0))
      need (so = 8 + 24 * n) (x.off + 4)
        ++ (area.zipIdx.filter (fun b => decide (0x80 ≤ b.1.toNat))).map (fun b => x.off + so + b.2)
        ++ need (area.getLastD 0 = 0) (x.off + x.size - 1)
        ++ nonzeroAt m (x.off + 8) 24
        ++ (ys.zipIdx.drop 1).flatMap (fun yi =>
          let y := yi.1
          let o := y.entry
          let size := match findSect l y.sect with | some z => z.size | none => 0
          need (decide (y.name < area.length)
              && !(decide (y.bind = 1) && (ys.take yi.2).any (fun z => decide (z.bind = 1) && decide (name z = name y)))) o
            ++ need (decide (y.sect = 0xFE) || decide (y.sect = 0xFF) || ([0x13, 0x20, 0x21].contains y.sect && (findSect l y.sect).isSome)) (o + 4)
            ++ need (y.bind ≤ 1) (o + 5) ++ nonzeroAt m (o + 6) 2
            ++ need (match y.sect with
              | 0xFE => decide (y.value < 2 ^ 23)
              | 0xFF => true
              | _ => decide (y.value + y.size ≤ size)) (o + 8))

/- Binding. -/

/-- The immediate place offsets of the text (R63). -/
def reachOf (scans : List (Eng × Sect × TextScan)) : List (Int × Int × Int) :=
  (scans.flatMap (fun t => t.2.2.instrs.filterMap (fun x => match x.full with
    | .ok (.plc _ _ dx dy dd _) => some (dx.toInt, dy.toInt, dd.toInt)
    | _ => none))).eraseDups

/-- The checks in the order of R68, and the loader's relocated copy. -/
def checkImage (m : Img) (pl : Placement) (s : State) : Except (Nat × Nat) Img := do
  reject 0x01 (badHeader m)
  reject 0x02 (badTable m)
  let l := sectsOf m
  let sig := (findSect l 0x7F).getD default
  let b := sig.bytes m
  if !signed m sig then throw (0x03, 0)
  if sha512 ((b.drop 0x10).take 133) ≠ s.plat.ownerHash then throw (0x04, 0)
  if imgNum b 4 4 < s.counter.toNat then throw (0x05, 0)
  if imgNum m 6 2 ≠ 1 || imgNum b 8 2 ≠ imgNum m 6 2 then throw (0x06, 0)
  let scans := scansOf m l
  reject 0x07 (badProfiles m l scans)
  reject 0x08 (badEncodings m l scans)
  reject 0x09 (badBlocks m scans)
  reject 0x0A (match findSect l 0x10 with | some x => badSync m l x | none => [])
  reject 0x0B (match findSect l 0x11 with | some x => badTensors m x | none => [])
  reject 0x0C (badRelocs m l pl s.disp.nextHandle)
  reject 0x0D (badSyms m l)
  if 1024 ≤ s.objs.length || s.disp.nextHandle = 0 || !pl.room then throw (0x0E, 0)
  return relocate m l pl s.disp.nextHandle

/-- Where each section goes: the four texts, .rodata, .data and .launch (R62). -/
def placesOf (l : List Sect) (pl : Placement) : List (Sect × Nat) :=
  let p (k a : Nat) : List (Sect × Nat) := match findSect l k with | some x => [(x, a)] | none => []
  (List.range 4).flatMap (fun e => p (e + 1) (pl.text.getD e 0)) ++ p 0x20 pl.rodata ++ p 0x21 pl.data ++ p 0x13 pl.launch

def rangesMeet (a b : Nat × Nat) : Bool := decide (a.1 < b.1 + b.2) && decide (b.1 < a.1 + a.2)

/-- Whether a list of ranges is free of overlaps. -/
def apart : List (Nat × Nat) → Bool
  | [] => true
  | x :: xs => !xs.any (rangesMeet x) && apart xs

/-- A placement that the loader may choose: every section aligned, in D space, clear of the others and of the read-only
sections of loaded objects (R62). MODEL'S CHOICE (log 30): the spec does not say whether it is clear of a loaded object's
writable .data, whose addresses the model does not hold; and every section's address is a multiple of 4, where R62 asks for its
alignment alone, which may be 1 or 2. -/
def placementOk (m : Img) (pl : Placement) (s : State) : Bool :=
  let ps := placesOf (sectsOf m) pl
  let rs := ps.map (fun p => (p.2, p.1.size))
  !pl.room || (ps.all (fun p => decide (p.2 % 2 ^ p.1.align = 0) && decide (p.2 % 4 = 0) && decide (p.2 + p.1.size ≤ 2 ^ 57))
    && apart rs && rs.all (fun r => !s.objs.any (fun o => o.ro.any (rangesMeet r))))

/-- Writes the sections; none where an address does not translate (R68, code 0x0E). -/
def placeAll (m : Img) : List (Sect × Nat) → State → Option State
  | [], s => some s
  | (x, a) :: t, s => match ownWrite a (x.bytes m) s with | (.ok _, s) => placeAll m t s | _ => none

/-- A descriptor in bound form (02 R40). -/
def boundForm (m : Img) (o : Nat) : BitVec 640 := BitVec.ofNat 640 (imgNum m o 80 + 2 ^ 576)

/-- The loaded object (R63). MODEL'S CHOICE (log 30): without a .launch section its address, and so the result field, is 0. -/
def bindImage (m : Img) (pl : Placement) (s : State) : LoadedObj :=
  let l := sectsOf m
  let text := (List.range 4).map (fun e => match findSect l (e + 1) with | some x => (pl.text.getD e 0, x.size) | none => (0, 0))
  let sy := ((findSect l 0x10).getD default).off
  let types := match findSect l 0x11 with
    | none => []
    | some x => (List.range (ntypesOf m l)).map (fun i => boundForm m (x.off + 8 + 80 * i))
  let binds := match findSect l 0x11 with
    | none => []
    | some x =>
      let bo := x.off + 8 + 80 * ntypesOf m l
      (List.range (imgNum m (x.off + 2) 2)).map (fun i => (imgNum m (bo + 2 * i) 1, imgNum m (bo + 2 * i + 1) 1))
  { handle := s.disp.nextHandle, text := text, entry := (List.range 4).map (fun e => imgNum m (0x18 + 4 * e) 4)
    tks := (List.range 4).map (fun e => BitVec.ofNat 64 (imgNum m (sy + 8 + 8 * e) 8))
    slip := (List.range 12).map (fun f => imgNum m (sy + 0x28 + f) 1)
    binds := binds, tensors := types, profiles := profilesOf m l, reach := reachOf (scansOf m l)
    launch := (match findSect l 0x13 with | some _ => pl.launch | none => 0)
    ro := text.filter (fun t => decide (t.2 ≠ 0))
      ++ (placesOf l pl).filterMap (fun p => if p.1.kind = 0x20 || p.1.kind = 0x13 then some (p.2, p.1.size) else none)
    unload := none }

/-- LOADING an image (R67, steps 2 and 3): its reject code and VALUE, or its handle and the .launch section's address. MODEL'S
CHOICE (log 30): when the last of the 2^32 - 1 handles has been given, none is given again (R67), and a load ends with code 0x0E. -/
def loadImage (m : Img) (pl : Placement) (s : State) : Except (Nat × Nat) (BitVec 32 × Nat × State) :=
  match checkImage m pl s with
  | .error e => .error e
  | .ok m' =>
    match placeAll m' (placesOf (sectsOf m') pl) s with
    | none => .error (0x0E, 0)
    | some s =>
      let o := bindImage m' pl s
      .ok (o.handle, o.launch, { s with objs := s.objs ++ [o], disp := { s.disp with nextHandle := s.disp.nextHandle + 1 } })

end Sys2Proof.Machine
end

