-- ==== Sys2Proof/Machine/Dispatcher.lean ====
section
/-!
DEFINITION. The Dispatchers: launch records, the queue table, admission, predecessors, completion posting, loads and
unloads (05 R94 to R103, R109, R111, R113, 03 R67, R69, 22 R391 to R393).
-/
namespace Sys2Proof.Machine

/-- A launch record (R94). -/
structure LRec where
  next : Nat
  kind : Nat
  flags : Nat
  tag : BitVec 16
  profile : Nat
  queue : Nat
  redlvl : Nat
  handle : BitVec 32
  pw : Nat
  ph : Nat
  px : Nat
  py : Nat
  ndies : Nat
  die0 : Nat
  fgcnt : Nat
  fgidx : Nat
  cword : Nat
  pred0 : Nat
  pred1 : Nat
  budget : Nat
  lvls : List Nat
  ckq : Nat
  result : Nat
  src : Nat
  len : Nat
  consts : List Word
  deriving DecidableEq, Repr, Inhabited

def lrec (b : List Byte) : LRec :=
  let f (off n : Nat) : Nat := leNat ((b.drop off).take n)
  { next := f 0 8, kind := f 8 1, flags := f 9 1, tag := BitVec.ofNat 16 (f 0xA 2), profile := f 0xC 1, queue := f 0xD 1,
    redlvl := f 0xE 1, handle := BitVec.ofNat 32 (f 0x10 4), pw := f 0x14 1, ph := f 0x15 1, px := f 0x16 1, py := f 0x17 1,
    ndies := f 0x18 1, die0 := f 0x19 1, fgcnt := f 0x1A 2, fgidx := f 0x1C 2, cword := f 0x20 8, pred0 := f 0x28 8,
    pred1 := f 0x30 8, budget := f 0x38 8, lvls := (List.range 6).map (fun l => f (0x40 + 4 * l) 4), ckq := f 0x58 1,
    result := f 0x60 8, src := f 0x68 8, len := f 0x70 8, consts := (List.range 16).map (fun i => BitVec.ofNat 64 (f (0x80 + 8 * i) 8)) }

/- Loop levels (R95). -/

def lvExt (w : Nat) : Nat := w % 2 ^ 20
def lvPos (w : Nat) : Nat := w / 2 ^ 20 % 8
def lvDir (w : Nat) : Bool := w.testBit 23
def lvSerp (w : Nat) : Bool := w.testBit 24

/-- The level at a position. -/
def LRec.at (r : LRec) (k : Nat) : Nat := r.lvls.findIdx (fun w => decide (lvPos w = k))
/-- The extent at a position. -/
def LRec.extAt (r : LRec) (k : Nat) : Nat := lvExt (r.lvls.getD (r.at k) 0)
/-- Pk: the product of the extents at positions k to 5. -/
def LRec.prod (r : LRec) (k : Nat) : Nat := ((List.range 6).filter (fun j => decide (k ≤ j))).foldl (fun p j => p * r.extAt j) 1
/-- The unit count T. -/
def LRec.total (r : LRec) : Nat := (r.lvls.map lvExt).foldl (· * ·) 1

/-- ORRERY_WALK: the loop indices of ordinal n (R109). -/
def LRec.walk (r : LRec) (n : Nat) : List Nat :=
  r.lvls.map (fun w =>
    let k := lvPos w
    let e := lvExt w
    let c := n / r.prod (k + 1) % e
    let d := if lvSerp w && decide (n / r.prod k % 2 = 1) then !lvDir w else lvDir w
    if d then e - 1 - c else c)

/-- The chain of ordinal n: h of R109; without a reduction level every ordinal stands alone. -/
def LRec.chain (r : LRec) (n : Nat) : Nat :=
  if r.redlvl = 0xFF then n
  else
    let q := lvPos (r.lvls.getD r.redlvl 0)
    ((List.range 6).filter (fun k => decide (k ≠ q))).foldl (fun h k => h * r.extAt k + n / r.prod (k + 1) % r.extAt k) 0

/-- The group position of the die that an ordinal belongs to (R109). -/
def LRec.posOf (r : LRec) (n : Nat) : Nat := r.chain n % r.ndies

def LRec.place (r : LRec) : Place := { px := r.px, py := r.py, pw := r.pw, ph := r.ph, ndies := r.ndies, die0 := r.die0 }
def LRec.gang (r : LRec) : Bool := r.flags.testBit 1
def LRec.split (r : LRec) : Bool := r.flags.testBit 2

/- The Dispatcher's memory. -/

def State.setDisp (s : State) (d : Dispatch) : State := { s with disp := d }

/-- A Dispatcher takes part: the module is ready, the active one has not failed, and no take-over runs (20 R386). -/
def dispOk (s : State) : Bool := s.disp.ready && s.disp.takeover.isNone && !s.disp.failed.getLsbD s.disp.active

/-- The active Dispatcher's error bank logs an address (R101, R102, 22 R393). -/
def logDisp (tag : BitVec 16) (code addr : Nat) (s : State) : State :=
  recordUc (.dispatcher s.disp.active) tag { code := code, src := 8, pc := 0, addr := BitVec.ofNat 64 addr } s

/-- The 32 bytes of a journal record, and the record they hold (R113). -/
def JRec.bytes (j : JRec) : List Byte :=
  natLE 8 j.seq ++ natLE 1 j.kind ++ natLE 1 j.q ++ natLE 2 j.core ++ natLE 4 j.ord ++ natLE 8 j.rec_ ++ natLE 8 j.val.toNat
def jrecOf (b : List Byte) : JRec :=
  let f (off n : Nat) : Nat := leNat ((b.drop off).take n)
  { seq := f 0 8, kind := f 8 1, q := f 9 1, core := f 0xA 2, ord := f 0xC 4, rec_ := f 0x10 8, val := BitVec.ofNat 64 (f 0x18 8) }

/-- JOURNAL_WRITE: the record is confirmed in both copies before the change takes effect (R113). -/
def journal (kind q core ord rec_ : Nat) (val : Word) (s : State) : State :=
  let d := s.disp
  let b := JRec.bytes { seq := d.jseq, kind := kind, q := q, core := core, ord := ord, rec_ := rec_, val := val }
  s.setDisp { d with journal := d.journal ++ [b], mirror := d.mirror ++ [b], jseq := d.jseq + 1 }

/-- A word of D space. -/
def readD (va n : Nat) (s : State) : Except Nat Nat × State :=
  match ownRead va n s with | (.ok b, s) => (.ok (leNat b), s) | (.error e, s) => (.error e, s)
def writeD (va n v : Nat) (s : State) : State := (ownWrite va (natLE n v) s).2

/-- A queue's descriptor (R97) and KICK. -/
def queueAt (s : State) (q : Nat) : Nat := s.plat.qbase.toNat + 32 * q
def kickAt (s : State) : Nat := s.plat.qbase.toNat + 0x800

/-- The tickets and flags of a queue, as they stand; a queue that cannot be read is stopped. -/
def queueCtl (q : Nat) (s : State) : Nat × Nat :=
  match (ownRead (queueAt s q + 0x10) 3 s).1 with
  | .ok b => (leNat (b.take 2), leNat (b.drop 2))
  | .error _ => (0, 0)
def queueRuns (q : Nat) (s : State) : Bool := let t := (queueCtl q s).1; decide (1 ≤ t) && decide (t ≤ 1023)
def queueTier (q : Nat) (s : State) : Nat := (queueCtl q s).2 % 2
def queueDet (q : Nat) (s : State) : Bool := decide ((queueCtl q s).2 / 2 % 2 = 1)

def State.curOf (s : State) (q : Nat) : Option Current := s.disp.cur.find? (fun c => decide (c.q = q))
def State.setCur (s : State) (c : Current) : State :=
  s.setDisp { s.disp with cur := s.disp.cur.map (fun x => if x.q = c.q then c else x) }
def State.objOf (s : State) (h : BitVec 32) : Option LoadedObj := s.objs.find? (fun o => o.handle = h)
def Current.lrec (c : Current) : LRec := Machine.lrec c.bytes

/-- A completion word (R96). -/
def cwordOf (status fault : Nat) (flags : BitVec 10) (units : Nat) : Word :=
  BitVec.ofNat 32 units ++ (0 : BitVec 6) ++ flags ++ BitVec.ofNat 8 fault ++ BitVec.ofNat 8 status
/-- The completion word of a load or unload record (03 R67). -/
def loadWord (status value : Nat) : Word := BitVec.ofNat 32 value ++ (0 : BitVec 24) ++ BitVec.ofNat 8 status

/- Admission (R101). -/

/-- The zero fields of a record (R94). -/
def zeroFieldsOk (b : List Byte) (r : LRec) : Bool :=
  let z (off n : Nat) : Bool := ((b.drop off).take n).all (fun x => x = 0)
  decide (r.flags < 8) && z 0xF 1 && z 0x1E 2 && !r.ckq.testBit 6 && z 0x59 7 && z 0x78 8
    && (decide (r.kind = 2) || z 0x60 8) && (decide (r.kind ≠ 1) || z 0x68 16)

/-- det in force (R107). -/
def detForce (q : Nat) (r : LRec) (s : State) : Bool := r.flags.testBit 0 || queueDet q s

/-- An immediate place offset reaches a core of the placement from some core of it (03 R63). -/
def reachOk (r : LRec) (x : Int × Int × Int) : Bool :=
  decide (x.1.natAbs < r.pw) && decide (x.2.1.natAbs < r.ph)
    && (decide (x.2.2 = 0) || ((decide (r.ndies = 2) || decide (r.ndies = 4))
      && (List.range r.ndies).any (fun k => (groupPos r.place (ringDie (((ringPos (r.die0 + k) : Int) + x.2.2) % 4).toNat)).isSome)))

/-- The checks of R101 in order: the first that fails gives the fault code. MODEL'S CHOICE (log 55): nonzero bits [31:25] of a
level word fail the check of the levels (R95), which launch records alone pass, and not that of the zero fields. -/
def admissionFault (q : Nat) (b : List Byte) (s : State) : Option Nat :=
  let r := lrec b
  let levels := (List.range 6).all (fun k => r.lvls.any (fun w => decide (lvPos w = k))) && r.lvls.all (fun w => decide (w < 2 ^ 25))
    && (decide (r.redlvl ≤ 5) || decide (r.redlvl = 0xFF)) && decide (r.pred0 ≠ r.cword) && decide (r.pred1 ≠ r.cword)
  let group := (decide (r.ndies = 1) && decide (r.die0 ≤ 3)) || (decide (r.ndies = 2) && (decide (r.die0 = 0) || decide (r.die0 = 2)))
    || (decide (r.ndies = 4) && decide (r.die0 = 0))
  let rect := decide (1 ≤ r.pw) && decide (1 ≤ r.ph) && decide (r.px + r.pw ≤ 8) && decide (r.py + r.ph ≤ 8)
  let fabric := (decide (r.fgcnt = 0) && decide (r.fgidx = 0)) || (decide (r.fgcnt ≤ 4096) && decide (r.fgidx < r.fgcnt))
  let fenced := (List.range r.ndies).any (fun k => fencedDie s (r.die0 + k))
  if r.kind < 1 || 3 < r.kind || !zeroFieldsOk b r then some cILLEGAL
  else if r.queue ≠ q then some cILLEGAL
  else if r.cword = 0 || r.cword % 8 ≠ 0 then some cALIGN
  else if r.kind ≠ 1 then none
  else match s.objOf r.handle with
    | none => some cPROTECT
    | some o =>
      if r.profile ≠ 0 && !o.profiles.contains r.profile then some cILLEGAL
      else if !levels then some cILLEGAL
      else if 2 ^ 32 ≤ r.total then some cEXTENT
      else if !rect || !group || !fabric || fenced || !o.reach.all (reachOk r) then some cPLACE
      else if detForce q r s && r.split && decide (r.redlvl ≠ 0xFF) && decide (4 ≤ r.profile) then some cSPLIT
      else none

/-- A predecessor's state (R102). -/
inductive PredState where
  | pending | whole | failed
  deriving DecidableEq, Repr, Inhabited

/-- Reads a predecessor word. One whose write has failed counts as posted (22 R393). -/
def predState (a : Nat) (s : State) : PredState × State :=
  let judge (v : Nat) : PredState := if v = 2 ^ 64 - 1 then .pending else if v % 256 = 0 then .whole else .failed
  if a = 0 then (.whole, s)
  else match s.disp.unwritten.find? (fun x => decide (x.1 = a)) with
    | some x => (judge x.2.toNat, s)
    | none => match readD a 8 s with
      | (.ok v, s) => (judge v, s)
      | (.error e, s) => (.failed, logDisp 0 e a s)

/-- The word at a completion word's place counts as posted no longer: it is posted anew, or a record that is to post it is admitted
(22 R393, log 62). -/
def forgetWord (a : Nat) (s : State) : State := s.setDisp { s.disp with unwritten := s.disp.unwritten.filter (fun x => decide (x.1 ≠ a)) }

/-- LAUNCH_ELIGIBLE, PREDECESSOR_FAILED, ZERO_UNIT_COMPLETION: a launch that waits for its predecessors looks at them
again (R102, R103). -/
def recheck (q : Nat) (s : State) : State :=
  match s.curOf q with
  | none => s
  | some c =>
    if c.refused || c.ready || c.post.isSome then s
    else
      let r := c.lrec
      let (p0, s) := predState r.pred0 s
      let (p1, s) := if r.pred1 = r.pred0 then (p0, s) else predState r.pred1 s
      if p0 = .failed || p1 = .failed then s.setCur { c with post := some (cwordOf 3 0 0 0), doneAt := s.now }
      else if p0 = .pending || p1 = .pending then s
      else if r.total = 0 then s.setCur { c with ready := true, post := some (cwordOf 0 0 0 0), doneAt := s.now }
      else s.setCur { c with ready := true }

/-- ADMISSION: the Dispatcher has copied a record's 256 bytes (R101). -/
def admitRecord (q a : Nat) (b : List Byte) (s : State) : State :=
  let s := journal 2 q 0 0 a 0 s
  let r := lrec b
  let c : Current :=
    { q := q, addr := a, bytes := b, id := s.disp.nextId, det := detForce q r s, refused := decide (r.kind ≠ 1), ready := false,
      handed := [], out := 0, units := 0, flags := 0, firstOut := none, spent := false, owns := false, chains := [], faulted := none,
      post := none, doneAt := s.now, closed := false }
  let add (c : Current) (s : State) : State := s.setDisp { s.disp with cur := s.disp.cur ++ [c], nextId := s.disp.nextId + 1 }
  match admissionFault q b s with
  | some code =>
    let w := if r.kind = 2 || r.kind = 3 then loadWord 0x0F code else cwordOf 1 code 0 0
    add { c with refused := true, post := some w } (logDisp r.tag code a s)
  | none => recheck q (add c (forgetWord r.cword s))

/-- TAKE_HEAD (R99), where the queue runs and holds no current record (R100). An unreadable record is logged and left;
a stopped queue is looked at again when it runs. MODEL'S CHOICE (log 55): the spec does not say what becomes of a record that is
not 64-byte aligned (R94); it is read and admitted like any other. -/
def takeHead (q : Nat) (s : State) : State :=
  if (s.curOf q).isSome || s.disp.links.any (fun l => decide (l.1 = q)) then s
  else if !queueRuns q s then s.setDisp { s.disp with kicked := s.disp.kicked ||| ((1 : BitVec 64) <<< q) }
  else match readD (queueAt s q) 8 s with
    | (.error _, s) => s
    | (.ok 0, s) => s
    | (.ok a, s) =>
      (match ownRead a 256 s with
      | (.error e, s) => logDisp 0 e a s
      | (.ok b, s) =>
        let next := (lrec b).next
        let s := writeD (queueAt s q) 8 next (journal 1 q 0 0 a (BitVec.ofNat 64 next) s)
        if next ≠ 0 then admitRecord q a b s
        else match readD (queueAt s q + 8) 8 s with
          | (.ok t, s) =>
            if t = a then admitRecord q a b (writeD (queueAt s q + 8) 8 0 s) else s.setDisp { s.disp with links := s.disp.links ++ [(q, a)] }
          | (.error _, s) => admitRecord q a b s)

/-- HEAD_LINK_WAIT_END: the producer's link has come (R99). -/
def execHeadLinkWaitEnd (q : Nat) (s : State) : Host.Outcome State Fault Refusal :=
  .next (if !dispOk s then s
    else match s.disp.links.find? (fun l => decide (l.1 = q)) with
      | none => s
      | some (_, a) =>
        match ownRead a 256 s with
        | (.error e, s) => logDisp 0 e a s
        | (.ok b, s) =>
          let next := (lrec b).next
          if next = 0 then s
          else
            let s := writeD (queueAt s q) 8 next (journal 1 q 0 0 a (BitVec.ofNat 64 next) s)
            admitRecord q a b (s.setDisp { s.disp with links := s.disp.links.filter (fun l => decide (l.1 ≠ q)) }))

/-- Swaps KICK with zero; the bits join those taken before. -/
def swapKick (s : State) : State :=
  match readD (kickAt s) 8 s with
  | (.error e, s) => logDisp 0 e (kickAt s) s
  | (.ok v, s) =>
    let s := writeD (kickAt s) 8 0 s
    s.setDisp { s.disp with kicked := s.disp.kicked ||| BitVec.ofNat 64 v }

/-- Examines the kicked queues (R99, R102); a stopped queue's records wait (R97). MODEL'S CHOICE (log 64): in ascending number, of
which the spec does not speak. -/
def examine (s : State) : State :=
  (List.range 64).foldl (fun s q =>
    if !s.disp.kicked.getLsbD q || !queueRuns q s then s
    else
      let s := s.setDisp { s.disp with kicked := s.disp.kicked &&& ~~~((1 : BitVec 64) <<< q) }
      takeHead q (recheck q s)) s

/-- KICK_SCAN (R99). -/
def execKickScan (s : State) : Host.Outcome State Fault Refusal := .next (if dispOk s then examine (swapKick s) else s)

/- Loads and unloads. -/

/-- A load or unload record ends with its completion word. -/
def loadDone (q : Nat) (w : Word) (s : State) : State :=
  match s.curOf q with
  | some c => s.setCur { c with post := some w, doneAt := s.now }
  | none => s

/-- OBJECT_LOAD (03 R67). MODEL'S CHOICE (log 71): a result field that cannot be written is left as it is; nothing is logged, and the
load ends with code 0. -/
def execObjectLoad (q : Nat) (place : Placement) (s : State) : Host.Outcome State Fault Refusal :=
  .next (match s.curOf q with
    | none => s
    | some c =>
      let r := c.lrec
      if !dispOk s || r.kind ≠ 2 || c.post.isSome then s
      else if r.len < 64 || 2 ^ 32 < r.len then loadDone q (loadWord 0x01 0) s
      else match ownRead r.src r.len s with
        | (.error e, s) => loadDone q (loadWord 0x0F e) s
        | (.ok m, s') =>
          if !placementOk m place s' then s
          else match loadImage m place s' with
            | .error x => loadDone q (loadWord x.1 x.2) s'
            | .ok (h, la, s) => loadDone q (loadWord 0 h.toNat) (writeD (c.addr + 0x60) 8 la s))

/-- OBJECT_UNLOAD (03 R69). -/
def execObjectUnload (q : Nat) (s : State) : Host.Outcome State Fault Refusal :=
  .next (match s.curOf q with
    | none => s
    | some c =>
      let r := c.lrec
      if !dispOk s || r.kind ≠ 3 || c.post.isSome || s.objs.any (fun o => o.unload = some q) then s
      else match s.objOf r.handle with
        | some o =>
          if o.unload.isSome then loadDone q (loadWord 0x0F cPROTECT) (logDisp r.tag cPROTECT c.addr s)
          else { s with objs := s.objs.map (fun x => if x.handle = r.handle then { x with unload := some q } else x) }
        | none => loadDone q (loadWord 0x0F cPROTECT) (logDisp r.tag cPROTECT c.addr s))

/-- UNLOAD_TAKES_EFFECT: every launch admitted with the handle has completed (03 R69). -/
def execUnloadTakesEffect (handle : BitVec 32) (s : State) : Host.Outcome State Fault Refusal :=
  .next (match s.objOf handle with
    | none => s
    | some o =>
      match o.unload with
      | none => s
      | some q =>
        if !dispOk s || s.disp.cur.any (fun c => !c.refused && c.lrec.handle = handle) then s
        else loadDone q (loadWord 0 handle.toNat) { s with objs := s.objs.filter (fun x => decide (x.handle ≠ handle)) })

/- Completion. -/

/-- Report r comes before another of cycle `t` and queue `q`: it arrived earlier or, in one cycle, is of a lower queue (22 R391). -/
def Report.before (r : Report) (t q : Nat) : Bool := decide (r.at_ < t) || (decide (r.at_ = t) && decide (r.unit.queue < q))

/-- The reports that wait for a Dispatcher, in that order. -/
def pendingReports (s : State) : List Report :=
  let put (r : Report) (l : List Report) : List Report :=
    l.takeWhile (fun x => !r.before x.at_ x.unit.queue) ++ [r] ++ l.dropWhile (fun x => !r.before x.at_ x.unit.queue)
  (s.cores.flatMap (fun x => x.2.reports)).foldl (fun l r => put r l) []

/-- The count of cycles since the first hand-out has reached a nonzero budget (R111). -/
def budgetDue (c : Current) (now : Nat) : Bool :=
  c.spent || (decide (c.lrec.budget ≠ 0) && (match c.firstOut with | some t => decide (t + c.lrec.budget ≤ now) | none => false))

/-- A launch completes when its last running unit's report is acknowledged and all units have ended, its budget is
exhausted, or its purge has completed (22 R391, 20 R378, R111). `at_`: when that report arrived. -/
def settleLaunch (q at_ : Nat) (s : State) : State :=
  match s.curOf q with
  | none => s
  | some c =>
    if c.refused || c.post.isSome || c.out ≠ 0 then s
    else
      let done (status fault : Nat) : State := s.setCur { c with post := some (cwordOf status fault c.flags c.units), doneAt := at_ }
      match c.faulted with
      | some f => done 1 f
      | none =>
        if !c.ready || c.firstOut.isNone then s
        else if budgetDue c s.now then done 2 0
        else if c.units = c.lrec.total then done 0 0
        else s

/-- BUDGET_EXHAUSTED (R111). -/
def execBudgetExhausted (q : Nat) (s : State) : Host.Outcome State Fault Refusal :=
  .next (match s.curOf q with
    | none => s
    | some c => if dispOk s && budgetDue c s.now then settleLaunch q s.now (s.setCur { c with spent := true }) else s)

/-- The close of a completed launch's tag begins, once (R358). -/
def beginEnd (c : Current) (s : State) : State :=
  if c.refused || c.closed then s
  else startClose c.lrec.tag (.launchEnd c.id) (c.lrec.die0 % 4) [] (s.setCur { c with closed := true })

/-- The completion word's value is written, and the completion kick is sent (22 R391). A write that receives an error response is logged,
and the value counts as posted all the same (R393). -/
def postWord (r : LRec) (w : Word) (s : State) : State :=
  let s := match ownWrite r.cword (natLE 8 w.toNat) (forgetWord r.cword s) with
    | (.ok _, s) => s
    | (.error e, s) => logDisp r.tag e r.cword (s.setDisp { s.disp with unwritten := s.disp.unwritten ++ [(r.cword, w)] })
  if r.ckq.testBit 7 then
    (match readD (kickAt s) 8 s with
    | (.ok k, s) => writeD (kickAt s) 8 (k ||| 2 ^ (r.ckq % 64)) s
    | (.error e, s) => logDisp 0 e (kickAt s) s)
  else s

/-- COMPLETION_POSTING (22 R391, R393), in the order in which the final reports arrived, the lower queue first, and after the close
of the launch's entries. -/
def post (q : Nat) (s : State) : State :=
  match s.curOf q with
  | none => s
  | some c =>
    match c.post with
    | none => s
    | some w =>
      let r := c.lrec
      let before (x : Current) : Bool := x.post.isSome && (decide (x.doneAt < c.doneAt) || (decide (x.doneAt = c.doneAt) && decide (x.q < q)))
      if s.disp.cur.any before || (pendingReports s).any (fun x => x.before c.doneAt q) then s
      else
        let s := beginEnd c s
        if s.closes.any (fun x => decide (x.why = .launchEnd c.id)) then s
        else
        let usable := decide (r.cword ≠ 0) && decide (r.cword % 8 = 0)
        let drop (s : State) : State := s.setDisp { s.disp with cur := s.disp.cur.filter (fun x => decide (x.q ≠ q)) }
        if !usable then takeHead q (drop s)
        else
          let s := s.setDisp { s.disp with copies := s.disp.copies ++ [(s.disp.jseq, c.bytes)] }
          let s := drop (postWord r w (journal 4 q 0 0 c.addr w s))
          takeHead q ((s.disp.cur.map Current.q).foldl (fun s x => recheck x s) s)

def execCompletionPosting (q : Nat) (s : State) : Host.Outcome State Fault Refusal := .next (if dispOk s then post q s else s)

end Sys2Proof.Machine
end

