-- ==== Sys2Proof/Machine/FabricEvents.lean ====
section
/-!
DEFINITION. The events of memory and of the fabric: performing the accesses at the queue heads (09 R182, 15 R332), packets
and responses, link and path failures and replay (17 R337 to R341).
-/
namespace Sys2Proof.Machine

/-- The next access of a queue is performed, and the W stores behind it leave (07 R138). -/
def perform (g : Nat) (e : Eng) (store : Bool) (s : State) : State := launchWs g (performHead (cewOp g) g e store s)

/-- MEMORY_RESPONSE (R182). -/
def execMemoryResponse (g : Nat) (e : Eng) (store : Bool) (s : State) : Host.Outcome State Fault Refusal :=
  .next (perform g e store s)

/-- STORE_QUEUE_PRIORITY: a store that has stood 256 cycles at its queue's head takes the memory port, or the oldest line of K
(15 R332). -/
def execStoreQueuePriority (g : Nat) (e : Eng) (s : State) : Host.Outcome State Fault Refusal :=
  .next (match e with
    | .k => (match (s.core g).kcmds.find? (fun x => x.started.isSome && !x.allSent) with
      | some x => advance g .k x.no s
      | none => s)
    | _ => (match nextAccess (s.core g) e true with
      | some a => if a.since + 256 ≤ s.now then perform g e true s else s
      | none => s))

/-- PACKET_RECEIVE (R338, R339, R341): packets for another device do not reach this module, and a stream
whose die here is fenced is answered FABRIC_UNREACHABLE. -/
def execPacketReceive (p : Packet) (s : State) : Host.Outcome State Fault Refusal :=
  .next (if p.ddev ≠ s.plat.device then s
    else if fencedDie s p.sdie.toNat then { s with outbox := s.outbox ++ [responseTo p cUNREACH [] []] }
    else settleCloses (receivePacket p s))

/-- A long packet performs its next line; after its last one, or at a fault, it is answered, and the packets that follow it are
performed (17 R338, 15 R316). -/
def longTurn (x : LongPacket) (s : State) : State :=
  let rest (s : State) : State := { s with longs := s.longs.erase x }
  let done (r : Response) (s : State) : State :=
    if x.again then { rest s with outbox := s.outbox ++ [r] } else settleCloses (performHeld 4096 x.p (answerNext x.p r (rest s)))
  match performLine x s with
  | (.error e, s) => done (responseTo x.p e [] []) s
  | (.ok bs, s) =>
    let y := { x with at_ := x.at_ + x.line, data := x.data ++ bs, due := s.now + 1 }
    if pktBytes x.p ≤ y.at_ then done (responseTo x.p 0 (y.data.map Prod.fst) (payloadMarks y.data)) s
    else { s with longs := s.longs.map (fun z => if z = x then y else z) }

/-- Every long packet whose line is due performs it. -/
def longTurns (s : State) : State := (s.longs.filter (fun x => decide (x.due ≤ s.now))).foldl (fun s x => longTurn x s) s

/-- An answer reaches whoever waits for it. -/
def deliverResponse (o : Owner) (r : Response) (s : State) : State :=
  match o with
  | .access g e ord lane => launchWs g (accessAnswered g e ord lane r.code.toNat r.data (r.marks.any id) s)
  | .line g cmd n => lineAnswered g cmd n r.code.toNat r.data r.marks s
  | .ahead g cmd => aheadAnswered g cmd r.code.toNat r.data r.marks s
  | .close id dev =>
    settleCloses { s with closes := s.closes.map (fun x => if x.id = id then { x with away := x.away.erase dev } else x) }
  | .none => s

/-- The packet that a response answers leaves the retry buffer; without one the response is discarded (R337). -/
def takeResponse (r : Response) (s : State) : State :=
  match s.retry.find? (answers r) with
  | none => s
  | some x => deliverResponse x.owner r { s with retry := s.retry.filter (fun y => !answers r y) }

/- Paths. -/

/-- A path's entry of the route table. -/
def routeOf (s : State) (die dev path : Nat) : Option Route :=
  s.plat.routes.find? (fun r => decide (r.die = die) && decide (r.dev = dev) && decide (r.path = path))

/-- The lowest-numbered path of a die to a device that is up (R340). -/
def currentPath (s : State) (die dev : Nat) : Option Nat :=
  [0, 1, 2, 3].find? (fun p => (routeOf s die dev p).isSome && !s.pathDown.contains (die, dev, p))

/-- The link of one of the module's 36 ports (00 R1). -/
def State.link (s : State) (port : Fin 36) : Link := Tbl.get Link.reset s.links port

/-- RESPONSE_RECEIVE (R337). The link of the answered packet's path has accepted it since it was sent. -/
def execResponseReceive (r : Response) (s : State) : Host.Outcome State Fault Refusal :=
  let s := match s.retry.find? (answers r) with
    | some x =>
      (match (currentPath s x.die x.pkt.ddev.toNat).bind (routeOf s x.die x.pkt.ddev.toNat) with
      | some w => let l := s.link w.port; { s with links := Tbl.set Link.reset s.links w.port { l with okAt := max l.okAt x.sentAt } }
      | none => s)
    | none => s
  .next (takeResponse r s)

/-- Whether a core's next access of a queue is to leave as a fabric packet. -/
def headIsF (c : Core) (e : Eng) (store : Bool) : Bool :=
  match nextAccess c e store with
  | some a => match a.pieces.head? with | some p => decide (qSpc p.qa = 4) | none => false
  | none => false

/-- RETRY_BUFFER_ROOM: the senders of a die that wait for room try again (R337). -/
def execRetryBufferRoom (die : Nat) (s : State) : Host.Outcome State Fault Refusal :=
  let s := (s.closes.filter (fun x => decide (x.die = die))).foldl (fun s x => sendClose x s) s
  .next ((List.range 64).foldl (fun s k =>
    let g := 64 * die + k
    let s := [(Eng.s, false), (.s, true), (.v, false), (.v, true)].foldl (fun s x =>
      if headIsF (s.core g) x.1 x.2 then perform g x.1 x.2 s else s) s
    let far := (s.core g).kcmds.filter (fun x => x.started.isSome && x.slots.any (fun w => decide (qSpc w = 4)))
    far.foldl (fun s x => if (s.core g).acts then kAdvance g x.no s else s) s) (settleCloses s))

/-- Whether a retry entry is of a die's traffic to a device. -/
def Retry.isTo (r : Retry) (die dev : Nat) : Bool := decide (r.die = die) && decide (r.pkt.ddev.toNat = dev)

/-- Every buffered packet of the streams to a device receives FABRIC_UNREACHABLE (R341). -/
def unreachAll (die dev : Nat) (s : State) : State :=
  (s.retry.filter (fun r => r.isTo die dev)).foldl (fun s r => takeResponse (responseTo r.pkt cUNREACH [] []) s) s

/-- A path goes down: its streams move to the next path that is up, and what they have buffered is sent again in
ascending seq, which is the order it stands in; without one every packet receives an error response (R340, R341). -/
def pathGoesDown (die dev path : Nat) (s : State) : State :=
  let used := currentPath s die dev = some path
  let s := if s.pathDown.contains (die, dev, path) then s else { s with pathDown := s.pathDown ++ [(die, dev, path)] }
  if !pathUp s die dev then unreachAll die dev s
  else if used then
    { s with retry := s.retry.map (fun r => if r.isTo die dev then { r with sentAt := s.now } else r) }
  else s

/-- A link goes down, and with it every path that leaves by its port (R340). -/
def linkGoesDown (port : Fin 36) (s : State) : State :=
  (s.plat.routes.filter (fun r => decide (r.port = port))).foldl (fun s r => pathGoesDown r.die r.dev r.path s) s

/-- LINK_DOWN: the link of a path's port has failed the check of one flit eight times running (R340). -/
def execLinkDown (die dev path : Nat) (s : State) : Host.Outcome State Fault Refusal :=
  .next (match routeOf s die dev path with
    | some r => if 8 ≤ (s.link r.port).fails then linkGoesDown r.port s else s
    | none => s)

/-- A packet whose path leaves by a port was sent 4,800 cycles ago, and no packet sent there since has been answered. -/
def silent (s : State) (port : Fin 36) : Bool :=
  decide ((s.link port).okAt + 4800 ≤ s.now) && s.retry.any (fun x => decide (x.sentAt + 4800 ≤ s.now) &&
    (match (currentPath s x.die x.pkt.ddev.toNat).bind (routeOf s x.die x.pkt.ddev.toNat) with
      | some w => decide (w.port = port)
      | none => false))

/-- LINK_SILENCE_TIMEOUT: the link of a path's port has accepted no flit for 4,800 cycles (R340). -/
def execLinkSilenceTimeout (die dev path : Nat) (s : State) : Host.Outcome State Fault Refusal :=
  .next (match routeOf s die dev path with
    | some r => if silent s r.port then linkGoesDown r.port s else s
    | none => s)

/-- SWITCH_REPORT: a switch reports a failure on a path (R340). -/
def execSwitchReport (die dev path : Nat) (s : State) : Host.Outcome State Fault Refusal := .next (pathGoesDown die dev path s)

/-- RESPONSE_TIMEOUT: a request unanswered for 262,144 cycles marks its stream's current path down (R340). -/
def execResponseTimeout (die dev cls : Nat) (s : State) : Host.Outcome State Fault Refusal :=
  .next (match currentPath s die dev with
    | some p =>
      if s.retry.any (fun r => r.isTo die dev && decide (r.pkt.cls.toNat = cls) && decide (r.sentAt + 262144 ≤ s.now)) then
        pathGoesDown die dev p s
      else s
    | none => s)

/-- PATH_UP_RESYNC: a path comes up. Where its streams had none, each that has been used sends first a resynchronising header with
its next seq (R341). -/
def execPathUpResync (die dev path : Nat) (s : State) : Host.Outcome State Fault Refusal :=
  let had := pathUp s die dev
  let s' := { s with pathDown := s.pathDown.erase (die, dev, path)
                     links := match routeOf s die dev path with
                       | some r => Tbl.set Link.reset s.links r.port { fails := 0, okAt := s.now }
                       | none => s.links }
  let used := [0, 1, 2, 3].filter (fun cls => s.used.contains (sendKey die dev cls))
  let mk (cls : Nat) : Packet :=
    let seq := Tbl.get 0 s.sendSeq (sendKey die dev cls)
    { sdev := s.plat.device, sdie := BitVec.ofNat 2 die, ddev := BitVec.ofNat 12 dev, cls := BitVec.ofNat 2 cls, seq := seq, afl := seq,
      tag := 0, op := .resync, va := 0, len := 0, payload := [], marks := [] }
  .next (if had || !pathUp s' die dev then s' else { s' with headers := s'.headers ++ used.map mk })

/-- FLIT_CRC_RETRY: a flit fails its check on the link of a path's port; it is sent again, and
the port's bank counts a corrected error (R340, 20 R374, R375). -/
def execFlitCrcRetry (die dev : Nat) (t : FlitCheck) (s : State) : Host.Outcome State Fault Refusal :=
  .next (match routeOf s die dev t.path with
    | some r =>
      let l := s.link r.port
      let s := { s with links := Tbl.set Link.reset s.links r.port { l with fails := if t.again then l.fails + 1 else 1 } }
      let b : BankId := .link r.port
      s.setBank b ((s.bank b).correctable 0 { code := 0, src := 6, pc := 0, addr := 0, xtra := BitVec.ofNat 13 dev })
    | none => s)

end Sys2Proof.Machine
end

