-- ==== Sys2Proof/Machine/Context.lean ====
section
/-!
DEFINITION. The bytes of a saved context in its slot of a die's context pool (20 R382).
-/
namespace Sys2Proof.Machine

/-- A slot's bytes, and the bytes of it that a save writes. -/
def slotBytes : Nat := 10 * 2 ^ 20
def savedBytes : Nat := 0x978000

/-- The entries of a table below key `n`, as bytes: entry k stands at `base` + `w` * k. -/
def imageOf {α : Type} (base w n : Nat) (toNat : α → Nat) (t : Tbl α) : List (Nat × List Byte) :=
  (t.filter (fun x => decide (x.1 < n))).map (fun x => (base + w * x.1, natLE w (toNat x.2)))

/-- Bytes [a, a + n) receive the runs named, and zero elsewhere. -/
def putImage (m : List Host.Cell) (a n : Nat) (runs : List (Nat × List Byte)) : List Host.Cell :=
  runs.foldl (fun m r => putBytes m (a + r.1) r.2) (Tbl.clearRange m a (a + n))

/-- The regions of a slot that the layout gives to the byte: the tag table, the spill memories, the V predicates and VMODE, the V
registers, the accumulators and the scratchpad. -/
def contextImage (c : Core) : List (Nat × List Byte) :=
  imageOf 0x10000 8 2048 BitVec.toNat c.tags
    ++ imageOf 0x14000 8 1024 BitVec.toNat c.spillS ++ imageOf 0x16000 8 256 BitVec.toNat c.spillM
    ++ imageOf 0x16800 8 256 BitVec.toNat c.spillK
    ++ imageOf 0x17000 128 16 BitVec.toNat (Tbl.set 0 c.vp 0 (BitVec.allOnes 1024)) ++ [(0x17800, natLE 1 c.vmode.toNat)]
    ++ imageOf 0x18000 4096 160 BitVec.toNat c.v ++ imageOf 0xB8000 4096 32 BitVec.toNat c.spillV
    ++ imageOf 0xD8000 1024 512 BitVec.toNat c.acc
    ++ imageOf 0x178000 1 (2 ^ 23) BitVec.toNat c.sp

/-- The bytes of a slot whose contents R382 names and whose places in it it does not give, and the rest of the predicates'
region: the control area but for the type registers, the array state but for its tuples (log 38). They are free values. -/
def contextOpen (tick : Nat) : List (Nat × List Byte) :=
  let free (a n : Nat) : Nat × List Byte := (a, (List.range n).map (fun k => Config.contextByte tick (a + k)))
  [free 0 0x10000, free 0x17801 0x7FF, free 0x158000 0x20000]

/-- The unconverted tuples of a halted MGO, words in the layout of 01 R31. MODEL'S CHOICE (log 38): R382 does not say where in the
array state they stand; they are its first words. -/
def contextTuples (c : Core) : List (Nat × List Byte) :=
  ((c.mcmds.filterMap Cmd.arr).flatMap GoRow.tuples).zipIdx.map (fun t => (0x158000 + 8 * t.2, natLE 8 t.1.toNat))

/-- The type registers in the layout of 02 R40, register k as the 80 bytes at 80 * k. MODEL'S CHOICE (log 38): R382 does not say where
in the control area they stand; they are its bytes from 0x8000 on. -/
def contextTypes (c : Core) : List (Nat × List Byte) :=
  [(0x8000, (List.range 63).flatMap (fun k => natLE 80 (Tbl.get 0 c.ty k).toNat))]

/-- Where a stream's spill words stand in a slot. -/
def spillPlace (e : Nat) : Nat := match e with | 0 => 0x14000 | 1 => 0xB8000 | 2 => 0x16000 | _ => 0x16800

/-- Writes a context into slot `k` of the pool at physical address `base`; a poisoned word of the scratchpad or of a spill memory stays
marked (07 R160). -/
def writeContext (base k : Nat) (c : Core) (s : State) : State :=
  let a := base + k * slotBytes
  let marks := c.spPoison.map (fun w => 0x178000 / 8 + w) ++ c.spillPoison.map (fun x => spillPlace x.1 / 8 + x.2)
  { s with dram := putImage s.dram a savedBytes (contextImage c ++ contextOpen s.tick ++ contextTypes c ++ contextTuples c)
           dramPoison := marks.foldl (fun ps w => insWord (a / 8 + w) ps) (clearPoison s.dramPoison a savedBytes)
           flips := clearFlips flipDram a savedBytes s.flips
           tick := s.tick + 1 }

end Sys2Proof.Machine
end

