-- ==== Sys2Proof/Machine/Units.lean ====
section
/-!
DEFINITION. Work units: choosing and handing out, starting, pre-empting, saving and resuming, and reporting the end
(05 R104 to R110, 20 R381 to R384, 22 R390).
-/
namespace Sys2Proof.Machine

/- Choosing (R104 to R107). -/

/-- A core of a die that works and that has no unit. -/
def coreFree (s : State) (g : Nat) : Bool :=
  let c := s.core g
  c.unit.isNone && c.next.isNone && !fencedDie s (coreDie g)

/-- The cores of a placement, in ascending g. -/
def placeCores (p : Place) : List Nat := (List.range 256).filter (inPlace p)

/-- The core at the position of an ordinal of a gang launch (R105). -/
def gangCore (r : LRec) (n : Nat) : Nat :=
  let k := n / r.ndies % (r.pw * r.ph)
  coreIdx (r.die0 + r.posOf n) (r.px + k % r.pw) (r.py + k / r.pw)

/-- The saved units of a launch. -/
def savedOf (s : State) (c : Current) : List Saved := s.disp.saved.filter (fun x => decide (x.unit.launch = c.id))

/-- Another gang launch holds the core, until it completes (R105). One that tier 0 has pre-empted yields to tier 0 (R108). -/
def gangHeld (s : State) (g : Nat) (c : Current) : Bool :=
  s.disp.cur.any (fun x => x.owns && decide (x.id ≠ c.id) && inPlace x.lrec.place g
    && !(decide (queueTier c.q s = 0) && decide (queueTier x.q s ≠ 0) && !(savedOf s x).isEmpty))

/-- No unit of another launch runs or stands on a core of the placement (R105). -/
def gangClear (s : State) (c : Current) : Bool :=
  (placeCores c.lrec.place).all (fun g =>
    let k := s.core g
    !gangHeld s g c && (match k.unit with | some u => decide (u.launch = c.id) | none => true)
      && (match k.next with | some h => decide (h.unit.launch = c.id) | none => true))

/-- Whether ordinal n may go to core g: it belongs to g's die, its chain runs here or nowhere yet, and a gang's goes to its
position (R105, R107, R109). -/
def ordFits (s : State) (c : Current) (g n : Nat) : Bool :=
  let r := c.lrec
  let h := r.chain n
  decide (r.die0 + r.posOf n = coreDie g) && !c.handed.contains n
    && (if r.gang then decide (gangCore r n = g)
        else if r.redlvl = 0xFF || r.split then true
        else (match c.chains.find? (fun x => decide (x.1 = h)) with | some x => decide (x.2 = g) | none => true)
          && !(savedOf s c).any (fun x => decide (r.chain x.unit.n = h)))

/-- The least ordinal from n on that fits. -/
def firstOrd (s : State) (c : Current) (g : Nat) : Nat → Nat → Option Nat
  | 0, _ => none
  | k + 1, n => if ordFits s c g n then some n else firstOrd s c g k (n + 1)

/-- Saved unit x was pre-empted before y: in an earlier cycle, or from a core of lower index (R108). -/
def Saved.before (x y : Saved) : Bool :=
  let t (z : Saved) : Nat := z.core.haltReq.getD 0
  decide (t x < t y) || (decide (t x = t y) && decide (x.home < y.home))

/-- The saved units of a launch that no core has been given yet. -/
def waitingOf (s : State) (c : Current) : List Saved :=
  (savedOf s c).filter (fun x => !s.cores.any (fun y => match y.2.next with | some h => decide (h.resume = some x.id) | none => false))

/-- The saved unit that may resume on core g: the one pre-empted first (R104, R108). -/
def resumeOn (s : State) (c : Current) (g : Nat) : Option Saved :=
  ((waitingOf s c).filter (fun x => !c.lrec.gang || decide (gangCore c.lrec x.unit.n = g))).foldl
    (fun acc x => match acc with | some y => if x.before y then some x else some y | none => some x) none

/-- The queue's current launch could give out a unit at all. -/
def queueEligible (s : State) (c : Current) : Bool :=
  !c.refused && c.ready && c.post.isNone && c.faulted.isNone && queueRuns c.q s
    && (!(waitingOf s c).isEmpty || (decide (c.handed.length < c.lrec.total) && !budgetDue c s.now))

/-- Whether a queue is eligible for core g (R104). -/
def eligibleFor (s : State) (g : Nat) (c : Current) : Bool :=
  queueEligible s c && inPlace c.lrec.place g && !gangHeld s g c
    && (!c.lrec.gang || c.owns || gangClear s c)
    && ((resumeOn s c g).isSome || (!budgetDue c s.now && (firstOrd s c g c.lrec.total 0).isSome))

/-- The wrapped order of pass values (R104). -/
def passBefore (a b : BitVec 32) : Bool := decide (2 ^ 31 ≤ (a - b).toNat)
def passOf (s : State) (q : Nat) : BitVec 32 := Tbl.get 0 s.disp.pass q
def leastPass (s : State) : List Nat → Option Nat
  | [] => none
  | q :: qs => match leastPass s qs with
    | some b => if passBefore (passOf s b) (passOf s q) then some b else some q
    | none => some q

/-- The numbers of a list in ascending order. -/
def ascending (l : List Nat) : List Nat := (List.range 64).filter (fun q => l.contains q)

/-- The launches that are eligible at present. -/
def eligNow (s : State) : List Current := s.disp.cur.filter (queueEligible s)

/-- The eligible launches that were so already, and those that have become eligible. -/
def eligOld (s : State) : List Current := (eligNow s).filter (fun c => s.disp.elig.contains c.id)
def eligFresh (s : State) : List Current := (eligNow s).filter (fun c => !s.disp.elig.contains c.id)

/-- A launch that is eligible no longer is to become so anew (R104). -/
def pruneElig (s : State) : State := s.setDisp { s.disp with elig := s.disp.elig.filter (fun k => (eligNow s).any (fun c => decide (c.id = k))) }

/-- Queues that have become eligible take the least pass of their tier, in ascending number (R104): a queue is so once for each
launch. -/
def newlyEligible (s : State) : State :=
  let fresh := ascending ((eligFresh s).map Current.q)
  let old := (eligOld s).map Current.q
  let r := fresh.foldl (fun (acc : State × List Nat) q =>
    let s := acc.1
    let peers := (ascending acc.2).filter (fun p => decide (queueTier p s = queueTier q s))
    let s := match leastPass s peers with
      | some p => s.setDisp { s.disp with pass := Tbl.set 0 s.disp.pass q (passOf s p) }
      | none => s
    (s, q :: acc.2)) (s, old)
  r.1.setDisp { r.1.disp with elig := (eligNow s).map Current.id }

/- Pre-empting (R108). -/

/-- The slots of a die's context pool that are free and not spoken for (20 R382). -/
def freeSlotsOf (s : State) (die : Nat) : Nat :=
  let used := (s.disp.saved.filter (fun x => decide (x.die = die))).length
  let asked := ((List.range 64).filter (fun k => (s.core (64 * die + k)).haltReq.isSome)).length
  128 - used - asked

/-- The unit that a core runs or has been given. -/
def Core.heldUnit (c : Core) : Option WorkUnit := match c.unit, c.next with | some u, _ => some u | none, some h => some h.unit | none, none => none

/-- The cores that are to halt with core g: all of a gang launch (R108). -/
def haltWith (s : State) (g : Nat) : List Nat :=
  match (s.core g).heldUnit with
  | some u => if u.gang then (List.range 256).filter (fun k => match (s.core k).heldUnit with | some v => decide (v.launch = u.launch) | none => false) else [g]
  | none => []

/-- The Dispatcher asks cores to halt: all of them or, where a die has too few free slots, none (20 R382). -/
def askHalts (gs : List Nat) (s : State) : State :=
  let mine := gs.filter (fun g => (s.core g).haltReq.isNone && !(s.core g).stopped)
  if [0, 1, 2, 3].any (fun d => decide (freeSlotsOf s d < (mine.filter (fun g => decide (coreDie g = d))).length)) then s
  else mine.foldl (fun s g => s.setCore g { s.core g with haltReq := some s.now }) s

/-- The pre-emption for a launch: every tier-1 unit on the cores of its placement, in ascending g, where no core of it is free. -/
def preEmptFor (s : State) (c : Current) : State :=
  let cores := placeCores c.lrec.place
  if cores.any (fun g => coreFree s g && !gangHeld s g c) then s
  else cores.foldl (fun s g =>
    match (s.core g).heldUnit with
    | some u => if queueTier u.queue s = 1 then askHalts (haltWith s g) s else s
    | none => s) s

/-- What a selection begins with: queues that have become eligible take their pass value, and one of tier 0 that finds no core free
pre-empts (R104, R108). -/
def noteEligible (s : State) : State :=
  let fresh := (eligFresh s).filter (fun c => decide (queueTier c.q s = 0))
  (ascending (fresh.map Current.q)).foldl (fun s q => match s.curOf q with | some c => preEmptFor s c | none => s) (newlyEligible s)

/-- The choice for core g (R104): tier 0 first, then the least pass, then the lowest queue. -/
def choose (s : State) (g : Nat) : Option Current :=
  let es := s.disp.cur.filter (eligibleFor s g)
  let t0 := es.filter (fun c => decide (queueTier c.q s = 0))
  let es := if t0.isEmpty then es else t0
  match leastPass s (ascending (es.map Current.q)) with
  | some q => es.find? (fun c => decide (c.q = q))
  | none => none

/-- The work unit of an ordinal (R94, R110). -/
def unitOfRec (s : State) (c : Current) (n : Nat) : WorkUnit :=
  let r := c.lrec
  let o := (s.objOf r.handle).getD default
  { launch := c.id, record := c.addr, queue := c.q, handle := r.handle, n := n, tag := r.tag, profile := r.profile, det := c.det, gang := r.gang,
    place := r.place, fgcnt := r.fgcnt, fgidx := r.fgidx, text := o.text, entry := o.entry, start := s.now }

/-- A selection moves the queue's pass on by its stride, where it gives out a new unit (R104). -/
def stridePass (q : Nat) (s : State) : State :=
  s.setDisp { s.disp with pass := Tbl.set 0 s.disp.pass q (passOf s q + BitVec.ofNat 32 (2 ^ 20 / (queueCtl q s).1)) }

/-- What a free core is given: the launch, and the ordinal of its unit, one that was pre-empted or a new one (R104). -/
def pickUnit (s : State) (g : Nat) : Option (Current × Option Saved × Nat) :=
  match choose s g with
  | none => none
  | some c =>
    let c := { c with owns := c.owns || c.lrec.gang }
    match resumeOn s c g with
    | some x => some (c, some x, x.unit.n)
    | none => (firstOrd s c g c.lrec.total 0).map (fun n => (c, none, n))

/-- The core receives the unit that it is given. -/
def giveUnit (g : Nat) (c : Current) (x : Option Saved) (n : Nat) (s : State) : State :=
  let r := c.lrec
  match x with
  | some x =>
    let h : Handed := { unit := x.unit, idx := [], consts := [], resume := some x.id }
    let chains := c.chains.map (fun y => if y.1 = r.chain n && decide (r.redlvl ≠ 0xFF) then (y.1, g) else y)
    pruneElig ((s.setCur { c with chains := chains }).setCore g { s.core g with next := some h })
  | none =>
    let h : Handed := { unit := unitOfRec s c n, idx := r.walk n, consts := r.consts, resume := none }
    let chains := if r.redlvl = 0xFF || c.chains.any (fun y => decide (y.1 = r.chain n)) then c.chains else c.chains ++ [(r.chain n, g)]
    let c := { c with handed := c.handed ++ [n], out := c.out + 1, firstOut := some (c.firstOut.getD s.now), chains := chains }
    let s := stridePass c.q s
    pruneElig ((s.setCur c).setCore g { s.core g with next := some h })

/-- UNIT_HAND_OUT (R104, R113): a free core is given its next unit, new or pre-empted, once the hand-out is journalled. -/
def handOut (g : Nat) (s : State) : State :=
  let s := noteEligible s
  match pickUnit s g with
  | none => s
  | some (c, x, n) => giveUnit g c x n (journal 3 c.q g n c.addr 0 s)

def execUnitHandOut (g : Nat) (s : State) : Host.Outcome State Fault Refusal :=
  .next (if dispOk s && coreFree s g then handOut g s else s)

/- Starting (R110). -/

/-- The membership registers (R112). -/
def domWords (u : WorkUnit) (g : Nat) : Tbl Word :=
  let p := u.place
  let k := (groupPos p (coreDie g)).getD 0
  let i1 := coreX g - p.px
  let i2 := (coreY g - p.py) * p.pw + i1
  let i3 := k * (p.pw * p.ph) + i2
  let n3 := p.ndies * p.pw * p.ph
  let w (cnt i : Nat) : Word := BitVec.ofNat 64 (cnt * 2 ^ 24 + i)
  Tbl.setRun 0 [] 1 [w p.pw i1, w (p.pw * p.ph) i2, w n3 i3, if u.fgcnt = 0 then 0 else w (u.fgcnt * n3) (u.fgidx * n3 + i3)]

/-- The streams at the start of a unit: at their entries, an absent one ended (03 R54, 06 R114, R401). -/
def startStreams (u : WorkUnit) (c : Core) (keep : Bool) (now : Nat) : Tbl Stream :=
  (List.range 4).foldl (fun t e =>
    let old := Tbl.get Stream.idle c.streams e
    let st : Stream := { Stream.idle with pc := u.entry.getD e 0, ended := decide ((u.text.getD e (0, 0)).2 = 0), ready := now + 4,
                                          buf := if keep then old.buf else [], lines := if keep then old.lines else [] }
    Tbl.set Stream.idle t e st) []

/-- The state in which a unit starts on a core (R110); `c` holds what is kept from the unit before. -/
def startCore (g : Nat) (o : LoadedObj) (h : Handed) (c : Core) (now : Nat) : Core :=
  let u := h.unit
  let keep := c.lastLaunch = some u.launch
  let s17 := h.idx.map (BitVec.ofNat 64) ++ [BitVec.ofNat 64 u.n]
  let regs := Tbl.setRun 0 (Tbl.setRun 0 (Tbl.setRun 0 c.s 1 s17) 16 h.consts) 120 (List.replicate 7 0)
  let ty := o.binds.foldl (fun t b => Tbl.set 0 t b.1 (o.tensors.getD b.2 0)) []
  { c with
    s := regs, fpctl := 0, fstk := 0, dbnd := 0, trapcause := 0, boundQ := [], uiact := false, uiBound := false,
    notifyQ := [], latch := false, cycBase := now, dom := domWords u g, slip := Tbl.setRun 64 [] 0 o.slip, tks := Tbl.setRun 0 [] 0 o.tks,
    tokens := [], reserved := [], queues := [], ofs := c.ofs.filterMap (fun x => if x.2.gen = 0 then none else some (x.1, { OfSlot.reset with gen := x.2.gen })),
    ty := ty, gsel := 0, mprof := u.profile, mx := Tbl.setRun 0 [] 1 s17, mcmds := [], kcmds := [], names := [], kbind := none, window := [],
    streams := startStreams u c keep now, lq := [], stq := [], vmode := 0, vloop := none, pend := [], rows := 0xFFFF, groups := [], forks := [],
    tlb := if keep then c.tlb else [], unit := some { u with start := now }, stopped := false, sysc := none, lastTag := some u.tag,
    lastLaunch := some u.launch, undeclared := none, subs := [], zeroing := none, haltReq := c.haltReq, halted := false, next := none,
    outQ := [], goRaised := 0, hBlk := none, walkFault := [], cyc := Cycle.reset }

/-- A unit that starts on a core finds its output FIFO empty, with no entry that waits for a place (17 R344). -/
def dropEntries (g : Nat) (s : State) : State := { s with collWait := s.collWait.filter (fun x => decide (x.1 ≠ g)) }

/-- The core with everything zeroed that a change of tag zeroes (R110). MODEL'S CHOICE (log 3): the generation counts of the order-first
slots stay as they are. -/
def wipe (c : Core) : Core :=
  { Core.reset with streams := c.streams, tlb := c.tlb, cmdNo := c.cmdNo, sOrd := c.sOrd, ofs := c.ofs, unit := c.unit, lastTag := c.lastTag,
                    lastLaunch := c.lastLaunch, haltReq := c.haltReq, next := c.next, reports := c.reports }

/-- The 512 x 256 elements of a group's recorded source, one K row (12 R273, R286). -/
def sourceRow (g : Nat) (pf : Profile) (src : TileSrc) (r : Nat) (s : State) : Got (List Elem) :=
  match src with
  | .line l => mUnit g pf (stripe (64 * l) r (bUnit pf.fmt)) (bUnit pf.fmt) s
  | .typed ty o0 o1 => gotAll (fun j s => mElem g (ttypeOf ty) true [o0 + r, o1 + j] s) (List.range 256) s

/-- Reloads a valid group from its source, block by block of 32 rows (20 R383). -/
def reloadBlocks (g gi : Nat) : Nat → Nat → State → Got Unit
  | 0, _, s => .ok () s
  | k + 1, b, s =>
    let m := Tbl.get MGroup.reset (s.core g).mgrp gi
    let pf := profileOf m.prof
    (gotAll (fun r s => sourceRow g pf m.src r s) ((List.range 32).map (fun i => 32 * b + i)) s).bind (fun rows s =>
      let c := s.core g
      -- the tile's segments are formed aside, and the group takes its own
      let t := putBlock m.prof 16 b rows.flatten { c with mgrp := [] }
      let x := Tbl.get MGroup.reset t.mgrp (16 + m.seg)
      let old := Tbl.get MGroup.reset c.mgrp gi
      let new := { old with rows := Tbl.setRun 0 old.rows (32 * b) (Tbl.getRun 0 x.rows (32 * b) 32),
                            blocks := Tbl.setRun BlockMeta.reset old.blocks (256 * b) (Tbl.getRun BlockMeta.reset x.blocks (256 * b) 256) }
      reloadBlocks g gi k (b + 1) (s.setCore g { c with mgrp := Tbl.set MGroup.reset c.mgrp gi new }))

/-- Reloads the valid groups; a failure faults as one of the M stream (R383). The state, and whether a page is still to be walked, or
the target core still to be zeroed: the reload is then done again. -/
def reloadGroups (g : Nat) (s : State) : State × Bool :=
  let valid := [0, 1, 2, 3].filter (fun i => (Tbl.get MGroup.reset (s.core g).mgrp i).valid)
  match gotAll (fun i s => reloadBlocks g i 16 0 s) valid s with
  | .ok _ s | .far _ _ s => (s, false)
  | .bad code ad q s =>
    (unitFault g { code := code, src := 2, pc := (s.core g).pcOf .m, addr := ad, spc := qSpcBits q, xtra := qXtra q } s, false)
  | .wait s => (s, true)

/-- What stands under one core's index stands under another's: its transactions and its collectives (R365, 17 R344). -/
def moveRefs (g g' : Nat) (s : State) : State :=
  let on (k : Nat) : Nat := if k = g then g' else k
  let d (x : Descr) : Descr := { x with g := on x.g }
  { s with meridian := { s.meridian with txs := s.meridian.txs.map (fun t => { t with g := on t.g }) }
           collIn := s.collIn.map (fun x => (x.1, x.2.map d))
           collRun := s.collRun.map (fun x => (x.1, x.2.map (fun r => { r with d := d r.d })))
           collWait := s.collWait.map (fun x => (on x.1, x.2))
           closes := s.closes.map (fun x => { x with why := match x.why with | .localPhase k b l => .localPhase (on k) b l | y => y }) }

/-- The arrivals of a unit that goes on on core g are those of g's member (20 R381). -/
def moveArrivals (x : Saved) (g : Nat) (s : State) : State :=
  { s with zenith := s.zenith.map (fun z =>
      let a := Tbl.get Arrived.none x.core.arrived z.b
      if z.launch = x.unit.launch && a.atNode && decide (a.mode = z.mode) && !z.released.contains x.home then
        { z with arrived := z.arrived.map (fun m => if m = x.home then g else m) }
      else z) }

/-- CONTEXT_RESTORE: a saved unit goes on on core g (R383): translation caches and fetch buffers are empty, its own
scratchpad is that of g, and CYC goes on from its count. Where the reload of a group waits for a walk (07 R143), the unit stays where it
is, and the next turn restores it. -/
def resumeCore (g : Nat) (x : Saved) (s : State) : State :=
  let now := s.now
  let old := s.core g
  let own (k : Nat) : Nat := if k = x.home then g else k
  -- the cycles that the unit has stood pre-empted count for none of its commands (12 R305)
  let later (y : Cmd) : Cmd := { y with started := y.started.map (fun t => t + (now - x.core.haltAt)), issued := y.issued + (now - x.core.haltAt), since := now
                                        arr := y.arr.map (fun r => { r with restored := !r.tuples.isEmpty }) }
  let c : Core :=
    { x.core with
      mcmds := x.core.mcmds.map later, kcmds := x.core.kcmds.map later, hBlk := none, walkFault := [], cyc := Cycle.reset,
      tlb := [], unit := some x.unit, cycBase := now - x.ran, dom := domWords x.unit g, reports := old.reports, haltReq := old.haltReq, halted := false,
      next := none, zeroing := none, lastTag := some x.unit.tag, lastLaunch := some x.unit.launch,
      streams := x.core.streams.map (fun y => (y.1, { y.2 with buf := [], lines := [], ready := now + 4, chkEnd := now, wait := none, dbnd := none })),
      groups := x.core.groups.map (fun y => { y with ready := now + 4, chkEnd := now }),
      window := x.core.window.map (fun w => { w with foot := w.foot.map (fun l => l.map (fun f => { f with core := own f.core })) }),
      ofs := x.core.ofs.map (fun y => (y.1, { y.2 with ranges := y.2.ranges.map (fun r => { r with core := if r.space = 1 then own r.core else r.core }) })) }
  let back := moveArrivals x g <| moveRefs (savedKey x.id) g { s with disp := { s.disp with saved := s.disp.saved.filter (fun y => decide (y.id ≠ x.id)) } }
  let r := reloadGroups g ((overCore g back).setCore g c)
  if !r.2 then r.1
  else { s.setCore g { old with tlb := (r.1.core g).tlb, walkFault := (r.1.core g).walkFault } with misses := r.1.misses, banks := r.1.banks, ucNow := r.1.ucNow, tick := r.1.tick }

/-- UNIT_START (R110): a handed-out unit starts on its core, at once or after the zeroing for a change of tag; a saved one
is restored. -/
def startUnit (g : Nat) (s : State) : State :=
  let c := s.core g
  match c.next with
  | none => s
  | some h =>
    if c.unit.isSome then s
    else match h.resume with
      | some id =>
        (match s.disp.saved.find? (fun x => decide (x.id = id)) with
        | some x => resumeCore g x s
        | none => s.setCore g { c with next := none })
      | none =>
        if c.lastTag = some h.unit.tag then (dropEntries g s).setCore g (startCore g ((s.objOf h.unit.handle).getD default) h c s.now)
        else s.setCore g { c with unit := some h.unit, zeroing := some (s.now + 8192),
                                  streams := (List.range 4).foldl (fun t e => Tbl.set Stream.idle t e Stream.idle) [] }

def execUnitStart (g : Nat) (s : State) : Host.Outcome State Fault Refusal :=
  .next (if fencedDie s (coreDie g) then s else startUnit g s)

/-- TAG_CHANGE_ZEROING: the zeroing ends, and the unit starts (R110). -/
def execTagChangeZeroing (g : Nat) (s : State) : Host.Outcome State Fault Refusal :=
  let c := s.core g
  .next (match c.zeroing, c.next with
    | some t, some h =>
      if s.now < t || c.stopped then s else (overCore g (dropEntries g s)).setCore g (startCore g ((s.objOf h.unit.handle).getD default) h (wipe c) s.now)
    | _, _ => s)

/- Pre-emption (R108, 20 R381, R382). -/

/-- PRE_EMPTION: a queue of tier 0 has become eligible, and no core of its placement is free (R108). -/
def execPreEmption (q : Nat) (s : State) : Host.Outcome State Fault Refusal :=
  .next (if dispOk s && (eligFresh s).any (fun c => decide (c.q = q) && decide (queueTier q s = 0)) then noteEligible s else s)

/-- What must have come to rest before a core halts (20 R381). -/
def atRest (s : State) (g : Nat) : Bool :=
  let c := s.core g
  (c.loads .s).isEmpty && (c.stores .s).isEmpty && (c.loads .v).isEmpty && (c.stores .v).isEmpty
    && c.kcmds.all (fun x => x.fly.isEmpty && !x.ahead) && c.sysc.isNone && c.undeclared.isNone && c.subs.isEmpty
    && !s.wFlight.any (fun w => decide (w.g = g)) && !s.updFlight.any (fun u => decide (u.g = g))
    && !s.redFlight.any (fun r => decide (r.g = g))

/-- A handler that runs is abandoned, as a waiting instruction is: its record goes back to the head of its queue, and S stands again
where the handler found it (20 R381, 06 R134, log 39). -/
def abandonHandler (c : Core) (now : Nat) : Core :=
  if !c.uiact then c
  else
    let back := leaveHandler c now
    if c.uiBound then { back with boundQ := { record := c.brec, at_ := 0, rank := 0 } :: c.boundQ }
    else { back with notifyQ := c.uiinfo.extractLsb' 0 16 :: c.notifyQ }

/-- HALT: every stream of a pre-empted unit halts; waits, a VJOIN's among them, and a handler that runs are abandoned: what waited issues
again after the restore (20 R381, 06 R134). -/
def execHalt (g : Nat) (s : State) : Host.Outcome State Fault Refusal :=
  let c := s.core g
  .next (if c.haltReq.isNone || !c.runs || !atRest s g || [Eng.s, .v, .m, .k].all (fun e => (c.stream e).ended) then s
    else
      let c := abandonHandler c s.now
      s.setCore g { c with halted := true, haltAt := s.now,
                              streams := c.streams.map (fun y => (y.1, { y.2 with wait := none, dbnd := none })),
                              groups := c.groups.map (fun y => { y with wait := none, dbnd := none, atJoin := none }) })

/-- A core leaves the walkers' miss tables (07 R143). -/
def dropMisses (g : Nat) (s : State) : State :=
  { s with misses := s.misses.map (fun x => (x.1, x.2.map (fun m => { m with cores := m.cores.filter (fun k => decide (k ≠ g)) }))) }

/-- CONTEXT_SAVE: a halted core saves its unit into a free slot of its die and is free (20 R382). -/
def execContextSave (g : Nat) (s : State) : Host.Outcome State Fault Refusal :=
  let c := s.core g
  .next (match c.unit with
    | none => s
    | some u =>
      let used := (s.disp.saved.filter (fun x => decide (x.die = coreDie g))).map Saved.slot
      let free := (List.range 128).filter (fun k => !used.contains k)
      if !c.halted || c.stopped || free.isEmpty then s
      else
        let slot := free.getD (Config.contextSlot s.tick % free.length) 0
        -- the save reads the core's memories, whose single-bit errors it corrects (07 R160)
        let s := [Eng.s, .v, .m, .k].foldl (fun s e => correctSpill g e 0 (2 ^ 17) s) (correctSp g 0 (2 ^ 23) s)
        let s := match s.plat.pools[coreDie g]? with
          | some base => writeContext base slot c s
          | none => s
        let id := (s.disp.saved.map Saved.id).foldl max 0 + 1
        let x : Saved := { id := id, die := coreDie g, slot := slot, home := g, q := u.queue, core := c, unit := u, ran := c.haltAt - c.cycBase }
        let s := s.setDisp { s.disp with saved := s.disp.saved ++ [x] }
        let left := { c with unit := none, halted := false, haltReq := none, outQ := [], mcmds := [], kcmds := [], pend := [], window := [], arrived := []
                             groups := [], forks := [], walkFault := [] }
        moveRefs g (savedKey id) ((dropMisses g s).setCore g left))

/- The end of a unit (22 R390, 20 R384). -/

/-- Every stream has ended, and all that the unit began is performed, acknowledged or accepted. -/
def unitOver (s : State) (g : Nat) : Bool :=
  let c := s.core g
  c.runs && [Eng.s, .v, .m, .k].all (fun e => (c.stream e).ended) && atRest s g && c.mcmds.isEmpty && c.kcmds.isEmpty && c.pend.isEmpty

/-- A Dispatcher acknowledges a report, having recorded it. -/
def acknowledge (r : Report) (s : State) : State :=
  match s.disp.cur.find? (fun c => decide (c.id = r.unit.launch)) with
  | none => s
  | some c =>
    settleLaunch c.q r.at_ (s.setCur { c with out := c.out - 1, units := c.units + (if r.whole then 1 else 0),
                                              flags := if r.whole then c.flags ||| r.fstk else c.flags })

/-- The pending reports that meet a condition are acknowledged in the order in which they arrived (20 R385, 22 R391). -/
def acknowledgeAll (p : Report → Bool) (s : State) : State :=
  let rs := (pendingReports s).filter p
  let s := (s.cores.map Prod.fst).foldl (fun s g => s.setCore g { s.core g with reports := (s.core g).reports.filter (fun r => !p r) }) s
  rs.foldl (fun s r => acknowledge r s) s

/-- END_REPORT: a unit that is over leaves its core with a report; or the active Dispatcher acknowledges the oldest pending one, and
before it those that arrived before it. A report is acknowledged in a later cycle than that of its arrival, when all of one cycle have
come (log 37). -/
def execEndReport (g : Nat) (s : State) : Host.Outcome State Fault Refusal :=
  let c := s.core g
  .next (match c.reports.find? (fun r => decide (r.at_ < s.now)), dispOk s with
    | some r, true => acknowledgeAll (fun x => decide (x = r) || x.before r.at_ r.unit.queue) s
    | _, _ =>
      match c.unit with
      | some u =>
        if !unitOver s g then s
        else
          let r : Report := { unit := u, whole := true, fstk := c.fstk.extractLsb' 0 10, at_ := s.now }
          s.setCore g { c with unit := none, haltReq := none, reports := c.reports ++ [r] }
      | none => s)

end Sys2Proof.Machine
end

