-- ==== Sys2Proof/Machine/Module.lean ====
section
/-!
DEFINITION. The module: purges and fences (20 R377 to R380), take-over (20 R385, R386), boot, limits and management
(22 R396 to R398, 03 R65).
-/
namespace Sys2Proof.Machine

/- Purges. -/

/-- Takes one unit of a purged launch out of its count. -/
def dropUnit (launch : Nat) (s : State) : State :=
  match s.disp.cur.find? (fun c => decide (c.id = launch)) with
  | some c => s.setCur { c with out := c.out - 1 }
  | none => s

/-- Releases the transactions of a core, or of a saved unit, in any state (18 R364). -/
def purgeTx (g : Nat) (s : State) : State :=
  ((s.meridian.txs.filter (fun t => decide (t.g = g) && !t.released)).map OfTx.id).foldl (fun s x => releaseTx x s) s

/-- A core without its purged unit; what is left is as at its next start. -/
def purgedCore (c : Core) : Core :=
  { c with unit := none, stopped := false, halted := false, haltReq := none, sysc := none, undeclared := none, subs := [], pend := [], arrived := [],
           bOwes := [], tokens := [], reserved := [], queues := [], boundQ := [], notifyQ := [], mcmds := [], kcmds := [], kbind := none, window := [],
           lq := [], stq := [], groups := [], forks := [], zeroing := none, walkFault := [], lastTag := if c.zeroing.isSome then none else c.lastTag,
           ofs := c.ofs.filterMap (fun x => if x.2.gen = 0 then none else some (x.1, { OfSlot.reset with gen := x.2.gen })) }

/-- The units of a tag leave one core: a running one with a report, a handed-out one without (R377, R378). -/
def purgeCore (tag : BitVec 16) (g : Nat) (s : State) : State :=
  let c := s.core g
  let s := match c.next with
    | some h =>
      if h.unit.tag = tag && (c.unit.isNone || c.zeroing.isSome) then
        (if h.resume.isSome || c.unit.isSome then s else dropUnit h.unit.launch s).setCore g { c with next := none }
      else s
    | none => s
  let c := s.core g
  match c.unit with
  | some u =>
    if u.tag ≠ tag then s
    else
      let s := dropMisses g (purgeTx g s)
      let r : Report := { unit := u, whole := false, fstk := c.fstk.extractLsb' 0 10, at_ := s.now }
      let s := s.setCore g { purgedCore (s.core g) with reports := (s.core g).reports ++ [r] }
      { s with redFlight := s.redFlight.filter (fun f => decide (f.g ≠ g)) }
  -- a unit that has ended leaves its arrivals, whose phases the purge takes (16 R333)
  | none => if c.lastTag = some tag then s.setCore g { c with arrived := [], bOwes := [] } else s

/-- PURGE_COMPLETE (R377, R378): everything of the tag is gone, and its launches complete when their last reports are
acknowledged. Nothing of another tag is touched. -/
def purgeEnd (p : Purge) (s : State) : State :=
  let tag := p.tag
  let s := { s with purges := s.purges.filter (fun x => decide (x.tag ≠ tag)) }
  let gone := s.disp.saved.filter (fun x => x.unit.tag = tag)
  let s := gone.foldl (fun s x => dropUnit x.unit.launch (purgeTx (savedKey x.id) s)) s
  let s := s.setDisp { s.disp with saved := s.disp.saved.filter (fun x => x.unit.tag ≠ tag) }
  let s := (List.range 256).foldl (fun s g => purgeCore tag g s) s
  let s := { s with retry := s.retry.filter (fun r => r.pkt.tag ≠ tag)
                    recv := s.recv.map (fun w => { w with held := w.held.filter (fun h => h.tag ≠ tag) })
                    longs := s.longs.filter (fun x => x.p.tag ≠ tag)
                    updFlight := s.updFlight.filter (fun u => u.tag ≠ tag)
                    holding := s.holding.filter (fun h => h.tag ≠ tag)
                    closes := s.closes.filterMap (fun x =>
                      if x.tag ≠ tag then some x
                      else match x.why with | .packet _ => some { x with left := [], send := [], away := [] } | _ => none)
                    zenith := s.zenith.filter (fun z => tagOf z.unit ≠ tag) }
  let s := purgeCollectives tag p.code (settleCloses s)
  let s := s.setDisp { s.disp with cur := s.disp.cur.map (fun c =>
    if !c.refused && decide (c.lrec.tag = tag) && c.post.isNone && c.faulted.isNone then { c with faulted := some p.code } else c) }
  (s.disp.cur.map Current.q).foldl (fun s q => settleLaunch q s.now s) s

/-- What a purge of a tag waits for at a core: the accesses before one that failed its declaration, which are still performed (21
R387), and the W stores that have left (07 R138, 22 R390). -/
def purgeHeld (s : State) (tag : BitVec 16) : Bool :=
  s.cores.any (fun x => x.2.unit.isSome && x.2.unitTag = tag && !fencedDie s (coreDie x.1)
    && (x.2.undeclared.isSome || s.wFlight.any (fun w => decide (w.g = x.1))))

/-- PURGE_COMPLETE: a purge that runs here completes, or one that a fault on another device of the fabric began
(R377). -/
def execPurgeComplete (r : PurgeReport) (s : State) : Host.Outcome State Fault Refusal :=
  .next (if purgeHeld s r.tag then s else match s.purges.find? (fun p => p.tag = r.tag), r.peer with
    | some p, _ => purgeEnd p s
    | none, some code => purgeEnd { tag := r.tag, code := code, since := s.now, first := 256 } s
    | none, none => s)

/-- A transaction with a unit on a fenced die is lost (09 R215). -/
def loseTx (die : Nat) (s : State) : State :=
  let at_ (u : OfUnit) : Nat := unitDie (match u with | .tile t => .tile (4096 * t) | x => x)
  (s.meridian.txs.filter (fun t => t.units.any (fun u => decide (at_ u.1 = die)))).foldl (fun s t =>
    let c := s.unitCore t.g
    let o := Tbl.get OfSlot.reset c.ofs t.slot
    if o.tx = t.id && (o.st = .submitted || o.st = .granted) then s.setUnitCore t.g { c with ofs := Tbl.set OfSlot.reset c.ofs t.slot { o with lost := true } } else s) s

/-- An uncorrectable error of a unit's logic, or of its memory, reaches the unit's bank (R375, log 53). -/
def logicError (id : BankId) (src : Nat) (s : State) : State :=
  let e := Config.logicError s.tick
  recordUc id 0 { code := e.1.toNat, src := src, pc := 0, addr := e.2 } { s with tick := s.tick + 1 }

/-- DIE_FENCE: an uncorrectable error in a die's shared logic fences it until module reset, and the failing unit's bank, where it has
one, records it. Die 4 stands for the slice controllers of die 0, whose error stops the module, which reports it (R379). -/
def execDieFence (f : FenceCause) (s : State) : Host.Outcome State Fault Refusal :=
  let s := match f.bank with | some b => logicError b 8 s | none => s
  .next (if 4 ≤ f.die then { s with stopped := true, replies := s.replies ++ [.stopped] }
    else
      let s := loseTx f.die { s with fenced := s.fenced ||| (1 <<< f.die) }
      let s := (List.range 64).foldl (fun s k =>
        let g := 64 * f.die + k
        let c := s.core g
        match c.unit, c.next with
        | some u, _ => startPurge (s.setCore g { c with stopped := true, sysc := none }) u.tag cUNREACH g
        | none, some h => startPurge s h.unit.tag cUNREACH g
        | none, none => s) s
      (s.disp.saved.filter (fun x => decide (x.die = f.die))).foldl (fun s x => startPurge s x.unit.tag cUNREACH (64 * f.die + 64)) s)

/- Take-over (R385, R386). -/

/-- The standby redoes a record's effect: a head, the copy of an admitted record, or a completion word and its kick, to which the
copied record names the places. A unit that has not reached its core is given to it: the record `cut`. -/
def replay (cut : Option Nat) (s : State) (j : JRec) : State :=
  match j.kind with
  | 1 => writeD (queueAt s j.q) 8 j.val.toNat s
  | 2 =>
    match s.curOf j.q with
    | some c =>
      if c.addr ≠ j.rec_ || c.post.isSome then s
      else (match ownRead j.rec_ 256 s with
        | (.ok b, s) => s.setCur { c with bytes := b }
        | (.error _, s) => s)
    | none => s
  | 3 =>
    if cut ≠ some j.seq || !coreFree s j.core then s
    else (match s.curOf j.q with
      | some c =>
        let c := { c with owns := c.owns || c.lrec.gang }
        giveUnit j.core c ((waitingOf s c).find? (fun x => decide (x.unit.n = j.ord))) j.ord s
      | none => s)
  | 4 =>
    match s.disp.copies.find? (fun x => decide (x.1 = j.seq)) with
    | some x => postWord (lrec x.2) j.val s
    | none => s
  | _ => s

/-- Every report that is pending is acknowledged, in the order of arrival (R385). -/
def collectReports (s : State) : State := acknowledgeAll (fun r => decide (r.at_ < s.now)) s

/-- A trap may come between the journal record of a hand-out and its core, or between the record's two copies (log 12): the state,
and the sequence number of a record that stands in both while its unit has not reached the core. -/
def cutHandOut (s : State) : State × Option Nat :=
  match Config.trapCut s.tick with
  | some (g, both) =>
    if 256 ≤ g || !dispOk s || !coreFree s g then (s, none)
    else
      let s := noteEligible s
      (match pickUnit s g with
      | none => (s, none)
      | some (c, _, n) =>
        let t := journal 3 c.q g n c.addr 0 s
        if both then (t, some s.disp.jseq) else (s.setDisp { s.disp with journal := t.disp.journal }, none))
  | none => (s, none)

/-- The records that stand in both copies: one that is confirmed in one alone never took effect, and is discarded. Where one copy has
an uncorrectable word the other is read (R385); MODEL'S CHOICE (log 12): where both have, the record is lost. -/
def confirmed (d : Dispatch) : List (List Byte) :=
  (d.journal.zip d.mirror).zipIdx.filterMap (fun x =>
    match d.journalBad.contains x.2, d.mirrorBad.contains x.2 with
    | false, false => if x.1.1 = x.1.2 then some x.1.1 else none
    | true, false => some x.1.2
    | false, true => some x.1.1
    | true, true => none)

/-- DISPATCHER_TAKE_OVER: the active Dispatcher traps on an error of its instruction SRAM, or another of its core (log 53), and the
standby replays what it had not confirmed (log 12); when that time is over it looks at every queue, collects the pending reports, and goes
on. MODEL'S CHOICE (log 72): every launch that can give out a unit then counts as having become eligible (05 R104, R108). -/
def execDispatcherTakeOver (s : State) : Host.Outcome State Fault Refusal :=
  let d := s.disp
  .next (match d.takeover with
    | some t =>
      if s.now < t then s
      else
        let s := swapKick s
        let s := examine (s.setDisp { s.disp with kicked := BitVec.allOnes 64 })
        collectReports (s.setDisp { s.disp with takeover := none, pass := [], elig := [] })
    | none =>
      let other := 1 - d.active
      if !d.ready || d.failed.getLsbD other || d.failed.getLsbD d.active then s
      else
        let (s, cut) := cutHandOut s
        let records := confirmed s.disp
        let k := min (max (Config.standbyLag s.tick) (if cut.isSome then 1 else 0)) records.length
        let s := logicError (.dispatcher d.active) (if Config.sramTrap s.tick then 5 else 8) s
        let s := s.setDisp { s.disp with failed := d.failed ||| (1 <<< d.active), active := other,
                                         journal := s.disp.journal.take (min s.disp.journal.length s.disp.mirror.length)
                                         mirror := s.disp.mirror.take (min s.disp.journal.length s.disp.mirror.length)
                                         takeover := some (s.now + 2400 + 240 * k + 4800) }
        ((records.drop (records.length - k)).map jrecOf).foldl (replay cut) { s with tick := s.tick + 1 })

/-- SYSC_ANSWER (09 R195): not during a take-over (R386). -/
def execSyscAnswer (g : Nat) (s : State) : Host.Outcome State Fault Refusal :=
  .next (if s.disp.takeover.isSome || (s.core g).stopped then s else answerSysc g s)

/- Management (22 R396 to R398). -/

/-- The state that a module reset leaves: DRAM, the flash counter and the platform record stay, with one that is installed and waits
(R396, log 31). -/
def afterReset (s : State) : State :=
  { State.reset with dram := s.dram, dramPoison := s.dramPoison, flips := s.flips.filter (fun x => decide (x.1 = flipDram)),
                     counter := s.counter, plat := s.plat, platNext := s.platNext, sched := s.sched, tick := s.tick, replies := s.replies }

/-- A management packet: only the station's is taken, any other receives PROTECT (R398). -/
def managed (dev : Nat) (s : State) (k : State → State) : Host.Outcome State Fault Refusal :=
  .next (if dev = s.plat.station.toNat then k s else { s with replies := s.replies ++ [.refused cPROTECT] })

/-- What the security controller holds in ROM: the SHA-512 hash of Creward's root key (03 R64). -/
def romHash : List Byte := sha512 Config.rootKey
/-- A signature chains to Creward's root: its chain verifies, and descends from the key whose hash stands in ROM (03 R64). -/
def chained (k : Chain) : Bool := k.sound && decide (sha512 k.root = romHash)

/-- The last steps of the boot (R396): the queue table and KICK are cleared, and the module is ready. MODEL'S CHOICE (log 31): where they
cannot be written, the Dispatcher's bank logs it, and the module stays in step 4. -/
def clearQueues (s : State) : State :=
  match ownWrite s.plat.qbase.toNat (List.replicate 0x808 0) s with
  | (.ok _, s) => { s.setDisp { s.disp with ready := true } with replies := s.replies ++ [.done] }
  | (.error e, s) =>
    let s := logDisp 0 e s.plat.qbase.toNat s
    { s.setDisp { s.disp with failStep := some 4 } with replies := s.replies ++ [.bootFailed 4] }

/-- The boot (R396): a failing verification leaves the module in its step; else the record that was verified is in force. -/
def boot (p : Boot) (s : State) : State :=
  let s := afterReset s
  let fails (n : Nat) : State := { s.setDisp { s.disp with failStep := some n } with replies := s.replies ++ [.bootFailed n] }
  if !chained p.firmware then fails 1
  else if !chained p.record then fails 2
  else clearQueues { s with plat := s.platNext.getD s.plat, platNext := none }

/-- MODULE_RESET: at power-on, or as the management station asks (R396, R398). -/
def execModuleReset (p : Boot) (s : State) : Host.Outcome State Fault Refusal :=
  match p.dev with
  | some d => managed d s (boot p)
  | none => .next (boot p s)

/-- THROTTLE: the arithmetic clock goes down or up by 150 MHz, between 1.2 and 2.4 GHz (R397). -/
def execThrottle (up : Bool) (s : State) : Host.Outcome State Fault Refusal :=
  .next { s with clock := if up then min 2400 (s.clock + 150) else max 1200 (s.clock - 150) }

/-- THERMAL_TRIP: the module stops, and reports it (R397, 20 R379). -/
def execThermalTrip (s : State) : Host.Outcome State Fault Refusal := .next { s with stopped := true, replies := s.replies ++ [.stopped] }

/-- A write of EBS (20 R374): the two counts are written, a 1 at VALID clears the record, and a 1 at OVER clears OVER. -/
def Bank.writeEbs (b : Bank) (v : Word) : Bank :=
  let ov := v.extractLsb' 48 16
  let ce := v.extractLsb' 32 16
  if v.getLsbD 0 then { ebs := ebsOf ov ce 0 0 0 false false false, eba := 0, ebx := 0, ebc := 0 }
  else { b with ebs := ebsOf ov ce (b.ebs.extractLsb' 24 8) (b.ebs.extractLsb' 8 8) (b.ebs.extractLsb' 16 4)
                         (b.ebs.getLsbD 2 && !v.getLsbD 2) b.uc b.valid }

/-- ERROR_BANK_CLEAR: the active Dispatcher (no device) or the management station reads a bank and writes its EBS (20 R374, R398). -/
def execErrorBankClear (a : BankAccess) (s : State) : Host.Outcome State Fault Refusal :=
  let act (s : State) : State :=
    { (match a.write with | some v => s.setBank a.bank ((s.bank a.bank).writeEbs v) | none => s) with
      replies := s.replies ++ [.bank a.bank (s.bank a.bank)] }
  match a.dev with
  | some d => managed d s act
  | none => .next (if dispOk s then act s else s)

def execReadSensors (dev : Nat) (r : Sensors) (s : State) : Host.Outcome State Fault Refusal :=
  managed dev s (fun s => { s with replies := s.replies ++ [.sensors r] })

/-- SET_POWER_CAP: a cap outside 1,600 to 3,200 W is not taken (R397, log 32). -/
def execSetPowerCap (dev watts : Nat) (s : State) : Host.Outcome State Fault Refusal :=
  managed dev s (fun s =>
    if 1600 ≤ watts && watts ≤ 3200 then { s with powerCap := watts, replies := s.replies ++ [.done] }
    else { s with replies := s.replies ++ [.refused cILLEGAL] })

/-- COUNTER_ADVANCE (03 R65): signed by the owner key, and to a greater value only. MODEL'S CHOICE (log 46): the request has no
format in the spec, and the verdict on its signature is an operand. -/
def execCounterAdvance (dev : Nat) (value : BitVec 32) (ownerSigned : Bool) (s : State) : Host.Outcome State Fault Refusal :=
  managed dev s (fun s =>
    if ownerSigned && decide (s.counter.toNat < value.toNat) then { s with counter := value, replies := s.replies ++ [.done] }
    else { s with replies := s.replies ++ [.refused cPROTECT] })

/-- INSTALL_PLATFORM_RECORD: one that chains to the root takes effect at the next reset (R398, 03 R64). -/
def execInstallPlatformRecord (dev : Nat) (p : Platform) (chain : Chain) (s : State) : Host.Outcome State Fault Refusal :=
  managed dev s (fun s =>
    if chained chain then { s with platNext := some p, replies := s.replies ++ [.done] } else { s with replies := s.replies ++ [.refused cPROTECT] })

end Sys2Proof.Machine
end

