-- ==== Sys2Proof/Machine/VectorMem.lean ====
section
/-!
DEFINITION. The V stream's memory accesses and atomics (11 R258 to R264), its flow (R266 to R268), and its queues and
barriers (R269 to R271).
-/
namespace Sys2Proof.Machine

/- Memory. -/

/-- The enabled words. -/
def vLanes (mask : VPred) : List Nat := (List.range 1024).filter (fun k => mask.getLsbD k)

/-- The next SQ entries, for the checks an instruction makes as it issues. -/
def sqPeek (s : State) (n i : Nat) : Word := (s.me.popVals 1 n).getD i 0

/-- What a V memory instruction asks for: its registers, `n` SQ entries, and places in its queues (R258, R259). -/
def vMemNeed (s : State) (tk : BitVec 3) (bound : Option (BitVec 5)) (regs : List (BitVec 6)) (n : Nat) (load store : Bool) : Need :=
  { vNeed s tk regs with bound := bound, holds := { kind := 0x2, obj := 1, await := n } :: queueHolds load store }

/-- A V access issues with `n` SQ entries popped, under its own cycle bound where it has one. With no word enabled nothing is
accessed (R244). -/
def vAccess (tk : BitVec 3) (n : Nat) (bound : Option (BitVec 5)) (kind : AccKind) (pieces : List Piece) (dst : Nat) (bad : Bool) (s : State) :
    State :=
  let c := s.me.popN 1 n
  let access (fs : List Nat) : Access :=
    let a := mkAccess c .v s.now kind pieces dst 0 fs
    { a with bad := bad, bound := match bound with | some e => e.toNat | none => a.bound }
  let fs := fifosPushed .v (c.tokenSet .v tk)
  if pieces.isEmpty then complete .v tk (s.setMe c)
  else if kind.loads then
    s.setMe ((enqueue c .v (access fs)).advancePc .v s.now 1)
  else
    let s := complete .v tk (s.setMe (enqueue c .v (access [])))
    if pieces.any (fun p => decide (qSpc p.qa = 3)) then launchWs s.cur s else s

/-- The words of VLD and VST: word k stands at B plus its row's stride and its column (R260). -/
def strideAddr (b : Word) (stride : Int) (k : Nat) : Word := qAdvance b ((k / 64 : Nat) * stride + 4 * (k % 64 : Nat))
/-- The words of the indexed forms (R261). -/
def indexAddr (b : Word) (vi : VReg) (k : Nat) : Word := qAdvance b (4 * (vElem 32 vi k : Nat))

/-- A load's words, and a store's with their data. -/
def loadPieces (addr : Nat → Word) (mask : VPred) : List Piece :=
  (vLanes mask).map (fun k => { lane := k, qa := addr k, n := 4, data := [] })
def storePieces (addr : Nat → Word) (mask : VPred) (data : VReg) : List Piece :=
  (vLanes mask).map (fun k => { lane := k, qa := addr k, n := 4, data := natLE 4 (vElem 32 data k) })

/-- The W stores of a VST: one for each 64-byte line that holds an enabled word, in ascending address (R260). -/
def wLines (addr : Nat → Word) (mask : VPred) (data : VReg) : List Piece :=
  let words := (vLanes mask).map (fun k => (qAddr (addr k), k))
  let lines := (words.map (fun x => x.1 / 64)).foldl (fun acc l => insWord l acc) []
  lines.map (fun l =>
    let mine := words.filter (fun x => decide (x.1 / 64 = l))
    let word (i : Nat) : Option Nat := (mine.reverse.find? (fun x => decide (x.1 % 64 / 4 = i))).map Prod.snd
    { lane := (mine.headD (0, 0)).2, qa := qAt (addr 0) (64 * l), n := 64
      data := (List.range 16).flatMap (fun i => natLE 4 (match word i with | some k => vElem 32 data k | none => 0))
      mask := BitVec.ofNat 16 ((List.range 16).foldl (fun m i => if (word i).isSome then m + 2 ^ i else m) 0) })

/-- A signed row stride. -/
def strideOf (x : Word) : Int := (x.extractLsb' 0 32).toInt

/-- The alignment that VLD and VST ask of their base and stride (R260). -/
def strideBad (b stride : Word) : Bool := decide (qByte b % 4 ≠ 0) || decide ((strideOf stride) % 4 ≠ 0)

/-- ILLEGAL at issue for an access that names one of the spaces (R260 to R264), where a word is enabled. -/
def vSpaceFault (s : State) (pg : BitVec 4) (q : Word) (spaces : List Nat) : Option FaultInfo :=
  vIllegal s (decide (s.me.vMask pg ≠ 0) && spaces.contains (qSpc q))

/-- The first enabled word. -/
def firstLane (mask : VPred) : Nat := ((List.range 1024).find? (fun k => mask.getLsbD k)).getD 0

/-- VLD (R260). -/
def execVld (vd : BitVec 6) (e : BitVec 5) (pg : BitVec 4) (tk : BitVec 3) (s : State) : Host.Outcome State Fault Refusal :=
  vIssue (vMemNeed s tk (some e) [vd] 2 true false) true (vSpaceFault s pg (sqPeek s 2 0) [3]) s (fun s =>
    let b := sqPeek s 2 0
    let st := sqPeek s 2 1
    let mask := s.me.vMask pg
    if mask ≠ 0 && st.extractLsb' 32 32 ≠ 0 then unitFault s.cur (s.me.faultHere .v cILLEGAL) (s.onMe (fun c => c.popN 1 2))
    else vAccess tk 2 (some e) .load (loadPieces (strideAddr b (strideOf st)) mask) (s.me.vPhys vd) (strideBad b st) s)

/-- VST (R260). The words of a malformed W address form no line: the first of them faults, logged as it was named (08 R167). -/
def execVst (va : BitVec 6) (e : BitVec 5) (pg : BitVec 4) (tk : BitVec 3) (s : State) : Host.Outcome State Fault Refusal :=
  let mask0 := s.me.vMask pg
  let q0 := strideAddr (sqPeek s 2 0) (strideOf (sqPeek s 2 1)) (firstLane mask0)
  vIssue (vMemNeed s tk (some e) [va] 2 false true) true (if mask0 = 0 then none else wStoreFault s .v q0 4) s (fun s =>
    let b := sqPeek s 2 0
    let st := sqPeek s 2 1
    let mask := s.me.vMask pg
    let bad := strideBad b st
    let addr := strideAddr b (strideOf st)
    if mask ≠ 0 && st.extractLsb' 32 32 ≠ 0 then unitFault s.cur (s.me.faultHere .v cILLEGAL) (s.onMe (fun c => c.popN 1 2))
    else vAccess tk 2 (some e) .store
      (if qSpc b = 3 && !bad && (formFault b).isNone then wLines addr mask (s.me.getV va) else storePieces addr mask (s.me.getV va)) 0 bad s)

/-- VLDX and VSTX (R261). -/
def execVldx (vd vi : BitVec 6) (e : BitVec 5) (pg : BitVec 4) (tk : BitVec 3) (s : State) : Host.Outcome State Fault Refusal :=
  vIssue (vMemNeed s tk (some e) [vd, vi] 1 true false) true (vSpaceFault s pg (sqPeek s 1 0) [3]) s (fun s =>
    vAccess tk 1 (some e) .load (loadPieces (indexAddr (sqPeek s 1 0) (s.me.getV vi)) (s.me.vMask pg)) (s.me.vPhys vd) false s)
def execVstx (va vi : BitVec 6) (e : BitVec 5) (pg : BitVec 4) (tk : BitVec 3) (s : State) : Host.Outcome State Fault Refusal :=
  vIssue (vMemNeed s tk (some e) [va, vi] 1 false true) true (vSpaceFault s pg (sqPeek s 1 0) [3]) s (fun s =>
    vAccess tk 1 (some e) .store (storePieces (indexAddr (sqPeek s 1 0) (s.me.getV vi)) (s.me.vMask pg) (s.me.getV va)) 0 false s)

/-- VSTC (R262): the register, disabled words zero, is packed when the store is performed. -/
def execVstc (va : BitVec 6) (e : BitVec 5) (pg : BitVec 4) (tk : BitVec 3) (s : State) : Host.Outcome State Fault Refusal :=
  let lOrN (q : Word) : Bool := qSpc q = 1 || qSpc q = 2
  vIssue (vMemNeed s tk (some e) [va] 2 false true) true
    (vIllegal s (decide (s.me.vMask pg ≠ 0) && !(lOrN (sqPeek s 2 0) && lOrN (sqPeek s 2 1)))) s (fun s =>
    let mask := s.me.vMask pg
    let a := s.me.getV va
    let data := (List.range 1024).flatMap (fun k => natLE 4 (if mask.getLsbD k then vElem 32 a k else 0))
    vAccess tk 2 (some e) .pack
      (if mask = 0 then [] else [{ lane := 0, qa := sqPeek s 2 0, n := 4096, data := data }, { lane := 0, qa := sqPeek s 2 1, n := 1, data := [] }])
      0 false s)

/-- VAMO (R263). -/
def execVamo (vb vi : BitVec 6) (aop pg : BitVec 4) (tk : BitVec 3) (s : State) : Host.Outcome State Fault Refusal :=
  vIssue (vMemNeed s tk none [vb, vi] 1 true true) true (vSpaceFault s pg (sqPeek s 1 0) [3]) s (fun s =>
    vAccess tk 1 none (.amo aop.toNat) (storePieces (indexAddr (sqPeek s 1 0) (s.me.getV vi)) (s.me.vMask pg) (s.me.getV vb))
      (s.me.vPhys vb) false s)

/-- VDRED (R264). -/
def execVdred (vb vi : BitVec 6) (aop pg : BitVec 4) (tk : BitVec 3) (s : State) : Host.Outcome State Fault Refusal :=
  vIssue (vMemNeed s tk none [vb, vi] 1 false true) true (vSpaceFault s pg (sqPeek s 1 0) [1, 2, 3, 5, 6, 7]) s (fun s =>
    vAccess tk 1 none (.dred aop.toNat) (storePieces (indexAddr (sqPeek s 1 0) (s.me.getV vi)) (s.me.vMask pg) (s.me.getV vb)) 0 false s)

/- Flow. -/

/-- The refusal of transfers inside a kernel (R266). -/
def inKernel (s : State) : Option FaultInfo := vIllegal s s.me.vloop.isSome

/-- VLOOP (R266): `st` + 1 stages, `len` words. Its checks come after its pop. MODEL'S CHOICE (log 66): with a trip count of 0 the
block behind the kernel is reached as where a stream runs on, and not by a transfer of 4 cycles. -/
def execVloop (st : BitVec 3) (len : BitVec 9) (e : BitVec 5) (tk : BitVec 3) (s : State) : Host.Outcome State Fault Refusal :=
  lineAhead .v (if s.me.pcOf .v + 8 + 4 * len.toNat ≤ (s.me.text .v).2 then some (s.me.pcOf .v + 4 + 4 * len.toNat) else none) s fun s =>
  vIssue { vNeed s tk [] with bound := some e, holds := [{ kind := 0x2, obj := 1, await := 1 }] } true (inKernel s) s (fun s =>
    let g := s.cur
    let trips := (sqPeek s 1 0).toNat % 2 ^ 32
    let s := s.onMe (fun c => c.popN 1 1)
    let lo := s.me.pcOf .v + 4
    let hi := lo + 4 * len.toNat
    let bad (s : State) : State := unitFault g (s.me.faultHere .v cILLEGAL) s
    if (s.me.text .v).2 < hi + 4 then bad s
    else match fillLine g .v hi s with
      | (.error x, s) => fetchFails g .v x s
      | (.ok _, s) =>
        if !isSig ((s.me.stream .v).word hi) then bad s
        else
          let s := complete .v tk s
          if trips = 0 then
            s.onMe (fun c => stagePreds 0 0 0 (c.setStream .v { c.stream .v with pc := hi }))
          else s.onMe (fun c => stagePreds (st.toNat + 1) trips 0
            { c with vloop := some { lo := lo, hi := hi, trips := trips, stages := st.toNat + 1, pass := 0 } }))

/-- The rows of a predicate whose condition holds (06 R129). -/
def rowsOf (p : VPred) : BitVec 16 :=
  BitVec.ofNat 16 ((List.range 16).foldl (fun m r => if p.extractLsb' (64 * r) 64 = 0 then m else m + 2 ^ r) 0)

/-- VFORK (06 R129): the rows whose condition is true go to the target, the others on. -/
def execVfork (pa : BitVec 4) (jk : BitVec 3) (off : BitVec 16) (s : State) : Host.Outcome State Fault Refusal :=
  let flt := vIllegal s (s.me.vloop.isSome || s.me.forks.any (fun f => decide (f.jk = jk.toNat)))
  vIssue (vNeed s 0 []) false flt s (fun s =>
    let pc := s.me.pcOf .v
    let yes := rowsOf (s.me.getVp pa) &&& s.me.rows
    let no := s.me.rows &&& ~~~yes
    let s := complete .v 0 (s.onMe (fun c => { c with forks := c.forks ++ [{ jk := jk.toNat, rows := c.rows }] }))
    s.onMe (fun c =>
      if yes = 0 then c
      else
        let on := { c with rows := no }.thisGroup none
        let c := { c with rows := yes }.goto .v s.now (branchTarget pc off)
        if no = 0 then c else { c with groups := on :: c.groups }))

/-- VJOIN (06 R129): the rows the fork split form one group again once they have all arrived; until then the group
waits. Groups that arrive at different offsets fault. -/
def execVjoin (jk : BitVec 3) (e : BitVec 5) (s : State) : Host.Outcome State Fault Refusal :=
  let c := s.me
  let k := jk.toNat
  match c.forks.find? (fun f => f.jk = k) with
  | none => .next (unitFault s.cur (c.faultHere .v cILLEGAL) s)
  | some f =>
    if c.vloop.isSome then .next (unitFault s.cur (c.faultHere .v cILLEGAL) s)
    else
      let pc := c.pcOf .v
      let there := c.groups.filter (fun x => match x.atJoin with
        | some (j, _) => decide (j = k) && decide (x.rows &&& ~~~f.rows = 0)
        | none => false)
      let rows := there.foldl (fun r x => r ||| x.rows) c.rows
      if rows = f.rows then
        if there.any (fun x => match x.atJoin with | some (_, o) => decide (o ≠ pc) | none => false) then
          .next (unitFault s.cur (c.faultHere .v cILLEGAL) s)
        else
          let c := { c with rows := rows, groups := c.groups.filter (fun x => !there.contains x),
                            forks := c.forks.filter (fun x => decide (x.jk ≠ k)) }
          let c := { c with cyc := { c.cyc with issued := c.cyc.issued ||| 2 } }
          let c := (c.setStream .v { c.stream .v with wait := none, dbnd := none }).goto .v s.now (pc + 4)
          .next (s.setMe c.rotate)
      else
        let s := startWait s { eng := .v, tk := 0, bound := some e, holds := [{ kind := 0x9, obj := k, await := 0 }] }
        .next (s.onMe (fun c => c.parkGroup k))

/-- A V branch (R268): taken where `cond` holds. -/
def vBranch (nd : Need) (lone : Bool) (cond : Core → Bool) (upd : Core → Core) (target : Core → Nat) (s : State) :
    Host.Outcome State Fault Refusal :=
  vIssue nd lone (inKernel s) s (fun s =>
    let taken := cond s.me
    let t := target s.me
    let s := complete .v nd.tk (s.onMe upd)
    if taken then s.onMe (fun c => c.goto .v s.now t) else s)

def execVbrq (off : BitVec 17) (e : BitVec 5) (tk : BitVec 3) (s : State) : Host.Outcome State Fault Refusal :=
  vBranch { vNeed s tk [] with bound := some e, holds := [{ kind := 0x2, obj := 4, await := 1 }] } true
    (fun c => decide ((c.popVals 4 1).headD 0 ≠ 0)) (fun c => c.popN 4 1) (fun c => branchTarget (c.pcOf .v) off) s
def execVbr (off : BitVec 18) (pg : BitVec 4) (tk : BitVec 3) (s : State) : Host.Outcome State Fault Refusal :=
  vBranch (vNeed s tk []) false (fun c => decide (c.vMask pg ≠ 0)) id (fun c => branchTarget (c.pcOf .v) off) s

def execVnop (_pg : BitVec 4) (tk : BitVec 3) (s : State) : Host.Outcome State Fault Refusal :=
  vIssue (vNeed s tk []) false none s (complete .v tk)

/-- VEND (R268): it issues, and completes when every earlier V instruction has completed and both V queues are empty. -/
def execVend (pg : BitVec 4) (tk : BitVec 3) (s : State) : Host.Outcome State Fault Refusal :=
  vIssue (vNeed s tk []) true (inKernel s) s (fun s => if s.me.vMask pg ≠ 0 then issueEnd .v tk s else complete .v tk s)

/- Queues and barriers. -/

/-- VQPUSH (R269): bytes 0 to 7 of va, or zero where nothing is enabled. -/
def execVqpush (va : BitVec 6) (e : BitVec 5) (pg : BitVec 4) (tk : BitVec 3) (s : State) : Host.Outcome State Fault Refusal :=
  vIssue { vNeed s tk [va] with bound := some e, holds := [{ kind := 0x3, obj := 2, await := 0 }] } true none s (fun s =>
    complete .v tk (s.onMe (fun c =>
      c.push s.now 2 (if c.vMask pg = 0 then 0 else (c.getV va).extractLsb' 0 64) c.sOrd (c.pcOf .v))))

/-- VARR (R270). -/
def execVarr (b obs : BitVec 6) (dam : BitVec 1) (pg : BitVec 4) (tk : BitVec 3) (s : State) : Host.Outcome State Fault Refusal :=
  let on := decide (s.me.vMask pg ≠ 0)
  vIssue { vNeed s tk [] with events := if on then [arriveHold s.me b.toNat] else [], busy := on && s.me.laterArrived .v b.toNat } false
    (if on then arriveFault s.me .v b.toNat else none) s (fun s =>
      if on then arriveIssue .v tk b.toNat obs (decide (dam = 1)) s else complete .v tk s)

/-- VWTP (R271). -/
def execVwtp (pd : BitVec 4) (b : BitVec 6) (e : BitVec 5) (tk : BitVec 3) (s : State) : Host.Outcome State Fault Refusal :=
  vIssue { vNeed s tk [] with bound := some e, events := [waitHold s.me .v b.toNat] } false
    (vIllegal s (bMode (s.me.barrier b.toNat) = 0)) s (fun s =>
      complete .v tk (s.onMe (fun c =>
        let (c, whole) := consumePhase c .v b.toNat
        let rows := rowsMask c.rows
        if whole then c.setVp pd rows (BitVec.allOnes 1024) else (c.setVp pd rows 0).setCause cBARRIER)))

end Sys2Proof.Machine
end

