-- ==== Sys2Proof/Machine/Dispatch.lean ====
section
/-!
DEFINITION. The meaning of every instruction and event: one arm for each constructor of Instr.
-/
namespace Sys2Proof.Machine

def exec (i : Instr) (s : State) : Host.Outcome State Fault Refusal :=
  match i with
  | .add sd sa sb pg tk => Sys2Proof.Machine.execAdd sd sa sb pg tk s
  | .sub sd sa sb pg tk => Sys2Proof.Machine.execSub sd sa sb pg tk s
  | .mul sd sa sb pg tk => Sys2Proof.Machine.execMul sd sa sb pg tk s
  | .mulh sd sa sb pg tk => Sys2Proof.Machine.execMulh sd sa sb pg tk s
  | .mulhn sd sa sb pg tk => Sys2Proof.Machine.execMulhn sd sa sb pg tk s
  | .divs sd sa sb pg tk => Sys2Proof.Machine.execDivs sd sa sb pg tk s
  | .divn sd sa sb pg tk => Sys2Proof.Machine.execDivn sd sa sb pg tk s
  | .rems sd sa sb pg tk => Sys2Proof.Machine.execRems sd sa sb pg tk s
  | .remn sd sa sb pg tk => Sys2Proof.Machine.execRemn sd sa sb pg tk s
  | .and sd sa sb pg tk => Sys2Proof.Machine.execAnd sd sa sb pg tk s
  | .or sd sa sb pg tk => Sys2Proof.Machine.execOr sd sa sb pg tk s
  | .xor sd sa sb pg tk => Sys2Proof.Machine.execXor sd sa sb pg tk s
  | .andn sd sa sb pg tk => Sys2Proof.Machine.execAndn sd sa sb pg tk s
  | .shl sd sa sb pg tk => Sys2Proof.Machine.execShl sd sa sb pg tk s
  | .shrl sd sa sb pg tk => Sys2Proof.Machine.execShrl sd sa sb pg tk s
  | .shra sd sa sb pg tk => Sys2Proof.Machine.execShra sd sa sb pg tk s
  | .rotl sd sa sb pg tk => Sys2Proof.Machine.execRotl sd sa sb pg tk s
  | .min sd sa sb pg tk => Sys2Proof.Machine.execMin sd sa sb pg tk s
  | .max sd sa sb pg tk => Sys2Proof.Machine.execMax sd sa sb pg tk s
  | .minn sd sa sb pg tk => Sys2Proof.Machine.execMinn sd sa sb pg tk s
  | .maxn sd sa sb pg tk => Sys2Proof.Machine.execMaxn sd sa sb pg tk s
  | .clz sd sa pg tk => Sys2Proof.Machine.execClz sd sa pg tk s
  | .popc sd sa pg tk => Sys2Proof.Machine.execPopc sd sa pg tk s
  | .sext sd sa n pg tk => Sys2Proof.Machine.execSext sd sa n pg tk s
  | .zext sd sa n pg tk => Sys2Proof.Machine.execZext sd sa n pg tk s
  | .addi sd sa imm tk => Sys2Proof.Machine.execAddi sd sa imm tk s
  | .andi sd sa imm tk => Sys2Proof.Machine.execAndi sd sa imm tk s
  | .ori sd sa imm tk => Sys2Proof.Machine.execOri sd sa imm tk s
  | .xori sd sa imm tk => Sys2Proof.Machine.execXori sd sa imm tk s
  | .shli sd sa imm tk => Sys2Proof.Machine.execShli sd sa imm tk s
  | .shrli sd sa imm tk => Sys2Proof.Machine.execShrli sd sa imm tk s
  | .shrai sd sa imm tk => Sys2Proof.Machine.execShrai sd sa imm tk s
  | .ldi sd imm tk => Sys2Proof.Machine.execLdi sd imm tk s
  | .ldhi sd imm tk => Sys2Proof.Machine.execLdhi sd imm tk s
  | .lea sd sa imm tk => Sys2Proof.Machine.execLea sd sa imm tk s
  | .plc sd sa dx dy dd tk => Sys2Proof.Machine.execPlc sd sa dx dy dd tk s
  | .cmpeq pd sa sb pg tk => Sys2Proof.Machine.execCmpeq pd sa sb pg tk s
  | .cmpne pd sa sb pg tk => Sys2Proof.Machine.execCmpne pd sa sb pg tk s
  | .cmplt pd sa sb pg tk => Sys2Proof.Machine.execCmplt pd sa sb pg tk s
  | .cmple pd sa sb pg tk => Sys2Proof.Machine.execCmple pd sa sb pg tk s
  | .cmpltn pd sa sb pg tk => Sys2Proof.Machine.execCmpltn pd sa sb pg tk s
  | .cmplen pd sa sb pg tk => Sys2Proof.Machine.execCmplen pd sa sb pg tk s
  | .cmpeqi pd sa imm tk => Sys2Proof.Machine.execCmpeqi pd sa imm tk s
  | .cmpnei pd sa imm tk => Sys2Proof.Machine.execCmpnei pd sa imm tk s
  | .cmplti pd sa imm tk => Sys2Proof.Machine.execCmplti pd sa imm tk s
  | .cmplei pd sa imm tk => Sys2Proof.Machine.execCmplei pd sa imm tk s
  | .cmpltni pd sa imm tk => Sys2Proof.Machine.execCmpltni pd sa imm tk s
  | .cmpleni pd sa imm tk => Sys2Proof.Machine.execCmpleni pd sa imm tk s
  | .pand pd pa pb pg tk => Sys2Proof.Machine.execPand pd pa pb pg tk s
  | .por pd pa pb pg tk => Sys2Proof.Machine.execPor pd pa pb pg tk s
  | .pxor pd pa pb pg tk => Sys2Proof.Machine.execPxor pd pa pb pg tk s
  | .pnot pd pa pg tk => Sys2Proof.Machine.execPnot pd pa pg tk s
  | .pmov pd pa pg tk => Sys2Proof.Machine.execPmov pd pa pg tk s
  | .pset pd val pg tk => Sys2Proof.Machine.execPset pd val pg tk s
  | .sel sd sa sb ps tk => Sys2Proof.Machine.execSel sd sa sb ps tk s
  | .ld sd sa w tk => Sys2Proof.Machine.execLd sd sa w tk s
  | .st ss sa w tk => Sys2Proof.Machine.execSt ss sa w tk s
  | .ldacq sd sa obs w tk => Sys2Proof.Machine.execLdacq sd sa obs w tk s
  | .strel ss sa obs w tk => Sys2Proof.Machine.execStrel ss sa obs w tk s
  | .mark pg tk => Sys2Proof.Machine.execMark pg tk s
  | .fence obs tk => Sys2Proof.Machine.execFence obs tk s
  | .spl sd off tk => Sys2Proof.Machine.execSpl sd off tk s
  | .spr ss off tk => Sys2Proof.Machine.execSpr ss off tk s
  | .amo sd sa obs aop tk => Sys2Proof.Machine.execAmo sd sa obs aop tk s
  | .cas sd sa obs tk => Sys2Proof.Machine.execCas sd sa obs tk s
  | .dred ss sa aop tk => Sys2Proof.Machine.execDred ss sa aop tk s
  | .tlk sd sa tk => Sys2Proof.Machine.execTlk sd sa tk s
  | .tins sa sb way tk => Sys2Proof.Machine.execTins sa sb way tk s
  | .tinv sa way tk => Sys2Proof.Machine.execTinv sa way tk s
  | .trd sd sa way tk => Sys2Proof.Machine.execTrd sd sa way tk s
  | .qpush sa q e tk => Sys2Proof.Machine.execQpush sa q e tk s
  | .qpop sd q e tk => Sys2Proof.Machine.execQpop sd q e tk s
  | .bop pa q e tk => Sys2Proof.Machine.execBop pa q e tk s
  | .rsr sd sr tk => Sys2Proof.Machine.execRsr sd sr tk s
  | .wsr ss sr tk => Sys2Proof.Machine.execWsr ss sr tk s
  | .br off pg tk => Sys2Proof.Machine.execBr off pg tk s
  | .bc off pc tk => Sys2Proof.Machine.execBc off pc tk s
  | .brl sd off tk => Sys2Proof.Machine.execBrl sd off tk s
  | .jr sa pg tk => Sys2Proof.Machine.execJr sa pg tk s
  | .loop sa off tk => Sys2Proof.Machine.execLoop sa off tk s
  | .arr b obs dam pg tk => Sys2Proof.Machine.execArr b obs dam pg tk s
  | .wtp pd b e tk => Sys2Proof.Machine.execWtp pd b e tk s
  | .binit b sa tk => Sys2Proof.Machine.execBinit b sa tk s
  | .bexp b sa tk => Sys2Proof.Machine.execBexp b sa tk s
  | .wfe e tk => Sys2Proof.Machine.execWfe e tk s
  | .sev sa tk => Sys2Proof.Machine.execSev sa tk s
  | .ofopen sd tk => Sys2Proof.Machine.execOfopen sd tk s
  | .ofdecl sh sa sc rw tk => Sys2Proof.Machine.execOfdecl sh sa sc rw tk s
  | .ofsub sh tk => Sys2Proof.Machine.execOfsub sh tk s
  | .ofwait pd sh e tk => Sys2Proof.Machine.execOfwait pd sh e tk s
  | .ofend sh tk => Sys2Proof.Machine.execOfend sh tk s
  | .trap code tk => Sys2Proof.Machine.execTrap code tk s
  | .sysc code tk => Sys2Proof.Machine.execSysc code tk s
  | .uiret pg tk => Sys2Proof.Machine.execUiret pg tk s
  | .nop pg tk => Sys2Proof.Machine.execNop pg tk s
  | .endS pg tk => Sys2Proof.Machine.execEndS pg tk s
  | .vadd vd va vb pg tk => Sys2Proof.Machine.execVadd vd va vb pg tk s
  | .vsub vd va vb pg tk => Sys2Proof.Machine.execVsub vd va vb pg tk s
  | .vmul vd va vb pg tk => Sys2Proof.Machine.execVmul vd va vb pg tk s
  | .vfma vd va vb pg tk => Sys2Proof.Machine.execVfma vd va vb pg tk s
  | .vfms vd va vb pg tk => Sys2Proof.Machine.execVfms vd va vb pg tk s
  | .vfnma vd va vb pg tk => Sys2Proof.Machine.execVfnma vd va vb pg tk s
  | .vmin vd va vb pg tk => Sys2Proof.Machine.execVmin vd va vb pg tk s
  | .vmax vd va vb pg tk => Sys2Proof.Machine.execVmax vd va vb pg tk s
  | .vabs vd va pg tk => Sys2Proof.Machine.execVabs vd va pg tk s
  | .vneg vd va pg tk => Sys2Proof.Machine.execVneg vd va pg tk s
  | .vrcp vd va pg tk => Sys2Proof.Machine.execVrcp vd va pg tk s
  | .vrsq vd va pg tk => Sys2Proof.Machine.execVrsq vd va pg tk s
  | .vsqrt vd va pg tk => Sys2Proof.Machine.execVsqrt vd va pg tk s
  | .vexp2 vd va pg tk => Sys2Proof.Machine.execVexp2 vd va pg tk s
  | .vlog2 vd va pg tk => Sys2Proof.Machine.execVlog2 vd va pg tk s
  | .vcvt vd va cf ct pg tk => Sys2Proof.Machine.execVcvt vd va cf ct pg tk s
  | .vdot vd va vb pg tk => Sys2Proof.Machine.execVdot vd va vb pg tk s
  | .viadd vd va vb pg tk => Sys2Proof.Machine.execViadd vd va vb pg tk s
  | .visub vd va vb pg tk => Sys2Proof.Machine.execVisub vd va vb pg tk s
  | .vimul vd va vb pg tk => Sys2Proof.Machine.execVimul vd va vb pg tk s
  | .vimulh vd va vb pg tk => Sys2Proof.Machine.execVimulh vd va vb pg tk s
  | .vand vd va vb pg tk => Sys2Proof.Machine.execVand vd va vb pg tk s
  | .vor vd va vb pg tk => Sys2Proof.Machine.execVor vd va vb pg tk s
  | .vxor vd va vb pg tk => Sys2Proof.Machine.execVxor vd va vb pg tk s
  | .vshl vd va vb pg tk => Sys2Proof.Machine.execVshl vd va vb pg tk s
  | .vshrl vd va vb pg tk => Sys2Proof.Machine.execVshrl vd va vb pg tk s
  | .vshra vd va vb pg tk => Sys2Proof.Machine.execVshra vd va vb pg tk s
  | .vpopc vd va pg tk => Sys2Proof.Machine.execVpopc vd va pg tk s
  | .vclz vd va pg tk => Sys2Proof.Machine.execVclz vd va pg tk s
  | .vimin vd va vb pg tk => Sys2Proof.Machine.execVimin vd va vb pg tk s
  | .vimax vd va vb pg tk => Sys2Proof.Machine.execVimax vd va vb pg tk s
  | .vceq pd va vb pg tk => Sys2Proof.Machine.execVceq pd va vb pg tk s
  | .vclt pd va vb pg tk => Sys2Proof.Machine.execVclt pd va vb pg tk s
  | .vcle pd va vb pg tk => Sys2Proof.Machine.execVcle pd va vb pg tk s
  | .vfceq pd va vb pg tk => Sys2Proof.Machine.execVfceq pd va vb pg tk s
  | .vfclt pd va vb pg tk => Sys2Proof.Machine.execVfclt pd va vb pg tk s
  | .vfcle pd va vb pg tk => Sys2Proof.Machine.execVfcle pd va vb pg tk s
  | .vsel vd va vb ps tk => Sys2Proof.Machine.execVsel vd va vb ps tk s
  | .vpand pd pa pb pg tk => Sys2Proof.Machine.execVpand pd pa pb pg tk s
  | .vpor pd pa pb pg tk => Sys2Proof.Machine.execVpor pd pa pb pg tk s
  | .vpnot pd pa pg tk => Sys2Proof.Machine.execVpnot pd pa pg tk s
  | .vmov vd va pg tk => Sys2Proof.Machine.execVmov vd va pg tk s
  | .viota vd pg tk => Sys2Proof.Machine.execViota vd pg tk s
  | .vbcs vd e pg tk => Sys2Proof.Machine.execVbcs vd e pg tk s
  | .vrotr vd va n pg tk => Sys2Proof.Machine.execVrotr vd va n pg tk s
  | .vbcr vd va n pg tk => Sys2Proof.Machine.execVbcr vd va n pg tk s
  | .vredr vd va rop pg tk => Sys2Proof.Machine.execVredr vd va rop pg tk s
  | .vrotc vd va n pg tk => Sys2Proof.Machine.execVrotc vd va n pg tk s
  | .vbcc vd va n pg tk => Sys2Proof.Machine.execVbcc vd va n pg tk s
  | .vredc vd va rop pg tk => Sys2Proof.Machine.execVredc vd va rop pg tk s
  | .vld vd e pg tk => Sys2Proof.Machine.execVld vd e pg tk s
  | .vst va e pg tk => Sys2Proof.Machine.execVst va e pg tk s
  | .vldx vd vi e pg tk => Sys2Proof.Machine.execVldx vd vi e pg tk s
  | .vstx va vi e pg tk => Sys2Proof.Machine.execVstx va vi e pg tk s
  | .vstc va e pg tk => Sys2Proof.Machine.execVstc va e pg tk s
  | .vamo vb vi aop pg tk => Sys2Proof.Machine.execVamo vb vi aop pg tk s
  | .vdred vb vi aop pg tk => Sys2Proof.Machine.execVdred vb vi aop pg tk s
  | .vsetf rm ew tk => Sys2Proof.Machine.execVsetf rm ew tk s
  | .vloop st len e tk => Sys2Proof.Machine.execVloop st len e tk s
  | .vfork pa jk off => Sys2Proof.Machine.execVfork pa jk off s
  | .vjoin jk e => Sys2Proof.Machine.execVjoin jk e s
  | .vbrq off e tk => Sys2Proof.Machine.execVbrq off e tk s
  | .vbr off pg tk => Sys2Proof.Machine.execVbr off pg tk s
  | .vqpush va e pg tk => Sys2Proof.Machine.execVqpush va e pg tk s
  | .vwtp pd b e tk => Sys2Proof.Machine.execVwtp pd b e tk s
  | .varr b obs dam pg tk => Sys2Proof.Machine.execVarr b obs dam pg tk s
  | .vspl vd slot tk => Sys2Proof.Machine.execVspl vd slot tk s
  | .vspr va slot tk => Sys2Proof.Machine.execVspr va slot tk s
  | .vnop pg tk => Sys2Proof.Machine.execVnop pg tk s
  | .vend pg tk => Sys2Proof.Machine.execVend pg tk s
  | .mlnt h lv rstr ext astr => Sys2Proof.Machine.execMlnt h lv rstr ext astr s
  | .mtyp ty idx tk => Sys2Proof.Machine.execMtyp ty idx tk s
  | .mprof prof tk => Sys2Proof.Machine.execMprof prof tk s
  | .mldb h grp p => Sys2Proof.Machine.execMldb h grp p s
  | .msel h grp inv => Sys2Proof.Machine.execMsel h grp inv s
  | .mgo h acc kind p => Sys2Proof.Machine.execMgo h acc kind p s
  | .morb h wr line => Sys2Proof.Machine.execMorb h wr line s
  | .mzero h acc kind clamp p => Sys2Proof.Machine.execMzero h acc kind clamp p s
  | .mlda h acc kind clamp p => Sys2Proof.Machine.execMlda h acc kind clamp p s
  | .msta h acc kind clamp p => Sys2Proof.Machine.execMsta h acc kind clamp p s
  | .mdrain h acc kind clamp p => Sys2Proof.Machine.execMdrain h acc kind clamp p s
  | .mwait seq e tk => Sys2Proof.Machine.execMwait seq e tk s
  | .mwtp b e tk => Sys2Proof.Machine.execMwtp b e tk s
  | .marrb h b obs dam => Sys2Proof.Machine.execMarrb h b obs dam s
  | .msolvCg h tolx line dline => Sys2Proof.Machine.execMsolvCg h tolx line dline s
  | .msolvLdlt h resumed tolx line dline => Sys2Proof.Machine.execMsolvLdlt h resumed tolx line dline s
  | .msupd h cnt line => Sys2Proof.Machine.execMsupd h cnt line s
  | .msres h off cnt => Sys2Proof.Machine.execMsres h off cnt s
  | .mbrq off e tk => Sys2Proof.Machine.execMbrq off e tk s
  | .mbr off tk => Sys2Proof.Machine.execMbr off tk s
  | .mnop tk => Sys2Proof.Machine.execMnop tk s
  | .mend tk => Sys2Proof.Machine.execMend tk s
  | .kcpy h am so dims len0 n1 n2 => Sys2Proof.Machine.execKcpy h am so dims len0 n1 n2 s
  | .kgth h am so esz ixw cnt => Sys2Proof.Machine.execKgth h am so esz ixw cnt s
  | .ksct h am so esz ixw cnt => Sys2Proof.Machine.execKsct h am so esz ixw cnt s
  | .kmc h am so len => Sys2Proof.Machine.execKmc h am so len s
  | .kqnt h am so sfmt efmt nblk => Sys2Proof.Machine.execKqnt h am so sfmt efmt nblk s
  | .kexp h => Sys2Proof.Machine.execKexp h s
  | .kxfTranspose h am so fp sc cnt => Sys2Proof.Machine.execKxfTranspose h am so fp sc cnt s
  | .kxfOrbitPack h am so fp sc cnt => Sys2Proof.Machine.execKxfOrbitPack h am so fp sc cnt s
  | .kxfOrbitUnpack h am so fp sc cnt => Sys2Proof.Machine.execKxfOrbitUnpack h am so fp sc cnt s
  | .kxfRequantise h am so fp sc cnt => Sys2Proof.Machine.execKxfRequantise h am so fp sc cnt s
  | .kxfZeroFill h am so fp sc cnt => Sys2Proof.Machine.execKxfZeroFill h am so fp sc cnt s
  | .kred h am so rop cnt => Sys2Proof.Machine.execKred h am so rop cnt s
  | .kexpt h => Sys2Proof.Machine.execKexpt h s
  | .kbind b e tk => Sys2Proof.Machine.execKbind b e tk s
  | .kmark tk => Sys2Proof.Machine.execKmark tk s
  | .kwtp b e tk => Sys2Proof.Machine.execKwtp b e tk s
  | .kbrq off e tk => Sys2Proof.Machine.execKbrq off e tk s
  | .kbr off tk => Sys2Proof.Machine.execKbr off tk s
  | .knop tk => Sys2Proof.Machine.execKnop tk s
  | .kend tk => Sys2Proof.Machine.execKend tk s
  | .blockSignatureCheck e len crc => Sys2Proof.Machine.execBlockSignatureCheck e len crc s
  | .illegalWord e => Sys2Proof.Machine.execIllegalWord e s
  | .commandStart g e => Sys2Proof.Machine.execCommandStart g e s
  | .lineResponse g n => Sys2Proof.Machine.execLineResponse g n s
  | .kCommandCompletion g n => Sys2Proof.Machine.execKCommandCompletion g n s
  | .mCommandCompletion g n => Sys2Proof.Machine.execMCommandCompletion g n s
  | .memoryResponse g e store => Sys2Proof.Machine.execMemoryResponse g e store s
  | .wStoreLanding => Sys2Proof.Machine.execWStoreLanding s
  | .translationWalk g va => Sys2Proof.Machine.execTranslationWalk g va s
  | .storeQueuePriority g e => Sys2Proof.Machine.execStoreQueuePriority g e s
  | .checkerCompare g obj agree => Sys2Proof.Machine.execCheckerCompare g obj agree s
  | .boundOverrun g e cmd => Sys2Proof.Machine.execBoundOverrun g e cmd s
  | .boundTrapEntry g => Sys2Proof.Machine.execBoundTrapEntry g s
  | .userInterruptEntry g => Sys2Proof.Machine.execUserInterruptEntry g s
  | .syscAnswer g => Sys2Proof.Machine.execSyscAnswer g s
  | .zenithArrival g a => Sys2Proof.Machine.execZenithArrival g a s
  | .domainRelease g b => Sys2Proof.Machine.execDomainRelease g b s
  | .updateAcceptance => Sys2Proof.Machine.execUpdateAcceptance s
  | .closeTag c => Sys2Proof.Machine.execCloseTag c s
  | .reducePacket => Sys2Proof.Machine.execReducePacket s
  | .ofsubAcceptance g slot => Sys2Proof.Machine.execOfsubAcceptance g slot s
  | .beatEnd die => Sys2Proof.Machine.execBeatEnd die s
  | .batchArrival dst src => Sys2Proof.Machine.execBatchArrival dst src s
  | .grantQueueTake die => Sys2Proof.Machine.execGrantQueueTake die s
  | .grantArrival n => Sys2Proof.Machine.execGrantArrival n s
  | .packetReceive p => Sys2Proof.Machine.execPacketReceive p s
  | .responseReceive r => Sys2Proof.Machine.execResponseReceive r s
  | .retryBufferRoom die => Sys2Proof.Machine.execRetryBufferRoom die s
  | .linkDown die dev path => Sys2Proof.Machine.execLinkDown die dev path s
  | .linkSilenceTimeout die dev path => Sys2Proof.Machine.execLinkSilenceTimeout die dev path s
  | .switchReport die dev path => Sys2Proof.Machine.execSwitchReport die dev path s
  | .responseTimeout die dev cls => Sys2Proof.Machine.execResponseTimeout die dev cls s
  | .pathUpResync die dev path => Sys2Proof.Machine.execPathUpResync die dev path s
  | .stagingWordWrite g k v => Sys2Proof.Machine.execStagingWordWrite g k v s
  | .collectiveGo g v => Sys2Proof.Machine.execCollectiveGo g v s
  | .collectiveStatusPop g => Sys2Proof.Machine.execCollectiveStatusPop g s
  | .chunkComplete die remote order => Sys2Proof.Machine.execChunkComplete die remote order s
  | .collectiveFailure die rank l => Sys2Proof.Machine.execCollectiveFailure die rank l s
  | .kickScan => Sys2Proof.Machine.execKickScan s
  | .headLinkWaitEnd q => Sys2Proof.Machine.execHeadLinkWaitEnd q s
  | .objectLoad q place => Sys2Proof.Machine.execObjectLoad q place s
  | .objectUnload q => Sys2Proof.Machine.execObjectUnload q s
  | .unloadTakesEffect handle => Sys2Proof.Machine.execUnloadTakesEffect handle s
  | .unitHandOut g => Sys2Proof.Machine.execUnitHandOut g s
  | .unitStart g => Sys2Proof.Machine.execUnitStart g s
  | .tagChangeZeroing g => Sys2Proof.Machine.execTagChangeZeroing g s
  | .preEmption q => Sys2Proof.Machine.execPreEmption q s
  | .halt g => Sys2Proof.Machine.execHalt g s
  | .contextSave g => Sys2Proof.Machine.execContextSave g s
  | .budgetExhausted q => Sys2Proof.Machine.execBudgetExhausted q s
  | .solverDeadline g => Sys2Proof.Machine.execSolverDeadline g s
  | .endReport g => Sys2Proof.Machine.execEndReport g s
  | .completionPosting q => Sys2Proof.Machine.execCompletionPosting q s
  | .purgeComplete p => Sys2Proof.Machine.execPurgeComplete p s
  | .dieFence c => Sys2Proof.Machine.execDieFence c s
  | .dispatcherTakeOver => Sys2Proof.Machine.execDispatcherTakeOver s
  | .errorBankClear a => Sys2Proof.Machine.execErrorBankClear a s
  | .moduleReset p => Sys2Proof.Machine.execModuleReset p s
  | .throttle up => Sys2Proof.Machine.execThrottle up s
  | .thermalTrip => Sys2Proof.Machine.execThermalTrip s
  | .readSensors dev r => Sys2Proof.Machine.execReadSensors dev r s
  | .setPowerCap dev watts => Sys2Proof.Machine.execSetPowerCap dev watts s
  | .counterAdvance dev value ownerSigned => Sys2Proof.Machine.execCounterAdvance dev value ownerSigned s
  | .installPlatformRecord dev p chains => Sys2Proof.Machine.execInstallPlatformRecord dev p chains s
  | .flitCrcRetry die dev t => Sys2Proof.Machine.execFlitCrcRetry die dev t s

end Sys2Proof.Machine
end

