-- ==== Sys2Proof/Machine/Time.lean ====
section
/-!
DEFINITION. The passing of time: what is due lands, waits overrun, releases reach their last members, OFSUBs are accepted, and stores that
have stood too long are performed, solves reach their deadlines (06 R123, R126, 07 R138, 12 R305, 15 R327, 15 R332, 21 R388).
-/
namespace Sys2Proof.Machine

/-- Whatever waits at a core for its stream's accesses, and may go on, does. -/
def settleAll (s : State) : State := (s.cores.filter (fun x => !x.2.pend.isEmpty)).foldl (fun s x => settle x.1 s) s

/-- A new cycle begins at every core: what was done in the one before no longer counts, and what waited for its order within
the cycle goes on. -/
def newCycle (s : State) : State :=
  let old := (s.cores.filter (fun x => decide (x.2.cyc ≠ Cycle.reset))).map Prod.fst
  settleAll (old.foldl (fun s g =>
    let c := s.core g
    s.setCore g { c with cyc := Cycle.reset, walkFault := c.walkFault.filter (fun x => !c.cyc.walked.contains x.1) })
    { s with accepted := [], ucNow := [] })

/-- The access at the head of a queue is performed, its next part, with the walks that it needs. -/
def forceHead (g : Nat) (e : Eng) (store : Bool) (a : Access) (s : State) : State :=
  let walked := (a.pages s).foldl (fun s va => if (s.core g).tlb.any (fun t => t.covers va) then s else walkTurn g va (walkTurn g va s)) s
  perform g e store walked

/-- What an access still has to do where it stands in its queue: none where it has left. -/
def leftOf (c : Core) (e : Eng) (ord : Nat) : Option (Nat × Bool) :=
  ((c.loads e ++ c.stores e).find? (fun a => decide (a.ord = ord))).map (fun a => (a.pieces.length, a.begun))

/-- The store at the head of a queue is performed, one part after another; the earlier accesses of the load queue for which it waits
go first. -/
def forceStore (g : Nat) (e : Eng) : Nat → State → State
  | 0, s => s
  | fuel + 1, s =>
    match nextAccess (s.core g) e true with
    | none => s
    | some a =>
      let next : Option (Bool × Access) :=
        if mayPerform s g e a then some (true, a)
        else (nextAccess (s.core g) e false).bind (fun b => if b.ord < a.ord then some (false, b) else none)
      match next with
      | none => s
      | some (st, b) =>
        let s' := forceHead g e st b s
        let moved := decide (leftOf (s'.core g) e b.ord ≠ leftOf (s.core g) e b.ord)
        if moved && (!st || (leftOf (s'.core g) e a.ord).isSome) then forceStore g e fuel s' else s'

/-- The cycle in which the store at the head of a queue must have been performed: 4,096 after it came there (15 R332). -/
def storeTime (c : Core) (e : Eng) : Option Nat :=
  match nextAccess c e true with
  | some a => if a.kind.writes then some (a.since + 4096) else none
  | none => none

/-- Every store of core g that has stood its 4,096 cycles is performed, with what it waits for in its load queue. -/
def forceStores (s : State) (g : Nat) : State :=
  if !(s.core g).acts then s
  else [Eng.s, .v].foldl (fun s e =>
    match storeTime (s.core g) e with
    | some t => if t ≤ s.now then forceStore g e 1024 s else s
    | none => s) s

/-- The cycle in which the next line of a K command must have been issued: 4,096 after it came to the head (15 R332). -/
def lineTime (x : Cmd) : Option Nat :=
  if x.started.isSome && !x.allSent && x.stop.isNone && !isMark x.i then some (x.since + 4096) else none

/-- Every K line of core g that has stood its 4,096 cycles goes on. -/
def forceLines (s : State) (g : Nat) : State :=
  if !(s.core g).acts then s
  else (s.core g).kcmds.foldl (fun s x => match lineTime x with | some t => if t ≤ s.now then kAdvance g x.no s else s | none => s) s

/-- The cycle by which what has left for another home of the module is performed there, for every agent at once: 4,096 cycles after it
came to the head of its queue, the bound for its own die (15 R332). -/
def flightTime (since : Nat) : Nat := since + 4096

/-- Every deterministic update and every reduce packet whose 4,096 cycles are over is performed, with those before it. -/
def forceFlights (s : State) : State :=
  let s := (List.range (s.updFlight.filter (fun u => decide (flightTime u.since ≤ s.now))).length).foldl (fun s _ => updateArrives s) s
  (List.range (s.redFlight.filter (fun f => decide (flightTime f.since ≤ s.now))).length).foldl (fun s _ => reduceArrives s) s

/-- The solve of core g that has reached its deadline stops in that cycle (12 R305). -/
def endSolves (s : State) (g : Nat) : State :=
  if !(s.core g).acts then s
  else match (s.core g).mcmds.find? (fun x => deadlineDue x s.now) with
    | some x => deadlineEnd g x s
    | none => s

/-- The cycles at which something happens by itself, of one core and of the module. -/
def coreTimes (s : State) (g : Nat) : List Nat :=
  overrunTimes s g ++ [Eng.s, .v].filterMap (storeTime (s.core g)) ++ subTimes (s.core g) ++ (s.core g).mcmds.filterMap deadlineAt
    ++ (s.core g).kcmds.filterMap lineTime
def moduleTimes (s : State) : List Nat :=
  s.wFlight.map WFlight.due ++ s.sevFlight.map Prod.snd ++ s.zenith.filterMap ZPhase.deadline
    ++ s.longs.map LongPacket.due ++ s.updFlight.map (fun u => flightTime u.since) ++ s.redFlight.map (fun f => flightTime f.since)

/-- What happens by itself in the present cycle, in the order W landings, releases, lines of long packets, packets at their homes, acceptances, stores,
K lines, the packets that these have sent, deadlines, overruns. -/
def dueNow (s : State) : State :=
  let cores := s.cores.map Prod.fst
  let s := landAll s
  let s := if s.zenith.any (fun z => match z.deadline with | some t => decide (t ≤ s.now) | none => false) then settleAll (releaseDue s) else s
  let s := cores.foldl forceStores (cores.foldl acceptSubs (forceFlights (longTurns s)))
  cores.foldl raiseOverruns (cores.foldl endSolves (forceFlights (cores.foldl forceLines s)))

/-- Time goes on to `t`, from each cycle in which something happens by itself to the next. The fuel is the cycles that are left. -/
def passOn (t : Nat) : Nat → State → State
  | 0, s => s
  | fuel + 1, s =>
    if t ≤ s.now then s
    else
      let times := ((s.cores.map Prod.fst).flatMap (coreTimes s) ++ moduleTimes s).filter (fun x => decide (s.now < x))
      passOn t fuel (dueNow (newCycle { s with now := times.foldl min t }))

/-- Time reaches `t`, and what is due happens in the order of the cycles (15 R332). -/
def passTo (t : Nat) (s : State) : State := passOn t (t - s.now) (dueNow s)

end Sys2Proof.Machine
end

