-- ==== Sys2Proof/Machine/Fetch.lean ====
section
/-!
DEFINITION. Fetch: what the next instruction of a stream is (06 R114 to R116, 08 R161, R177, R179), and what may stand
as an event's turn.
-/
namespace Sys2Proof.Machine

/-- What a stream's turn finds. -/
inductive Fetched where
  /-- Nothing issues: no unit runs, the stream has ended, or it is not yet time. -/
  | idle (s : State)
  | instr (i : Instr) (s : State)
  deriving DecidableEq, Repr

/-- Whether a stream may issue: its core runs a unit, the stream has not ended, its time has come (R401), S does
not wait for an answer of SYSC (09 R195), its ending instruction has not issued (R122), and the stream has not issued in this
cycle (R115). -/
def Core.mayIssue (c : Core) (e : Eng) (now : Nat) : Bool :=
  c.acts && !(c.stream e).ended && (c.stream e).ending.isNone && decide ((c.stream e).ready ≤ now) && !(decide (e = .s) && c.sysc.isSome)
    && !c.cyc.issued.getLsbD (engNum e)

/-- The instruction that the words at an offset hold, or the illegal word that stands there (08 R179). An instruction
ends in the block that holds its first word (R116). -/
def readInstr (st : Stream) (e : Eng) (off : Nat) : Instr :=
  let w0 := st.word off
  if st.hi < off + 4 * instrWords e w0 then .illegalWord e
  else
    match decodeWords e w0 (st.word (off + 4)) (st.word (off + 8)) (st.word (off + 12)) with
    | .ok i => i
    | .error _ => .illegalWord e

/-- The profile that an M instruction names, 0 for none (03 R58). -/
def profileOfInstr : Instr → Nat
  | .mprof p _ => p.toNat
  | .mlnt h .. | .mldb h .. | .msel h .. | .mgo h .. | .morb h .. | .mzero h .. | .mlda h .. | .msta h .. | .mdrain h .. | .marrb h ..
  | .msolvCg h .. | .msolvLdlt h .. | .msupd h .. | .msres h .. => h.prof.toNat
  | _ => 0

/-- The object of the core's unit holds what an instruction names: its profile stands in .profiles, and its descriptor in .types (03 R58,
08 R173, R179). -/
def listed (s : State) (g : Nat) (i : Instr) : Bool :=
  match (s.core g).unit.bind (fun u => s.objs.find? (fun (o : LoadedObj) => decide (o.handle = u.handle))) with
  | none => true
  | some o =>
    (decide (profileOfInstr i = 0) || o.profiles.contains (profileOfInstr i))
      && (match i with | .mtyp _ k _ => decide (k.toNat < o.tensors.length) | _ => true)

/-- FETCH inside a block whose signature has been checked. What names a profile or a descriptor that its object does not hold is no
instruction (08 R179). -/
def fetchInstr (g : Nat) (e : Eng) (s : State) : Fetched :=
  let off := (s.core g).pcOf e
  match fillLine g e off s with
  | (.error x, s) => .idle (fetchFails g e x s)
  | (.ok _, s) =>
    match fillWords g e off (instrWords e (((s.core g).stream e).word off)) s with
    | (.error x, s) => .idle (fetchFails g e x s)
    | (.ok _, s) =>
      let i := readInstr ((s.core g).stream e) e off
      .instr (if listed s g i then i else .illegalWord e) (s.setCore g (captureDbnd (s.core g) e))

/-- FETCH where a block begins: its SIG word, to be checked. A word that is none, or an offset past the section, fails
the check as a block of no words does (R116). -/
def fetchSig (g : Nat) (e : Eng) (s : State) : Fetched :=
  let off := (s.core g).pcOf e
  if ((s.core g).text e).2 ≤ off then .instr (.blockSignatureCheck e 0 0) s
  else
    match fillLine g e off s with
    | (.error x, s) => .idle (fetchFails g e x s)
    | (.ok _, s) =>
      let w := ((s.core g).stream e).word off
      .instr (if isSig w then .blockSignatureCheck e (w.extractLsb' 16 9) (w.extractLsb' 0 16) else .blockSignatureCheck e 0 0) s

/-- The entry of the handler that S takes at its next instruction boundary: EN is set, and a BOUND record stands that no
handler of such a record holds back, or a notify record that no handler holds back (R134, R126, 20 R373). -/
def entryDue (g : Nat) (c : Core) : Option Instr :=
  if !atBoundary c || !c.uien then none
  else if !c.boundQ.isEmpty && !(c.uiact && c.uiBound) then some (.boundTrapEntry g)
  else if c.boundQ.isEmpty && !c.notifyQ.isEmpty && !c.uiact then some (.userInterruptEntry g)
  else none

/-- While V's rows are divided, a group whose time has not come is skipped (11 R267). -/
def skipped (e : Eng) (s : State) : State := if e = .v && s.me.divided then s.onMe (fun c => c.skipHeld s.now) else s

/-- FETCH: the turn of stream `e` of core `g`. S enters the handler before its next instruction where an entry is due. While
rows are divided the group whose turn it is may be held in its fetch for any time, and is then skipped (11 R267, 06 R130, log 25). -/
def fetch (g : Nat) (e : Eng) (s : State) : Fetched :=
  let s := skipped e { s with cur := g }
  let c := s.core g
  if !c.mayIssue e s.now then .idle s
  else match (if e = .s then entryDue g c else none) with
  | some i => .instr i s
  | none =>
  if decide (e = .v) && c.divided && Config.groupHeld s.tick then .idle (s.onMe Core.rotate)
  else if (c.stream e).lo ≤ c.pcOf e && decide (c.pcOf e < (c.stream e).hi) then fetchInstr g e s
  else fetchSig g e s

/-- The constructors that are events of the part, which no word encodes. The check of a signature and an illegal word
come from a stream's own turn only. -/
def isEvent : Instr → Bool
  | .commandStart .. | .lineResponse .. | .kCommandCompletion .. | .mCommandCompletion .. | .memoryResponse ..
  | .wStoreLanding | .translationWalk .. | .storeQueuePriority .. | .checkerCompare .. | .boundOverrun ..
  | .boundTrapEntry .. | .userInterruptEntry .. | .syscAnswer .. | .zenithArrival .. | .domainRelease ..
  | .updateAcceptance | .closeTag .. | .reducePacket | .ofsubAcceptance .. | .beatEnd .. | .batchArrival ..
  | .grantQueueTake .. | .grantArrival .. | .packetReceive .. | .responseReceive .. | .retryBufferRoom ..
  | .linkDown .. | .linkSilenceTimeout .. | .switchReport .. | .responseTimeout .. | .pathUpResync ..
  | .stagingWordWrite .. | .collectiveGo .. | .collectiveStatusPop .. | .chunkComplete .. | .collectiveFailure ..
  | .kickScan | .headLinkWaitEnd .. | .objectLoad .. | .objectUnload .. | .unloadTakesEffect .. | .unitHandOut ..
  | .unitStart .. | .tagChangeZeroing .. | .preEmption .. | .halt .. | .contextSave .. | .budgetExhausted ..
  | .solverDeadline .. | .endReport .. | .completionPosting .. | .purgeComplete .. | .dieFence ..
  | .dispatcherTakeOver | .errorBankClear .. | .moduleReset .. | .throttle .. | .thermalTrip | .readSensors ..
  | .setPowerCap .. | .counterAdvance .. | .installPlatformRecord .. | .flitCrcRetry .. => true
  | _ => false

/-- Whether a turn is one of the security controller's, through which a stopped module still reports, and a reset (20 R379, 22 R397,
R398). -/
def isManagement : Turn → Bool
  | .event (.moduleReset _) | .event (.readSensors ..) | .event (.errorBankClear ⟨some _, _, _⟩) | .event (.setPowerCap ..)
  | .event (.counterAdvance ..) | .event (.installPlatformRecord ..) => true
  | _ => false

/-- Time passes before a turn, and the model's counter moves on. -/
def passTime (dt : Nat) (s : State) : State := passTo (s.now + dt) { s with tick := s.tick + 1 }

/-- The unit under which a placed instruction runs: each stream's text is one block of four words. -/
def placedUnit : WorkUnit := { (default : WorkUnit) with text := [(0, 20), (0, 20), (0, 20), (0, 20)], entry := [0, 0, 0, 0] }

/-- A state in which the next step runs the instruction of a table word: it stands at offset 4 of a text block of core
0, in its stream's fetch buffer, checked, and the stream's turn comes next. -/
def placeFetchWord (s : State) (nbits w : Nat) : State :=
  let bytes := tableBytes nbits w
  let e := (streamOf bytes).getD .s
  let c := s.core 0
  let u := match c.unit with | some u => { u with text := placedUnit.text } | none => placedUnit
  let st := c.stream e
  let st := { st with pc := 4, ended := false, ending := none, lo := 0, hi := 20, ready := s.now, resume := none,
                      buf := Tbl.setRun 0 (Tbl.clearRange st.buf 0 256) 4 bytes,
                      lines := if 0 ∈ st.lines then st.lines else 0 :: st.lines }
  let c := { c with unit := some u, stopped := false, halted := false, zeroing := none, sysc := none, cyc := Cycle.reset }.setStream e st
  let s := s.setCore 0 (if (entryDue 0 c).isSome then { c with uien := false } else c)
  { s with sched := (0, .issue 0 e) :: s.sched, stopped := false }

end Sys2Proof.Machine
end

