-- ==== Sys2Proof/Machine/Step.lean ====
section
/-!
DEFINITION. One step: the next turn of the schedule, or the turn that `Config.turn` gives where none is scheduled
(log 1).
-/
namespace Sys2Proof.Machine

/-- The turn that comes next, with the cycles that pass before it, and the turns after it. -/
def nextTurn (s : State) : (Nat × Turn) × List (Nat × Turn) :=
  match s.sched with
  | t :: ts => (t, ts)
  | [] => (Config.turn s.tick, [])

/-- One turn of a running module. A turn that names no event of the part does nothing. -/
def takeTurn (t : Turn) (s : State) : Host.Outcome State Fault Refusal :=
  match t with
  | .issue g e =>
    match fetch g e s with
    | .idle s => .next s
    | .instr i s => exec i s
  | .advance g e n => .next (advance g e n s)
  | .event i => if isEvent i then exec i s else .next s

/-- One step. In a stopped module nothing happens but what the security controller does; any other turn is a stop (20 R379, 22
R397). -/
def step (s : State) : Host.Outcome State Fault Refusal :=
  let t := nextTurn s
  if !s.stopped then takeTurn t.1.2 (passTime t.1.1 { s with sched := t.2 })
  else if isManagement t.1.2 then takeTurn t.1.2 { s with sched := t.2, tick := s.tick + 1 }
  else .fault .moduleStopped

/-- The state with a table word's instruction placed where the next step fetches. -/
def State.withFetchWord (s : State) (nbits w : Nat) : State := placeFetchWord s nbits w

end Sys2Proof.Machine
end

