-- ==== Sys2Proof/Safety.lean ====
section
/-!
DEFINITION. What a safe run is, in the terms that claims use.
-/
namespace Sys2Proof.Safety
open Sys2Proof.Machine

/-- The steps of the machine, any number of them. -/
inductive Reaches : State → State → Prop where
  | refl (s : State) : Reaches s s
  | step {s t u : State} (h : Reaches s t) (n : Machine.step t = .next u) : Reaches s u

/-- No unit of the module has faulted, no tag is purged, and the module has not stopped (20 R376, R377, 22 R397). -/
def faultless (s : State) : Bool :=
  !s.stopped && s.purges.isEmpty && s.cores.all (fun p => !p.2.stopped)

/-- A run is safe when every state on it is faultless. -/
def Safe (s : State) : Prop := ∀ t, Reaches s t → faultless t = true

/-- A core's scratchpad is in canonical form. -/
def spWf (c : Core) : Bool := Memory.wf c.sp

/-- All memory is in canonical form: the DRAM, every scratchpad, and those of the saved units. -/
def memWf (s : State) : Bool :=
  Memory.wf s.dram && s.cores.all (fun p => spWf p.2) && s.disp.saved.all (fun x => spWf x.core)

end Sys2Proof.Safety

namespace Sys2Proof.Claims
open Sys2Proof.Machine

/- What an instruction leaves alone. -/

/-- Nothing of the module differs but the issuing core. -/
def OnlyMe (s t : State) : Prop := { t with cores := s.cores } = s ∧ ∀ g, g ≠ s.cur → t.core g = s.core g

/-- Every byte of memory, DRAM and every scratchpad, reads as before. -/
def SameMemory (s t : State) : Prop :=
  (∀ a, byteAt t.dram a = byteAt s.dram a) ∧ ∀ g a, byteAt (t.core g).sp a = byteAt (s.core g).sp a

/- Issue and completion (06 R115, R118). -/

/-- Every token that the entry tk pops is present from an earlier cycle, and every FIFO it pushes has a place that was free
before this cycle. -/
def Ready (e : Eng) (tk : BitVec 3) (s : State) : Prop :=
  (∀ f ∈ fifosPopped e (s.me.tokenSet e tk), s.me.hasToken f = true) ∧
    ∀ f ∈ fifosPushed e (s.me.tokenSet e tk), s.me.occupancy f + Tbl.get 0 s.me.cyc.freed f < s.me.depth f

/-- One token has left each FIFO that the entry tk pops, and one stands at the end of each it pushes; no place stays
reserved. -/
def TokensMoved (e : Eng) (tk : BitVec 3) (s t : State) : Prop :=
  (∀ f, t.me.fifo f = (if f ∈ fifosPopped e (s.me.tokenSet e tk) then (s.me.fifo f).tail else s.me.fifo f)
      ++ (if f ∈ fifosPushed e (s.me.tokenSet e tk) then [(t.me.stream e).path] else [])) ∧
    ∀ f, Tbl.get 0 t.me.reserved f = Tbl.get 0 s.me.reserved f

/-- Stream e goes on n words further on, in the next cycle, no longer waiting, and with the bound of DBND that it issued
under; the other streams stay. -/
def WentOn (e : Eng) (n : Nat) (s t : State) : Prop :=
  t.me.stream e = { s.me.stream e with pc := (s.me.stream e).pc + 4 * n, ready := s.now + 1, wait := none, dbnd := none,
                                       issuedBnd := (s.me.stream e).dbnd.getD (dbndField s.me.dbnd e),
                                       path := (t.me.stream e).path } ∧
    ∀ e', e' ≠ e → t.me.stream e' = s.me.stream e'

/-- An instruction of n words has completed as it issued: its tokens have moved, its stream goes on, and of the module
nothing but its own core differs, and no byte of memory. -/
def Completes (e : Eng) (tk : BitVec 3) (n : Nat) (s t : State) : Prop :=
  OnlyMe s t ∧ SameMemory s t ∧ TokensMoved e tk s t ∧ WentOn e n s t

/-- No stream of core g has issued its ending instruction and waits to complete it (06 R122). -/
def NotEnding (g : Nat) (s : State) : Prop := ∀ e ∈ [Eng.s, .v, .m, .k], ((s.core g).stream e).ending = none

/-- The state in which the popper of n entries of a queue has acquired what they report (15 R323, 18 R353). -/
def acquired (q n : Nat) (s : State) : State := s.onMe (fun c => c.acquire (engOfNum (queueDest q)) (c.reported q n))

end Sys2Proof.Claims
end

