-- ==== Sys2Proof/Certificates/Slice0/Obligations.lean ====
section
/-!
DEFINITION. The statements about the machine, each from numbered rules of the spec.
-/
namespace Sys2Proof.Claims
open Sys2Proof.Machine

/- The S stream. -/

/-- An S instruction that needs these registers can issue: its tokens and places are there, no register is still to be
loaded, and no earlier access has failed the check of R216 (06 R115, 21 R387). -/
def SReady (tk : BitVec 3) (regs : List (BitVec 6)) (s : State) : Prop :=
  Ready .s tk s ∧ s.me.undeclared = none ∧ ∀ r ∈ regs, sBusy s.me r = false

/-- Register sd holds v, s0 discarding it; every other S register, the other bank's too, is as before. -/
def SReg (sd : BitVec 6) (v : Word) (s t : State) : Prop :=
  (∀ r, t.me.getS r = if r = sd ∧ r ≠ 0 then v else s.me.getS r) ∧
    ∀ k, k ≠ s.me.sKey sd.toNat → Tbl.get 0 t.me.s k = Tbl.get 0 s.me.s k

/-- Instruction i completes as it issues and leaves v in register sd where p[pg] is true; everything else of the
core stays. -/
def SResult (i : Instr) (tk : BitVec 3) (pg : BitVec 4) (sd : BitVec 6) (srcs : List (BitVec 6)) (v : State → Word) : Prop :=
  ∀ s, SReady tk (sd :: srcs) s → ∃ t, exec i s = .next t ∧ Completes .s tk 1 s t ∧
    SReg sd (if s.me.getP pg then v s else s.me.getS sd) s t ∧
    { t.me with s := s.me.s, streams := s.me.streams, tokens := s.me.tokens, reserved := s.me.reserved, cyc := s.me.cyc } = s.me

/-- Instruction i completes as it issues and leaves b in predicate pd where p[pg] is true, p0 discarding it; nothing else
of the core changes. -/
def PResult (i : Instr) (tk : BitVec 3) (pg pd : BitVec 4) (srcs : List (BitVec 6)) (b : State → Bool) : Prop :=
  ∀ s, SReady tk srcs s → ∃ t, exec i s = .next t ∧ Completes .s tk 1 s t ∧
    (∀ r, t.me.getP r = if s.me.getP pg = true ∧ r = pd ∧ r ≠ 0 then b s else s.me.getP r) ∧
    { t.me with p := s.me.p, streams := s.me.streams, tokens := s.me.tokens, reserved := s.me.reserved, cyc := s.me.cyc } = s.me

/-- The register forms with two sources and their values (09 R184, R185). -/
def twoSource : List ((BitVec 6 → BitVec 6 → BitVec 6 → BitVec 4 → BitVec 3 → Instr) × (Word → Word → Word)) :=
  [(.add, fun a b => BitVec.ofInt 64 (a.toInt + b.toInt)), (.sub, fun a b => BitVec.ofInt 64 (a.toInt - b.toInt)),
   (.mul, fun a b => BitVec.ofInt 64 (a.toInt * b.toInt)),
   (.mulh, fun a b => BitVec.ofInt 64 (a.toInt * b.toInt / 2 ^ 64)),
   (.mulhn, fun a b => BitVec.ofNat 64 (a.toNat * b.toNat / 2 ^ 64)),
   (.divs, fun a b => if b = 0 then BitVec.allOnes 64 else a.sdiv b), (.divn, fun a b => if b = 0 then BitVec.allOnes 64 else a / b),
   (.rems, fun a b => if b = 0 then a else a.srem b), (.remn, fun a b => if b = 0 then a else a % b),
   (.and, fun a b => a &&& b), (.or, fun a b => a ||| b), (.xor, fun a b => a ^^^ b), (.andn, fun a b => a &&& ~~~b),
   (.shl, fun a b => BitVec.ofNat 64 (a.toNat * 2 ^ (b.toNat % 64))), (.shrl, fun a b => BitVec.ofNat 64 (a.toNat / 2 ^ (b.toNat % 64))),
   (.shra, fun a b => BitVec.ofInt 64 (a.toInt / 2 ^ (b.toNat % 64))),
   (.rotl, fun a b => a <<< (b.toNat % 64) ||| a >>> (64 - b.toNat % 64)),
   (.min, fun a b => BitVec.ofInt 64 (min a.toInt b.toInt)), (.max, fun a b => BitVec.ofInt 64 (max a.toInt b.toInt)),
   (.minn, fun a b => BitVec.ofNat 64 (min a.toNat b.toNat)), (.maxn, fun a b => BitVec.ofNat 64 (max a.toNat b.toNat))]

/-- The address that LEA forms: its space's address field moves on by eight times the immediate and wraps, every other bit
stays (09 R189). -/
def leaValue (a : Word) (imm : BitVec 10) : Word :=
  let moved (n : Nat) : Word := BitVec.ofNat 64 (a.toNat / 2 ^ n * 2 ^ n + (((a.toNat % 2 ^ n : Nat) + 8 * imm.toInt) % (2 ^ n : Nat)).toNat)
  match qSpc a with
  | 0 => moved 57
  | 4 => moved 48
  | 1 | 2 | 3 => moved 23
  | _ => a

/-- The relations of the compares (09 R190). -/
def relations : List ((BitVec 4 → BitVec 6 → BitVec 6 → BitVec 4 → BitVec 3 → Instr) × (BitVec 4 → BitVec 6 → BitVec 10 → BitVec 3 → Instr)
    × (Word → Word → Bool)) :=
  [(.cmpeq, .cmpeqi, fun a b => a == b), (.cmpne, .cmpnei, fun a b => a != b), (.cmplt, .cmplti, BitVec.slt), (.cmple, .cmplei, BitVec.sle),
   (.cmpltn, .cmpltni, BitVec.ult), (.cmplen, .cmpleni, BitVec.ule)]

/-- The stream after a branch (06 R116, R401): at the target, whose block is to be checked from 4 cycles on, or at the
next word. -/
def branched (now target : Nat) (taken : Bool) (st : Machine.Stream) : Machine.Stream :=
  if taken then { st with pc := target, lo := 0, hi := 0, ready := now + 4, resume := none, wait := none, dbnd := none }
  else { st with pc := st.pc + 4, ready := now + 1, wait := none, dbnd := none }

/-- Stream e has branched and its tokens have moved; nothing else of the module but its core's registers differs. -/
def Branches (e : Eng) (tk : BitVec 3) (target : Nat) (taken : Bool) (s t : State) : Prop :=
  OnlyMe s t ∧ SameMemory s t ∧ TokensMoved e tk s t ∧ (∀ e', e' ≠ e → t.me.stream e' = s.me.stream e') ∧
    t.me.stream e = branched s.now target taken { s.me.stream e with path := (t.me.stream e).path,
                                                                     issuedBnd := (s.me.stream e).dbnd.getD (dbndField s.me.dbnd e) }

end Sys2Proof.Claims

open Sys2Proof Sys2Proof.Machine Sys2Proof.Claims

/-- R184, R185: each register form of the integer instructions computes its value, wrapping modulo 2^64. -/
def Obligations.IntegerRegisterForms : Prop :=
  ∀ x ∈ twoSource, ∀ sd sa sb pg tk,
    SResult (x.1 sd sa sb pg tk) tk pg sd [sa, sb] (fun s => x.2 (s.me.getS sa) (s.me.getS sb))

/-- R186: CLZ, POPC, SEXT and ZEXT. -/
def Obligations.CountAndExtendForms : Prop :=
  ∀ sd sa n pg tk,
    SResult (.clz sd sa pg tk) tk pg sd [sa] (fun s =>
      BitVec.ofNat 64 (if s.me.getS sa = 0 then 64 else 63 - Nat.log2 (s.me.getS sa).toNat)) ∧
    SResult (.popc sd sa pg tk) tk pg sd [sa] (fun s => BitVec.ofNat 64 ((List.range 64).countP (fun i => (s.me.getS sa).getLsbD i))) ∧
    SResult (.sext sd sa n pg tk) tk pg sd [sa] (fun s => ((s.me.getS sa).extractLsb' 0 (n.toNat + 1)).signExtend 64) ∧
    SResult (.zext sd sa n pg tk) tk pg sd [sa] (fun s => ((s.me.getS sa).extractLsb' 0 (n.toNat + 1)).zeroExtend 64)

/-- R187 to R189, R191, R200: the immediate forms, the constants, LEA, PLC, SEL and SPL of a word that is not poisoned, none of
them predicated. -/
def Obligations.ImmediateAndConstantForms : Prop :=
  ∀ (sd sa sb : BitVec 6) (imm off : BitVec 10) (k : BitVec 16) (dx dy : BitVec 4) (dd : BitVec 2) (ps : BitVec 4) (tk : BitVec 3),
    SResult (.addi sd sa imm tk) tk 0 sd [sa] (fun s => BitVec.ofInt 64 ((s.me.getS sa).toInt + imm.toInt)) ∧
    SResult (.andi sd sa imm tk) tk 0 sd [sa] (fun s => s.me.getS sa &&& imm.signExtend 64) ∧
    SResult (.ori sd sa imm tk) tk 0 sd [sa] (fun s => s.me.getS sa ||| imm.signExtend 64) ∧
    SResult (.xori sd sa imm tk) tk 0 sd [sa] (fun s => s.me.getS sa ^^^ imm.signExtend 64) ∧
    (imm.toNat < 64 →
      SResult (.shli sd sa imm tk) tk 0 sd [sa] (fun s => BitVec.ofNat 64 ((s.me.getS sa).toNat * 2 ^ imm.toNat)) ∧
      SResult (.shrli sd sa imm tk) tk 0 sd [sa] (fun s => BitVec.ofNat 64 ((s.me.getS sa).toNat / 2 ^ imm.toNat)) ∧
      SResult (.shrai sd sa imm tk) tk 0 sd [sa] (fun s => BitVec.ofInt 64 ((s.me.getS sa).toInt / 2 ^ imm.toNat))) ∧
    SResult (.ldi sd k tk) tk 0 sd [] (fun _ => BitVec.ofInt 64 k.toInt) ∧
    SResult (.ldhi sd k tk) tk 0 sd [] (fun s => (s.me.getS sd).extractLsb' 0 48 ++ k) ∧
    SResult (.lea sd sa imm tk) tk 0 sd [sa] (fun s => leaValue (s.me.getS sa) imm) ∧
    SResult (.plc sd sa dx dy dd tk) tk 0 sd [sa] (fun s =>
      BitVec.ofNat 64 (2 * 2 ^ 61 + dd.toNat * 2 ^ 31 + dy.toNat * 2 ^ 27 + dx.toNat * 2 ^ 23 + (s.me.getS sa).toNat % 2 ^ 23)) ∧
    SResult (.sel sd sa sb ps tk) tk 0 sd [sa, sb] (fun s => if s.me.getP ps then s.me.getS sa else s.me.getS sb) ∧
    ∀ s, SReady tk [sd] s → s.me.spillBad .s off.toNat 1 = none →
      ∃ t, exec (.spl sd off tk) s = .next t ∧ Completes .s tk 1 (correctSlots s.cur .s 0 (8 * off.toNat) 8 s) t ∧
        SReg sd (Tbl.get 0 s.me.spillS off.toNat) s t ∧ { t.me with s := s.me.s, streams := s.me.streams, tokens := s.me.tokens,
                                                                    reserved := s.me.reserved, cyc := s.me.cyc } = s.me

/-- R190, R191: the compares, those with an immediate not predicated, and the predicate operations. -/
def Obligations.ComparesAndPredicates : Prop :=
  (∀ x ∈ relations, ∀ pd sa sb pg tk, PResult (x.1 pd sa sb pg tk) tk pg pd [sa, sb] (fun s => x.2.2 (s.me.getS sa) (s.me.getS sb))) ∧
  (∀ x ∈ relations, ∀ pd sa (imm : BitVec 10) tk,
    PResult (x.2.1 pd sa imm tk) tk 0 pd [sa] (fun s => x.2.2 (s.me.getS sa) (imm.signExtend 64))) ∧
  ∀ pd pa pb pg tk (val : BitVec 6),
    PResult (.pand pd pa pb pg tk) tk pg pd [] (fun s => s.me.getP pa && s.me.getP pb) ∧
    PResult (.por pd pa pb pg tk) tk pg pd [] (fun s => s.me.getP pa || s.me.getP pb) ∧
    PResult (.pxor pd pa pb pg tk) tk pg pd [] (fun s => s.me.getP pa != s.me.getP pb) ∧
    PResult (.pnot pd pa pg tk) tk pg pd [] (fun s => !s.me.getP pa) ∧
    PResult (.pmov pd pa pg tk) tk pg pd [] (fun s => s.me.getP pa) ∧
    (val.toNat ≤ 1 → PResult (.pset pd val pg tk) tk pg pd [] (fun _ => decide (val.toNat = 1)))

/-- R192, R193: BR, BC, BRL and LOOP go to their target or on; BRL leaves the offset after it, LOOP counts down. -/
def Obligations.ImmediateBranches : Prop :=
  ∀ s (tk : BitVec 3) (off : BitVec 18) (o : BitVec 16) (p : BitVec 4) (r : BitVec 6), SReady tk [r] s →
    let pc := (s.me.stream .s).pc
    let regs (t : State) : Core := { t.me with s := s.me.s, streams := s.me.streams, tokens := s.me.tokens, reserved := s.me.reserved, cyc := s.me.cyc }
    let only (t : State) (v : Word) : Prop := regs t = s.me ∧ SReg r v s t
    (∃ t, exec (.br off p tk) s = .next t ∧ Branches .s tk ((pc : Int) + 4 * off.toInt).toNat (s.me.getP p) s t ∧
      regs t = s.me ∧ t.me.s = s.me.s) ∧
    (∃ t, exec (.bc off p tk) s = .next t ∧ Branches .s tk ((pc : Int) + 4 * off.toInt).toNat (!s.me.getP p) s t ∧
      regs t = s.me ∧ t.me.s = s.me.s) ∧
    (∃ t, exec (.brl r o tk) s = .next t ∧ Branches .s tk ((pc : Int) + 4 * o.toInt).toNat true s t ∧ only t (BitVec.ofNat 64 (pc + 4))) ∧
    (∃ t, exec (.loop r o tk) s = .next t ∧ Branches .s tk ((pc : Int) + 4 * o.toInt).toNat (decide (1 < (s.me.getS r).toNat)) s t ∧
      only t (BitVec.ofNat 64 ((s.me.getS r).toNat - 1)))

namespace Sys2Proof.Claims
open Sys2Proof.Machine

/-- One entry of a table is written, the others stay. -/
def Writes {α : Type} (d : α) (old new : Tbl α) (k : Nat) (v : α) : Prop :=
  ∀ j, Tbl.get d new j = if j = k then v else Tbl.get d old j

/-- Core c with the fields that issuing moves as in s: what a statement compares of them, it compares by itself. -/
def still (s : State) (c : Core) : Core :=
  { c with streams := s.me.streams, tokens := s.me.tokens, reserved := s.me.reserved, cyc := s.me.cyc }

/-- An instruction has issued and not completed: its tokens are popped and its places reserved, and its stream goes on;
nothing of the module but its core differs, and no byte of memory. -/
def Issued (e : Eng) (tk : BitVec 3) (n : Nat) (s t : State) : Prop :=
  OnlyMe s t ∧ SameMemory s t ∧ WentOn e n s t ∧
    (∀ f, t.me.fifo f = if f ∈ fifosPopped e (s.me.tokenSet e tk) then (s.me.fifo f).tail else s.me.fifo f) ∧
    ∀ f, Tbl.get 0 t.me.reserved f = Tbl.get 0 s.me.reserved f + if f ∈ fifosPushed e (s.me.tokenSet e tk) then 1 else 0

/-- The entry of a load or store queue that an access of the S stream becomes. -/
def sEntry (s : State) (kind : AccKind) (pieces : List Piece) (dst : Nat) (obs : BitVec 6) (places : List Nat) (path : Token) : Access :=
  { ord := s.me.sOrd, pc := (s.me.stream .s).pc, kind := kind, pieces := pieces, got := [], dst := dst, obs := obs, bad := false,
    begun := false, out := [], issued := s.now, since := s.now, bound := ((s.me.stream .s).dbnd.getD (dbndField s.me.dbnd .s)).toNat,
    full := none, fullRaised := false, places := places, path := path }

/-- An access has entered the queues named, behind what stands there; nothing else of the core changes. -/
def Entered (load store : Bool) (a : Access) (s t : State) : Prop :=
  t.me.loads .s = (if load then s.me.loads .s ++ [a] else s.me.loads .s) ∧
    t.me.stores .s = (if store then s.me.stores .s ++ [a] else s.me.stores .s) ∧
    (∀ e, e ≠ .s → t.me.loads e = s.me.loads e ∧ t.me.stores e = s.me.stores e) ∧
    still s { t.me with lq := s.me.lq, stq := s.me.stq, sOrd := s.me.sOrd } = s.me

/-- One piece of n bytes at q. -/
def onePiece (q : Word) (n : Nat) (data : List Byte) : List Piece := [{ lane := 0, qa := q, n := n, data := data }]

/-- The registers that RSR reads, by number (09 R220), each with its value in core g. -/
def readable (s : State) : List (Nat × Word) :=
  let c := s.me
  let byte (f : Nat) : BitVec 8 := BitVec.ofNat 8 (Tbl.get 64 c.slip f % 128)
  [(0x000, c.fpctl), (0x001, c.fstk), (0x002, c.dbnd), (0x003, c.trapcause), (0x004, c.brec),
   (0x008, BitVec.ofNat 64 (s.cur % 8 + s.cur / 8 % 8 * 8 + s.cur / 64 * 64 + s.cur * 256)),
   (0x009, match c.unit with | some u => u.tag.zeroExtend 64 | none => 0), (0x00A, BitVec.ofNat 64 (s.now - c.cycBase)),
   (0x010, Tbl.get 0 c.dom 1), (0x011, Tbl.get 0 c.dom 2), (0x012, Tbl.get 0 c.dom 3), (0x013, Tbl.get 0 c.dom 4),
   (0x018, Tbl.get 0 c.tks 0), (0x019, Tbl.get 0 c.tks 1), (0x01A, Tbl.get 0 c.tks 2), (0x01B, Tbl.get 0 c.tks 3),
   (0x01C, byte 7 ++ byte 6 ++ byte 5 ++ byte 4 ++ byte 3 ++ byte 2 ++ byte 1 ++ byte 0),
   (0x01D, (0 : BitVec 32) ++ byte 11 ++ byte 10 ++ byte 9 ++ byte 8), (0x01E, c.rb.zeroExtend 64), (0x020, c.uivec),
   (0x021, BitVec.ofNat 64 ((if c.uien then 1 else 0) + (if c.uiact then 2 else 0) + c.notifyQ.length * 4)), (0x022, c.uiinfo),
   (0x023, c.uiepc)]
  ++ (List.range 16).map (fun n => (0x040 + n, Tbl.get 0xFF c.bf n)) ++ (List.range 64).map (fun n => (0x080 + n, Tbl.get 0 c.bobj n))

end Sys2Proof.Claims

/-- R120, R194, R200, R206: NOP has no effect beyond its tokens, SPR writes one spill word; pushes into AQ and SQ and of branch
outcomes, and pops of VQ and MQ. That the word SPR overwrites is poisoned no longer, and has no single-bit error, is the MODEL'S CHOICE
(log 9). -/
def Obligations.SpillStoresAndDataQueues : Prop :=
  ∀ s (tk : BitVec 3) (r : BitVec 6) (p : BitVec 4) (q : BitVec 3) (e : BitVec 5) (off : BitVec 10),
    let entry (v : Word) (wait : Nat) : QEntry :=
      { val := v, due := s.now + wait, ord := s.me.sOrd, checked := false, pc := (s.me.stream .s).pc }
    let pushed (t : State) (x : QEntry) : Prop := Completes .s tk 1 s t ∧
      (∀ k, t.me.queue k = if k = q.toNat then s.me.queue k ++ [x] else s.me.queue k) ∧ still s { t.me with queues := s.me.queues } = s.me
    (SReady tk [] s → ∃ t, exec (.nop p tk) s = .next t ∧ Completes .s tk 1 s t ∧ still s t.me = s.me) ∧
    (SReady tk [r] s → ∃ t, exec (.spr r off tk) s = .next t ∧ Completes .s tk 1 (overSpill s.cur .s off.toNat 1 s) t ∧
      Writes 0 s.me.spillS t.me.spillS off.toNat (s.me.getS r) ∧
      (∀ x, x ∈ t.me.spillPoison ↔ x ∈ s.me.spillPoison ∧ x ≠ (0, off.toNat)) ∧
      still s { t.me with spillS := s.me.spillS, spillPoison := s.me.spillPoison } = s.me) ∧
    (SReady tk [r] s → q.toNat ≤ 1 → (s.me.queue q.toNat).length < 32 →
      ∃ t, exec (.qpush r q e tk) s = .next t ∧ pushed t (entry (s.me.getS r) (if q.toNat = 0 then 5 else 1))) ∧
    (SReady tk [] s → 4 ≤ q.toNat → q.toNat ≤ 6 → (s.me.queue q.toNat).length < 64 →
      ∃ t, exec (.bop p q e tk) s = .next t ∧ pushed t (entry (if s.me.getP p then 1 else 0) 5)) ∧
    (∀ x xs, SReady tk [r] s → q.toNat = 2 ∨ q.toNat = 3 → s.me.queue q.toNat = x :: xs → x.due ≤ s.now →
      (q.toNat = 2 → storePending s s.cur .v x.ord = false) →
      ∃ t, exec (.qpop r q e tk) s = .next t ∧ Completes .s tk 1 (acquired q.toNat 1 s) t ∧
        (∀ k, t.me.queue k = if k = q.toNat then xs else s.me.queue k) ∧
        SReg r x.val s t ∧
        still s { t.me with queues := s.me.queues, s := s.me.s } = s.me)

/-- R219, R220: RSR reads every special register; WSR writes the RW fields, and FSTK's bits clear where a one is written. RM
stays where a VSETF has written it in this cycle (01 R17), and a flag that an engine has set in it (R21); the handler's block stays
checked only while EN is set and UIVEC names it (06 R116). -/
def Obligations.SpecialRegisterInstructions : Prop :=
  ∀ s (tk : BitVec 3) (r : BitVec 6) (sr : BitVec 12),
    (∀ x ∈ readable s, x.1 = sr.toNat → SReady tk [r] s → s.cur < 256 →
      ∃ t, exec (.rsr r sr tk) s = .next t ∧ Completes .s tk 1 s t ∧
        SReg r x.2 s t ∧ still s { t.me with s := s.me.s } = s.me) ∧
    (SReady tk [r] s →
      let v := s.me.getS r
      let writes (t : State) (c : Core) : Prop := exec (.wsr r sr tk) s = .next t ∧ Completes .s tk 1 s t ∧ still s t.me = c
      (sr.toNat = 0x000 → ∃ t, writes t { s.me with
        fpctl := (v.extractLsb' 2 12 ++ (if s.me.cyc.rm then s.me.fpctl else v).extractLsb' 0 2).zeroExtend 64 }) ∧
      (sr.toNat = 0x001 → ∃ t, writes t { s.me with fstk := s.me.fstk &&& ~~~((v.extractLsb' 0 10 &&& ~~~s.me.cyc.flags).zeroExtend 64) }) ∧
      (sr.toNat = 0x002 → ∃ t, writes t { s.me with dbnd := BitVec.ofNat 64 ((v.extractLsb' 0 5).toNat + (v.extractLsb' 8 5).toNat * 2 ^ 8
        + (v.extractLsb' 16 5).toNat * 2 ^ 16 + (v.extractLsb' 24 5).toNat * 2 ^ 24) }) ∧
      (sr.toNat = 0x003 → ∃ t, writes t { s.me with trapcause := (v.extractLsb' 0 8).zeroExtend 64 }) ∧
      (sr.toNat = 0x020 → let vec : Word := (v.extractLsb' 0 32).zeroExtend 64
        ∃ t, writes t { s.me with uivec := vec, hBlk := if s.me.uivec = vec then s.me.hBlk else none }) ∧
      (sr.toNat = 0x021 → ∃ t, writes t { s.me with uien := v.getLsbD 0, hBlk := if v.getLsbD 0 then s.me.hBlk else none }) ∧
      (0x040 ≤ sr.toNat → sr.toNat ≤ 0x04F → bfRefused v = false → bankOpen s s.cur 5 = true → ∃ t, exec (.wsr r sr tk) s = .next t ∧ Completes .s tk 1 s t ∧
        Writes 0xFF s.me.bf t.me.bf (sr.toNat - 0x040) v ∧ still s { t.me with bf := s.me.bf } = s.me))

/-- R155 to R158, R205: the tag table, where sa holds a D address. -/
def Obligations.TagTableInstructions : Prop :=
  ∀ s (tk : BitVec 3) (sd sa sb : BitVec 6) (way : BitVec 4), qSpc (s.me.getS sa) = 0 → way.toNat < 8 →
    let c := s.me
    let va := (c.getS sa).extractLsb' 0 57
    let set := tagSet va.toNat
    let tag : BitVec 45 := va.extractLsb' 12 45
    let entry (c : Core) (w : Nat) : Word := Tbl.get 0 c.tags (8 * set + w)
    let holds (w : Nat) : Prop := (entry c w).getLsbD 0 = true ∧ (entry c w).extractLsb' 15 45 = tag
    let loaded (t : State) (v : Word) : Prop := Completes .s tk 1 s t ∧ SReg sd v s t
    (SReady tk [sd, sa] s → ∃ t, exec (.trd sd sa way tk) s = .next t ∧ loaded t (entry c way.toNat) ∧ still s { t.me with s := c.s } = c) ∧
    (∀ w, SReady tk [sd, sa] s → w < 8 → holds w → (∀ v, v < w → ¬ holds v) →
      ∃ t, exec (.tlk sd sa tk) s = .next t ∧
        loaded t (BitVec.ofNat 64 (1 + 4 * w + 32 + (if (entry c w).getLsbD 1 then 64 else 0)
          + 256 * ((entry c w).extractLsb' 3 11).toNat + 2 ^ 19 * set)) ∧
        t.me.recent set = w :: (c.recent set).filter (fun x => decide (x ≠ w)) ∧ (∀ n, n ≠ set → t.me.recent n = c.recent n) ∧
        still s { t.me with s := c.s, recency := c.recency } = c) ∧
    (SReady tk [sd, sa] s → (∀ w, w < 8 → ¬ holds w) → ∃ t, exec (.tlk sd sa tk) s = .next t ∧
        loaded t (match ((List.range 8).find? (fun w => !(entry c w).getLsbD 0)).or
            ((c.recent set).reverse.find? (fun w => !(entry c w).getLsbD 2)) with
          | some w => BitVec.ofNat 64 (4 * (w % 8) + (if (entry c w).getLsbD 0 then 32 else 0) + (if (entry c w).getLsbD 1 then 64 else 0)
              + 256 * ((entry c w).extractLsb' 3 11).toNat + 2 ^ 19 * set)
          | none => BitVec.ofNat 64 (2 + 2 ^ 19 * set)) ∧ still s { t.me with s := c.s } = c) ∧
    (SReady tk [sa, sb] s → ∃ t, exec (.tins sa sb way tk) s = .next t ∧ Completes .s tk 1 s t ∧
        entry t.me way.toNat = BitVec.ofNat 64 (1 + 2 * ((c.getS sb).extractLsb' 1 2).toNat + 8 * ((c.getS sb).extractLsb' 3 11).toNat
          + 2 ^ 15 * tag.toNat) ∧
        (∀ w, w < 8 → w ≠ way.toNat → holds w → (∀ v, v < w → v ≠ way.toNat → ¬ holds v) → entry t.me w = entry c w &&& ~~~1) ∧
        (∀ w, w < 8 → w ≠ way.toNat → ¬ holds w → entry t.me w = entry c w) ∧
        (∀ k, k < 8 * set ∨ 8 * set + 8 ≤ k → Tbl.get 0 t.me.tags k = Tbl.get 0 c.tags k) ∧
        t.me.recent set = way.toNat :: (c.recent set).filter (fun x => decide (x ≠ way.toNat)) ∧
        (∀ n, n ≠ set → t.me.recent n = c.recent n) ∧ still s { t.me with tags := c.tags, recency := c.recency } = c) ∧
    (SReady tk [sa] s → ∃ t, exec (.tinv sa way tk) s = .next t ∧ Completes .s tk 1 s t ∧
        Writes 0 c.tags t.me.tags (8 * set + way.toNat) (entry c way.toNat &&& ~~~1) ∧
        t.me.recent set = (c.recent set).filter (fun x => decide (x ≠ way.toNat)) ++ [way.toNat] ∧
        (∀ n, n ≠ set → t.me.recent n = c.recent n) ∧ still s { t.me with tags := c.tags, recency := c.recency } = c)

/-- R197, R198, R201 to R203: a load, an AMO or a CAS enters its queues, and its destination is still to be loaded. -/
def Obligations.LoadsAndAtomicsEnterTheirQueues : Prop :=
  ∀ s (tk : BitVec 3) (sd sa obs : BitVec 6) (w : BitVec 1) (aop : BitVec 4),
    let q := s.me.getS sa
    let places := fifosPushed .s (s.me.tokenSet .s tk)
    let n := if w = 0 then 8 else 4
    let m := if aop = 9 then 4 else 8
    let bytes (k : Nat) (v : Word) : List Byte := natLE k v.toNat
    let enters (i : Instr) (store : Bool) (kind : AccKind) (n : Nat) (data : List Byte) (obs : BitVec 6) : Prop :=
      ∃ t path, exec i s = .next t ∧ Issued .s tk 1 s t ∧ t.me.sOrd = s.me.sOrd + 1 ∧
        Entered true store (sEntry s kind (onePiece q n data) (s.me.sKey sd.toNat) obs places path) s t
    SReady tk [sd, sa] s → qSpc q ≠ 3 → (s.me.loads .s).length < 32 →
    (undeclaredAccess s s.cur q n false = false → enters (.ld sd sa w tk) false .load n [] 0 ∧
      enters (.ldacq sd sa obs w tk) false .load n [] obs) ∧
    ((s.me.stores .s).length < 32 →
      (¬ (aop = 9 ∧ detInForce s = true) → undeclaredAccess s s.cur q m true = false →
        enters (.amo sd sa obs aop tk) true (.amo aop.toNat) m (bytes m (s.me.getS sd)) obs) ∧
      (sBusy s.me (sd + 1) = false → undeclaredAccess s s.cur q 8 true = false →
        enters (.cas sd sa obs tk) true .cas 8 (bytes 8 (s.me.getS sd) ++ bytes 8 (s.me.getS (sd + 1))) obs))

/-- R197 to R199, R204, R138: a store or a DRED completes as it enters the store queue, and a store to W that nothing stands
before leaves it at once, to land 12 cycles later; MARK and FENCE enter both queues; under det an AMO that adds FP32 numbers is
a DRED that leaves zero. -/
def Obligations.StoresAndFencesEnterTheirQueues : Prop :=
  ∀ s (tk : BitVec 3) (ss sa obs : BitVec 6) (w : BitVec 1) (aop pg : BitVec 4),
    let q := s.me.getS sa
    let n := if w = 0 then 8 else 4
    let m := if aop = 9 then 4 else 8
    let places := fifosPushed .s (s.me.tokenSet .s tk)
    let stores (i : Instr) (kind : AccKind) (n : Nat) (obs : BitVec 6) : Prop :=
      ∃ t path, exec i s = .next t ∧ Completes .s tk 1 s t ∧ t.me.sOrd = s.me.sOrd + 1 ∧
        Entered false true (sEntry s kind (onePiece q n (natLE n (s.me.getS ss).toNat)) 0 obs [] path) s t
    let both (i : Instr) (kind : AccKind) (obs : BitVec 6) : Prop :=
      ∃ t path, exec i s = .next t ∧ Issued .s tk 1 s t ∧ t.me.sOrd = s.me.sOrd + 1 ∧
        Entered true true (sEntry s kind [] 0 obs places path) s t
    let flying : Prop := ∃ f ∈ s.wFlight, f.g = s.cur ∧ f.e = .s
    let leaves (i : Instr) (ms : List Nat) : Prop :=
      ∃ t, exec i s = .next t ∧ { t with cores := s.cores, wFlight := s.wFlight } = s ∧ (∀ g, g ≠ s.cur → t.core g = s.core g) ∧
        SameMemory s t ∧ TokensMoved .s tk s t ∧ WentOn .s 1 s t ∧ t.me.sOrd = s.me.sOrd + 1 ∧
        t.wFlight = s.wFlight ++ [{ g := s.cur, e := .s, idx := coreX s.cur - s.me.placeOf.px, due := s.now + 12, members := ms,
                                    addr := qAddr q, data := natLE n (s.me.getS ss).toNat, mask := 0xFFFF }] ∧
        (∀ e, t.me.loads e = s.me.loads e ∧ t.me.stores e = s.me.stores e) ∧
        still s { t.me with lq := s.me.lq, stq := s.me.stq, sOrd := s.me.sOrd } = s.me
    SReady tk [ss, sa] s → (s.me.stores .s).length < 32 →
    (qSpc q ≠ 3 → undeclaredAccess s s.cur q n true = false →
      stores (.st ss sa w tk) .store n 0 ∧ stores (.strel ss sa obs w tk) .store n obs) ∧
    (∀ ms, qSpc q = 3 → formFault q = none → qByte q % n = 0 → wMembers s.me.placeOf s.cur (qMask q) = some ms →
      wRefused s s.cur ms = false → undeclaredAccess s s.cur q n true = false → s.me.loads .s = [] → s.me.stores .s = [] →
      s.me.stores .v = [] → s.me.pend = [] → NotEnding s.cur s →
      leaves (.st ss sa w tk) ms ∧ (obs &&& 0x0F = 0 ∨ ¬ flying → leaves (.strel ss sa obs w tk) ms)) ∧
    (qSpc q = 0 ∨ 4 ≤ qSpc q → undeclaredAccess s s.cur q m true = false → stores (.dred ss sa aop tk) (.dred aop.toNat) m 0) ∧
    ((s.me.loads .s).length < 32 →
      (s.me.getP pg = true → both (.mark pg tk) .mark 0) ∧
      (s.me.getP pg = false → ∃ t, exec (.mark pg tk) s = .next t ∧ Completes .s tk 1 s t ∧ still s t.me = s.me) ∧
      both (.fence obs tk) .fence obs ∧
      (detInForce s = true → qSpc q = 0 ∨ 4 ≤ qSpc q → undeclaredAccess s s.cur q 4 true = false →
        ∃ t path, exec (.amo ss sa obs 9 tk) s = .next t ∧ Completes .s tk 1 s t ∧ t.me.sOrd = s.me.sOrd + 1 ∧
          t.me.stores .s = s.me.stores .s ++ [sEntry s (.dred 9) (onePiece q 4 (natLE 4 (s.me.getS ss).toNat)) 0 obs [] path] ∧
          t.me.loads .s = s.me.loads .s ∧ SReg ss 0 s t))

namespace Sys2Proof.Claims
open Sys2Proof.Machine

/-- Core g's unit has taken a fault (20 R374 to R377): the unit is stopped, its faulted stream issues no more, nothing else of the cores
differs and no byte of memory; the purge of its tag runs; and where the core's bank held no uncorrectable record, it holds this one. -/
def TookFault (g code src pc : Nat) (addr ebx : Word) (s t : State) : Prop :=
  t.core g = (s.core g).faultedBy src ∧ (∀ h, h ≠ g → t.core h = s.core h) ∧ SameMemory s t ∧
    (∃ p ∈ t.purges, p.tag = (s.core g).unitTag) ∧
    (¬ ((s.bank (.core g)).ebs.getLsbD 0 = true ∧ (s.bank (.core g)).ebs.getLsbD 1 = true) →
      let b := t.bank (.core g)
      b.ebs.getLsbD 0 = true ∧ b.ebs.getLsbD 1 = true ∧ b.ebs.extractLsb' 8 8 = BitVec.ofNat 8 code ∧
        b.ebs.extractLsb' 16 4 = BitVec.ofNat 4 src ∧ b.eba = addr ∧ b.ebx = ebx ∧ b.ebc.extractLsb' 16 32 = BitVec.ofNat 32 pc ∧
        b.ebc.extractLsb' 0 16 = (s.core g).unitTag)

/-- No access of a stream is unperformed, and nothing waits for one. -/
def Quiet (e : Eng) (s : State) : Prop := accPending s s.cur e true s.me.sOrd = false ∧ s.me.pend = [] ∧ NotEnding s.cur s

/-- An ending instruction has issued and is still to complete: its tokens are popped and its places reserved, and its stream issues
nothing more (06 R118, R122). -/
def EndIssued (e : Eng) (tk : BitVec 3) (s t : State) : Prop :=
  OnlyMe s t ∧ SameMemory s t ∧
    (∀ f, t.me.fifo f = if f ∈ fifosPopped e (s.me.tokenSet e tk) then (s.me.fifo f).tail else s.me.fifo f) ∧
    (∀ f, Tbl.get 0 t.me.reserved f = Tbl.get 0 s.me.reserved f + if f ∈ fifosPushed e (s.me.tokenSet e tk) then 1 else 0) ∧
    (t.me.stream e).ending = some (fifosPushed e (s.me.tokenSet e tk)) ∧ (t.me.stream e).ended = (s.me.stream e).ended ∧
    (∀ now, t.me.mayIssue e now = false) ∧ (∀ e', e' ≠ e → t.me.stream e' = s.me.stream e') ∧ still s t.me = s.me

/-- An ending instruction has issued with nothing left to wait for: its tokens have moved and its stream has ended (06 R122). -/
def Ends (e : Eng) (tk : BitVec 3) (s t : State) : Prop :=
  SameMemory s t ∧ TokensMoved e tk s t ∧ (t.me.stream e).ended = true ∧ (t.me.stream e).ending = none ∧
    ∀ e', e' ≠ e → t.me.stream e' = s.me.stream e'

end Sys2Proof.Claims

/-- R116, R192: JR lands on the SIG word of a block whose line its buffer holds; any other target faults, in the order
ALIGN, PROTECT, SIGMISMATCH, logged at the address that the target names. -/
def Obligations.RegisterBranch : Prop :=
  ∀ s (tk : BitVec 3) (sa : BitVec 6) (pg : BitVec 4), SReady tk [sa] s →
    let target := (s.me.getS sa).toNat
    let text := s.me.text .s
    let st := s.me.stream .s
    let isBlock : Prop := (st.word target).extractLsb' 25 7 = 0x7F
    let addr := BitVec.ofNat 64 (text.1 + target)
    (s.me.getP pg = false → ∃ t, exec (.jr sa pg tk) s = .next t ∧ Completes .s tk 1 s t ∧ still s t.me = s.me) ∧
    (s.me.getP pg = true →
      (target % 4 = 0 → target < text.2 → target / 256 ∈ st.lines → isBlock →
        ∃ t, exec (.jr sa pg tk) s = .next t ∧ Branches .s tk target true s t ∧ still s t.me = s.me) ∧
      (∀ code, (if target % 4 ≠ 0 then code = 0x0F else if text.2 ≤ target then code = 0x06 else
          target / 256 ∈ st.lines ∧ ¬ isBlock ∧ code = 0x02) →
        ∃ t, exec (.jr sa pg tk) s = .next t ∧ t.me.stopped = true ∧ SameMemory s t ∧ t.me.s = s.me.s ∧
          (s.bank (.core s.cur) = Bank.reset → (t.bank (.core s.cur)).ebs.extractLsb' 8 8 = BitVec.ofNat 8 code ∧
            (t.bank (.core s.cur)).eba = addr ∧ (t.bank (.core s.cur)).ebc.extractLsb' 16 32 = BitVec.ofNat 32 (s.me.stream .s).pc)))

/-- R134, R196: UIRET leaves the handler: the banks switch back, ACT clears, and the block that holds EPC is to be fetched and
checked again, but for what of it lies in the lines of the handler's block (R116); outside a handler it faults with ILLEGAL at issue. -/
def Obligations.ReturnFromHandler : Prop :=
  ∀ s (tk : BitVec 3) (pg : BitVec 4), SReady tk [] s →
    (s.me.getP pg = false → ∃ t, exec (.uiret pg tk) s = .next t ∧ Completes .s tk 1 s t ∧ still s t.me = s.me) ∧
    (s.me.getP pg = true → s.me.uiact = true →
      ∃ t, exec (.uiret pg tk) s = .next t ∧ OnlyMe s t ∧ SameMemory s t ∧ TokensMoved .s tk s t ∧
        still s { t.me with uiact := s.me.uiact, uiBound := s.me.uiBound } = s.me ∧ t.me.uiact = false ∧
        (∀ e, e ≠ .s → t.me.stream e = s.me.stream e) ∧
        (t.me.stream .s).pc = s.me.uiBlk ∧ (t.me.stream .s).ready = s.now + 4 ∧ (t.me.stream .s).lo = (t.me.stream .s).hi ∧
        ((t.me.stream .s).resume).getD s.me.uiBlk = s.me.uiepc.toNat % 2 ^ 32 ∧
        (s.me.hLine (s.me.uiBlk / 256) = false → s.me.uiBlk / 256 ∉ (t.me.stream .s).lines)) ∧
    (s.me.getP pg = true → s.me.uiact = false →
      ∃ t, exec (.uiret pg tk) s = .next t ∧
        TookFault s.cur 0x01 0 (s.me.stream .s).pc (BitVec.ofNat 64 ((s.me.text .s).1 + (s.me.stream .s).pc)) 0 s t)

/-- R195: TRAP faults with ILLEGAL, its code in EBX, before anything is popped; SYSC waits for its answer with its places
reserved; the answer stands in s8, and S goes on. -/
def Obligations.TrapAndServiceCall : Prop :=
  ∀ s (tk : BitVec 3) (code : BitVec 16),
    (SReady tk [] s → ∃ t, exec (.trap code tk) s = .next t ∧
      TookFault s.cur 0x01 0 (s.me.stream .s).pc (BitVec.ofNat 64 ((s.me.text .s).1 + (s.me.stream .s).pc)) (code.zeroExtend 64) s t) ∧
    (SReady tk [8] s → ∃ t, exec (.sysc code tk) s = .next t ∧ OnlyMe s t ∧ SameMemory s t ∧
      t.me.sysc = some (code.toNat, fifosPushed .s (s.me.tokenSet .s tk)) ∧ still s { t.me with sysc := s.me.sysc } = s.me ∧
      (t.me.stream .s).pc = (s.me.stream .s).pc) ∧
    (∀ g places, (s.core g).sysc = some (code.toNat, places) → (s.core g).runs = true → dispOk s = true →
      ∃ t, exec (.syscAnswer g) s = .next t ∧ (t.core g).sysc = none ∧ SameMemory s t ∧ (∀ h, h ≠ g → t.core h = s.core h) ∧
        (t.core g).getS 8 = (match code.toNat with
          | 0 => 0
          | 1 => BitVec.ofNat 64 s.now
          | 2 => BitVec.ofNat 64 (((s.core g).unit.map WorkUnit.record).getD 0)
          | 3 => (((s.core g).unit.map WorkUnit.handle).getD 0).zeroExtend 64
          | _ => BitVec.allOnes 64) ∧
        (∀ r, r ≠ 8 → (t.core g).getS r = (s.core g).getS r) ∧ ((t.core g).stream .s).pc = ((s.core g).stream .s).pc + 4)

/-- R122, R194, R218: END issues, and ends the stream once its accesses are performed: at once where they are, and what it declared is
discarded; until then S issues nothing more. -/
def Obligations.EndOfTheScalarStream : Prop :=
  ∀ s (tk : BitVec 3) (pg : BitVec 4), SReady tk [] s →
    (s.me.getP pg = false → ∃ t, exec (.endS pg tk) s = .next t ∧ Completes .s tk 1 s t ∧ still s t.me = s.me) ∧
    (s.me.getP pg = true → accPending s s.cur .s true (s.me.sOrd + 1) = true ∨ s.me.subs ≠ [] ∨ (∃ p ∈ s.me.pend, p.e = .s) →
      ∃ t, exec (.endS pg tk) s = .next t ∧ EndIssued .s tk s t) ∧
    (s.me.getP pg = true → s.me.stopped = false → accPending s s.cur .s true (s.me.sOrd + 1) = false → (∀ p ∈ s.me.pend, p.e ≠ .s) → s.me.subs = [] →
      s.me.boundQ = [] →
      ∃ t, exec (.endS pg tk) s = .next t ∧ OnlyMe { s with meridian := t.meridian } t ∧ Ends .s tk s t ∧
        (∀ i, i < 4 → (t.me.ofSlot i).st = .free ∧ (t.me.ofSlot i).gen = (s.me.ofSlot i).gen ∧
          ((s.me.ofSlot i).st = .submitted ∨ (s.me.ofSlot i).st = .granted →
            ∀ u ∈ t.meridian.queues, ∀ r ∈ u.2, r.tx ≠ (s.me.ofSlot i).tx)) ∧
        still s { t.me with ofs := s.me.ofs } = s.me)

/-- R208, R334: BINIT, before the arrivals of its cycle, writes MODE, EXP and NEED and clears the rest, also for a phase whose close is
still under way; BEXP raises NEED of a local object. -/
def Obligations.BarrierSetUp : Prop :=
  ∀ s (tk : BitVec 3) (b sa : BitVec 6), SReady tk [sa] s →
    let v := s.me.getS sa
    let mode := (v.extractLsb' 0 3).toNat
    let exp := (v.extractLsb' 8 16).toNat
    let w := s.me.barrier b.toNat
    let others (t : State) : Prop := ∀ k, k ≠ b.toNat → t.me.barrier k = s.me.barrier k
    ((mode = 1 ∧ 1 ≤ exp ∨ 2 ≤ mode ∧ mode ≤ 5 ∧ exp = 0 ∧ (Tbl.get 0 s.me.dom (mode - 1)).extractLsb' 24 24 ≠ 0) →
      v = BitVec.ofNat 64 (mode + 2 ^ 8 * exp) → (Tbl.get Arrived.none s.me.arrived b.toNat).atNode = false →
      (∀ x ∈ s.me.cyc.arr, x.1 ≠ b.toNat) → ∃ t, exec (.binit b sa tk) s = .next t ∧ Completes .s tk 1 { s with closes := t.closes } t ∧
        t.closes = s.closes.map (fun x => if x.ofObject s.cur b.toNat = true then { x with why := .reset } else x) ∧
        t.me.barrier b.toNat = BitVec.ofNat 64 (mode + 2 ^ 8 * exp + 2 ^ 24 * exp) ∧ others t ∧
        (∀ e k, k < 64 → t.me.seenOf e k = if k = b.toNat then 0 else s.me.seenOf e k) ∧
        Writes [] s.me.bOwes t.me.bOwes (64 + b.toNat) [] ∧
        still s { t.me with bobj := s.me.bobj, seen := s.me.seen, bOwes := s.me.bOwes } = s.me) ∧
    (bMode w = 1 → 1 ≤ v.toNat → v.toNat ≤ 65535 → bNeed w + v.toNat ≤ 65535 →
      ∃ t, exec (.bexp b sa tk) s = .next t ∧ Completes .s tk 1 s t ∧ others t ∧
        bNeed (t.me.barrier b.toNat) = bNeed w + v.toNat ∧ bMode (t.me.barrier b.toNat) = 1 ∧ bExp (t.me.barrier b.toNat) = bExp w ∧
        bPhase (t.me.barrier b.toNat) = bPhase w ∧ bFlt (t.me.barrier b.toNat) = bFlt w ∧ bDamc (t.me.barrier b.toNat) = bDamc w ∧
        still s { t.me with bobj := s.me.bobj } = s.me)

/-- R211: WFE takes a set latch and clears it; SEV sets its own core's latch (L) or another's (N), but for one that a WFE of the
same cycle has taken, and through W those of its members 12 cycles later. -/
def Obligations.EventInstructions : Prop :=
  ∀ s (tk : BitVec 3) (sa : BitVec 6) (e : BitVec 5),
    (SReady tk [] s → s.me.latch = true →
      ∃ t, exec (.wfe e tk) s = .next t ∧ Completes .s tk 1 s t ∧ t.me.latch = false ∧ t.me.cyc.wfe = true ∧
        still s { t.me with latch := s.me.latch } = s.me) ∧
    (SReady tk [sa] s → Quiet .s s →
      let q := s.me.getS sa
      let sets (t : State) (g : Nat) : Prop := TokensMoved .s tk s t ∧ WentOn .s 1 s t ∧ SameMemory s t ∧ { t with cores := s.cores } = s ∧
        still s { t.me with latch := s.me.latch } = s.me ∧ (t.core g).latch = (if (s.core g).cyc.wfe then (s.core g).latch else true) ∧
        (g ≠ s.cur → t.core g = { s.core g with latch := (t.core g).latch }) ∧
        ∀ h, h ≠ g → (t.core h).latch = (s.core h).latch ∧ (h ≠ s.cur → t.core h = s.core h)
      (qSpc q = 1 → formFault q = none → ∃ t, exec (.sev sa tk) s = .next t ∧ sets t s.cur) ∧
      (∀ g, qSpc q = 2 → formFault q = none → nTarget s.me.placeOf s.cur q = some g → tagCheck s s.cur g = none →
        g = s.cur ∨ (s.core g).zeroing = none → ∃ t, exec (.sev sa tk) s = .next t ∧ sets t g) ∧
      (∀ ms, qSpc q = 3 → formFault q = none → wMembers s.me.placeOf s.cur (qMask q) = some ms →
        (∀ m ∈ ms, tagCheck s s.cur m = none ∧ (s.core m).zeroing = none) →
        ∃ t, exec (.sev sa tk) s = .next t ∧ t.sevFlight = s.sevFlight ++ ms.map (fun m => (m, s.now + 12)) ∧
          { t with cores := s.cores, sevFlight := s.sevFlight } = s ∧ (∀ h, h ≠ s.cur → t.core h = s.core h) ∧
          TokensMoved .s tk s t ∧ WentOn .s 1 s t ∧ SameMemory s t ∧ still s t.me = s.me))

/-- R212, R213, R217, R364: OFOPEN takes a free slot under a new generation, which of them depends on nothing but which are free (MODEL'S
CHOICE, log 10), OFDECL adds a range of D tiles or of slots. OFEND frees the slot: of a transaction that has not been submitted, with
nothing ordered; of a submitted one, once it is granted, and its places are given up; of a granted one at once, while its grants are
released when every earlier S access has been performed. -/
def Obligations.OrderFirstDeclaration : Prop :=
  ∃ pick : List Nat → Nat, ∀ s (tk : BitVec 3) (sd sh sa sc : BitVec 6) (rw : BitVec 4),
    let named (h : Word) (i : Nat) : Prop := i < 4 ∧ h = BitVec.ofNat 64 (i + 4 * (s.me.ofSlot i).gen.toNat)
    let others (t : State) (i : Nat) : Prop := ∀ j, j ≠ i → t.me.ofSlot j = s.me.ofSlot j
    (∀ j, SReady tk [sd] s → j < 4 → (s.me.ofSlot j).st = .free →
      let i := pick ((List.range 4).filter (fun k => decide ((s.me.ofSlot k).st = .free)))
      ∃ t, exec (.ofopen sd tk) s = .next t ∧ i < 4 ∧ (s.me.ofSlot i).st = .free ∧ Completes .s tk 1 s t ∧
        t.me.ofSlot i = { OfSlot.reset with st := .opened, gen := (s.me.ofSlot i).gen + 1 } ∧ others t i ∧
        SReg sd (BitVec.ofNat 64 (i + 4 * ((s.me.ofSlot i).gen + 1).toNat)) s t ∧
        still s { t.me with ofs := s.me.ofs, s := s.me.s } = s.me) ∧
    (∀ i, SReady tk [sh] s → named (s.me.getS sh) i → (s.me.ofSlot i).st = .opened →
      ∃ t, exec (.ofend sh tk) s = .next t ∧ Completes .s tk 1 s t ∧ t.me.ofSlot i = { OfSlot.reset with gen := (s.me.ofSlot i).gen } ∧
        others t i ∧ still s { t.me with ofs := s.me.ofs } = s.me) ∧
    (∀ i, SReady tk [sh] s → named (s.me.getS sh) i →
      let tx := (s.me.ofSlot i).tx
      let freed (t : State) : Prop := t.me.ofSlot i = { OfSlot.reset with gen := (s.me.ofSlot i).gen } ∧ others t i
      let released (t : State) : Prop := (∀ u ∈ t.meridian.queues, ∀ r ∈ u.2, r.tx ≠ tx) ∧ (∀ y ∈ t.meridian.txs, y.id = tx → y.released = true)
      ((s.me.ofSlot i).st = .submitted → (s.me.ofSlot i).ready = true →
        ∃ t, exec (.ofend sh tk) s = .next t ∧ Completes .s tk 1 { s with meridian := t.meridian } t ∧ freed t ∧ released t ∧
          still s { t.me with ofs := s.me.ofs } = s.me) ∧
      ((s.me.ofSlot i).st = .submitted → (s.me.ofSlot i).ready = false → (s.me.ofSlot i).lost = false →
        ∃ t w, exec (.ofend sh tk) s = .next t ∧ OnlyMe s t ∧ SameMemory s t ∧ (t.me.stream .s).wait = some w ∧
          (t.me.stream .s).pc = (s.me.stream .s).pc ∧ still s t.me = s.me ∧ t.me.tokens = s.me.tokens) ∧
      ((s.me.ofSlot i).st = .granted → s.me.pend = [] → NotEnding s.cur s →
        (accPending s s.cur .s true s.me.sOrd = false → owed s s.cur .s = false →
          ∃ t, exec (.ofend sh tk) s = .next t ∧ Completes .s tk 1 { s with meridian := t.meridian } t ∧ freed t ∧ released t ∧
            still s { t.me with ofs := s.me.ofs } = s.me) ∧
        (accPending s s.cur .s true s.me.sOrd = true →
          ∃ t p, exec (.ofend sh tk) s = .next t ∧ Issued .s tk 1 s t ∧ freed t ∧ t.me.pend = [p] ∧ p.kind = .ofend tx ∧
            still s { t.me with ofs := s.me.ofs, pend := s.me.pend } = s.me))) ∧
    (∀ i, SReady tk [sh, sa, sc] s → named (s.me.getS sh) i → (s.me.ofSlot i).st = .opened → (s.me.ofSlot i).ranges.length < 16 →
      let q := s.me.getS sa
      let n := (s.me.getS sc).toNat
      let adds (r : OfRange) : Prop := ∃ t, exec (.ofdecl sh sa sc rw tk) s = .next t ∧ Completes .s tk 1 s t ∧
        t.me.ofSlot i = { s.me.ofSlot i with ranges := (s.me.ofSlot i).ranges ++ [r] } ∧ others t i ∧
        still s { t.me with ofs := s.me.ofs } = s.me
      1 ≤ n → n ≤ 65536 → formFault q = none →
      (qSpc q = 0 → qVa q / 4096 + n ≤ 2 ^ 45 →
        adds { space := 0, core := 0, first := qVa q / 4096, count := n, write := decide (rw.toNat = 1) }) ∧
      (qSpc q = 1 → qAddr q / 4096 + n ≤ 2048 →
        adds { space := 1, core := s.cur, first := qAddr q / 4096, count := n, write := decide (rw.toNat = 1) }) ∧
      (∀ g, qSpc q = 2 → nTarget s.me.placeOf s.cur q = some g → tagCheck s s.cur g = none → qAddr q / 4096 + n ≤ 2048 →
        adds { space := 1, core := g, first := qAddr q / 4096, count := n, write := decide (rw.toNat = 1) }))

/-- R214, R215, R388: OFSUB sends an OPEN transaction on its way; OFWAIT returns 1 once every declared unit is granted, or
0 with FABRIC_UNREACHABLE where one lies on a fenced die. -/
def Obligations.OrderFirstSubmission : Prop :=
  ∀ s (tk : BitVec 3) (sh : BitVec 6) (pd : BitVec 4) (e : BitVec 5) (i : Nat), SReady tk [sh] s → i < 4 →
    s.me.getS sh = BitVec.ofNat 64 (i + 4 * (s.me.ofSlot i).gen.toNat) →
    let o := s.me.ofSlot i
    let others (t : State) : Prop := ∀ j, j ≠ i → t.me.ofSlot j = s.me.ofSlot j
    (o.st = .opened → ∃ t path, exec (.ofsub sh tk) s = .next t ∧ Issued .s tk 1 s t ∧ t.me.ofSlot i = { o with st := .submitting } ∧ others t ∧
      t.me.subs = s.me.subs ++ [(i, s.now, (s.me.stream .s).pc, fifosPushed .s (s.me.tokenSet .s tk), path)] ∧
      still s { t.me with ofs := s.me.ofs, subs := s.me.subs } = s.me) ∧
    (o.st = .submitted ∨ o.st = .granted → o.ready = true → o.lost = false →
      ∃ t, exec (.ofwait pd sh e tk) s = .next t ∧ Completes .s tk 1 s t ∧ t.me.ofSlot i = { o with st := .granted } ∧ others t ∧
        (∀ k, t.me.getP k = if k = pd ∧ k ≠ 0 then true else s.me.getP k) ∧ still s { t.me with ofs := s.me.ofs, p := s.me.p } = s.me) ∧
    (o.st = .submitted ∨ o.st = .granted → o.lost = true →
      ∃ t, exec (.ofwait pd sh e tk) s = .next t ∧ Completes .s tk 1 { s with meridian := t.meridian } t ∧
        t.me.ofSlot i = { OfSlot.reset with gen := o.gen } ∧ others t ∧
        (∀ k, t.me.getP k = if k = pd ∧ k ≠ 0 then false else s.me.getP k) ∧ t.me.trapcause = 0x13 ∧
        still s { t.me with ofs := s.me.ofs, p := s.me.p, trapcause := s.me.trapcause } = s.me)

namespace Sys2Proof.Claims
open Sys2Proof.Machine

/- The V stream. -/

/-- A V instruction that needs these registers can issue: its tokens and places are there and no register is still to be
loaded; its rows are not divided, and no kernel ends behind it (06 R115, R128 to R130). -/
def VReady (tk : BitVec 3) (regs : List (BitVec 6)) (s : State) : Prop :=
  Ready .v tk s ∧ (∀ r ∈ regs, vBusy s.me r = false) ∧ s.me.groups = [] ∧
    ∀ l, s.me.vloop = some l → (s.me.stream .v).pc + 4 ≠ l.hi

/-- Every enabled element of width w of register vd is as f says, the others keep theirs, and FSTK has collected the
flags of the enabled ones; nothing else of the core has changed (11 R242, R244, 01 R21). -/
def VWrote (pg : BitVec 4) (vd : BitVec 6) (w : Nat) (f : Nat → Nat × Flags) (s t : State) : Prop :=
  (∀ j, j < 32768 / w → vElem w (t.me.getV vd) j = if vOn (s.me.vMask pg) w j then (f j).1 % 2 ^ w else vElem w (s.me.getV vd) j) ∧
    (∀ k, k ≠ s.me.vPhys vd → Tbl.get 0 t.me.v k = Tbl.get 0 s.me.v k) ∧
    (∀ b, t.me.fstk.getLsbD b = (s.me.fstk.getLsbD b || (List.range (32768 / w)).any (fun j => vOn (s.me.vMask pg) w j && (f j).2.getLsbD b))) ∧
    still s { t.me with v := s.me.v, fstk := s.me.fstk } = s.me

/-- Instruction i completes as it issues and leaves f in register vd, element by element. -/
def VResult (i : Instr) (tk : BitVec 3) (pg : BitVec 4) (vd : BitVec 6) (srcs : List (BitVec 6)) (may : State → Prop) (w : State → Nat)
    (f : State → Nat → Nat × Flags) : Prop :=
  ∀ s, VReady tk (vd :: srcs) s → may s → ∃ t, exec i s = .next t ∧ Completes .v tk 1 s t ∧ VWrote pg vd (w s) (f s) s t

/-- Instruction i leaves b in the enabled bits of V predicate pd, p0 discarding them; nothing else of the core changes. -/
def VpResult (i : Instr) (tk : BitVec 3) (pg pd : BitVec 4) (srcs : List (BitVec 6)) (may : State → Prop) (b : State → Nat → Bool) : Prop :=
  ∀ s, VReady tk srcs s → may s → ∃ t, exec i s = .next t ∧ Completes .v tk 1 s t ∧
    (∀ k, k < 1024 → (t.me.getVp pd).getLsbD k = if pd ≠ 0 ∧ (s.me.vMask pg).getLsbD k = true then b s k else (s.me.getVp pd).getLsbD k) ∧
    (∀ r, r ≠ pd → t.me.getVp r = s.me.getVp r) ∧ still s { t.me with vp := s.me.vp } = s.me

/-- Element j of register n at the width in force. -/
def elemOf (s : State) (n : BitVec 6) (j : Nat) : Nat := vElem s.me.vw (s.me.getV n) j

/-- A code of w bits as two's complement. -/
def signed (w a : Nat) : Int := if a < 2 ^ (w - 1) then a else (a : Int) - 2 ^ w
/-- The code of w bits of an integer, wrapping. -/
def wrapped (w : Nat) (x : Int) : Nat := (x % 2 ^ w).toNat

abbrev Reg3 := BitVec 6 → BitVec 6 → BitVec 6 → BitVec 4 → BitVec 3 → Instr

/-- The floating-point forms of two and three sources (11 R247, R248), rounded under FPCTL, d the old destination. -/
def vFloat : List (Reg3 × (Word → Fmt → Nat → Nat → Nat → Nat × Flags)) :=
  let v := operandVal
  [(.vadd, fun c f a b _ => vRound c f (addVal (fpRm c) (v c f a) (v c f b))), (.vsub, fun c f a b _ => vRound c f (addVal (fpRm c) (v c f a) (negVal (v c f b)))),
   (.vmul, fun c f a b _ => vRound c f (mulVal (v c f a) (v c f b))), (.vmin, fun c f a b _ => fMin c f a b), (.vmax, fun c f a b _ => fMax c f a b),
   (.vfma, fun c f a b d => vRound c f (addVal (fpRm c) (mulVal (v c f a) (v c f b)) (v c f d))),
   (.vfms, fun c f a b d => vRound c f (addVal (fpRm c) (mulVal (v c f a) (v c f b)) (negVal (v c f d)))),
   (.vfnma, fun c f a b d => vRound c f (addVal (fpRm c) (negVal (mulVal (v c f a) (v c f b))) (v c f d)))]

/-- Those of one source (11 R248, R249). -/
def vFloat1 : List ((BitVec 6 → BitVec 6 → BitVec 4 → BitVec 3 → Instr) × (Word → Fmt → Nat → Nat × Flags)) :=
  [(.vabs, fun _ f a => (match decodeVal f a with | .nan => f.nanCode | _ => a % 2 ^ (f.width - 1), flNone)),
   (.vneg, fun _ f a => (match decodeVal f a with | .nan => f.nanCode | _ => a ^^^ 2 ^ (f.width - 1), flNone)),
   (.vrcp, fun c f a => vRound c f (specialVal .rcp (operandVal c f a))), (.vrsq, fun c f a => vRound c f (specialVal .rsq (operandVal c f a))),
   (.vsqrt, fun c f a => vRound c f (specialVal .sqrt (operandVal c f a))), (.vexp2, fun c f a => vRound c f (specialVal .exp2 (operandVal c f a))),
   (.vlog2, fun c f a => vRound c f (specialVal .log2 (operandVal c f a)))]

/-- The integer forms of two sources on w bits (11 R252). -/
def vInteger : List (Reg3 × (Nat → Nat → Nat → Nat)) :=
  [(.viadd, fun w a b => wrapped w (a + b)), (.visub, fun w a b => wrapped w ((a : Int) - b)), (.vimul, fun w a b => wrapped w (a * b)),
   (.vimulh, fun w a b => wrapped w (signed w a * signed w b / 2 ^ w)), (.vand, fun _ a b => a &&& b), (.vor, fun _ a b => a ||| b),
   (.vxor, fun _ a b => a ^^^ b), (.vshl, fun w a b => wrapped w (a * 2 ^ (b % w))), (.vshrl, fun w a b => a / 2 ^ (b % w)),
   (.vshra, fun w a b => wrapped w (signed w a / 2 ^ (b % w))), (.vimin, fun w a b => if signed w a ≤ signed w b then a else b),
   (.vimax, fun w a b => if signed w a ≤ signed w b then b else a)]

/-- The compares (11 R253): the relation of two elements. -/
def vRelations : List ((BitVec 4 → BitVec 6 → BitVec 6 → BitVec 4 → BitVec 3 → Instr) × Bool × (State → Nat → Nat → Bool)) :=
  let fp (ok : Ordering → Bool) (s : State) (a b : Nat) : Bool :=
    match cmpVal (operandVal s.me.fpctl s.me.vf a) (operandVal s.me.fpctl s.me.vf b) with | some o => ok o | none => false
  [(.vceq, false, fun _ a b => decide (a = b)), (.vclt, false, fun s a b => decide (signed s.me.vw a < signed s.me.vw b)),
   (.vcle, false, fun s a b => decide (signed s.me.vw a ≤ signed s.me.vw b)), (.vfceq, true, fp (fun o => o == .eq)),
   (.vfclt, true, fp (fun o => o == .lt)), (.vfcle, true, fp (fun o => o != .gt))]

/-- Word k of register n. -/
def wordOf (s : State) (n : BitVec 6) (k : Nat) : Nat := vElem 32 (s.me.getV n) k

end Sys2Proof.Claims

/-- R247 to R249, R251: the floating-point instructions of the V engine, element by element. -/
def Obligations.VectorFloatingPoint : Prop :=
  (∀ x ∈ vFloat, ∀ vd va vb pg tk, VResult (x.1 vd va vb pg tk) tk pg vd [va, vb] (fun s => s.me.vmode.toNat ≠ 3) (fun s => s.me.vw)
    (fun s j => x.2 s.me.fpctl s.me.vf (elemOf s va j) (elemOf s vb j) (elemOf s vd j))) ∧
  (∀ x ∈ vFloat1, ∀ vd va pg tk, VResult (x.1 vd va pg tk) tk pg vd [va] (fun s => s.me.vmode.toNat ≠ 3) (fun s => s.me.vw)
    (fun s j => x.2 s.me.fpctl s.me.vf (elemOf s va j))) ∧
  ∀ vd va vb pg tk, VResult (.vdot vd va vb pg tk) tk pg vd [va, vb] (fun s => s.me.vmode.toNat ≠ 0) (fun _ => 32)
    (fun s k => fDot s.me.fpctl s.me.vmode (wordOf s vd k) (wordOf s va k) (wordOf s vb k))

/-- R252: the integer instructions of the V engine, element by element at the width in force. -/
def Obligations.VectorIntegers : Prop :=
  (∀ x ∈ vInteger, ∀ vd va vb pg tk, VResult (x.1 vd va vb pg tk) tk pg vd [va, vb] (fun _ => True) (fun s => s.me.vw)
    (fun s j => (x.2 s.me.vw (elemOf s va j) (elemOf s vb j), flNone))) ∧
  ∀ vd va pg tk,
    VResult (.vpopc vd va pg tk) tk pg vd [va] (fun _ => True) (fun s => s.me.vw)
      (fun s j => ((List.range s.me.vw).countP (fun i => (elemOf s va j).testBit i), flNone)) ∧
    VResult (.vclz vd va pg tk) tk pg vd [va] (fun _ => True) (fun s => s.me.vw)
      (fun s j => (if elemOf s va j = 0 then s.me.vw else s.me.vw - 1 - Nat.log2 (elemOf s va j), flNone))

/-- R253, R254: a compare sets a word's bit where its relation holds for every element of the word; the predicate operations. -/
def Obligations.VectorComparesAndPredicates : Prop :=
  (∀ x ∈ vRelations, ∀ pd va vb pg tk, VpResult (x.1 pd va vb pg tk) tk pg pd [va, vb]
    (fun s => x.2.1 = true → s.me.vmode.toNat ≠ 3)
    (fun s k => (List.range (32 / s.me.vw)).all (fun i =>
      x.2.2 s (elemOf s va (32 / s.me.vw * k + i)) (elemOf s vb (32 / s.me.vw * k + i))))) ∧
  ∀ pd pa pb pg tk,
    VpResult (.vpand pd pa pb pg tk) tk pg pd [] (fun _ => True) (fun s k => (s.me.getVp pa).getLsbD k && (s.me.getVp pb).getLsbD k) ∧
    VpResult (.vpor pd pa pb pg tk) tk pg pd [] (fun _ => True) (fun s k => (s.me.getVp pa).getLsbD k || (s.me.getVp pb).getLsbD k) ∧
    VpResult (.vpnot pd pa pg tk) tk pg pd [] (fun _ => True) (fun s k => !(s.me.getVp pa).getLsbD k)

/-- R255 to R257, R272: moves within and between rows, reductions, and loads of a spill slot that holds no poison in the rows
that run. -/
def Obligations.VectorMovesAndReductions : Prop :=
  ∀ (vd va vb n rop : BitVec 6) (pg : BitVec 4) (tk : BitVec 3) (slot : BitVec 5),
    let always : State → Prop := fun _ => True
    let moves (i : Instr) (from_ : Nat → Nat) : Prop := VResult i tk pg vd [va] always (fun _ => 32) (fun s k => (wordOf s va (from_ k), flNone))
    let fpOk (s : State) : Prop := rop.toNat < 3 → s.me.vmode.toNat ≠ 3
    VResult (.vsel vd va vb pg tk) tk 0 vd [va, vb] always (fun _ => 32)
      (fun s k => (if (s.me.getVp pg).getLsbD k then wordOf s va k else wordOf s vb k, flNone)) ∧
    moves (.vmov vd va pg tk) id ∧
    VResult (.viota vd pg tk) tk pg vd [] always (fun s => s.me.vw) (fun _ j => (j, flNone)) ∧
    moves (.vrotr vd va n pg tk) (fun k => (k + 64 * n.toNat) % 1024) ∧
    moves (.vbcr vd va n pg tk) (fun k => 64 * n.toNat + k % 64) ∧
    moves (.vrotc vd va n pg tk) (fun k => k / 64 * 64 + (k + n.toNat) % 64) ∧
    moves (.vbcc vd va n pg tk) (fun k => k / 64 * 64 + n.toNat) ∧
    (∀ s, VReady tk [vd] s → slotBad s.me slot.toNat = none → ∃ t, exec (.vspl vd slot tk) s = .next t ∧
      Completes .v tk 1 (correctSlots s.cur .v 0 (4096 * slot.toNat) 4096 s) t ∧
      VWrote 0 vd 32 (fun k => (vElem 32 (Tbl.get 0 s.me.spillV slot.toNat) k, flNone)) s t) ∧
    VResult (.vredr vd va rop pg tk) tk pg vd [va] fpOk (fun s => s.me.vw) (fun s j =>
      let m := 2048 / s.me.vw
      treeReduce (ropFn rop s.me.fpctl s.me.vmode) 4 ((List.range 16).map (fun r => elemOf s va (m * r + j % m)))) ∧
    VResult (.vredc vd va rop pg tk) tk pg vd [va] fpOk (fun s => s.me.vw) (fun s j =>
      let m := 2048 / s.me.vw
      treeReduce (ropFn rop s.me.fpctl s.me.vmode) (Nat.log2 m) ((List.range m).map (fun c => elemOf s va (m * (j / m) + c))))

/-- R250: VCVT converts 1,024 elements, each at its format's width, a narrower result leaving zeros above. -/
def Obligations.VectorConversion : Prop :=
  ∀ s (vd va : BitVec 6) (cf ct : BitVec 3) (pg : BitVec 4) (tk : BitVec 3), VReady tk [vd, va] s →
    let src := cvtFmt cf
    let dst := cvtFmt ct
    let on (k : Nat) : Bool := (s.me.vMask pg).getLsbD k
    let r (k : Nat) : Nat × Flags :=
      convert src dst (fpRm s.me.fpctl) (fziOf s.me.fpctl src) (fzoOf s.me.fpctl dst) (vElem src.width (s.me.getV va) k)
    ∃ t, exec (.vcvt vd va cf ct pg tk) s = .next t ∧ Completes .v tk 1 s t ∧
      (∀ k, k < 1024 → vElem dst.width (t.me.getV vd) k = if on k then (r k).1 % 2 ^ dst.width else vElem dst.width (s.me.getV vd) k) ∧
      (∀ k, 1024 ≤ k → k < 32768 / dst.width → vElem dst.width (t.me.getV vd) k =
        if s.me.vMask pg = 0 then vElem dst.width (s.me.getV vd) k else 0) ∧
      (∀ k, k ≠ s.me.vPhys vd → Tbl.get 0 t.me.v k = Tbl.get 0 s.me.v k) ∧
      (∀ b, t.me.fstk.getLsbD b = (s.me.fstk.getLsbD b || (List.range 1024).any (fun k => on k && (r k).2.getLsbD b))) ∧
      still s { t.me with v := s.me.v, fstk := s.me.fstk } = s.me

/-- R255, R265, R268, R269, R272: VNOP, VSETF, the spill store, VBCS and VQPUSH. That the words a
spill store overwrites are poisoned no longer, and have no single-bit error, is the MODEL'S CHOICE (log 9). -/
def Obligations.VectorModeQueueAndSpill : Prop :=
  ∀ s (va vd : BitVec 6) (pg : BitVec 4) (tk : BitVec 3) (rm ew : BitVec 2) (e slot : BitVec 5),
    (VReady tk [] s → ∃ t, exec (.vnop pg tk) s = .next t ∧ Completes .v tk 1 s t ∧ still s t.me = s.me) ∧
    (VReady tk [] s → ∃ t, exec (.vsetf rm ew tk) s = .next t ∧ Completes .v tk 1 s t ∧ t.me.vmode = ew ∧
      t.me.fpctl.extractLsb' 0 2 = rm ∧ t.me.fpctl.extractLsb' 2 62 = s.me.fpctl.extractLsb' 2 62 ∧
      still s { t.me with vmode := s.me.vmode, fpctl := s.me.fpctl } = s.me) ∧
    (VReady tk [va] s → ∃ t, exec (.vspr va slot tk) s = .next t ∧ Completes .v tk 1 (overSlot slot.toNat s) t ∧
      (∀ k, k < 1024 → vElem 32 (Tbl.get 0 t.me.spillV slot.toNat) k =
        if (s.me.rows.getLsbD (k / 64)) then wordOf s va k else vElem 32 (Tbl.get 0 s.me.spillV slot.toNat) k) ∧
      (∀ n, n ≠ slot.toNat → Tbl.get 0 t.me.spillV n = Tbl.get 0 s.me.spillV n) ∧
      (∀ x, x ∈ t.me.spillPoison ↔ x ∈ s.me.spillPoison ∧
        ¬ (x.1 = 1 ∧ ∃ r, r < 16 ∧ s.me.rows.getLsbD r = true ∧ 512 * slot.toNat + 32 * r ≤ x.2 ∧ x.2 < 512 * slot.toNat + 32 * r + 32)) ∧
      still s { t.me with spillV := s.me.spillV, spillPoison := s.me.spillPoison } = s.me) ∧
    (∀ x xs, VReady tk [vd] s → s.me.queue 1 = x :: xs → entryPoppable s s.cur 1 x = true →
      ∃ t, exec (.vbcs vd e pg tk) s = .next t ∧ Completes .v tk 1 (acquired 1 1 s) t ∧ (∀ q, t.me.queue q = if q = 1 then xs else s.me.queue q) ∧
        (∀ j, j < 32768 / s.me.vw → vElem s.me.vw (t.me.getV vd) j =
          if vOn (s.me.vMask pg) s.me.vw j then x.val.toNat % 2 ^ s.me.vw else elemOf s vd j) ∧
        (∀ k, k ≠ s.me.vPhys vd → Tbl.get 0 t.me.v k = Tbl.get 0 s.me.v k) ∧
        still s { t.me with v := s.me.v, queues := s.me.queues } = s.me) ∧
    (VReady tk [va] s → (s.me.queue 2).length < 32 →
      ∃ t, exec (.vqpush va e pg tk) s = .next t ∧ Completes .v tk 1 s t ∧
        (∀ q, t.me.queue q = if q = 2 then s.me.queue 2 ++ [QEntry.mk (if s.me.vMask pg = 0 then 0 else (s.me.getV va).extractLsb' 0 64)
          (s.now + 1) s.me.sOrd false (s.me.stream .v).pc] else s.me.queue q) ∧
        still s { t.me with queues := s.me.queues } = s.me)

namespace Sys2Proof.Claims
open Sys2Proof.Machine

/-- The enabled words of a predicate, in ascending order. -/
def lanesOf (m : VPred) : List Nat := (List.range 1024).filter (fun k => m.getLsbD k)

/-- A V access has popped n SQ entries and entered its queues with one part for each enabled word, at `addr`, with the
words of `data` where it has data, under the bound that its word gives or that of DBND; with no word enabled it makes no access
and completes (08 R164, 11 R244, R258, R259). -/
def VEntered (tk : BitVec 3) (pg : BitVec 4) (n : Nat) (load store : Bool) (bound : Option (BitVec 5)) (kind : AccKind) (dst : Nat)
    (bad : Bool) (addr : Nat → Word) (data : Option (BitVec 6)) (i : Instr) (s : State) : Prop :=
  let mask := s.me.vMask pg
  ∃ t path, exec i s = .next t ∧ (∀ q, t.me.queue q = if q = 1 then (s.me.queue 1).drop n else s.me.queue q) ∧
    let s' := acquired 1 n s
    (if mask = 0 then Completes .v tk 1 s' t ∧ still s { t.me with queues := s.me.queues } = s.me
     else (if load then Issued .v tk 1 s' t else Completes .v tk 1 s' t) ∧
      still s { t.me with queues := s.me.queues, lq := s.me.lq, stq := s.me.stq, sOrd := s.me.sOrd } = s.me ∧
      (∀ e, e ≠ .v → t.me.loads e = s.me.loads e ∧ t.me.stores e = s.me.stores e) ∧
      let a : Access :=
        { ord := s.me.sOrd, pc := (s.me.stream .v).pc, kind := kind, got := [], dst := dst, obs := 0, bad := bad, begun := false,
          out := [], issued := s.now, since := s.now, full := none, fullRaised := false,
          bound := (bound.getD ((s.me.stream .v).dbnd.getD (dbndField s.me.dbnd .v))).toNat,
          places := if load then fifosPushed .v (s.me.tokenSet .v tk) else [], path := path,
          pieces := (lanesOf mask).map (fun k =>
            { lane := k, qa := addr k, n := 4, data := match data with | some r => natLE 4 (wordOf s r k) | none => [] }) }
      t.me.loads .v = (if load then s.me.loads .v ++ [a] else s.me.loads .v) ∧
        t.me.stores .v = if store then s.me.stores .v ++ [a] else s.me.stores .v)

end Sys2Proof.Claims

/-- R258 to R261, R263, R264: the V loads and atomics, and its stores outside W, access one word for each enabled word, at
base, row stride and column, or at the base and an index. -/
def Obligations.VectorAccessesEnterTheirQueues : Prop :=
  ∀ s (vd vi : BitVec 6) (e : BitVec 5) (aop pg : BitVec 4) (tk : BitVec 3) (x y : QEntry) (zs : List QEntry), VReady tk [vd, vi] s →
    let b := x.val
    let stride := (y.val.extractLsb' 0 32).toInt
    let rowAddr (k : Nat) : Word := qAdvance b ((k / 64 : Nat) * stride + 4 * (k % 64 : Nat))
    let ixAddr (k : Nat) : Word := qAdvance b (4 * (wordOf s vi k : Nat))
    let bad := decide (qByte b % 4 ≠ 0) || decide (stride % 4 ≠ 0)
    let dst := s.me.vPhys vd
    entryPoppable s s.cur 1 x = true → qSpc b ≠ 3 →
    (s.me.queue 1 = x :: y :: zs → entryPoppable s s.cur 1 y = true → y.val.extractLsb' 32 32 = 0 →
      ((s.me.loads .v).length < 16 → VEntered tk pg 2 true false (some e) .load dst bad rowAddr none (.vld vd e pg tk) s) ∧
      ((s.me.stores .v).length < 16 → qSpc (strideAddr b stride (firstLane (s.me.vMask pg))) ≠ 3 →
        VEntered tk pg 2 false true (some e) .store 0 bad rowAddr (some vd) (.vst vd e pg tk) s)) ∧
    (∀ ys, s.me.queue 1 = x :: ys →
      ((s.me.loads .v).length < 16 → VEntered tk pg 1 true false (some e) .load dst false ixAddr none (.vldx vd vi e pg tk) s) ∧
      ((s.me.stores .v).length < 16 →
        VEntered tk pg 1 false true (some e) .store 0 false ixAddr (some vd) (.vstx vd vi e pg tk) s ∧
        ((s.me.loads .v).length < 16 → VEntered tk pg 1 true true none (.amo aop.toNat) dst false ixAddr (some vd) (.vamo vd vi aop pg tk) s) ∧
        (qSpc b = 0 ∨ qSpc b = 4 →
          VEntered tk pg 1 false true none (.dred aop.toNat) 0 false ixAddr (some vd) (.vdred vd vi aop pg tk) s)))

/-- R138, R260, R262: a VST to W space is one store for each 64-byte line that holds an enabled word, in ascending address; where
nothing stands before them they leave at once, to land 12 cycles later, a cycle apart, and behind another store they wait in the
queue. VSTC enters it with its whole register, the words not enabled being zero, and its two addresses. -/
def Obligations.TeamAndCompressingStores : Prop :=
  (∀ s (va : BitVec 6) (e : BitVec 5) (pg : BitVec 4) (tk : BitVec 3) (x y : QEntry) (zs : List QEntry), VReady tk [va] s →
    s.me.queue 1 = x :: y :: zs → entryPoppable s s.cur 1 x = true → entryPoppable s s.cur 1 y = true → s.me.vMask pg ≠ 0 →
    (s.me.stores .v).length < 16 → qSpc x.val = 3 → formFault x.val = none → y.val.extractLsb' 32 32 = 0 →
    strideBad x.val y.val = false →
    let addr := strideAddr x.val (y.val.extractLsb' 0 32).toInt
    let lines (ps : List Piece) : Prop :=
      (∀ p ∈ ps, p.n = 64 ∧ p.data.length = 64 ∧ qAddr p.qa % 64 = 0) ∧ (ps.map (fun p => qAddr p.qa)).Pairwise (· < ·) ∧
      (∀ k ∈ lanesOf (s.me.vMask pg), ∃ p ∈ ps, qAddr p.qa = qAddr (addr k) / 64 * 64 ∧
        p.mask.getLsbD (qAddr (addr k) % 64 / 4) = true) ∧
      (∀ p ∈ ps, ∀ i, p.mask.getLsbD i = true → ∃ k ∈ lanesOf (s.me.vMask pg), qAddr (addr k) / 64 * 64 = qAddr p.qa ∧
        qAddr (addr k) % 64 / 4 = i ∧ (p.data.drop (4 * i)).take 4 = natLE 4 (wordOf s va k))
    let rest (t : State) : Prop := (∀ q, t.me.queue q = if q = 1 then zs else s.me.queue q) ∧
      still s { t.me with queues := s.me.queues, stq := s.me.stq, lq := s.me.lq, sOrd := s.me.sOrd } = s.me
    ∀ ms, wMembers s.me.placeOf s.cur (qMask x.val) = some ms → wRefused s s.cur ms = false → nextIsW s.me .s = false →
    (s.me.stores .v = [] → s.me.loads .v = [] → s.me.pend = [] → s.me.undeclared = none → NotEnding s.cur s →
      ∃ t ps, exec (.vst va e pg tk) s = .next t ∧ lines ps ∧ rest t ∧ { t with cores := s.cores, wFlight := s.wFlight } = s ∧
        (∀ g, g ≠ s.cur → t.core g = s.core g) ∧ SameMemory s t ∧ TokensMoved .v tk s t ∧ WentOn .v 1 (acquired 1 2 s) t ∧
        (∀ e', t.me.loads e' = s.me.loads e' ∧ t.me.stores e' = s.me.stores e') ∧
        t.wFlight = s.wFlight ++ ps.zipIdx.map (fun p => WFlight.mk s.cur .v (coreX s.cur - s.me.placeOf.px) (s.now + 12 + p.2) ms
          (qAddr p.1.qa) p.1.data p.1.mask 0 0 [])) ∧
    ((∃ a ∈ s.me.stores .v, a.away = false) → nextIsW s.me .v = false →
      ∃ t a, exec (.vst va e pg tk) s = .next t ∧ Completes .v tk 1 (acquired 1 2 s) t ∧ t.me.stores .v = s.me.stores .v ++ [a] ∧
        t.me.loads .v = s.me.loads .v ∧ a.kind = .store ∧ lines a.pieces ∧ rest t)) ∧
  ∀ s (va : BitVec 6) (e : BitVec 5) (pg : BitVec 4) (tk : BitVec 3) (x y : QEntry) (zs : List QEntry), VReady tk [va] s →
    s.me.queue 1 = x :: y :: zs → entryPoppable s s.cur 1 x = true → entryPoppable s s.cur 1 y = true →
    (s.me.stores .v).length < 16 → (qSpc x.val = 1 ∨ qSpc x.val = 2) → (qSpc y.val = 1 ∨ qSpc y.val = 2) →
    ∃ t, exec (.vstc va e pg tk) s = .next t ∧ Completes .v tk 1 (acquired 1 2 s) t ∧ (∀ q, t.me.queue q = if q = 1 then zs else s.me.queue q) ∧
      t.me.loads .v = s.me.loads .v ∧
      (if s.me.vMask pg = 0 then t.me.stores .v = s.me.stores .v
       else ∃ a, t.me.stores .v = s.me.stores .v ++ [a] ∧ a.kind = .pack ∧ a.ord = s.me.sOrd ∧ a.begun = false ∧
        a.pieces.map Piece.qa = [x.val, y.val] ∧
        (a.pieces.map Piece.data).head? = some ((List.range 1024).flatMap (fun k =>
          natLE 4 (if (s.me.vMask pg).getLsbD k then wordOf s va k else 0)))) ∧
      still s { t.me with queues := s.me.queues, stq := s.me.stq, sOrd := s.me.sOrd, lq := s.me.lq } = s.me

namespace Sys2Proof.Claims
open Sys2Proof.Machine

/-- The stage predicates before pass t (06 R128), the other V predicates as before. -/
def Stages (stages trips t : Nat) (s u : State) : Prop :=
  (∀ k, k < 8 → u.me.getVp (BitVec.ofNat 4 (8 + k)) = if k < stages ∧ k ≤ t ∧ t < k + trips then BitVec.allOnes 1024 else 0) ∧
    ∀ n : BitVec 4, n.toNat < 8 → u.me.getVp n = s.me.getVp n

/-- The rows of a predicate whose condition holds: the OR of their 64 bits (06 R129). -/
def RowsOf (p : VPred) (r : BitVec 16) : Prop := ∀ i, i < 16 → (r.getLsbD i = true ↔ ∃ k, k < 64 ∧ p.getLsbD (64 * i + k) = true)

end Sys2Proof.Claims

/-- R128, R266: VLOOP begins its kernel, or passes over it where the count is zero; at the kernel's end the next pass begins with RB
lowered by one, or the loop is over with RB kept. -/
def Obligations.VectorKernels : Prop :=
  (∀ s (st : BitVec 3) (len : BitVec 9) (e : BitVec 5) (tk : BitVec 3) (x : QEntry) (xs : List QEntry), VReady tk [] s → s.me.vloop = none →
    s.me.queue 1 = x :: xs → entryPoppable s s.cur 1 x = true → 1 ≤ len.toNat →
    let lo := (s.me.stream .v).pc + 4
    let hi := lo + 4 * len.toNat
    let trips := x.val.toNat % 2 ^ 32
    hi + 4 ≤ (s.me.text .v).2 → hi / 256 ∈ (s.me.stream .v).lines → ((s.me.stream .v).word hi).extractLsb' 25 7 = 0x7F →
    ∃ t, exec (.vloop st len e tk) s = .next t ∧ OnlyMe s t ∧ SameMemory s t ∧ TokensMoved .v tk s t ∧
      (∀ q, t.me.queue q = if q = 1 then xs else s.me.queue q) ∧
      still s { t.me with queues := s.me.queues, vp := s.me.vp, vloop := s.me.vloop } = s.me ∧
      (trips = 0 → (t.me.stream .v).pc = hi ∧ t.me.vloop = none ∧ Stages 0 0 0 s t) ∧
      (trips ≠ 0 → (t.me.stream .v).pc = lo ∧ Stages (st.toNat + 1) trips 0 s t ∧
        t.me.vloop = some { lo := lo, hi := hi, trips := trips, stages := st.toNat + 1, pass := 0 })) ∧
  ∀ s (pg : BitVec 4) (tk : BitVec 3) (l : VLoopSt), Ready .v tk s → s.me.groups = [] → s.me.vloop = some l →
    (s.me.stream .v).pc + 4 = l.hi →
    ∃ t, exec (.vnop pg tk) s = .next t ∧ OnlyMe s t ∧ SameMemory s t ∧ TokensMoved .v tk s t ∧
      still s { t.me with vp := s.me.vp, vloop := s.me.vloop, rb := s.me.rb } = s.me ∧
      (l.pass + 1 < l.trips + l.stages - 1 → (t.me.stream .v).pc = l.lo ∧ t.me.rb = s.me.rb - 1 ∧
        t.me.vloop = some { l with pass := l.pass + 1 } ∧ Stages l.stages l.trips (l.pass + 1) s t) ∧
      (l.trips + l.stages - 1 ≤ l.pass + 1 → (t.me.stream .v).pc = l.hi ∧ t.me.rb = s.me.rb ∧ t.me.vloop = none ∧ Stages 0 0 0 s t)

/-- R129: VFORK sends the rows whose condition is true to its target and the others on; with all rows on one side one group
goes on, and the join bit is armed in every case. -/
def Obligations.ForkSplitsRows : Prop :=
  ∀ s (pa : BitVec 4) (jk : BitVec 3) (off : BitVec 16) (cond : BitVec 16), VReady 0 [] s → s.me.vloop = none →
    (∀ f ∈ s.me.forks, f.jk ≠ jk.toNat) → RowsOf (s.me.getVp pa) cond →
    let pc := (s.me.stream .v).pc
    let target := ((pc : Int) + 4 * off.toInt).toNat
    let yes := cond &&& s.me.rows
    let no := s.me.rows &&& ~~~cond
    ∃ t, exec (.vfork pa jk off) s = .next t ∧ OnlyMe s t ∧ SameMemory s t ∧
      t.me.forks = s.me.forks ++ [{ jk := jk.toNat, rows := s.me.rows }] ∧
      still s { t.me with forks := s.me.forks, rows := s.me.rows, groups := s.me.groups } = s.me ∧
      (yes = 0 → t.me.groups = [] ∧ t.me.rows = s.me.rows ∧ (t.me.stream .v).pc = pc + 4) ∧
      (yes ≠ 0 → no = 0 → t.me.groups = [] ∧ t.me.rows = yes ∧ (t.me.stream .v).pc = target) ∧
      (yes ≠ 0 → no ≠ 0 → ∃ x, t.me.groups = [x] ∧ x.atJoin = none ∧
        (t.me.rows = no ∧ (t.me.stream .v).pc = pc + 4 ∧ x.rows = yes ∧ x.pc = target ∨
          t.me.rows = yes ∧ (t.me.stream .v).pc = target ∧ x.rows = no ∧ x.pc = pc + 4))

/-- R129: VJOIN forms the rows that its fork split into one group again once all have come; until then it waits and the other
group goes on. -/
def Obligations.JoinFormsRows : Prop :=
  ∀ s (jk : BitVec 3) (e : BitVec 5) (f : Fork), s.me.vloop = none → s.me.forks.find? (fun x => decide (x.jk = jk.toNat)) = some f →
    let pc := (s.me.stream .v).pc
    let k := jk.toNat
    ((∀ x ∈ s.me.groups, x.atJoin = some (k, pc) ∧ x.rows &&& ~~~f.rows = 0) →
      s.me.groups.foldl (fun r x => r ||| x.rows) s.me.rows = f.rows →
      ∃ t, exec (.vjoin jk e) s = .next t ∧ OnlyMe s t ∧ SameMemory s t ∧ t.me.rows = f.rows ∧ t.me.groups = [] ∧
        t.me.forks = s.me.forks.filter (fun x => decide (x.jk ≠ k)) ∧ (t.me.stream .v).pc = pc + 4 ∧ (t.me.stream .v).ready = s.now + 4 ∧
        still s { t.me with rows := s.me.rows, groups := s.me.groups, forks := s.me.forks } = s.me) ∧
    (∀ x, s.me.groups = [x] → x.atJoin = none → s.me.rows ≠ f.rows →
      ∃ t g, exec (.vjoin jk e) s = .next t ∧ OnlyMe s t ∧ SameMemory s t ∧ t.me.rows = x.rows ∧ (t.me.stream .v).pc = x.pc ∧
        t.me.groups = [g] ∧ g.rows = s.me.rows ∧ g.atJoin = some (k, pc) ∧ g.pc = pc ∧
        still s { t.me with rows := s.me.rows, groups := s.me.groups } = s.me)

namespace Sys2Proof.Claims
open Sys2Proof.Machine

/-- The instructions without tokens that write words of register vd in the rows that issue (11 R247 to R249, R251, R252, R255 to R257,
R272). -/
def WritesRows (s : State) (vd va vb n rop : BitVec 6) (slot : BitVec 5) (pg : BitVec 4) (i : Instr) : Prop :=
  (∃ x ∈ vInteger, i = x.1 vd va vb pg 0) ∨ i = .vpopc vd va pg 0 ∨ i = .vclz vd va pg 0 ∨
    (s.me.vmode.toNat ≠ 3 ∧ ((∃ x ∈ vFloat, i = x.1 vd va vb pg 0) ∨ ∃ x ∈ vFloat1, i = x.1 vd va pg 0)) ∨
    (s.me.vmode.toNat ≠ 0 ∧ i = .vdot vd va vb pg 0) ∨ i = .vsel vd va vb pg 0 ∨ i = .vmov vd va pg 0 ∨ i = .viota vd pg 0 ∨
    i = .vrotc vd va n pg 0 ∨ i = .vbcc vd va n pg 0 ∨ ((rop.toNat < 3 → s.me.vmode.toNat ≠ 3) ∧ i = .vredc vd va rop pg 0) ∨
    (slotBad s.me slot.toNat = none ∧ i = .vspl vd slot 0)

/-- Those that write bits of V predicate pd (11 R253, R254). -/
def WritesBits (s : State) (pd pa pb : BitVec 4) (va vb : BitVec 6) (pg : BitVec 4) (i : Instr) : Prop :=
  (∃ x ∈ vRelations, (x.2.1 = true → s.me.vmode.toNat ≠ 3) ∧ i = x.1 pd va vb pg 0) ∨
    i = .vpand pd pa pb pg 0 ∨ i = .vpor pd pa pb pg 0 ∨ i = .vpnot pd pa pg 0

/-- The next n entries of SQ may be popped, and both V queues have a place. -/
def Supplied (n : Nat) (s : State) : Prop :=
  (∃ xs ys, s.me.queue 1 = xs ++ ys ∧ xs.length = n ∧ ∀ x ∈ xs, entryPoppable s s.cur 1 x = true) ∧
    (s.me.loads .v).length < 16 ∧ (s.me.stores .v).length < 16

/-- What is refused while rows are divided (06 R130): a row-axis operation, an instruction with a token field, a pop of SQ or a push
into VQ, VBRQ, VLOOP and VEND. -/
def RefusedWhileDivided (s : State) (vd va vb n rop : BitVec 6) (e : BitVec 5) (pg aop : BitVec 4) (tk : BitVec 3) (i : Instr) : Prop :=
  (tk ≠ 0 ∧ ((∃ x ∈ vInteger, i = x.1 vd va vb pg tk) ∨ (∃ x ∈ vFloat, i = x.1 vd va vb pg tk) ∨ (∃ x ∈ vFloat1, i = x.1 vd va pg tk) ∨
      i = .vmov vd va pg tk ∨ i = .vredc vd va rop pg tk ∨ i = .vnop pg tk)) ∨
    i = .vrotr vd va n pg tk ∨ i = .vbcr vd va n pg tk ∨ i = .vredr vd va rop pg tk ∨ i = .vend pg tk ∨
    (Supplied 1 s ∧ (i = .vbcs vd e pg tk ∨ i = .vldx vd va e pg tk ∨ i = .vstx vd va e pg tk ∨ i = .vamo vd va aop pg tk ∨
      i = .vdred vd va aop pg tk ∨
      ∃ st len, (let hi := (s.me.stream .v).pc + 4 + 4 * len.toNat
        hi + 4 ≤ (s.me.text .v).2 → hi / 256 ∈ (s.me.stream .v).lines) ∧ i = .vloop st len e tk)) ∨
    (Supplied 2 s ∧ (i = .vld vd e pg tk ∨ i = .vst vd e pg tk ∨ i = .vstc vd e pg tk)) ∨
    ((s.me.queue 2).length < 32 ∧ i = .vqpush va e pg tk) ∨
    (∃ off x xs, s.me.queue 4 = x :: xs ∧ x.due ≤ s.now ∧ x.checked = true ∧ i = .vbrq off e tk)

end Sys2Proof.Claims

/-- R129, R130: while rows are divided, an instruction of one group writes its own rows only, its own predicate bits, and of a
conversion, which packs its result, its own elements and the zeros above; a row-axis operation, one with a token field, one that pops
SQ or pushes into VQ, VBRQ, VLOOP and VEND fault with ILLEGAL. -/
def Obligations.RowGroupsStayApart : Prop :=
  ∀ s (vd va vb n rop : BitVec 6) (slot e : BitVec 5) (pd pa pb pg aop : BitVec 4) (tk cf ct : BitVec 3), s.me.groups ≠ [] →
    (∀ r ∈ [vd, va, vb], vBusy s.me r = false) →
    (Ready .v 0 s → s.me.vloop = none →
      (∀ i, WritesRows s vd va vb n rop slot pg i → ∃ t, exec i s = .next t ∧ SameMemory s t ∧
        (∀ k, k < 1024 → s.me.rows.getLsbD (k / 64) = false → vElem 32 (Tbl.get 0 t.me.v (s.me.vPhys vd)) k = wordOf s vd k) ∧
        (∀ k, k ≠ s.me.vPhys vd → Tbl.get 0 t.me.v k = Tbl.get 0 s.me.v k) ∧ t.me.vp = s.me.vp) ∧
      (∀ i, WritesBits s pd pa pb va vb pg i → ∃ t, exec i s = .next t ∧ SameMemory s t ∧
        (∀ k, k < 1024 → s.me.rows.getLsbD (k / 64) = false → (t.me.getVp pd).getLsbD k = (s.me.getVp pd).getLsbD k) ∧
        (∀ r, r ≠ pd → t.me.getVp r = s.me.getVp r) ∧ t.me.v = s.me.v) ∧
      (∃ t, exec (.vcvt vd va cf ct pg 0) s = .next t ∧ SameMemory s t ∧
        (∀ k, k < 1024 → s.me.rows.getLsbD (k / 64) = false → let w := (cvtFmt ct).width
          vElem w (Tbl.get 0 t.me.v (s.me.vPhys vd)) k = vElem w (s.me.getV vd) k) ∧
        (∀ k, k ≠ s.me.vPhys vd → Tbl.get 0 t.me.v k = Tbl.get 0 s.me.v k) ∧ t.me.vp = s.me.vp)) ∧
    (∀ i, Ready .v tk s → RefusedWhileDivided s vd va vb n rop e pg aop tk i →
      ∃ t, exec i s = .next t ∧ t.me.stopped = true ∧ t.me.v = s.me.v ∧ t.me.queues = s.me.queues ∧ t.me.lq = s.me.lq ∧ t.me.stq = s.me.stq ∧
        SameMemory s t ∧ (s.bank (.core s.cur) = Bank.reset → (t.bank (.core s.cur)).ebs.extractLsb' 8 8 = 0x01 ∧
          (t.bank (.core s.cur)).ebs.extractLsb' 16 4 = 1))

/-- R122, R178, R268: the branches of the V stream, on a bit from BV or on its predicate, and its end, which issues, and completes once
its accesses are performed. -/
def Obligations.VectorBranchesAndEnd : Prop :=
  ∀ s (off : BitVec 17) (o : BitVec 18) (e : BitVec 5) (pg : BitVec 4) (tk : BitVec 3), VReady tk [] s → s.me.vloop = none →
    let pc := (s.me.stream .v).pc
    let on := s.me.vMask pg ≠ 0
    (∀ x xs, s.me.queue 4 = x :: xs → x.due ≤ s.now → x.checked = true →
      ∃ t, exec (.vbrq off e tk) s = .next t ∧ Branches .v tk ((pc : Int) + 4 * off.toInt).toNat (decide (x.val ≠ 0)) s t ∧
        (∀ q, t.me.queue q = if q = 4 then xs else s.me.queue q) ∧ still s { t.me with queues := s.me.queues } = s.me) ∧
    (∃ t, exec (.vbr o pg tk) s = .next t ∧ Branches .v tk ((pc : Int) + 4 * o.toInt).toNat (decide on) s t ∧ still s t.me = s.me) ∧
    (¬ on → ∃ t, exec (.vend pg tk) s = .next t ∧ Completes .v tk 1 s t ∧ still s t.me = s.me) ∧
    (on → s.me.stopped = false → accPending s s.cur .v true (s.me.sOrd + 1) = false → (∀ p ∈ s.me.pend, p.e ≠ .v) →
      ∃ t, exec (.vend pg tk) s = .next t ∧ OnlyMe s t ∧ Ends .v tk s t ∧ still s t.me = s.me) ∧
    (on → accPending s s.cur .v true (s.me.sOrd + 1) = true ∨ (∃ p ∈ s.me.pend, p.e = .v) →
      ∃ t, exec (.vend pg tk) s = .next t ∧ EndIssued .v tk s t)

namespace Sys2Proof.Claims
open Sys2Proof.Machine

/- Barrier objects and what every stream's accesses do. -/

/-- One barrier object holds w, every other of the core is as before. -/
def OneBarrier (b : Nat) (w : Word) (s t : State) : Prop := ∀ k, t.me.barrier k = if k = b then w else s.me.barrier k

/-- The fields of a barrier object (09 R207). -/
def Object (w : Word) (mode exp need : Nat) (phase : BitVec 24) (damc flt : Bool) : Prop :=
  bMode w = mode ∧ bExp w = exp ∧ bNeed w = need ∧ bPhase w = phase ∧ bDamc w = damc ∧ bFlt w = flt

/-- Arrival i of stream e at object b: one predicated off does nothing; one at a local object lowers NEED and completes the
phase at zero: after the close where an arrival carried dam, which is done at once where no update of the tag is held, and after the
close of an earlier phase of the object that is under way; one at a domain object is sent to the node (09 R209, 18 R358, R359). What it
releases is there for those who consume the phase (15 R324, 18 R353). -/
def Arrives (i : Instr) (e : Eng) (tk : BitVec 3) (b : Nat) (obs : BitVec 6) (dam : Bool) (ready on : State → Prop) : Prop :=
  ∀ s, ready s →
    let w := s.me.barrier b
    let damc := bDamc w || dam
    let free : Prop := obs ≠ 0 ∨ dam = true → Quiet e s ∧ s.me.undeclared = none ∧ (obs &&& 0x30 ≠ 0 → owed s s.cur e = false)
    -- the stores that the phase's arrivals release by then (15 R324, 18 R353)
    let owes := if obs = 0 then Tbl.get [] s.me.bOwes b else addOwes (Tbl.get [] s.me.bOwes b) (s.me.released e s.me.sOrd)
    let held (t : State) : Prop := Writes [] s.me.bOwes t.me.bOwes b owes
    let handed (t : State) : Prop := ∀ k, Tbl.get [] t.me.bOwes k =
      if k = b then [] else if k = 64 + b then addOwes (Tbl.get [] s.me.bOwes (64 + b)) owes else Tbl.get [] s.me.bOwes k
    (¬ on s → ∃ t, exec i s = .next t ∧ Completes e tk 1 s t ∧ still s t.me = s.me) ∧
    (on s → free → s.me.laterArrived e b = false → bMode w = 1 → bFlt w = false → 1 ≤ bNeed w → ¬ (bNeed w = 1 ∧ damc = true) → s.cur < 256 →
      (bNeed w = 1 → ∀ x ∈ s.closes, x.ofObject s.cur b = false) →
      ∃ t w', exec i s = .next t ∧ Completes e tk 1 s t ∧ still s { t.me with bobj := s.me.bobj, bOwes := s.me.bOwes } = s.me ∧
        OneBarrier b w' s t ∧
        (1 < bNeed w → Object w' 1 (bExp w) (bNeed w - 1) (bPhase w) damc false ∧ held t) ∧
        (bNeed w = 1 → Object w' 1 (bExp w) (bExp w) (bPhase w + 1) false false ∧ handed t)) ∧
    (∀ (xs : List CloseRun) y ys l, on s → free → s.me.laterArrived e b = false → bMode w = 1 → bFlt w = false → bNeed w = 1 → damc = false →
      s.closes = xs ++ y :: ys → y.why = .localPhase s.cur b l → y.id < s.zNext → (∀ x ∈ ys, x.ofObject s.cur b = false) →
      (∀ x ∈ xs ++ ys, x.id ≠ y.id) →
      ∃ t w', exec i s = .next t ∧ Completes e tk 1 { s with closes := t.closes } t ∧
        t.closes = xs ++ { y with why := .localPhase s.cur b (l ++ [false]) } :: ys ∧ handed t ∧
        still s { t.me with bobj := s.me.bobj, bOwes := s.me.bOwes } = s.me ∧ OneBarrier b w' s t ∧
        Object w' 1 (bExp w) (bExp w) (bPhase w) false false) ∧
    (on s → free → s.me.laterArrived e b = false → bMode w = 1 → bFlt w = false → bNeed w = 1 → damc = true → s.cur < 256 →
      (∀ x ∈ s.closes, x.id < s.zNext ∧ closeDone s x = false) →
      let updates : Prop := (∃ h ∈ s.holding, h.tag = s.me.unitTag) ∨ ∃ y ∈ s.closes, y.tag = s.me.unitTag ∧ y.left ≠ []
      ∃ t w', exec i s = .next t ∧ Completes e tk 1 { s with closes := t.closes, zNext := t.zNext } t ∧ handed t ∧
        still s { t.me with bobj := s.me.bobj, bOwes := s.me.bOwes } = s.me ∧ OneBarrier b w' s t ∧ t.zNext = s.zNext + 1 ∧
        (updates → Object w' 1 (bExp w) (bExp w) (bPhase w) false false ∧
          ∃ x, t.closes = s.closes ++ [x] ∧ x.id = s.zNext ∧ x.tag = s.me.unitTag ∧ x.why = .localPhase s.cur b [false] ∧
            x.reached = [] ∧ x.left = [] ∧ x.send = [] ∧ x.away = []) ∧
        (¬ updates → (∀ x ∈ s.closes, x.ofObject s.cur b = false) →
          Object w' 1 (bExp w) (bExp w) (bPhase w + 1) false false ∧ t.closes = s.closes)) ∧
    (on s → free → s.me.laterArrived e b = false → 2 ≤ bMode w → bFlt w = false → s.me.hasArrived b = false →
      ∃ t w', exec i s = .next t ∧ Completes e tk 1 s t ∧ OneBarrier b w' s t ∧
        Object w' (bMode w) (bExp w) (bNeed w) (bPhase w) damc false ∧ held t ∧
        Writes Arrived.none s.me.arrived t.me.arrived b
          { streams := 1#4 <<< engNum e, dam := dam, flt := false, mode := bMode w, atNode := false, fltAt := false, unit := s.me.unit } ∧
        still s { t.me with bobj := s.me.bobj, arrived := s.me.arrived, bOwes := s.me.bOwes } = s.me)

/-- The state in which stream e has acquired what the completed phases of object b have released (15 R324, 18 R353). -/
def waited (e : Eng) (b : Nat) (s : State) : State := s.onMe (fun c => c.acquire e (Tbl.get [] c.bOwes (64 + b)))

/-- SEEN of one stream's object has risen by one, or all of SEEN is as before. -/
def Consumed (e : Eng) (b : Nat) (rises : Bool) (s t : State) : Prop :=
  ∀ e' k, k < 64 → t.me.seenOf e' k = s.me.seenOf e' k + if rises = true ∧ e' = e ∧ k = b then 1 else 0

end Sys2Proof.Claims

/-- R207, R209, R270: ARR and VARR at local and domain objects. What an arrival waits for, with no token of its own,
is the MODEL'S CHOICE (log 16). -/
def Obligations.BarrierArrivals : Prop :=
  ∀ (b obs : BitVec 6) (dam : BitVec 1) (pg : BitVec 4) (tk : BitVec 3),
    Arrives (.arr b obs dam pg tk) .s tk b.toNat obs (decide (dam = 1)) (SReady tk []) (fun s => s.me.getP pg = true) ∧
    Arrives (.varr b obs dam pg tk) .v tk b.toNat obs (decide (dam = 1)) (VReady tk []) (fun s => s.me.vMask pg ≠ 0)

/-- R210, R239, R271, R298: the waits consume one phase, and their stream acquires what it releases (15 R324). A whole phase lets the stream go on; a faulted one clears the
predicate of S and V and sets TRAPCAUSE, and faults M and K with BARRIER. -/
def Obligations.BarrierWaits : Prop :=
  ∀ s (b : BitVec 6) (e : BitVec 5) (tk : BitVec 3) (pd : BitVec 4) (eng : Eng),
    let w := s.me.barrier b.toNat
    let d := (bPhase w - s.me.seenOf eng b.toNat).toNat
    let whole := d ≠ 0 ∧ ¬ (bFlt w = true ∧ d = 1)
    let s' := if d = 0 then s else waited eng b.toNat s
    bMode w ≠ 0 → (1 ≤ d ∧ d < 2 ^ 23) ∨ (d = 0 ∧ bFlt w = true) →
    (eng = .s → SReady tk [] s → ∃ t, exec (.wtp pd b e tk) s = .next t ∧ Completes .s tk 1 s' t ∧ Consumed .s b.toNat (decide (d ≠ 0)) s t ∧
      (∀ r, (t.me.getP r = true) ↔ if r = pd ∧ r ≠ 0 then whole else s.me.getP r = true) ∧
      (whole → t.me.trapcause = s.me.trapcause) ∧ (¬ whole → t.me.trapcause = 0x12) ∧
      still s { t.me with seen := s.me.seen, p := s.me.p, trapcause := s.me.trapcause } = s.me) ∧
    (eng = .v → VReady tk [] s → ∃ t, exec (.vwtp pd b e tk) s = .next t ∧ Completes .v tk 1 s' t ∧ Consumed .v b.toNat (decide (d ≠ 0)) s t ∧
      (∀ r k, k < 1024 → ((t.me.getVp r).getLsbD k = true ↔
        if r = pd ∧ r ≠ 0 ∧ s.me.rows.getLsbD (k / 64) = true then whole else (s.me.getVp r).getLsbD k = true)) ∧
      (whole → t.me.trapcause = s.me.trapcause) ∧ (¬ whole → t.me.trapcause = 0x12) ∧
      still s { t.me with seen := s.me.seen, vp := s.me.vp, trapcause := s.me.trapcause } = s.me) ∧
    (∀ i, (eng = .m ∧ i = .mwtp b e tk) ∨ (eng = .k ∧ i = .kwtp b e tk) → Ready eng tk s → ∃ t, exec i s = .next t ∧
      Consumed eng b.toNat (decide (d ≠ 0)) s t ∧
      (whole → Completes eng tk 1 s' t ∧ still s { t.me with seen := s.me.seen } = s.me) ∧
      (¬ whole → t.me.stopped = true ∧ SameMemory s t ∧ (s.bank (.core s.cur) = Bank.reset →
        (t.bank (.core s.cur)).ebs.extractLsb' 8 8 = 0x12 ∧ (t.bank (.core s.cur)).ebs.extractLsb' 16 4 = BitVec.ofNat 4 (engNum eng))))

/-- R182, R183, R197, R201, R202, R258 to R261, R263: the access at the head of the S stream's queues is performed in the core's own
scratchpad: a load's register holds the bytes that stand there, a store writes its bytes, an AMO does both, and a CAS writes its new
number only over the one that it expects; of an access of the V stream the next word is, and its register holds the words of a load or an
AMO after the last. No other byte changes; a single-bit error of the word that is read is corrected (07 R160), and that none stays in a word that is overwritten whole, while a
narrower store leaves it standing, is the MODEL'S CHOICE (log 9). -/
def Obligations.ScratchpadAccesses : Prop :=
  (∀ s g (x : Access) (q : Word) (n : Nat) (data : List Byte),
    let c := s.core g
    let word : Nat × Nat := (g, qAddr q / 8)
    let a := qAddr q
    let old := (List.range n).map (fun i => byteAt c.sp (a + i))
    let value := (List.range n).foldr (fun i v => (byteAt c.sp (a + i)).toNat + 256 * v) 0
    let gone (t : State) (flips : List (Nat × Nat)) : Prop := { t with cores := s.cores, flips := s.flips, banks := s.banks } = s ∧
      t.flips = flips ∧ (flips = s.flips → t.banks = s.banks) ∧ (∀ h, h ≠ g → t.core h = s.core h) ∧
      ∀ f, (t.core g).fifo f = c.fifo f ++ List.replicate (x.places.count f) x.path
    let read := s.flips.filter (fun f => decide (f ≠ word))
    let written := if n = 8 then read else s.flips
    let stores (t : State) (bs : List Byte) : Prop := ∀ i, byteAt (t.core g).sp i = if a ≤ i ∧ i < a + n then bs.getD (i - a) 0 else byteAt c.sp i
    let loads (t : State) : Prop := ∀ r, Tbl.get 0 (t.core g).s r = if r = x.dst ∧ x.dst ≠ 0 then BitVec.ofNat 64 value else Tbl.get 0 c.s r
    x.pieces = onePiece q n data → x.got = [] → x.out = [] → x.obs = 0 → x.bad = false → x.begun = false → x.err = none →
    nextIsW c .v = false → bankOpen s g 5 = true → qSpc q = 1 → formFault q = none → (n = 1 ∨ n = 2 ∨ n = 4 ∨ n = 8) → a % n = 0 → a / 8 ∉ c.spPoison →
    s.wFlight = [] → c.pend = [] → c.undeclared = none → NotEnding g s →
    (x.kind = .load → c.loads .s = [x] → c.stores .s = [] →
      ∃ t, exec (.memoryResponse g .s false) s = .next t ∧ gone t read ∧ loads t ∧ stores t old ∧ (t.core g).loads .s = []) ∧
    (x.kind = .store → data.length = n → c.loads .s = [] → c.stores .s = [x] →
      ∃ t, exec (.memoryResponse g .s true) s = .next t ∧ gone t written ∧ t.banks = s.banks ∧ stores t data ∧ (t.core g).s = c.s ∧ (t.core g).stores .s = []) ∧
    (∀ aop, x.kind = .amo aop → data.length = n → n = 4 ∨ n = 8 → c.loads .s = [x] → c.stores .s = [x] →
      ∃ t, exec (.memoryResponse g .s true) s = .next t ∧ gone t read ∧ loads t ∧ stores t (natLE n (amoNew aop n value (leNat data))) ∧
        (t.core g).loads .s = [] ∧ (t.core g).stores .s = []) ∧
    (∀ old_ new, x.kind = .cas → n = 8 → old_ < 2 ^ 64 → data = natLE 8 old_ ++ natLE 8 new → c.loads .s = [x] → c.stores .s = [x] →
      ∃ t, exec (.memoryResponse g .s true) s = .next t ∧ gone t read ∧ loads t ∧ stores t (if value = old_ then natLE 8 new else old) ∧
        (t.core g).loads .s = [] ∧ (t.core g).stores .s = [])) ∧
  ∀ s g (x : Access) (p : Piece) (ps : List Piece),
    let c := s.core g
    let a := qAddr p.qa
    let value := (List.range 4).foldr (fun i v => (byteAt c.sp (a + i)).toNat + 256 * v) 0
    x.pieces = p :: ps → (∀ y ∈ p :: ps, y.n = 4 ∧ qSpc y.qa = 1 ∧ formFault y.qa = none ∧ qAddr y.qa % 4 = 0) →
    ((x.got ++ x.pieces).map Piece.lane).Nodup → (∀ y ∈ x.got, y.data.length = 4) → (∀ y ∈ x.got ++ x.pieces, y.lane < 1024) →
    x.out = [] → x.obs = 0 → x.bad = false → x.err = none → nextIsW c .s = false → bankOpen s g 3 = true → bfApack (bfOf c a) = false →
    a / 8 ∉ c.spPoison → s.wFlight = [] → c.pend = [] → c.undeclared = none → NotEnding g s →
    -- whether the word is read, and with what it is written; the queues in which the access stands
    let done (reads : Bool) (writes : Option (List Byte)) (load store : Bool) : Prop :=
      ∃ t, exec (.memoryResponse g .v store) s = .next t ∧ { t with cores := s.cores, flips := s.flips, banks := s.banks } = s ∧
        t.flips = (if reads then s.flips.filter (fun f => decide (f ≠ (g, a / 8))) else s.flips) ∧ (t.flips = s.flips → t.banks = s.banks) ∧
        (∀ h, h ≠ g → t.core h = s.core h) ∧
        (∀ i, byteAt (t.core g).sp i = match writes with
          | some bs => if a ≤ i ∧ i < a + 4 then bs.getD (i - a) 0 else byteAt c.sp i
          | none => byteAt c.sp i) ∧
        (∀ e, e ≠ .v → (t.core g).loads e = c.loads e ∧ (t.core g).stores e = c.stores e) ∧
        { t.core g with sp := c.sp, v := c.v, lq := c.lq, stq := c.stq, tokens := c.tokens, reserved := c.reserved, cyc := c.cyc } = c ∧
        let y : Access := { x with begun := true, full := none, pieces := ps,
                                   got := if reads then x.got ++ [{ p with data := natLE 4 value }] else x.got }
        let queue : List Access := if ps = [] then [] else [y]
        (t.core g).loads .v = (if load then queue else []) ∧ (t.core g).stores .v = (if store then queue else []) ∧
        (∀ f, (t.core g).fifo f = c.fifo f ++ if ps = [] then List.replicate (x.places.count f) x.path else []) ∧
        (∀ r k, k < 1024 → vElem 32 (Tbl.get 0 (t.core g).v r) k =
          if reads = true ∧ ps = [] ∧ r = x.dst then
            (if k = p.lane then value else match x.got.find? (fun y => decide (y.lane = k)) with
              | some y => leNat y.data
              | none => vElem 32 (Tbl.get 0 c.v r) k)
          else vElem 32 (Tbl.get 0 c.v r) k)
    (x.kind = .load → c.loads .v = [x] → c.stores .v = [] → done true none true false) ∧
    (x.kind = .store → p.data.length = 4 → c.loads .v = [] → c.stores .v = [x] → done false (some p.data) false true) ∧
    ∀ aop, x.kind = .amo aop → p.data.length = 4 → c.loads .v = [x] → c.stores .v = [x] →
      done true (some (natLE 4 (amoNew aop 4 value (leNat p.data)))) true true

namespace Sys2Proof.Claims
open Sys2Proof.Machine

/-- A turn of stream e of core g comes next, after dt cycles, and s is the state in which it is taken: a group of V's
rows whose time has not come is skipped (11 R267, log 1). -/
def TurnOf (g : Nat) (e : Eng) (r s : State) : Prop :=
  ∃ dt rest, r.stopped = false ∧ r.sched = (dt, .issue g e) :: rest ∧ s = skipped e { passTime dt { r with sched := rest } with cur := g }

/-- A row group of V has its turn, and is not held in its fetch (11 R267, log 25). -/
def Turns (e : Eng) (s : State) : Prop := e = .v → s.me.divided = true → Config.groupHeld s.tick = false

end Sys2Proof.Claims

/-- R116, R134, R401, R179: a stream goes on behind a SIG word whose CRC its block's words have, the block after another being checked
behind that one's check, the handler's block once each time it is fetched, and within 8 cycles on an entry (MODEL'S CHOICE, log 47); a
wrong CRC, a length of 0, a block that passes its section's end, and at the start of a block a word that is no SIG word or none at all
fault with SIGMISMATCH (for all but the first, MODEL'S CHOICE, log 43), and a word that is no instruction with ILLEGAL. -/
def Obligations.SignaturesAndIllegalWords : Prop :=
  ∀ s (e : Eng) (len : BitVec 9) (crc : BitVec 16),
    let st := s.me.stream e
    let text := s.me.text e
    let hi := st.pc + 4 + 4 * len.toNat
    let covered := crc16 (Tbl.getRun 0 st.buf (st.pc + 4) (4 * len.toNat))
    let handler : Prop := e = .s ∧ s.me.uien = true ∧ st.pc = s.me.uivec.toNat % 2 ^ 32
    let start := if st.hi = st.pc ∧ st.lo < st.hi then st.chkEnd else st.ready
    let cycles := (len.toNat + 15) / 16
    let mismatch (t : State) : Prop := TookFault s.cur 0x02 (engNum e) st.pc (BitVec.ofNat 64 (text.1 + st.pc)) 0 s t
    let at_ (t : State) : Prop := OnlyMe s t ∧ (∀ e', e' ≠ e → t.me.stream e' = s.me.stream e') ∧
      (t.me.stream e).pc = st.pc + 4 ∧ (t.me.stream e).lo = st.pc ∧ (t.me.stream e).hi = hi
    ((∀ off, st.pc ≤ off → off < hi → off / 256 ∈ st.lines) → (e = .v → s.me.vloop = none) →
      (st.resume = none → e = .s → s.me.hBlk = some (st.pc, hi) → ∃ t, exec (.blockSignatureCheck e len crc) s = .next t ∧ at_ t ∧ still s t.me = s.me ∧
        (t.me.stream e).ready = st.ready) ∧
      (st.resume = none → (e = .s → s.me.hBlk ≠ some (st.pc, hi)) → len ≠ 0 → hi ≤ text.2 → covered = crc →
        ∃ t, exec (.blockSignatureCheck e len crc) s = .next t ∧ at_ t ∧
          still s { t.me with hBlk := s.me.hBlk } = s.me ∧ (handler → t.me.hBlk = some (st.pc, hi)) ∧
          (¬ handler → t.me.hBlk = s.me.hBlk) ∧
          (¬ (handler ∧ s.me.uiact = true) → (t.me.stream e).chkEnd = start + cycles) ∧
          (handler → s.me.uiact = true → (t.me.stream e).chkEnd = start + min cycles 8) ∧
          (t.me.stream e).ready = max st.ready (t.me.stream e).chkEnd) ∧
      ((e = .s → s.me.hBlk ≠ some (st.pc, hi)) → covered ≠ crc ∨ len = 0 ∨ text.2 < hi →
        ∃ t, exec (.blockSignatureCheck e len crc) s = .next t ∧ mismatch t)) ∧
    (∀ g r, TurnOf g e r s → (e = .s → entryDue g s.me = none) → s.me.mayIssue e s.now = true → Turns e s → ¬ (st.lo ≤ st.pc ∧ st.pc < st.hi) →
      text.2 ≤ st.pc ∨ (st.holds st.pc = true ∧ (st.word st.pc).extractLsb' 25 7 ≠ 0x7F) → (e = .v → s.me.vloop = none) →
      (e = .s → s.me.hBlk ≠ some (st.pc, st.pc + 4)) → ∃ t, step r = .next t ∧ mismatch t) ∧
    ∃ t, exec (.illegalWord e) s = .next t ∧ TookFault s.cur 0x01 (engNum e) st.pc (BitVec.ofNat 64 (text.1 + st.pc)) 0 s t

namespace Sys2Proof.Claims
open Sys2Proof.Machine

/-- Nothing of the module but core g differs, and no byte of memory. -/
def OnlyCore (g : Nat) (s t : State) : Prop :=
  { t with cores := s.cores } = s ∧ (∀ h, h ≠ g → t.core h = s.core h) ∧ SameMemory s t

/-- A record in BREC's layout (06 R124). -/
def RecordIs (r : Word) (strm kind obj pos await : Nat) (dead : Bool) (pc : Nat) : Prop :=
  r.extractLsb' 0 2 = BitVec.ofNat 2 strm ∧ r.extractLsb' 2 4 = BitVec.ofNat 4 kind ∧ r.extractLsb' 6 6 = BitVec.ofNat 6 obj ∧
    r.extractLsb' 12 8 = BitVec.ofNat 8 (min pos 255) ∧ r.extractLsb' 20 8 = BitVec.ofNat 8 await ∧ r.getLsbD 28 = dead ∧
    r.extractLsb' 29 3 = 0 ∧ r.extractLsb' 32 32 = BitVec.ofNat 32 pc

/-- Core g's BOUND queue has one record more, in the order of overrun cycles and of ranks within one (06 R126). -/
def Recorded (g rank : Nat) (s t : State) (r : Word) : Prop :=
  ∃ b xs ys, (s.core g).boundQ = xs ++ ys ∧ (t.core g).boundQ = xs ++ b :: ys ∧ b.record = r ∧ b.at_ = s.now ∧ b.rank = rank ∧
    (∀ x ∈ xs, x.at_ < b.at_ ∨ x.at_ = b.at_ ∧ x.rank ≤ b.rank) ∧
    ∀ y, ys.head? = some y → b.at_ < y.at_ ∨ b.at_ = y.at_ ∧ b.rank < y.rank

end Sys2Proof.Claims

/-- R123 to R126, R131: the checker's copy of the oldest unchecked entry lets it proceed where it agrees; where it does not, the unit
takes LOCKSTEP and the entry stays. A wait of any stream that has reached its bound, one that can never end in the cycle in which that
is so, and a command of M or K that has reached its bound, puts one record into the BOUND queue, in BREC's layout and in the order of
overrun cycles, streams, waits before commands, and issue; once S has ended it ends the unit. Which of several awaited items the record
names is the MODEL'S CHOICE (log 65). -/
def Obligations.CheckerAndOverruns : Prop :=
  (∀ s g (q : Nat) (xs ys : List QEntry) (x : QEntry), q = 0 ∨ q = 4 ∨ q = 5 ∨ q = 6 → (s.core g).runs = true →
    (s.core g).queue q = xs ++ x :: ys → (∀ y ∈ xs, y.checked = true) → x.checked = false →
    (∃ t, exec (.checkerCompare g q true) s = .next t ∧ SameMemory s t ∧ (∀ h, h ≠ g → t.core h = s.core h) ∧
      (∀ k, (t.core g).queue k = if k = q then xs ++ { x with checked := true } :: ys else (s.core g).queue k) ∧
      { t.core g with queues := (s.core g).queues } = s.core g) ∧
    (∃ t, exec (.checkerCompare g q false) s = .next t ∧ TookFault g 0x03 4 x.pc ((s.core g).textAddr .s x.pc) 0 s t)) ∧
  (∀ s g (w : Wait) (h : Hold) (e : Eng), let c := s.core g
    let dead := holdDead c h
    let bound := if h.kind = 0xA then w.dbnd else w.bound
    c.runs = true → (c.stream e).wait = some w → w.raised = false → (c.stream .s).ended = false → h.kind ∈ [0, 1, 2, 3, 4, 5, 6, 7, 9, 0xA, 0xB] →
    (e = .v → c.groups = []) → (e = .s → ∀ a, nextAccess c .s true = some a → cewOffset s a ≠ some 0x38) → (∀ a, a ∈ c.loads e ∨ a ∈ c.stores e → a.full = none) →
    (dead = true → w.holds.find? (holdDead c) = some h) →
    (dead = false → (∀ x ∈ w.holds, holdDead c x = false) ∧ w.holds.find? (holdStands s g e) = some h ∧ bound ≠ 0 ∧ w.start + 2 ^ bound ≤ s.now) →
    (e = .s → dead = true → c.uien = false → ∃ t, exec (.boundOverrun g e none) s = .next t ∧ (t.core g).stopped = true) ∧
    (¬ (e = .s ∧ dead = true ∧ c.uien = false) → ∃ t r, exec (.boundOverrun g e none) s = .next t ∧ OnlyCore g s t ∧ Recorded g (2 ^ 40 * engNum e) s t r ∧
      RecordIs r (engNum e) h.kind (if h.kind ∈ [5, 6, 7, 0xB] then 0 else h.obj)
        (match h.kind with
          | 0 | 1 => (c.fifo h.obj).length + Tbl.get 0 c.reserved h.obj
          | 2 | 3 => (c.queue h.obj).length
          | 7 => h.obj
          | 0xA => if h.obj = 0 then (c.loads e).length else (c.stores e).length
          | 0xB => 64
          | _ => 0)
        (match h.kind with
          | 0 | 4 | 6 => h.await
          | 2 => h.await - (((c.queue h.obj).take h.await).takeWhile (entryPoppable s g h.obj)).length
          | _ => 0) dead (c.stream e).pc ∧
      (t.core g).stream e = { c.stream e with wait := some { w with raised := true } } ∧ (∀ e', e' ≠ e → (t.core g).stream e' = c.stream e') ∧
      { t.core g with streams := c.streams, boundQ := c.boundQ } = c ∧
      ∃ u, exec (.boundOverrun g e none) t = .next u ∧ (u.core g).boundQ = (t.core g).boundQ)) ∧
  (∀ (s : State) g (h : Hold), let c := s.core g
    holdDead c h = true ↔
      h.kind = 0 ∧ c.fifo h.obj = [] ∧ (c.stream (engOfNum (fifoFrom h.obj))).ended = true ∨
      h.kind = 1 ∧ c.depth h.obj ≤ (c.fifo h.obj).length + Tbl.get 0 c.reserved h.obj ∧ (c.stream (engOfNum (fifoDest h.obj))).ended = true ∨
      h.kind = 2 ∧ (c.queue h.obj).length < h.await ∧ (c.stream (engOfNum (queueFrom h.obj))).ended = true ∨
      h.kind = 3 ∧ queueDepth h.obj ≤ (c.queue h.obj).length ∧ (c.stream (engOfNum (queueDest h.obj))).ended = true) ∧
  ∀ s g (e : Eng) (x : Cmd), let c := s.core g
    e = .m ∨ e = .k → c.runs = true → c.cmds e = [x] → isMark x.i = false → x.raised = false → x.bound ≠ 0 → x.issued + 2 ^ x.bound ≤ s.now →
    ((c.stream .s).ended = false → ∃ t r, exec (.boundOverrun g e (some x.no)) s = .next t ∧ OnlyCore g s t ∧
      Recorded g (2 ^ 40 * engNum e + x.no + 1) s t r ∧ RecordIs r (engNum e) (if e = .m then 7 else 8) 0 x.seq 0 false x.pc ∧
      (t.core g).cmds e = [{ x with raised := true }] ∧ { t.core g with mcmds := c.mcmds, kcmds := c.kcmds, boundQ := c.boundQ } = c ∧
      exec (.boundOverrun g e (some x.no)) t = .next t) ∧
    ((c.stream .s).ended = true → ∃ t, exec (.boundOverrun g e (some x.no)) s = .next t ∧ (t.core g).stopped = true ∧ SameMemory s t ∧
      (s.bank (.core g) = Bank.reset → (t.bank (.core g)).ebs.extractLsb' 8 8 = 0x04 ∧
        (t.bank (.core g)).ebs.extractLsb' 16 4 = BitVec.ofNat 4 (engNum e) ∧ (t.bank (.core g)).ebc.extractLsb' 16 32 = BitVec.ofNat 32 x.pc))

/-- R126, R133, R134, R373: S enters its handler for the oldest BOUND record, or, with none queued, for the oldest notify
record: EPC and INFO are written, ACT is set, and the handler's block is to be checked. -/
def Obligations.HandlerEntry : Prop :=
  ∀ s g, let c := s.core g
    let vec := c.uivec.toNat
    let st := c.stream .s
    let next := st.resume.getD (if st.lo ≤ st.pc ∧ st.pc < st.hi then st.pc else st.pc + 4)
    let entered (t : State) (info : Word) : Prop :=
      (t.core g).uiact = true ∧ (t.core g).uiinfo = info ∧ (t.core g).uiepc = BitVec.ofNat 64 next ∧
      ((t.core g).stream .s).pc = vec ∧ ((t.core g).stream .s).lo = ((t.core g).stream .s).hi ∧ ((t.core g).stream .s).ready = s.now + 4 ∧
      (t.core g).uien = true ∧ (t.core g).s = c.s ∧ (t.core g).p = c.p ∧ SameMemory s t ∧ (∀ h, h ≠ g → t.core h = s.core h)
    c.unit.isSome = true → c.stopped = false → st.ended = false → st.ending = none → c.sysc = none → c.undeclared = none → c.uien = true → c.uiact = false →
    vec < 2 ^ 32 → vec % 4 = 0 → vec < (c.text .s).2 → vec / 256 ∈ st.lines → (st.word vec).extractLsb' 25 7 = 0x7F →
    (∀ r rs, c.boundQ = r :: rs → ∃ t, exec (.boundTrapEntry g) s = .next t ∧ entered t (0x0400 + (r.record.extractLsb' 0 2).zeroExtend 64) ∧
      (t.core g).boundQ = rs ∧ (t.core g).brec = r.record ∧ (t.core g).notifyQ = c.notifyQ) ∧
    (∀ r rs, c.boundQ = [] → c.notifyQ = r :: rs → ∃ t, exec (.userInterruptEntry g) s = .next t ∧ entered t (r.zeroExtend 64) ∧
      (t.core g).notifyQ = rs ∧ (t.core g).brec = c.brec)

namespace Sys2Proof.Claims
open Sys2Proof.Machine

/- Commands. -/

/-- The type register that a command of engine e captures: K that of before an MTYP of the same cycle; field 63 captures none
(02 R41, 08 R162). -/
def captured (e : Eng) (s : State) (f : BitVec 6) : BitVec 640 :=
  if f = 63 then 0
  else if e = .k then ((s.me.cyc.ty.find? (fun x => decide (x.1 = f.toNat))).map Prod.snd).getD (Tbl.get 0 s.me.ty f.toNat)
  else Tbl.get 0 s.me.ty f.toNat

/-- The command that a sequence number names: one that issued before this cycle (08 R172). -/
def nameOf (s : State) (seq : Nat) : Nat := ((s.me.cyc.names.find? (fun x => decide (x.1 = seq))).map Prod.snd).getD (Tbl.get 0 s.me.names seq)

/-- Command i stands at the end of its engine's commands, with its number, its name, its bound, its captured types, the
uncompleted commands that its deps name and its reserved places; its tokens are popped and its stream goes on (08 R162, R172). -/
def Enqueued (e : Eng) (h : CmdHdr) (i : Instr) (words : Nat) (s t : State) : Prop :=
  Issued e h.tk words s t ∧ t.me.cmdNo = s.me.cmdNo + 1 ∧
    (∀ k, Tbl.get 0 t.me.names k = if k = h.seq.toNat ∧ h.seq ≠ 0 then s.me.cmdNo else Tbl.get 0 s.me.names k) ∧
    ∃ x, t.me.cmds e = s.me.cmds e ++ [x] ∧ x.no = s.me.cmdNo ∧ x.i = i ∧ x.pc = (s.me.stream e).pc ∧ x.seq = h.seq.toNat ∧
      x.bound = h.e.toNat ∧ x.issued = s.now ∧ x.started = none ∧ x.checked = false ∧ x.allSent = false ∧ x.sent = 0 ∧
      x.ta = captured e s h.ta ∧ x.tb = captured e s h.tb ∧ x.prof = (if h.prof = 0 then s.me.mprof else h.prof.toNat) ∧
      x.places = fifosPushed e (s.me.tokenSet e h.tk) ∧
      (∀ n, n ∈ x.deps ↔ n ≠ 0 ∧ (∃ d, (d = h.dep0 ∨ d = h.dep1) ∧ d ≠ 0 ∧ n = nameOf s d.toNat) ∧
        ∃ y, (y ∈ s.me.mcmds ∨ y ∈ s.me.kcmds) ∧ y.no = n) ∧
      (s.me.detOn = false → x.stop = none ∧ t.me.window = s.me.window)

/-- The header and the words of an M command (12). -/
def mCommand : Instr → Option (CmdHdr × Nat)
  | .mlnt h .. | .msolvCg h .. | .msolvLdlt h .. => some (h, 4)
  | .mldb h .. | .msel h .. | .mgo h .. | .morb h .. | .mzero h .. | .mlda h .. | .msta h .. | .mdrain h .. | .marrb h .. | .msupd h .. | .msres h .. =>
    some (h, 3)
  | _ => none

/-- Every unit of an untyped tile lies in the bank in which its stripe begins (12 R277). -/
def InBanks (p : BitVec 25) (units ub : Nat) : Prop := ∀ u, u < units → 64 * pLine p % 2 ^ 19 + u / 16 * ub + ub ≤ 2 ^ 19

/-- A typed tile: a bound type of rank 2 whose extents hold the tile's first element (12 R278). -/
def TypedTile (s : State) (f : BitVec 6) (p : BitVec 25) (tr tc : Nat) (ok : TType → Prop) : Prop :=
  let t := ttypeOf (captured .m s f)
  t.valid = true ∧ t.rank = 2 ∧ ok t ∧ pRow s.me p tr < idx t.ext 0 ∧ pCol s.me p tc < idx t.ext 1

/-- What an M command's fields must be for it to issue without a fault (12 R283 to R308). -/
def mAllowed (s : State) : Instr → Prop
  | .mldb h grp p =>
    let n := if h.prof = 0 then s.me.mprof else h.prof.toNat
    let pf := profileOf n
    n ≠ 0 ∧ grp.toNat + nsegOf n ≤ 4 ∧ (h.ta = 63 → InBanks p 512 (bUnit pf.fmt)) ∧
      (h.ta ≠ 63 → TypedTile s h.ta p 512 256 (fun t => t.fmt ∈ pf.fmts ∧ (t.scaled = true → t.kidx = 0)))
  | .mgo h _ kind _ =>
    let n := if h.prof = 0 then s.me.mprof else h.prof.toNat
    let t := ttypeOf (captured .m s h.ta)
    n ≠ 0 ∧ kind.toNat ∈ (profileOf n).kinds ∧
      (h.ta ≠ 63 → t.valid = true ∧ t.rank = 2 ∧ t.fmt ∈ (profileOf n).fmts ∧ (t.scaled = true → t.kidx = 1)) ∧
      (h.tb ≠ 63 → (ttypeOf (captured .m s h.tb)).valid = true)
  | .morb h _ _ =>
    let n := if h.prof = 0 then s.me.mprof else h.prof.toNat
    let x := ttypeOf (captured .m s h.ta)
    let y := ttypeOf (captured .m s h.tb)
    n ≠ 0 ∧ h.ta ≠ 63 ∧ h.tb ≠ 63 ∧ x.valid = true ∧ y.valid = true ∧ x.fmt = y.fmt ∧ x.fmt ∈ (profileOf n).fmts ∧ x.rank = y.rank ∧
      x.ext.take x.rank = y.ext.take y.rank
  | .mlda h _ kind _ p => (h.ta = 63 → InBanks p 64 (accUnit kind.toNat)) ∧
      (h.ta ≠ 63 → TypedTile s h.ta p 64 256 (fun t => (t.fmt.isFloat = true ↔ kind = 0) ∧ (t.scaled = true → t.kidx = 1)))
  | .msta h _ kind _ p | .mdrain h _ kind _ p => (h.tb = 63 → InBanks p 64 (accUnit kind.toNat)) ∧
      (h.tb ≠ 63 → TypedTile s h.tb p 64 256 (fun t => (t.fmt.isFloat = true ↔ kind = 0) ∧ t.scaled = false))
  | .marrb _ b _ _ => bMode (s.me.barrier b.toNat) ≠ 0 ∧ bFlt (s.me.barrier b.toNat) = false
  | .msolvCg h _ line _ => h.ta ≠ 63 ∧ solverType (ttypeOf (captured .m s h.ta)) = true ∧ 64 * line.toNat + 0x6000 ≤ 2 ^ 23
  | .msolvLdlt h _ _ line _ =>
    let a := ttypeOf (captured .m s h.ta)
    let f := ttypeOf (captured .m s h.tb)
    h.ta ≠ 63 ∧ solverType a = true ∧ h.tb ≠ 63 ∧ solverType f = true ∧ idx f.ext 0 = idx a.ext 0 ∧
      (f.base + solverBytes f ≤ a.base ∨ a.base + solverBytes a ≤ f.base) ∧ 64 * line.toNat + 0x6000 ≤ 2 ^ 23
  | .msupd h cnt line => h.ta ≠ 63 ∧ solverType (ttypeOf (captured .m s h.ta)) = true ∧ 64 * line.toNat + 8 * cnt.toNat ≤ 2 ^ 23
  | _ => True

end Sys2Proof.Claims

/-- R162, R172, R276: every command of the M engine, where its fields break no rule of its issue, enters the engine's queue. -/
def Obligations.MatrixCommandsEnterTheirQueue : Prop :=
  ∀ s i h n, mCommand i = some (h, n) → mAllowed s i → Ready .m h.tk s → s.me.mcmds.length < 64 →
    ∃ t, exec i s = .next t ∧ Enqueued .m h i n s t ∧
      still s { t.me with mcmds := s.me.mcmds, cmdNo := s.me.cmdNo, names := s.me.names, window := s.me.window } = s.me

/-- R41, R284, R285, R297, R300: MTYP loads a type register with a descriptor of the object in bound form, MPROF the current
profile; MWAIT goes on once the command it names has completed, the one that the number named when its wait for it began (08 R172);
MNOP, MBR, MBRQ, and MEND, which issues and completes once every command has (06 R122). -/
def Obligations.MatrixSingleWords : Prop :=
  ∀ s (ty : BitVec 6) (n seq : BitVec 8) (prof : BitVec 4) (o : BitVec 18) (off : BitVec 17) (e : BitVec 5) (tk : BitVec 3), Ready .m tk s →
    let pc := (s.me.stream .m).pc
    (∀ u obj d, s.me.unit = some u → s.objs.find? (fun (x : LoadedObj) => decide (x.handle = u.handle)) = some obj → obj.tensors[n.toNat]? = some d →
      ∃ t, exec (.mtyp ty n tk) s = .next t ∧ Completes .m tk 1 s t ∧ Writes 0 s.me.ty t.me.ty ty.toNat d ∧
        still s { t.me with ty := s.me.ty } = s.me) ∧
    (∃ t, exec (.mprof prof tk) s = .next t ∧ Completes .m tk 1 s t ∧ t.me.mprof = prof.toNat ∧ still s { t.me with mprof := s.me.mprof } = s.me) ∧
    (∀ named, (match (s.me.stream .m).wait.bind (fun w => w.holds.find? (fun h => decide (h.kind = 0x7))) with
        | some h => named = h.await
        | none => named = nameOf s seq.toNat) →
      ((∀ y, y ∈ s.me.mcmds ∨ y ∈ s.me.kcmds → y.no ≠ named) →
        ∃ t, exec (.mwait seq e tk) s = .next t ∧ Completes .m tk 1 s t ∧ still s t.me = s.me) ∧
      (named ≠ 0 → (∃ y, (y ∈ s.me.mcmds ∨ y ∈ s.me.kcmds) ∧ y.no = named) →
        ∃ t w, exec (.mwait seq e tk) s = .next t ∧ OnlyMe s t ∧ SameMemory s t ∧ still s t.me = s.me ∧ (t.me.stream .m).pc = pc ∧
          (t.me.stream .m).wait = some w ∧ ∃ h ∈ w.holds, h.kind = 0x7 ∧ h.await = named)) ∧
    (∃ t, exec (.mnop tk) s = .next t ∧ Completes .m tk 1 s t ∧ still s t.me = s.me) ∧
    (∃ t, exec (.mbr o tk) s = .next t ∧ Branches .m tk ((pc : Int) + 4 * o.toInt).toNat true s t ∧ still s t.me = s.me) ∧
    (∀ x xs, s.me.queue 5 = x :: xs → x.due ≤ s.now → x.checked = true →
      ∃ t, exec (.mbrq off e tk) s = .next t ∧ Branches .m tk ((pc : Int) + 4 * off.toInt).toNat (decide (x.val ≠ 0)) s t ∧
        (∀ q, t.me.queue q = if q = 5 then xs else s.me.queue q) ∧ still s { t.me with queues := s.me.queues } = s.me) ∧
    (s.me.mcmds = [] → s.me.stopped = false → ∃ t, exec (.mend tk) s = .next t ∧ OnlyMe s t ∧ Ends .m tk s t ∧ still s t.me = s.me) ∧
    (s.me.mcmds ≠ [] → ∃ t, exec (.mend tk) s = .next t ∧ EndIssued .m tk s t)

namespace Sys2Proof.Claims
open Sys2Proof.Machine

/-- Engine e's only command, checked and free of every command that it names, may start. -/
def MayStart (g : Nat) (e : Eng) (x : Cmd) (s : State) : Prop :=
  (s.core g).runs = true ∧ (s.core g).cmds e = [x] ∧ x.started = none ∧ x.checked = true ∧ x.stop = none ∧ (s.core g).detOn = false ∧
    ∀ n ∈ x.deps, ∀ y, y ∈ (s.core g).mcmds ∨ y ∈ (s.core g).kcmds → y.no ≠ n

/-- A turn of command n of engine e comes next, after dt cycles, and s is the state in which it is taken (log 1). -/
def AdvanceOf (g : Nat) (e : Eng) (n : Nat) (r s : State) : Prop :=
  ∃ dt rest, r.stopped = false ∧ r.sched = (dt, .advance g e n) :: rest ∧ s = passTime dt { r with sched := rest }

/-- Element j of row r of accumulator a; under kind 2 an element has its upper half in the next accumulator (12 R274). -/
def accElem (c : Core) (a r j : Nat) : Nat := ((Tbl.get 0 c.acc (64 * a + r)).extractLsb' (32 * j) 32).toNat
def accCode (c : Core) (a kind r j : Nat) : Nat := if kind = 2 then accElem c a r j + 2 ^ 32 * accElem c (a + 1) r j else accElem c a r j

/-- Row r of an accumulator of a kind is as f says, every other row of every accumulator as before. -/
def RowWritten (a kind r : Nat) (f : Nat → Nat) (c d : Core) : Prop :=
  (∀ j, j < 256 → accCode d a kind r j = f j) ∧
    ∀ k, k ≠ 64 * a + r → (kind = 2 → k ≠ 64 * (a + 1) + r) → Tbl.get 0 d.acc k = Tbl.get 0 c.acc k

/-- The bytes of an accumulator's element in memory under a kind (12 R274, R277). -/
def accBytes (kind : Nat) : Nat := if kind = 2 then 8 else 4

/-- A sum kept in the range of a w-bit integer (01 R26). -/
def intSat (w : Nat) (x : Int) : Int := max (-2 ^ (w - 1)) (min (2 ^ (w - 1) - 1) x)

/-- The address of row r of an untyped accumulator tile, striped over the 16 banks (12 R277). -/
def rowAt (p : BitVec 25) (kind r : Nat) : Nat := (64 * pLine p + r % 16 * 2 ^ 19) % 2 ^ 23 + r / 16 * (256 * accBytes kind)

/-- That row lies in its bank, and no word of it holds poison. -/
def RowClean (c : Core) (p : BitVec 25) (kind r : Nat) : Prop :=
  64 * pLine p % 2 ^ 19 + r / 16 * (256 * accBytes kind) + 256 * accBytes kind ≤ 2 ^ 19 ∧
    ∀ w ∈ c.spPoison, 8 * w + 8 ≤ rowAt p kind r ∨ rowAt p kind r + 256 * accBytes kind ≤ 8 * w

/-- Nothing of the module but core g, its single-bit errors and what counts them differs. -/
def OnlyReads (g : Nat) (s t : State) : Prop :=
  { t with cores := s.cores, flips := s.flips, banks := s.banks } = s ∧ ∀ h, h ≠ g → t.core h = s.core h

end Sys2Proof.Claims

/-- R172, R275, R283, R287, R293, R294, R122: a command starts once it has been checked and what it names has completed: MLNT writes a
shadow level, MSEL selects or invalidates a group, MLDB records its groups as not yet valid, MSRES reads its words of the record, a K command begins its
lines. A turn of a started MZERO clears the next row of its accumulator, of an untyped MLDA loads it from the tile's row, of an untyped MSTA
stores it there, and of an untyped MDRAIN adds it there; of an MGO that has all sums of a row adds them, under an integer profile, to its
accumulator row; of a MORB with every joint orbit summed writes the sum of integers; of a MORB or MSRES with words at hand pushes one to MQ;
of a MARRB arrives at a local object; of an MSUPD writes the element that its next pair names. A command with its effect complete
leaves its engine and delivers its tokens, and with the last one an MEND that has issued completes. -/
def Obligations.CommandsStartAndComplete : Prop :=
  ∀ s g (x : Cmd),
    let c := s.core g
    let run (x : Cmd) (fin : Bool) : Cmd := { x with started := some s.now, allSent := fin }
    (MayStart g .m x s →
      (∀ h lv rstr ext astr, x.i = .mlnt h lv rstr ext astr → ∃ t, exec (.commandStart g .m) s = .next t ∧ OnlyCore g s t ∧
        Writes 1 c.ln (t.core g).ln lv.toNat (BitVec.ofNat 64 (ext.toNat + 2 ^ 16 * rstr.toNat + 2 ^ 32 * astr.toNat)) ∧
        { t.core g with ln := c.ln, mcmds := c.mcmds } = c ∧ (t.core g).mcmds = [run x true]) ∧
      (∀ h grp inv, x.i = .msel h grp inv → ∃ t, exec (.commandStart g .m) s = .next t ∧ OnlyCore g s t ∧
        (inv = 0 → (t.core g).gsel = grp ∧ (t.core g).mgrp = c.mgrp) ∧
        (inv = 1 → (t.core g).gsel = c.gsel ∧ Writes MGroup.reset c.mgrp (t.core g).mgrp grp.toNat
          { Tbl.get MGroup.reset c.mgrp grp.toNat with valid := false }) ∧
        { t.core g with gsel := c.gsel, mgrp := c.mgrp, mcmds := c.mcmds } = c ∧ (t.core g).mcmds = [run x true]) ∧
      (∀ h acc kind a b, x.i = .mzero h acc kind a b → ∃ t, exec (.commandStart g .m) s = .next t ∧ OnlyCore g s t ∧
        { t.core g with mcmds := c.mcmds } = c ∧ (t.core g).mcmds = [run x x.allSent]) ∧
      (∀ h grp p, x.i = .mldb h grp p → h.ta = 63 → (∀ n, bfOf c n = 0xFF) → ∃ t, exec (.commandStart g .m) s = .next t ∧ OnlyCore g s t ∧
        (∀ k, Tbl.get MGroup.reset (t.core g).mgrp k =
          let m := Tbl.get MGroup.reset c.mgrp k
          if grp.toNat ≤ k ∧ k < grp.toNat + nsegOf x.prof then
            { m with valid := false, prof := x.prof, seg := k - grp.toNat, src := .line (pLine p), k0 := 0 } else m) ∧
        { t.core g with mgrp := c.mgrp, mcmds := c.mcmds } = c ∧ (t.core g).mcmds = [run x x.allSent]) ∧
      (∀ h off cnt, x.i = .msres h off cnt → c.spillBad .m off.toNat cnt.toNat = none → ∃ t ns, exec (.commandStart g .m) s = .next t ∧
        OnlyReads g s t ∧ ns.length = cnt.toNat ∧ (∀ j, j < cnt.toNat → ns.getD j 0 = (Tbl.get 0 c.spillM (off.toNat + j)).toNat) ∧
        { t.core g with mcmds := c.mcmds } = c ∧ (t.core g).mcmds = [{ x with started := some s.now, nums := ns }])) ∧
    (MayStart g .k x s → isMark x.i = false → ∃ t, exec (.commandStart g .k) s = .next t ∧ OnlyCore g s t ∧
      { t.core g with kcmds := c.kcmds } = c ∧ (t.core g).kcmds = [{ x with started := some s.now, since := s.now }]) ∧
    (∀ r, AdvanceOf g .m x.no r s → c.runs = true → c.mcmds = [x] → x.started ≠ none → x.allSent = false → x.sent < 64 → bankOpen s g 2 = true →
      let row := x.sent
      let moved (t : State) : Prop := (t.core g).mcmds = [{ x with sent := row + 1, allSent := decide (row = 63) }]
      (∀ h acc kind a b, x.i = .mzero h acc kind a b → ∃ t, step r = .next t ∧ OnlyCore g s t ∧ moved t ∧
        RowWritten acc.toNat kind.toNat row (fun _ => 0) c (t.core g) ∧ { t.core g with acc := c.acc, mcmds := c.mcmds, cyc := c.cyc } = c) ∧
      (∀ h acc (kind : BitVec 2) z p, x.i = .mlda h acc kind z p → h.ta = 63 → kind ≠ 3 → RowClean c p kind.toNat row →
        ∃ t, step r = .next t ∧ OnlyReads g s t ∧ moved t ∧
          RowWritten acc.toNat kind.toNat row (fun j => numAt c.sp (rowAt p kind.toNat row + accBytes kind.toNat * j) (accBytes kind.toNat)) c (t.core g) ∧
          { t.core g with acc := c.acc, mcmds := c.mcmds, cyc := c.cyc } = c) ∧
      (∀ h acc (kind : BitVec 2) z p, x.i = .msta h acc kind z p → h.tb = 63 → kind ≠ 3 → RowClean c p kind.toNat row →
        ∃ t, step r = .next t ∧ OnlyReads g s t ∧ t.banks = s.banks ∧ moved t ∧
          (∀ j, j < 256 → numAt (t.core g).sp (rowAt p kind.toNat row + accBytes kind.toNat * j) (accBytes kind.toNat) =
            accCode c acc.toNat kind.toNat row j) ∧
          (∀ i, i < rowAt p kind.toNat row ∨ rowAt p kind.toNat row + 256 * accBytes kind.toNat ≤ i → byteAt (t.core g).sp i = byteAt c.sp i) ∧
          { t.core g with sp := c.sp, spPoison := c.spPoison, mcmds := c.mcmds, cyc := c.cyc } = c) ∧
      (∀ h acc (kind clamp : BitVec 2) p, x.i = .mdrain h acc kind clamp p → h.tb = 63 → kind ≠ 3 → RowClean c p kind.toNat row →
        ∃ t, step r = .next t ∧ OnlyReads g s t ∧ moved t ∧
          (∀ j, j < 256 → let old := numAt c.sp (rowAt p kind.toNat row + accBytes kind.toNat * j) (accBytes kind.toNat)
            let add := accCode c acc.toNat kind.toNat row j
            numAt (t.core g).sp (rowAt p kind.toNat row + accBytes kind.toNat * j) (accBytes kind.toNat) =
              if kind = 0 then clampCode .fp32 clamp (encodeVal .fp32 .nearest false (addVal .nearest (decodeVal .fp32 old) (decodeVal .fp32 add))).1
              else
                let w := 8 * accBytes kind.toNat
                let sum := intSat w (intOfCode w old + intOfCode w add)
                ((if clamp.getLsbD 0 then max 0 sum else sum) % 2 ^ w).toNat) ∧
          (∀ i, i < rowAt p kind.toNat row ∨ rowAt p kind.toNat row + 256 * accBytes kind.toNat ≤ i → byteAt (t.core g).sp i = byteAt c.sp i) ∧
          { t.core g with sp := c.sp, spPoison := c.spPoison, mcmds := c.mcmds, cyc := c.cyc, fstk := c.fstk } = c)) ∧
    (∀ r, AdvanceOf g .m x.no r s → c.runs = true → c.mcmds = [x] → x.started ≠ none → x.allSent = false → bankOpen s g 2 = true →
      (∀ h acc (kind : BitVec 2) p y, x.i = .mgo h acc kind p → x.prof = 1 ∨ x.prof = 2 ∨ x.prof = 3 → kind = 1 ∨ kind = 2 → x.arr = some y →
        y.tuples = [] → (profileOf x.prof).planes.length * nsegOf x.prof ≤ y.pass → (nestAt x.nest x.sent).1.toNat < 64 →
        let row := (nestAt x.nest x.sent).1.toNat
        let w := 8 * accBytes kind.toNat
        let sum (j : Nat) : Int := ((List.range (512 / (profileOf x.prof).kc)).map (fun k => y.sums.getD (256 * k + j) 0)).sum
        ∃ t, step r = .next t ∧ OnlyCore g s t ∧
          RowWritten acc.toNat kind.toNat row
            (fun j => (intSat w (intOfCode w (accCode c acc.toNat kind.toNat row j) + sum j) % 2 ^ w).toNat) c (t.core g) ∧
          (t.core g).mcmds = [{ x with arr := none, sent := x.sent + 1, allSent := decide (nestCount x.nest ≤ x.sent + 1) }] ∧
          { t.core g with acc := c.acc, mcmds := c.mcmds, cyc := c.cyc, fstk := c.fstk } = c) ∧
      (∀ h wr line, x.i = .morb h wr line → x.ready = false → (ttypeOf x.ta).fmt.isFloat = false →
        (jointOrbits (ttypeOf x.ta) (ttypeOf x.tb)).length ≤ 32 * x.sent →
        let v := (intSat 64 x.orb.sum % 2 ^ 64).toNat
        let at_ := 64 * line.toNat
        ∃ t, step r = .next t ∧ OnlyReads g s t ∧ (t.core g).mcmds = [{ x with ready := true, nums := [v] }] ∧
          (wr = 1 → numAt (t.core g).sp at_ 8 = v) ∧
          (∀ i, wr = 0 ∨ i < at_ ∨ at_ + 8 ≤ i → byteAt (t.core g).sp i = byteAt c.sp i) ∧
          { t.core g with sp := c.sp, spPoison := c.spPoison, mcmds := c.mcmds, cyc := c.cyc, fstk := c.fstk } = c) ∧
      (∀ v vs, (∃ h off cnt, x.i = .msres h off cnt) ∨ (x.ready = true ∧ ∃ h wr line, x.i = .morb h wr line) → x.nums = v :: vs →
        (c.queue 3).length < 16 → ∃ t, step r = .next t ∧ OnlyCore g s t ∧
          (∀ q, (t.core g).queue q = if q = 3 then c.queue 3 ++ [⟨BitVec.ofNat 64 v, s.now + 1, 0, false, x.pc⟩] else c.queue q) ∧
          (t.core g).mcmds = [{ x with nums := vs, allSent := vs.isEmpty }] ∧
          { t.core g with queues := c.queues, mcmds := c.mcmds, cyc := c.cyc } = c) ∧
      (∀ h (b : BitVec 6) obs dam, x.i = .marrb h b obs dam → let w := c.barrier b.toNat
        bMode w = 1 → bFlt w = false → 2 ≤ bNeed w → c.laterArrived .m b.toNat = false → (obs &&& 0x30 = 0 ∨ owed s g .m = false) →
        ∃ t w', step r = .next t ∧ OnlyCore g s t ∧ Writes 0 c.bobj (t.core g).bobj b.toNat w' ∧
          Object w' 1 (bExp w) (bNeed w - 1) (bPhase w) (bDamc w || decide (dam = 1)) false ∧
          (t.core g).mcmds = [{ x with allSent := true }] ∧
          { t.core g with bobj := c.bobj, bOwes := c.bOwes, mcmds := c.mcmds, cyc := c.cyc } = c) ∧
      (∀ h cnt line, x.i = .msupd h cnt line → solverType (ttypeOf x.ta) = true → x.sent < cnt.toNat → 64 * line.toNat + 8 * cnt.toNat ≤ 2 ^ 23 →
        let from_ := 64 * line.toNat + 8 * x.sent
        let v := numAt c.sp from_ 8
        let i := v % 2 ^ 16
        let j := v / 2 ^ 16 % 2 ^ 16
        let n := idx (ttypeOf x.ta).ext 0
        let a := (elemAddr (ttypeOf x.ta) (locate (ttypeOf x.ta) [i, j]).off).1
        (∀ w ∈ c.spPoison, 8 * w + 8 ≤ from_ ∨ from_ + 8 ≤ 8 * w) → i < n → j < n → 0 ≤ a → a + 4 ≤ 2 ^ 23 →
        ∃ t, step r = .next t ∧ OnlyReads g s t ∧ numAt (t.core g).sp a.toNat 4 = v / 2 ^ 32 ∧
          (∀ k, k < a.toNat ∨ a.toNat + 4 ≤ k → byteAt (t.core g).sp k = byteAt c.sp k) ∧
          (t.core g).mcmds = [{ x with sent := x.sent + 1, allSent := decide (cnt.toNat ≤ x.sent + 1) }] ∧
          { t.core g with sp := c.sp, spPoison := c.spPoison, mcmds := c.mcmds, cyc := c.cyc } = c)) ∧
    (c.mcmds = [x] → x.allSent = true →
      (NotEnding g s → ∃ t, exec (.mCommandCompletion g x.no) s = .next t ∧ OnlyCore g s t ∧ (t.core g).mcmds = [] ∧
        (∀ f, ((t.core g).fifo f).length = (c.fifo f).length + x.places.count f) ∧
        { t.core g with mcmds := c.mcmds, tokens := c.tokens, reserved := c.reserved, cyc := c.cyc } = c) ∧
      (∀ places, (c.stream .m).ending = some places → c.stopped = false → ∃ t, exec (.mCommandCompletion g x.no) s = .next t ∧ OnlyCore g s t ∧
        (t.core g).mcmds = [] ∧ ((t.core g).stream .m).ended = true ∧ ((t.core g).stream .m).ending = none ∧
        (∀ e, e ≠ .m → (t.core g).stream e = c.stream e) ∧
        (∀ f, ((t.core g).fifo f).length = (c.fifo f).length + x.places.count f + places.count f)))

/-- R303, R305, R306: a conjugate gradient whose deadline comes in an iteration stops in that cycle; then, element by element (15 R316), it
copies the best iterate into the x area, and after the last one writes its record, with status 2, and how far it came. That the words of
x and of the record are overwritten whole, and so clean, is the MODEL'S CHOICE (log 9), as is that an iteration whose better iterate is
known is not stopped any more (log 73). -/
def Obligations.SolverDeadlines : Prop :=
  ∀ s g (x : Cmd) h (tolx : BitVec 6) (line : BitVec 17) (dline : BitVec 32) (t0 : Nat),
    let c := s.core g
    let base := 64 * line.toNat
    let n := idx (ttypeOf x.ta).ext 0
    c.runs = true → c.mcmds = [x] → x.i = .msolvCg h tolx line dline → x.started = some t0 → x.allSent = false → n ≤ 1024 →
    base + 0x6000 ≤ 2 ^ 23 →
    (x.solve.stage = .run → dline ≠ 0 → t0 + dline.toNat ≤ s.now →
      exec (.solverDeadline g) s = .next (s.setCore g { c with mcmds := [{ x with solve := { x.solve with stage := .close 2, log := [] } }] })) ∧
    (x.solve.stage = .keep ∨ dline = 0 ∨ s.now < t0 + dline.toNat → exec (.solverDeadline g) s = .next s) ∧
    (∀ r st, AdvanceOf g .m x.no r s → bankOpen s g 2 = true → x.solve.stage = .close st → st < 3 →
      (∀ i, i < n → x.solve.log.length = 2 * i → let from_ := base + 0x5000 + 4 * i
        (∀ w ∈ c.spPoison, 8 * w + 8 ≤ from_ ∨ from_ + 4 ≤ 8 * w) →
        ∃ t, step r = .next t ∧ OnlyReads g s t ∧
          (t.core g).mcmds = [{ x with solve := { x.solve with log := x.solve.log ++ [numAt c.sp from_ 4] } }] ∧
          { t.core g with mcmds := c.mcmds, cyc := c.cyc } = c) ∧
      (∀ i l v, i < n → x.solve.log = l ++ [v] → l.length = 2 * i → v < 2 ^ 32 → let at_ := base + 0x1000 + 4 * i
        ∃ t, step r = .next t ∧ OnlyReads g s t ∧ (t.core g).mcmds = [{ x with solve := { x.solve with log := x.solve.log ++ [0] } }] ∧
          numAt (t.core g).sp at_ 4 = v ∧ (∀ a, a < at_ ∨ at_ + 4 ≤ a → byteAt (t.core g).sp a = byteAt c.sp a) ∧
          { t.core g with sp := c.sp, spPoison := c.spPoison, mcmds := c.mcmds, cyc := c.cyc } = c) ∧
      (x.solve.log.length = 2 * n →
        ∃ t, step r = .next t ∧ OnlyReads g s t ∧
          Tbl.get 0 (t.core g).spillM 0 = BitVec.ofNat 64 (st + 2 ^ 32 * x.solve.it) ∧ Tbl.get 0 (t.core g).spillM 1 = BitVec.ofNat 64 x.solve.brr ∧
          Tbl.get 0 (t.core g).spillM 2 = BitVec.ofNat 64 x.solve.bb ∧ Tbl.get 0 (t.core g).spillM 3 = BitVec.ofNat 64 (s.now - t0) ∧
          Tbl.get 0 (t.core g).spillM 4 = BitVec.ofNat 64 (n + 2048 * tolx.toNat) ∧
          (∀ k, 5 ≤ k → Tbl.get 0 (t.core g).spillM k = Tbl.get 0 c.spillM k) ∧ (t.core g).resumable = none ∧
          (t.core g).mcmds = [{ x with allSent := true }] ∧
          (∀ p, p ∈ (t.core g).spillPoison ↔ p ∈ c.spillPoison ∧ ¬ (p.1 = engNum .m ∧ p.2 < 5)) ∧
          { t.core g with spillM := c.spillM, spillPoison := c.spillPoison, resumable := c.resumable, mcmds := c.mcmds, cyc := c.cyc } = c))

namespace Sys2Proof.Claims
open Sys2Proof.Machine

/-- A K command's header, its words, how it takes its slots, and their number (10 R223, R227 to R236). -/
def kCommand : Instr → Option (CmdHdr × Nat × BitVec 2 × BitVec 8 × Nat)
  | .kcpy h am so dims _ _ _ => some (h, 4, am, so, (if h.ta = 63 then 1 else 0) + (if h.tb = 63 then 1 else 0) + (dims.toNat - 1))
  | .kgth h am so .. | .ksct h am so .. | .kqnt h am so .. => some (h, 3, am, so, 3)
  | .kmc h am so _ | .kred h am so _ _ => some (h, 3, am, so, 2)
  | .kexp h => some (h, 2, 0, 0, 2)
  | .kexpt h => some (h, 2, 0, 0, 3)
  | .kxfTranspose h am so .. | .kxfOrbitPack h am so .. | .kxfOrbitUnpack h am so .. | .kxfRequantise h am so .. | .kxfZeroFill h am so .. =>
    some (h, 3, am, so, 1)
  | _ => none

/-- The slots of a K command: the next entries of AQ, or words of its spill memory with am 2 (10 R223). -/
def Slots (am : BitVec 2) (so : BitVec 8) (v : List Word) (s : State) : Prop :=
  if am = 2 then v = (List.range v.length).map (fun i => Tbl.get 0 s.me.spillK (so.toNat + i))
  else ∃ xs ys, s.me.queue 0 = xs ++ ys ∧ xs.map QEntry.val = v ∧ ∀ x ∈ xs, entryPoppable s s.cur 0 x = true

/-- n bytes from an address lie in the data region of its bank, if the bank is SCALED (07 R150). -/
def clearOfScales (s : State) (a n : Nat) : Prop :=
  bfScaled (bfOf s.me a) = true → a % 2 ^ 19 + n ≤ 4096 * bfXoff (bfOf s.me a)

/-- A region in one bank of the scratchpad: L space, well formed, aligned, not past its bank and clear of its scales (10 R234). -/
def InOneBank (s : State) (q : Word) (align n : Nat) : Prop :=
  qSpc q = 1 ∧ q.extractLsb' 23 38 = 0 ∧ qAddr q % align = 0 ∧ qAddr q % 2 ^ 19 + n ≤ 2 ^ 19 ∧ clearOfScales s (qAddr q) n

/-- What a K command's slots and fields must be for it to issue without a fault (10 R227 to R236). -/
def kAllowed (s : State) (v : List Word) : Instr → Prop
  | .kcpy h _ _ dims len0 n1 n2 => copyFault s h dims (copyOps h dims len0 n1 n2 v) = none
  | .kgth .. | .ksct .. => qSpc (v.getD 0 0) ∈ [0, 1, 2, 4] ∧ qSpc (v.getD 1 0) = 1 ∧ qSpc (v.getD 2 0) ∈ [0, 1, 2, 4]
  | .kmc .. => qSpc (v.getD 0 0) ∈ [0, 1, 2] ∧ qSpc (v.getD 1 0) = 3 ∧
      (formFault (v.getD 1 0) = none → ∃ ms, wMembers s.me.placeOf s.cur (qMask (v.getD 1 0)) = some ms)
  | .kqnt .. => ∀ q ∈ v, qSpc q ∈ [0, 1, 2, 4]
  | .kexp _ => qSpc (v.getD 0 0) ∈ [0, 1, 2, 4] ∧ qSpc (v.getD 1 0) ∈ [1, 2]
  | .kxfTranspose _ _ _ fp _ cnt => InOneBank s (v.getD 0 0) (1024 * 2 ^ fp.toNat) (1024 * 2 ^ fp.toNat * cnt.toNat)
  | .kxfOrbitPack h .. | .kxfOrbitUnpack h .. =>
    let t := ttypeOf (captured .k s h.ta)
    let bank := qAddr (v.getD 0 0) / 2 ^ 19
    t.valid = true ∧ t.space = 1 ∧ InOneBank s (v.getD 0 0) 1 (tyBytes t) ∧
      ∀ i ∈ allIdx t, (locate t i).zero = false → let a := (elemAddr t (locate t i).off).1
        let n := (t.fmt.width + 7) / 8
        ((bank * 2 ^ 19 : Nat) : Int) ≤ a ∧ a + (n : Nat) ≤ ((bank + 1) * 2 ^ 19 : Nat) ∧ clearOfScales s a.toNat n
  | .kxfRequantise _ _ _ fp sc cnt => requantFault s (v.getD 0 0) fp sc cnt.toNat = none
  | .kxfZeroFill _ _ _ _ _ cnt => InOneBank s (v.getD 0 0) 1 (512 * cnt.toNat)
  | .kred _ _ _ rop _ => qSpc (v.getD 0 0) = 1 ∧ qSpc (v.getD 1 0) ∈ [0, 2, 4] ∧ (s.me.detOn = true → rop ≠ 2)
  | .kexpt _ =>
    let b := bfOf s.me (qAddr (v.getD 0 0))
    qSpc (v.getD 0 0) = 1 ∧ qSpc (v.getD 1 0) ∈ [0, 1, 2, 4] ∧ (bfApack b = true ∨ bfScaled b = true) ∧ 1 ≤ (v.getD 2 0).toNat ∧
      (v.getD 2 0).toNat ≤ 65535
  | _ => True

end Sys2Proof.Claims

/-- R162, R172, R222, R223, R237: every command of the K engine, where its slots and fields break no rule of its issue, enters
the engine's queue with its slots and a pending binding. That slots read from the spill memory have their single-bit errors corrected,
and that none stays in a word overwritten whole, is the MODEL'S CHOICE (log 9). -/
def Obligations.CopyCommandsEnterTheirQueue : Prop :=
  ∀ s i h words am so n v, kCommand i = some (h, words, am, so, n) → v.length = n → Slots am so v s → kAllowed s v i → Ready .k h.tk s →
    (s.me.kcmds.filter (fun x => !isMark x.i)).length < 64 → (am = 2 → s.me.spillBad .k so.toNat n = none) →
    let s' := if am = 2 then correctSlots s.cur .k h.seq.toNat (8 * so.toNat) (8 * n) s
      else acquired 0 n (if am = 1 then overSpill s.cur .k so.toNat n s else s)
    ∃ t, exec i s = .next t ∧ Enqueued .k h i words s' t ∧
      (∀ x, t.me.kcmds = s.me.kcmds ++ [x] → x.slots = v ∧ x.bind = s.me.kbind ∧ x.nfy = h.prof.getLsbD 3) ∧ t.me.kbind = none ∧
      (∀ q, t.me.queue q = if q = 0 ∧ am ≠ 2 then (s.me.queue 0).drop n else s.me.queue q) ∧
      (∀ j, Tbl.get 0 t.me.spillK j = if am = 1 ∧ so.toNat ≤ j ∧ j < so.toNat + n then v.getD (j - so.toNat) 0 else Tbl.get 0 s.me.spillK j) ∧
      (∀ p, p ∈ t.me.spillPoison ↔ p ∈ s.me.spillPoison ∧ ¬ (am = 1 ∧ p.1 = engNum .k ∧ so.toNat ≤ p.2 ∧ p.2 < so.toNat + n)) ∧
      still s { t.me with kcmds := s.me.kcmds, cmdNo := s.me.cmdNo, names := s.me.names, window := s.me.window, kbind := s.me.kbind,
                          queues := s.me.queues, spillK := s.me.spillK, spillPoison := s.me.spillPoison } = s.me

/-- R226, R237, R240: KBIND keeps a binding for the next command, KMARK stands behind the earlier commands, and KNOP, KBR, KBRQ
and KEND, which issues and completes once every command has (06 R122). -/
def Obligations.CopySingleWords : Prop :=
  ∀ s (b : BitVec 6) (o : BitVec 18) (off : BitVec 17) (e : BitVec 5) (tk : BitVec 3), Ready .k tk s →
    let pc := (s.me.stream .k).pc
    let w := s.me.barrier b.toNat
    (∀ x xs, s.me.queue 0 = x :: xs → entryPoppable s s.cur 0 x = true → bMode w ≠ 0 → bFlt w = false → s.me.kbind = none →
      ∃ t, exec (.kbind b e tk) s = .next t ∧ Completes .k tk 1 (acquired 0 1 s) t ∧ t.me.kbind = some (b.toNat, (x.val.toNat + 63) / 64) ∧
        (∀ q, t.me.queue q = if q = 0 then xs else s.me.queue q) ∧ still s { t.me with kbind := s.me.kbind, queues := s.me.queues } = s.me) ∧
    (∃ t x, exec (.kmark tk) s = .next t ∧ Issued .k tk 1 s t ∧ t.me.kcmds = s.me.kcmds ++ [x] ∧ x.i = .kmark tk ∧ x.no = s.me.cmdNo ∧
      x.places = fifosPushed .k (s.me.tokenSet .k tk) ∧ t.me.cmdNo = s.me.cmdNo + 1 ∧
      still s { t.me with kcmds := s.me.kcmds, cmdNo := s.me.cmdNo } = s.me) ∧
    (∃ t, exec (.knop tk) s = .next t ∧ Completes .k tk 1 s t ∧ still s t.me = s.me) ∧
    (∃ t, exec (.kbr o tk) s = .next t ∧ Branches .k tk ((pc : Int) + 4 * o.toInt).toNat true s t ∧ still s t.me = s.me) ∧
    (∀ x xs, s.me.queue 6 = x :: xs → x.due ≤ s.now → x.checked = true →
      ∃ t, exec (.kbrq off e tk) s = .next t ∧ Branches .k tk ((pc : Int) + 4 * off.toInt).toNat (decide (x.val ≠ 0)) s t ∧
        (∀ q, t.me.queue q = if q = 6 then xs else s.me.queue q) ∧ still s { t.me with queues := s.me.queues } = s.me) ∧
    (s.me.kbind = none →
      (s.me.kcmds = [] → s.me.stopped = false → ∃ t, exec (.kend tk) s = .next t ∧ OnlyMe s t ∧ Ends .k tk s t ∧ still s t.me = s.me) ∧
      (s.me.kcmds ≠ [] → ∃ t, exec (.kend tk) s = .next t ∧ EndIssued .k tk s t))

/-- R222, R224, R225, R227, R238: a turn of a KCPY in the own scratchpad copies its next line, unchanged between banks without a
format, up to the next 64-byte boundary of its destination; a KXF zero fill clears its region in one turn (R234); a KMC sends its next
line to its members' scratchpads (R230), where it lands 12 cycles later (07 R138); a performed line is acknowledged; a command whose lines are all answered
leaves its engine, with its record in the notify queue where it asks for one and there is a place, a record being handled keeping its
own (06 R133, 20 R373); one that has stopped faults the unit, with its lines in EBX. -/
def Obligations.CopyLinesAndCompletion : Prop :=
  ∀ s g (x : Cmd), (s.core g).kcmds = [x] → x.bind = none →
    let c := s.core g
    (∀ r h am so len0 a b, AdvanceOf g .k x.no r s → c.runs = true → x.i = .kcpy h am so 1 len0 1 1 → h.ta = 63 → h.tb = 63 → x.slots = [a, b] →
      x.started ≠ none → x.allSent = false → x.stop = none → x.fly = [] → x.part = [] → x.run = 0 → x.off < len0.toNat →
      qSpc a = 1 → qSpc b = 1 → formFault a = none → formFault b = none → (∀ n, bfOf c n = 0xFF) → bankOpen s g 4 = true →
      let A := qAddr a + x.off
      let B := qAddr b + x.off
      let n := min (64 - B % 64) (len0.toNat - x.off)
      let last := decide (len0.toNat ≤ x.off + n)
      A % 2 ^ 19 + n ≤ 2 ^ 19 → A + n ≤ 2 ^ 23 → B + n ≤ 2 ^ 23 → (∀ w ∈ c.spPoison, 8 * w + 8 ≤ A ∨ A + n ≤ 8 * w) →
      ∃ t f, step r = .next t ∧ OnlyReads g s t ∧
        (∀ i, byteAt (t.core g).sp i = if B ≤ i ∧ i < B + n then byteAt c.sp (A + (i - B)) else byteAt c.sp i) ∧
        (t.core g).kcmds = [{ x with off := if last then 0 else x.off + n, run := if last then 1 else 0, sent := x.sent + 1, since := s.now,
                                     fly := [f] }] ∧ f.n = x.sent ∧ f.phase = .done ∧
        { t.core g with sp := c.sp, spPoison := c.spPoison, kcmds := c.kcmds, cyc := c.cyc } = c) ∧
    (∀ r, AdvanceOf g .k x.no r s → c.runs = true → x.started ≠ none → x.allSent = false → x.stop = none → x.fly = [] → x.part = [] → x.run = 0 →
      (∀ h am so fp sc (cnt : BitVec 13) a, x.i = .kxfZeroFill h am so fp sc cnt → x.slots = [a] → qAddr a + 512 * cnt.toNat ≤ 2 ^ 23 →
        bankOpen s g 1 = true →
        ∃ t f, step r = .next t ∧ OnlyReads g s t ∧
          (∀ i, byteAt (t.core g).sp i = if qAddr a ≤ i ∧ i < qAddr a + 512 * cnt.toNat then 0 else byteAt c.sp i) ∧
          (t.core g).kcmds = [{ x with run := 1, sent := x.sent + 1, since := s.now, fly := [f] }] ∧ f.n = x.sent ∧ f.phase = .done ∧
          { t.core g with sp := c.sp, spPoison := c.spPoison, kcmds := c.kcmds, cyc := c.cyc } = c) ∧
      (∀ h am so (len : BitVec 22) a b ms, x.i = .kmc h am so len → x.slots = [a, b] → x.off < len.toNat → qSpc a = 1 → qSpc b = 3 →
        formFault a = none → formFault b = none → wMembers c.placeOf g (qMask b) = some ms → wRefused s g ms = false → (∀ n, bfOf c n = 0xFF) →
        bankOpen s g 4 = true → qAddr b % 64 = 0 →
        let A := qAddr a + x.off
        let B := qAddr b + x.off
        let n := min (64 - B % 64) (len.toNat - x.off)
        let last := decide (len.toNat ≤ x.off + n)
        A % 2 ^ 19 + n ≤ 2 ^ 19 → A + n ≤ 2 ^ 23 → B + n ≤ 2 ^ 23 → (∀ w ∈ c.spPoison, 8 * w + 8 ≤ A ∨ A + n ≤ 8 * w) →
        ∃ t y f, step r = .next t ∧ { t with cores := s.cores, wFlight := s.wFlight, flips := s.flips, banks := s.banks } = s ∧
          (∀ k, k ≠ g → t.core k = s.core k) ∧ t.wFlight = s.wFlight ++ [y] ∧ y.g = g ∧ y.e = .k ∧ y.due = s.now + 12 ∧ y.members = ms ∧
          y.addr = B ∧ y.cmd = x.no ∧ y.line = x.sent ∧ y.data.length = n ∧ (∀ i, i < n → y.data.getD i 0 = byteAt c.sp (A + i)) ∧
          (t.core g).kcmds = [{ x with off := if last then 0 else x.off + n, run := if last then 1 else 0, sent := x.sent + 1, since := s.now,
                                       fly := [f] }] ∧ f.n = x.sent ∧ f.phase = .writing ∧
          { t.core g with kcmds := c.kcmds, cyc := c.cyc } = c)) ∧
    (∀ f fs, x.fly = f :: fs → f.phase = .done → x.stop = none →
      ∃ t, exec (.lineResponse g x.no) s = .next t ∧ OnlyCore g s t ∧
        (t.core g).kcmds = [{ x with fly := x.fly.filter (fun y => decide (y.n ≠ f.n)) }] ∧ { t.core g with kcmds := c.kcmds } = c) ∧
    (isMark x.i = false → x.started ≠ none → x.fly = [] → x.ahead = false →
      (x.stop = none → x.allSent = true → NotEnding g s →
        (x.nfy = true → c.notifyQ.length < 16 ∧ (c.uiact = true → c.uiBound = false → c.notifyQ.length < 15)) →
        ∃ t, exec (.kCommandCompletion g x.no) s = .next t ∧ OnlyCore g s t ∧ (t.core g).kcmds = [] ∧
          (t.core g).notifyQ = c.notifyQ ++ (if x.nfy then [BitVec.ofNat 16 (x.seq % 256)] else []) ∧
          (∀ f, ((t.core g).fifo f).length = (c.fifo f).length + x.places.count f) ∧
          { t.core g with kcmds := c.kcmds, notifyQ := c.notifyQ, tokens := c.tokens, reserved := c.reserved, cyc := c.cyc } = c) ∧
      (∀ f, x.stop = some f → x.nfy = false → f.code < 256 →
        ∃ t, exec (.kCommandCompletion g x.no) s = .next t ∧ (t.core g).stopped = true ∧ (t.core g).kcmds = [] ∧ SameMemory s t ∧
          (∀ h, h ≠ g → t.core h = s.core h) ∧ (t.core g).tokens = c.tokens ∧
          (s.bank (.core g) = Bank.reset → (t.bank (.core g)).ebs.extractLsb' 8 8 = BitVec.ofNat 8 f.code ∧
            (t.bank (.core g)).ebx.extractLsb' 0 32 = BitVec.ofNat 32 (x.sent - x.failed.length))))

/-- R235, R354: a reduce packet's 4-byte integers are added to what stands in its core's scratchpad, unless that core zeroes
it or has another tag's state by then (07 R137), and its line is acknowledged. -/
def Obligations.ReducePackets : Prop :=
  ∀ s (f : RedFlight) (fs : List RedFlight) (m a : Nat) (x : Cmd), s.redFlight = f :: fs → f.core = some m → f.rop = 0 →
    f.runs = [(a, f.data.length)] → f.data.length % 4 = 0 → (∀ w ∈ (s.core m).spPoison, 8 * w + 8 ≤ a ∨ a + f.data.length ≤ 8 * w) →
    (s.core f.g).kcmds = [x] → x.no = f.cmd → x.bind = none → coreDie m = coreDie f.g ∨ fencedDie s (coreDie m) = false →
    zeroingNow s m = false → tagCheck s f.g m = none →
    ∃ t, exec .reducePacket s = .next t ∧ t.redFlight = fs ∧
      { t with cores := s.cores, redFlight := s.redFlight, flips := s.flips, banks := s.banks } = s ∧
      (∀ k, k < f.data.length / 4 → numAt (t.core m).sp (a + 4 * k) 4 = (numAt (s.core m).sp (a + 4 * k) 4 + leNat ((f.data.drop (4 * k)).take 4)) % 2 ^ 32) ∧
      (∀ h b, h ≠ m ∨ b < a ∨ a + f.data.length ≤ b → byteAt (t.core h).sp b = byteAt (s.core h).sp b) ∧
      (t.core f.g).kcmds = [{ x with fly := x.fly.filter (fun y => decide (y.n ≠ f.line)) }]

namespace Sys2Proof.Claims
open Sys2Proof.Machine

/- The events of the part. -/

/-- Nothing waits for an access of core g. -/
def Idle (s : State) (g : Nat) : Prop := (s.core g).pend = [] ∧ (s.core g).undeclared = none ∧ NotEnding g s

/-- Nothing of the module differs but what f keeps out of sight, and no byte of memory. -/
def OnlyIn (f : State → State) (s t : State) : Prop := f t = f s ∧ SameMemory s t

end Sys2Proof.Claims

/-- R138, R142, R143, R332: a W store that is due lands in every member's scratchpad; a miss enters its walker's table, and the end of
its walk caches the page at every core that has joined it; a store that has stood 256 cycles at its queue's head takes the memory
port. -/
def Obligations.LandingsWalksAndPriority : Prop :=
  ∀ s,
    (∀ f, s.wFlight = [f] → f.due ≤ s.now → f.e ≠ .k → f.mask = 0xFFFF → f.pois = [] → s.sevFlight = [] → Idle s f.g →
      nextIsW (s.core f.g) .s = false → nextIsW (s.core f.g) .v = false →
      ∃ t, exec .wStoreLanding s = .next t ∧ t.wFlight = [] ∧ { t with cores := s.cores, wFlight := s.wFlight, flips := s.flips } = s ∧
        ∀ g a, byteAt (t.core g).sp a = if g ∈ f.members ∧ f.addr ≤ a ∧ a < f.addr + f.data.length then f.data.getD (a - f.addr) 0
          else byteAt (s.core g).sp a) ∧
    (∀ g (va : BitVec 57), let page := va.toNat / 2 ^ 21
      let k := walkerOf (coreDie g) va.toNat
      let w := walkAt s (coreDie g) (page * 2 ^ 21) false false
      ((∀ m ∈ s.missTable k, m.page ≠ page) → needsPage s g page = true → (s.missTable k).length < 512 →
        ∃ t, exec (.translationWalk g va) s = .next t ∧ { t with misses := s.misses } = s ∧
          Writes [] s.misses t.misses k (s.missTable k ++ [{ page := page, cores := [g] }])) ∧
      (∀ m p, s.missTable k = [m] → m.page = page → w.res = .ok p → w.corrected = [] → w.bad = none →
        ∃ t, exec (.translationWalk g va) s = .next t ∧ { t with cores := s.cores, misses := s.misses, tick := s.tick } = s ∧
          Writes [] s.misses t.misses k [] ∧ (∀ h ∈ m.cores, p ∈ (t.core h).tlb) ∧ (∀ h, h ∉ m.cores → t.core h = s.core h) ∧
          ∀ h, { t.core h with tlb := (s.core h).tlb } = s.core h)) ∧
    (∀ g e a, e ≠ .k → nextAccess (s.core g) e true = some a →
      (a.since + 256 ≤ s.now → ∃ t, exec (.memoryResponse g e true) s = .next t ∧ exec (.storeQueuePriority g e) s = .next t) ∧
      (s.now < a.since + 256 → exec (.storeQueuePriority g e) s = .next s))

namespace Sys2Proof.Claims
open Sys2Proof.Machine

/-- Phase y is phase z with the arrival of member g in it (15 R327): each node below the object's level has forwarded its one message
once every member below it has arrived, and with all of them, and with the other devices of a fabric group, the phase is complete. -/
def Joined (g : Nat) (members : List Nat) (others : Prop) (owes : List Owe) (z y : ZPhase) : Prop :=
  let here (m : Nat) : Prop := m = g ∨ m ∈ z.arrived
  let sends (of_ : Nat → Nat) (k : Nat) : Prop := (∃ m ∈ members, of_ m = k) ∧ ∀ m ∈ members, of_ m = k → here m
  y = { z with arrived := z.arrived ++ [g], owes := addOwes z.owes owes, teams := y.teams, dies := y.dies, up := y.up,
               complete := y.complete, closed := y.closed } ∧
    (∀ k, k ∈ y.teams ↔ 3 ≤ z.mode ∧ sends teamOf k) ∧ (∀ k, k ∈ y.dies ↔ 4 ≤ z.mode ∧ sends coreDie k) ∧
    (y.up = true ↔ z.mode = 5 ∧ ∀ m ∈ members, here m) ∧
    ((∀ m ∈ members, here m) → others → y.complete = true ∧ y.closed = true) ∧
    ((∃ m ∈ members, ¬ here m) ∨ ¬ others → y.complete = false ∧ y.closed = z.closed)

end Sys2Proof.Claims

/-- R209, R327, R333, R358: the arrival of a member goes up from its team's node to its die's and to the module's, each forwarding one
message when all below it have arrived, and for a group of devices one to them; that of the last member, and for a group that of the
others, completes a domain barrier's phase at the node. The release reaches every member of a team in one step: it raises PHASE there,
hands over what the phase's arrivals have released, and lets the members arrive again; a core that another tag has meanwhile stays as it is. That the other devices' arrivals come as one
event, and which devices these are, is the MODEL'S CHOICE (logs 20 and 50). -/
def Obligations.DomainBarriers : Prop :=
  ∀ s g b (z : ZPhase) (zs zs' : List ZPhase),
    let c := s.core g
    let w := c.barrier b
    let a := Tbl.get Arrived.none c.arrived b
    let members := domainMembers (unitPlace z.unit) g (bMode w)
    let mine (x : ZPhase) : Prop := x.mode = bMode w ∧ x.b = b ∧ x.launch = unitLaunch (c.senderOf b) ∧ x.inst = domainInst g (bMode w)
    (∀ m ∈ g :: members, m < 256 ∧ s.memberKey m b = m) → (a.streams ≠ 0 → a.mode = bMode w) →
    s.zenith = zs ++ z :: zs' → mine z → (∀ x ∈ zs, ¬ mine x) → (∀ x ∈ zs ++ zs', x.id ≠ z.id) → z.dam = false → z.flt = false → 2 ≤ bMode w →
    let others : Prop := bMode w ≠ 5 ∨ z.group = true ∨ groupDevices s z.unit = []
    (a.streams ≠ 0 → a.atNode = false → a.dam = false → a.flt = false → z.complete = false → g ∉ z.arrived → g ∉ z.released →
      ∃ t y, exec (.zenithArrival g ⟨b, none⟩) s = .next t ∧
        OnlyIn (fun u => { u with cores := s.cores, zenith := s.zenith, zSent := s.zSent }) s t ∧ (∀ h, h ≠ g → t.core h = s.core h) ∧
        { t.core g with arrived := c.arrived } = c ∧ Writes Arrived.none c.arrived (t.core g).arrived b { a with atNode := true, fltAt := false } ∧
        t.zenith = zs ++ y :: zs' ∧ Joined g members others ((Tbl.get [] c.bOwes b).map (fun o => { o with core := some (o.core.getD g) })) z y ∧
        (z.up = false → y.up = true → t.zSent = s.zSent ++ [{ launch := z.launch, b := b, dam := false, flt := false }]) ∧
        (z.up = y.up → t.zSent = s.zSent)) ∧
    (bMode w = 5 → z.complete = false → z.group = false → (∀ m ∈ members, m ∈ z.arrived) → z.up = true →
      ∃ y, exec (.zenithArrival g ⟨b, some (false, false)⟩) s = .next { s with zenith := zs ++ y :: zs' } ∧
        y = { z with group := true, complete := true, closed := true, teams := y.teams, dies := y.dies }) ∧
    (z.complete = true → z.closed = true → g ∈ members → members.Nodup → g ∉ z.released → (∀ m ∈ members, Idle s m) →
      ∃ t, exec (.domainRelease g b) s = .next t ∧ OnlyIn (fun u => { u with cores := s.cores, zenith := s.zenith }) s t ∧
        let reached (m : Nat) : Prop := m ∈ members ∧ m ∉ z.released ∧ teamOf m = teamOf g
        let sameTag (m : Nat) : Prop := (s.core m).tagNow = some (tagOf z.unit)
        (∀ m, ¬ (reached m ∧ sameTag m) → t.core m = s.core m) ∧
        (∀ m, reached m → sameTag m → bMode ((s.core m).barrier b) = bMode w → ∃ w', let d := s.core m
          let v := d.barrier b
          Writes 0 d.bobj (t.core m).bobj b w' ∧ Object w' (bMode v) (bExp v) (bNeed v) (bPhase v + 1) false false ∧
          Writes Arrived.none d.arrived (t.core m).arrived b Arrived.none ∧
          (∀ k, Tbl.get [] (t.core m).bOwes k = if k = b then [] else if k = 64 + b then addOwes (Tbl.get [] d.bOwes k) z.owes
            else Tbl.get [] d.bOwes k) ∧
          { t.core m with bobj := d.bobj, arrived := d.arrived, bOwes := d.bOwes } = d) ∧
        ((∀ m ∈ members, m ∈ z.released ∨ reached m) → t.zenith = zs ++ zs') ∧
        ((∃ m ∈ members, m ∉ z.released ∧ ¬ reached m) → ∃ now, (∀ m, m ∈ now ↔ reached m) ∧
          t.zenith = zs ++ { z with released := z.released ++ now, first := some (z.first.getD s.now) } :: zs'))

/-- R355 to R358, R369, R370: an update that finds no holding entry of its location opens one; a close takes the entries that are open
at a slice that it reaches, not in the cycle of an update that the slice has accepted; then it adds an integer entry's updates to
memory and frees it, and after the last completes the phase that waited. That the turns of
CLOSE_TAG leave the order between the slices open is the MODEL'S CHOICE (log 17). -/
def Obligations.DeterministicUpdates : Prop :=
  ∀ s,
    (∀ u us, s.updFlight = u :: us → (∀ h ∈ s.holding, ¬ (h.pa = u.pa ∧ h.tag = u.tag)) → Idle s u.g → cutOff s (coreDie u.g) u.pa = false →
      ((s.holding ++ s.closing).filter (fun h => decide (sliceOf h.pa = sliceOf u.pa) && !h.wide)).length < 256 →
      ∃ t, exec .updateAcceptance s = .next t ∧ t.updFlight = us ∧ t.dram = s.dram ∧ (u.tag, sliceOf u.pa) ∈ t.accepted ∧
        t.holding = s.holding ++ [{ pa := u.pa, tag := u.tag, width := u.width, fp := u.fp, wide := false,
                                    pairs := [(u.key, partialOf u.fp u.width u.val)] }]) ∧
    (∀ (x : CloseRun) k, s.closes = [x] → k ∉ x.reached → x.left.filter (fun h => decide (sliceOf h.pa = k)) = [] → (x.tag, k) ∉ s.accepted →
      (x.left ≠ [] ∨ x.away ≠ [] ∨ ∃ h ∈ s.holding, h.tag = x.tag ∧ (sliceOf h.pa = k ∨ sliceOf h.pa ∉ x.reached)) → x.send = [] →
      ∃ t y, exec (.closeTag ⟨x.tag, k⟩) s = .next t ∧ { t with holding := s.holding, closes := s.closes } = s ∧ t.closes = [y] ∧
        { y with reached := x.reached, left := x.left } = x ∧ y.reached = x.reached ++ [k] ∧
        (∀ h, h ∈ t.holding ↔ h ∈ s.holding ∧ ¬ (h.tag = x.tag ∧ sliceOf h.pa = k)) ∧
        ∀ h, h ∈ y.left ↔ h ∈ x.left ∨ (h ∈ s.holding ∧ h.tag = x.tag ∧ sliceOf h.pa = k)) ∧
    (∀ (x : CloseRun) g b h, s.closes = [x] → x.why = .localPhase g b [false] → g < 256 → x.left = [h] → x.send = [] → x.away = [] →
      (∀ y ∈ s.holding, y.tag = x.tag → sliceOf y.pa ∈ x.reached) → h.fp = false → h.pairs ≠ [] →
      let sum : Int := (h.pairs.map (fun p => p.2.sum)).sum
      0 ≤ sum → h.width = 4 ∨ h.width = 8 →
      ∃ t w', exec (.closeTag ⟨x.tag, sliceOf h.pa⟩) s = .next t ∧ t.holding = s.holding ∧ t.closes = [] ∧
        numAt t.dram h.pa h.width = (numAt s.dram h.pa h.width + sum.toNat) % 2 ^ (8 * h.width) ∧
        (∀ a, a < h.pa ∨ h.pa + h.width ≤ a → byteAt t.dram a = byteAt s.dram a) ∧
        Writes 0 (s.core g).bobj (t.core g).bobj b w' ∧ bPhase w' = bPhase ((s.core g).barrier b) + 1 ∧
        { t.core g with bobj := (s.core g).bobj } = s.core g ∧ (∀ k, k ≠ g → t.core k = s.core k))

/-- R214, R360 to R364, R388: a submission is accepted after 4 cycles and stands in its die's next batch, with those of one cycle by
ascending core; a beat's batch goes to every sequencer; the four batches of a beat merge by die rank; the unit queues take the merged requests 480 cycles after the
beat; with its last grant the transaction is granted. -/
def Obligations.OrderFirstSequencing : Prop :=
  ∀ s,
    let m := s.meridian
    (∀ g slot since pc places path r, let o := (s.core g).ofSlot slot
      (s.core g).subs = [(slot, since, pc, places, path)] → since + 4 ≤ s.now → slot < 4 → o.ranges = [r] → r.space = 1 → NotEnding g s →
      ∃ t x, exec (.ofsubAcceptance g slot) s = .next t ∧ SameMemory s t ∧ (∀ h, h ≠ g → t.core h = s.core h) ∧ (t.core g).subs = [] ∧
        (t.core g).ofSlot slot = { o with st := .submitted, tx := m.nextTx, lost := decide (1 ≤ r.count) && fencedDie s (coreDie r.core) } ∧
        t.meridian = { m with nextTx := m.nextTx + 1, txs := m.txs ++ [x], pending := t.meridian.pending } ∧
        (let old := Tbl.get [] m.pending (coreDie g)
          let later (y : Nat × Nat) : Bool := decide (y.2 = s.now) && m.txs.any (fun z => decide (z.id = y.1) && decide (g < z.g))
          (∀ z ∈ m.txs, ∀ z' ∈ m.txs, z.id = z'.id → z = z') →
          Writes [] m.pending t.meridian.pending (coreDie g) (old.filter (fun y => !later y) ++ (m.nextTx, s.now) :: old.filter later)) ∧
        x.id = m.nextTx ∧ x.g = g ∧ x.slot = slot ∧ x.die = coreDie g ∧ x.released = false ∧
        (∀ u w, (u, w) ∈ x.units ↔ w = r.write ∧ ∃ k, k < r.count ∧ u = .slot r.core (r.first + k))) ∧
    (∀ die, die < 4 → fencedDie s die = false → let b := Tbl.get 0 m.beats die
      600 * (b + 1) ≤ s.now → (∀ x ∈ Tbl.get [] m.pending die, x.2 < 600 * (b + 1)) → (Tbl.get [] m.pending die).length ≤ 64 →
      ∃ t, exec (.beatEnd die) s = .next t ∧ { t with meridian := m } = s ∧ Tbl.get 0 t.meridian.beats die = b + 1 ∧
        Tbl.get [] t.meridian.pending die = [] ∧
        (∀ x, x ∈ t.meridian.got ++ t.meridian.sent ↔ x ∈ m.got ++ m.sent ∨
          ∃ d, d < 4 ∧ x = { dst := d, src := die, beat := b, txs := (Tbl.get [] m.pending die).map Prod.fst })) ∧
    (∀ dst src x0 x1 x2 x3 x, let b := Tbl.get 0 m.merged dst
      m.sent.find? (fun y => decide (y.dst = dst) && decide (y.src = src)) = some x →
      (m.got ++ [x]).filter (fun y => decide (y.dst = dst)) = [x0, x1, x2, x3] → x0.src = 0 → x1.src = 1 → x2.src = 2 → x3.src = 3 →
      (∀ y ∈ [x0, x1, x2, x3], y.beat = b) → (∀ y ∈ m.order, y.1 ≠ b) →
      ∃ t, exec (.batchArrival dst src) s = .next t ∧ { t with meridian := m } = s ∧ Tbl.get 0 t.meridian.merged dst = b + 1 ∧
        t.meridian.order = m.order ++ (x0.txs ++ x1.txs ++ x2.txs ++ x3.txs).map (fun n => (b, n)) ∧ t.meridian.sent = m.sent.erase x) ∧
    (∀ die, die < 4 → let b := Tbl.get 0 m.taken die
      600 * (b + 1) + 480 ≤ s.now → (∀ d, d < 4 → b < Tbl.get 0 m.merged d) →
      ∃ t, exec (.grantQueueTake die) s = .next t ∧ SameMemory s t ∧ Tbl.get 0 t.meridian.taken die = b + 1 ∧
        ∀ n x u w, (b, n) ∈ m.order → m.txs.find? (fun y => decide (y.id = n)) = some x → x.released = false → (u, w) ∈ x.units →
          unitDie (queueUnit u) = die → ∃ q, (queueUnit u, q) ∈ t.meridian.queues ∧ ∃ r ∈ q, r.tx = n ∧ r.write = w) ∧
    (∀ n x (y : OfTx), m.grants[n]? = some x → x.due ≤ s.now → m.txs.find? (fun y => decide (y.id = x.tx)) = some y → y.g < 0x10000 →
      (∀ u ∈ y.units, queueUnit u.1 = x.unit ∨ queueUnit u.1 ∈ y.arrived) → ((s.core y.g).ofSlot y.slot).tx = y.id →
      ((s.core y.g).ofSlot y.slot).st = .submitted →
      ∃ t, exec (.grantArrival n) s = .next t ∧ SameMemory s t ∧ t.meridian.grants = m.grants.eraseIdx n ∧
        (t.core y.g).ofSlot y.slot = { (s.core y.g).ofSlot y.slot with ready := true } ∧
        (∀ h, h ≠ y.g → t.core h = s.core h))

/-- R335, R337 to R341: packets are performed once in their stream's order and answered; one that
reaches past a line is held, and its lines are performed in one cycle each (15 R316); a response frees its retry entry and
reaches its load; a waiting load leaves when there is room; a link that has failed the check of a flit eight times running, or
accepted none for 4,800 cycles, takes its path down, which sends its buffered packets again by the next one; one that comes up
begins with a header on every stream that has been used; a link's retry is counted in its port's bank. MODEL'S CHOICE: what shows that a link has
accepted a flit (log 56), that a path's port is its route's (log 40), and that the buffer counts a packet by its flits and a header goes
out on every stream that has been used (log 41). -/
def Obligations.FabricPaths : Prop :=
  ∀ s (die dev path : Nat),
    let s1 : State := { s with pathDown := s.pathDown ++ [(die, dev, path)] }
    (∀ p r, p.ddev = s.plat.device → fencedDie s p.sdie.toNat = false → p.op = .write → (recvWin s p).held = [] → (∀ x ∈ s.closes, closeDone s x = false) →
      (p.seq = (recvWin s p).next → longPacket p = true → (∀ x ∈ s.longs, x.p ≠ p) →
        ∃ t, exec (.packetReceive p) s = .next t ∧ { t with recv := s.recv, longs := s.longs } = s ∧
          t.longs = s.longs ++ [{ p := p, at_ := 0, data := [], due := s.now, again := false }] ∧ (recvWin t p).next = p.seq ∧
          (recvWin t p).held = [p]) ∧
      (p.seq = (recvWin s p).next → longPacket p = false → remoteSegments p.sdev p.sdie.toNat p.va.toNat p.payload.length true p.tag s = (.ok r, s) → (∀ k ∈ p.marks, k = false) →
        ∃ t, exec (.packetReceive p) s = .next t ∧ t.dram = (writeSegs r p.payload s).dram ∧ t.outbox = s.outbox ++ [responseTo p 0 [] []] ∧
          (recvWin t p).next = p.seq + 1 ∧ t.cores = s.cores) ∧
      (seqBefore p.seq (recvWin s p).next = true → (recvWin s p).stored = [] →
        ∃ t, exec (.packetReceive p) s = .next t ∧ { t with recv := s.recv } = { s with outbox := s.outbox ++ [responseTo p 0 [] []] } ∧
          recvWin t p = recvWin s p)) ∧
    (∀ (x : LongPacket) r w, let p := x.p
      s.longs = [x] → x.again = false → x.data = [] → p.op = .write → (∀ k ∈ p.marks, k = false) → x.at_ < p.payload.length →
      (x.at_ = 0 → remoteSegments p.sdev p.sdie.toNat p.va.toNat p.payload.length true p.tag s = (.ok w, s)) →
      let n := min (64 - (p.va.toNat + x.at_) % 64) (p.payload.length - x.at_)
      remoteSegments p.sdev p.sdie.toNat (p.va.toNat + x.at_) n true p.tag s = (.ok r, s) →
      let t := longTurn x s
      t.dram = (writeSegs r ((p.payload.drop x.at_).take n) s).dram ∧ t.cores = s.cores ∧
      (x.at_ + n < p.payload.length → t.longs = [{ x with at_ := x.at_ + n, due := s.now + 1 }] ∧ t.outbox = s.outbox ∧ t.recv = s.recv) ∧
      (x.at_ + n = p.payload.length → (recvWin s p).next = p.seq → (recvWin s p).held = [p] → (∀ x ∈ s.closes, closeDone s x = false) →
        t.longs = [] ∧ t.outbox = s.outbox ++ [responseTo p 0 [] []] ∧ (recvWin t p).next = p.seq + 1)) ∧
    (∀ r x g a q, s.retry.find? (answers r) = some x → x.owner = .access g .s a.ord q.lane → (s.core g).loads .s = [a] → (s.core g).stores .s = [] →
      nextIsW (s.core g) .v = false → a.kind = .load → a.err = none → a.begun = true → a.pieces = [] → a.out = [q] → a.got = [] → a.places = [] → a.dst ≠ 0 → Idle s g → r.code = 0 → (∀ k ∈ r.marks, k = false) →
      ∃ t, exec (.responseReceive r) s = .next t ∧ SameMemory s t ∧ t.retry = s.retry.filter (fun y => !answers r y) ∧
        (t.core g).loads .s = [] ∧ Writes 0 (s.core g).s (t.core g).s a.dst (BitVec.ofNat 64 (leNat r.data)) ∧ (∀ h, h ≠ g → t.core h = s.core h)) ∧
    (∀ g a q, g / 64 = die → (s.core g).loads .s = [a] → a.kind = .load → a.obs = 0 → a.begun = true → a.out = [] → a.pieces = [q] → (∀ x ∈ s.closes, x.die ≠ die ∧ closeDone s x = false) → qSpc q.qa = 4 →
      qByte q.qa % q.n = 0 → (s.core g).stores .s = [] → s.wFlight = [] → (s.plat.device.toNat : Int) + qDev q.qa = dev → dev < 4096 → pathUp s die dev = true →
      retryBytes s die + 64 ≤ 8 * 2 ^ 20 →
      (∀ k, k / 64 = die → (k ≠ g → (s.core k).loads .s = []) ∧ (s.core k).loads .v = [] ∧ (s.core k).stores .s = [] ∧ (s.core k).stores .v = [] ∧
        (s.core k).kcmds = []) →
      ∃ t x, exec (.retryBufferRoom die) s = .next t ∧ SameMemory s t ∧ t.retry = s.retry ++ [x] ∧ x.die = die ∧ x.owner = .access g .s a.ord q.lane ∧
        x.pkt.op = .read ∧ x.pkt.va = BitVec.ofNat 57 (qFva q.qa) ∧ x.pkt.len = BitVec.ofNat 13 q.n ∧ x.pkt.ddev = BitVec.ofNat 12 dev ∧
        x.pkt.seq = Tbl.get 0 s.sendSeq (sendKey die dev 0) ∧ (t.core g).loads .s = [{ a with pieces := [], out := [q], full := none }] ∧ (∀ h, h ≠ g → t.core h = s.core h)) ∧
    ((die, dev, path) ∉ s.pathDown → currentPath s die dev = some path → pathUp s1 die dev = true →
      let moved : State := { s1 with retry := s.retry.map (fun r =>
        if r.die = die ∧ r.pkt.ddev.toNat = dev then { r with sentAt := s.now } else r) }
      (∀ r, routeOf s die dev path = some r → s.plat.routes.filter (fun x => decide (x.port = r.port)) = [r] →
        exec (.linkDown die dev path) s = .next (if 8 ≤ (s.link r.port).fails then moved else s) ∧
          exec (.linkSilenceTimeout die dev path) s = .next (if silent s r.port then moved else s)) ∧
        exec (.switchReport die dev path) s = .next moved ∧
        (∀ r ∈ s.retry, r.die = die → r.pkt.ddev.toNat = dev → r.sentAt + 262144 ≤ s.now →
          exec (.responseTimeout die dev r.pkt.cls.toNat) s = .next moved)) ∧
    (pathUp s die dev = false → pathUp { s with pathDown := s.pathDown.erase (die, dev, path) } die dev = true →
      ∃ t hs, exec (.pathUpResync die dev path) s = .next t ∧
        { t with links := s.links } = { s with pathDown := s.pathDown.erase (die, dev, path), headers := s.headers ++ hs } ∧
        (routeOf s die dev path = none → t.links = s.links) ∧
        (∀ r, routeOf s die dev path = some r → Writes Link.reset s.links t.links r.port { fails := 0, okAt := s.now }) ∧
        (∀ p, p ∈ hs → p.op = .resync ∧ p.payload = [] ∧ p.ddev = BitVec.ofNat 12 dev ∧ p.sdie = BitVec.ofNat 2 die ∧
          p.seq = Tbl.get 0 s.sendSeq (sendKey die dev p.cls.toNat)) ∧
        (∀ cls, cls < 4 → ((∃ p ∈ hs, p.cls.toNat = cls) ↔ sendKey die dev cls ∈ s.used))) ∧
    (routeOf s die dev path = none → ∀ again, exec (.flitCrcRetry die dev ⟨path, again⟩) s = .next s) ∧
    (∀ r again, routeOf s die dev path = some r → ∃ t, exec (.flitCrcRetry die dev ⟨path, again⟩) s = .next t ∧
      { t with banks := s.banks, links := s.links } = s ∧
      Writes Link.reset s.links t.links r.port { s.link r.port with fails := if again then (s.link r.port).fails + 1 else 1 } ∧
      (∀ i, i ≠ .link r.port → t.bank i = s.bank i) ∧
      let b := s.bank (.link r.port)
      let b' := t.bank (.link r.port)
      b'.cecnt = (if b.cecnt = 0xFFFF then 0xFFFF else b.cecnt + 1) ∧ b'.valid = true ∧ b'.ovfcnt = b.ovfcnt ∧
        (b.valid = false → b'.uc = false ∧ b'.ebs.extractLsb' 16 4 = 6) ∧ (b.valid = true → b'.eba = b.eba ∧ b'.ebx = b.ebx ∧ b'.ebc = b.ebc))

/-- R343 to R349: a staging word; a descriptor that enters its die's engine, waits for a place or breaks a limit; a completion entry
that is read; then the turns of an engine: the next line of the membership table, which must name this device and die at the
descriptor's rank; of a chunk of two members of different devices, the next line of this member's src, its part put down and sent by a
packet of class 3 (R335, R337), the two parts reduced in rank order; a line of a complete chunk written into dst, and after the last one
an acknowledgement to the other device, and the completion entry; a lost member fails a bound collective, and an elastic one starts again
without it; with a path left the collective goes back to the last chunk that every member has acknowledged. MODEL'S CHOICE: another
device's chunk and the count that it has acknowledged are operands of CHUNK_COMPLETE and COLLECTIVE_FAILURE, and who sends what to whom in
which packet (log 35); what the members have put into a chunk stands across the failure (log 52). -/
def Obligations.CollectiveEngines : Prop :=
  ∀ s g (k : Nat) (v : Word), g < 256 →
    let die := coreDie g
    let d : Descr := { g := g, words := (List.range 7).map (fun i => Tbl.get 0 (s.core g).stg (8 * die + i)) ++ [v], det := (s.core g).detOn }
    let x := collDesc d.words
    let room (s : State) : Prop := (s.core g).outQ.length < 16 ∧ ∀ y ∈ s.collWait, y.1 ≠ g
    (k < 7 → ∃ t, exec (.stagingWordWrite g k v) s = .next t ∧ OnlyCore g s t ∧ Writes 0 (s.core g).stg (t.core g).stg (8 * die + k) v ∧
      { t.core g with stg := (s.core g).stg } = s.core g) ∧
    ((Tbl.get [] s.collIn die).length < 16 → x.legal = true →
      ∃ t, exec (.collectiveGo g v) s = .next t ∧ { t with collIn := s.collIn } = s ∧ Writes [] s.collIn t.collIn die (Tbl.get [] s.collIn die ++ [d])) ∧
    (16 ≤ (Tbl.get [] s.collIn die).length → exec (.collectiveGo g v) s = .next s) ∧
    ((Tbl.get [] s.collIn die).length < 16 → x.legal = false → room s → ∃ t e, exec (.collectiveGo g v) s = .next t ∧ OnlyCore g s t ∧
      t.core g = { s.core g with outQ := (s.core g).outQ ++ [e] } ∧ e.extractLsb' 0 8 = BitVec.ofNat 8 cILLEGAL ∧ e.getLsbD 8 = true ∧
      e.extractLsb' 36 28 = x.cookie.extractLsb' 0 28) ∧
    (∀ w ws, (s.core g).outQ = w :: ws → (∀ x ∈ s.collWait, x.1 ≠ g) →
      ∃ t, exec (.collectiveStatusPop g) s = .next t ∧ OnlyCore g s t ∧ t.core g = { s.core g with outQ := ws }) ∧
    (∀ r remote order, let x := collDesc r.d.words
      let turn := exec (.chunkComplete die remote order) s
      let keeps (u t : State) (y : CollRun) : Prop := { t with collRun := u.collRun } = u ∧ Writes none u.collRun t.collRun die (some y)
      let ends (u t : State) (status : Nat) : Prop := Tbl.get none t.collRun die = none ∧ ∃ e, (t.core g).outQ = (u.core g).outQ ++ [e] ∧
        e.extractLsb' 0 8 = BitVec.ofNat 8 status ∧ e.getLsbD 8 = true ∧ e.getLsbD 9 = r.shrunk ∧
        e.extractLsb' 10 13 = BitVec.ofNat 13 r.members.length ∧ e.extractLsb' 36 28 = x.cookie.extractLsb' 0 28
      Tbl.get none s.collRun die = some r → fencedDie s die = false → r.d.g = g → x.rank < x.n →
      (∀ bs u, let k := r.tab.length
        let tab := r.tab ++ bs.map Prod.fst
        k < 4 * x.n → engRead (x.mtab + k) (min (64 - (x.mtab + k) % 64) (4 * x.n - k)) x.tag s = (.ok bs, u) → (∀ y ∈ bs, y.2 = false) →
        let mine : Prop := memberAt tab x.rank = (s.plat.device.toNat, die, 0) ∧ ∀ j, j < x.n → (memberAt tab j).2.2 = 0
        u.plat = s.plat →
        (tab.length < 4 * x.n ∨ mine → ∃ t, turn = .next t ∧ keeps u t { r with tab := tab }) ∧
        (4 * x.n ≤ tab.length → ¬ mine → room u → ∃ t, turn = .next t ∧ ends u t cILLEGAL)) ∧
      (4 * x.n ≤ r.tab.length → r.out = [] → r.members = [0, 1] → r.chunk = 0 → r.d.det = true → x.n = 2 → x.rank = 0 → x.op = 0 → x.rop = 0 →
        x.fmt = 0x03 ∨ x.fmt = 0x10 → 1 ≤ x.cnt → x.cnt ≤ x.chunkElems → x.cnt ≤ 1024 →
        memberAt r.tab 0 = (s.plat.device.toNat, die, 0) → (memberAt r.tab 1).1 ≠ s.plat.device.toNat →
        let len := 4 * x.cnt
        let other := (memberAt r.tab 1).1
        (∀ bs u, s.collParts = [] → let k := (r.read 0).length
          k < len → engRead (x.src + k) (min (64 - (x.src + k) % 64) (len - k)) x.tag s = (.ok bs, u) → (∀ y ∈ bs, y.2 = false) →
          ∃ t y, turn = .next t ∧ keeps u t y ∧ { y with got := r.got } = r ∧ y.read 0 = r.read 0 ++ bs) ∧
        (s.collParts = [] → (r.read 0).length = len → ∃ t y, turn = .next t ∧ { t with collRun := s.collRun, collParts := s.collParts } = s ∧
          Writes none s.collRun t.collRun die (some y) ∧ { y with got := r.got } = r ∧ y.read 0 = [] ∧
          t.collParts = [{ rank := 0, no := r.no, words := r.d.words, chunk := 0, first := 0, data := r.read 0, left := [0] }]) ∧
        (∀ part : CollPart, s.collParts = [part] → part.rank = 0 → part.no = r.no → part.chunk = 0 → part.first = 0 → part.data.length = len →
          (r.sent = 0 → pathUp s die other = true → retryBytes s die + 64 + 64 * ((len + 63) / 64) ≤ 8 * 2 ^ 20 →
            ∃ t y, turn = .next t ∧ { t with collRun := s.collRun, retry := s.retry, sendSeq := s.sendSeq, used := s.used } = s ∧
              Writes none s.collRun t.collRun die (some { r with sent := 1 }) ∧ t.retry = s.retry ++ [y] ∧ y.die = die ∧ y.pkt.op = .collective ∧
              y.pkt.cls = 3 ∧ y.pkt.tag = x.tag ∧ y.pkt.ddev = BitVec.ofNat 12 other ∧ y.pkt.payload = part.data.map Prod.fst ∧
              y.pkt.seq = Tbl.get 0 s.sendSeq (sendKey die other 3)) ∧
          (∀ theirs : List MByte, r.sent = 1 → remote = [(1, theirs)] → theirs.length = len → (∀ y ∈ part.data ++ theirs, y.2 = false) →
            let pairs := (numsOf 4 (part.data.map Prod.fst)).zip (numsOf 4 (theirs.map Prod.fst))
            let sums := pairs.flatMap (fun ab => (natLE 4 (collOp x.fmt 0 ab.1 ab.2)).map (fun b => (b, false)))
            turn = .next (chunkLine die { r with out := sums, at_ := 0, got := [] } s)))) ∧
      (∀ u : State, let n := 64 - (x.dst + r.at_) % 64
        4 * x.n ≤ r.tab.length → r.out ≠ [] → engWrite (x.dst + r.at_) (r.out.take n) s = (.ok (), u) →
        (n < r.out.length → ∃ t, turn = .next t ∧ keeps u t { r with out := r.out.drop n, at_ := r.at_ + n }) ∧
        (r.out.length ≤ n → ∀ dev, otherDevices u r = [dev] → pathUp u die dev = true → retryBytes u die + 64 ≤ 8 * 2 ^ 20 →
          ∃ t y, turn = .next t ∧ t.dram = u.dram ∧ t.retry = u.retry ++ [y] ∧ y.die = die ∧ y.pkt.op = .collective ∧ y.pkt.cls = 3 ∧
            y.pkt.ddev = BitVec.ofNat 12 dev ∧ y.pkt.payload = [] ∧
            ((r.chunk + 1) * x.chunkElems < x.cnt →
              Writes none u.collRun t.collRun die (some { r with out := [], chunk := r.chunk + 1, at_ := 0, got := [], sent := 0 }) ∧
              { t with collRun := u.collRun, retry := u.retry, sendSeq := u.sendSeq, used := u.used } = u) ∧
            (x.cnt ≤ (r.chunk + 1) * x.chunkElems → room u → ends u t 0)))) ∧
    (∀ r rank acked, let x := collDesc r.d.words
      let device := (memberAt r.tab rank).1
      Tbl.get none s.collRun die = some r → (∀ k, k ≠ die → Tbl.get none s.collRun k = none) → r.d.g = g → rank ∈ r.members → rank ≠ x.rank →
      4 * x.n ≤ r.tab.length → device ≠ s.plat.device.toNat →
      (x.elastic = false → room s → ∃ t e, exec (.collectiveFailure die rank ⟨true, acked⟩) s = .next t ∧ SameMemory s t ∧
        Tbl.get none t.collRun die = none ∧ (t.core g).outQ = (s.core g).outQ ++ [e] ∧ e.extractLsb' 0 8 = 0x13) ∧
      (x.elastic = true → ∃ t, exec (.collectiveFailure die rank ⟨true, acked⟩) s = .next t ∧
        { t with collRun := s.collRun, collParts := s.collParts } = s ∧ Writes none s.collRun t.collRun die
          (some { r with members := r.members.filter (fun m => decide (m ≠ rank)), chunk := 0, shrunk := true, out := [], at_ := 0, got := [], sent := 0 })) ∧
      (∀ path, (die, device, path) ∈ s.pathDown → pathUp s die device = true →
        ∃ t, exec (.collectiveFailure die rank ⟨false, acked⟩) s = .next t ∧ { t with collRun := s.collRun } = s ∧
          Writes none s.collRun t.collRun die (some { r with chunk := min r.chunk acked, out := [], at_ := 0, got := [], sent := 0 })))

namespace Sys2Proof.Claims
open Sys2Proof.Machine

/-- Queue q's only record in hand is c, and a Dispatcher acts. -/
def Holds (s : State) (c : Current) : Prop := dispOk s = true ∧ s.disp.cur = [c]

/-- The record of queue q has ended with a word of this status and value. -/
def Ended (t : State) (q status value : Nat) : Prop :=
  ∃ c w, t.disp.cur = [c] ∧ c.q = q ∧ c.post = some w ∧ w.extractLsb' 0 8 = BitVec.ofNat 8 status ∧ w.extractLsb' 32 32 = BitVec.ofNat 32 value

end Sys2Proof.Claims

/-- R67, R69, R97 to R102, R391, R393: kicks of stopped queues wait, a kicked queue's head becomes its current record; a late link
is followed; loads and unloads end their records; a launch's budget ends it; a completion word is posted, no report that came before it being still
pending, and the record is gone, and one that cannot be written is logged and counts as posted. MODEL'S CHOICE: a stopped queue keeps its kick (log 36). -/
def Obligations.QueuesAndRecords : Prop :=
  ∀ s (q : Nat) (c : Current), q < 64 →
    (∀ v, dispOk s = true → readD (kickAt s) 8 s = (.ok v, s) → v < 2 ^ 64 →
      let u := writeD (kickAt s) 8 0 s
      let kicked := s.disp.kicked ||| BitVec.ofNat 64 v
      ((∀ k, k < 64 → kicked.getLsbD k = true → queueRuns k { u with disp := { s.disp with kicked := kicked } } = false) →
        exec .kickScan s = .next { u with disp := { s.disp with kicked := kicked } }) ∧
      (∀ a b, kicked = (1 : BitVec 64) <<< q → s.disp.cur = [] → s.disp.links = [] → queueRuns q { u with disp := { s.disp with kicked := kicked } } = true →
        let w : State := { u with disp := { s.disp with kicked := 0 } }
        queueRuns q w = true → readD (queueAt w q) 8 w = (.ok a, w) → a ≠ 0 → ownRead a 256 w = (.ok b, w) → (lrec b).next ≠ 0 →
        ∃ t x, exec .kickScan s = .next t ∧ t.disp.cur = [x] ∧ x.q = q ∧ x.addr = a ∧ x.bytes = b ∧ t.cores = s.cores)) ∧
    (∀ a b, dispOk s = true → s.disp.cur = [] → s.disp.links = [(q, a)] → ownRead a 256 s = (.ok b, s) → (lrec b).next ≠ 0 →
      ∃ t x, exec (.headLinkWaitEnd q) s = .next t ∧ t.disp.links = [] ∧ t.disp.cur = [x] ∧ x.q = q ∧ x.addr = a ∧ x.bytes = b ∧ t.cores = s.cores) ∧
    (Holds s c → c.q = q → c.post = none →
      (∀ place, c.lrec.kind = 2 →
        (c.lrec.len < 64 → ∃ t, exec (.objectLoad q place) s = .next t ∧ Ended t q 0x01 0 ∧ { t with disp := s.disp } = s) ∧
        (∀ m h la u, 64 ≤ c.lrec.len → c.lrec.len ≤ 2 ^ 32 → ownRead c.lrec.src c.lrec.len s = (.ok m, s) → placementOk m place s = true →
          loadImage m place s = .ok (h, la, u) → u.disp.cur = s.disp.cur →
          ∃ t, exec (.objectLoad q place) s = .next t ∧ Ended t q 0 h.toNat ∧ t.objs = u.objs)) ∧
      (∀ o, c.lrec.kind = 3 → s.objs = [o] → o.handle = c.lrec.handle → o.unload = none →
        exec (.objectUnload q) s = .next { s with objs := [{ o with unload := some q }] }) ∧
      (∀ o, c.refused = true → s.objs = [o] → o.unload = some q →
        ∃ t, exec (.unloadTakesEffect o.handle) s = .next t ∧ t.objs = [] ∧ Ended t q 0 o.handle.toNat ∧ { t with disp := s.disp, objs := s.objs } = s) ∧
      (∀ t0, c.refused = false → c.ready = true → c.out = 0 → c.faulted = none → c.firstOut = some t0 → c.lrec.budget ≠ 0 → t0 + c.lrec.budget ≤ s.now →
        ∃ t, exec (.budgetExhausted q) s = .next t ∧ Ended t q 2 c.units ∧ { t with disp := s.disp } = s)) ∧
    (∀ r ∈ pendingReports s, r.before c.doneAt q = true → Holds s c → c.q = q → exec (.completionPosting q) s = .next s) ∧
    (∀ w u, Holds s c → c.q = q → c.refused = true → c.post = some w → (∀ r ∈ pendingReports s, r.before c.doneAt q = false) → c.lrec.cword ≠ 0 → c.lrec.cword % 8 = 0 → c.lrec.ckq.testBit 7 = false →
      (∀ x ∈ s.closes, x.why ≠ .launchEnd c.id) →
      let written := ownWrite c.lrec.cword (natLE 8 w.toNat) (forgetWord c.lrec.cword
        (journal 4 q 0 0 c.addr w { s with disp := { s.disp with copies := s.disp.copies ++ [(s.disp.jseq, c.bytes)] } }))
      u.disp.cur = [c] → u.disp.links = [] →
      (written = (.ok (), u) → queueRuns q { u with disp := { u.disp with cur := [] } } = false →
        ∃ t, exec (.completionPosting q) s = .next t ∧ t.disp.cur = [] ∧ t.dram = u.dram ∧ t.cores = u.cores ∧
          t.disp.unwritten = u.disp.unwritten ∧ t.disp.kicked = u.disp.kicked ||| (1 : BitVec 64) <<< q) ∧
      (∀ e, written = (.error e, u) →
        let v := logDisp c.lrec.tag e c.lrec.cword { u with disp := { u.disp with unwritten := u.disp.unwritten ++ [(c.lrec.cword, w)] } }
        queueRuns q { v with disp := { v.disp with cur := [] } } = false →
        ∃ t, exec (.completionPosting q) s = .next t ∧ t.disp.cur = [] ∧ t.dram = u.dram ∧ t.cores = u.cores ∧ t.banks = v.banks ∧
          t.disp.unwritten = u.disp.unwritten ++ [(c.lrec.cword, w)] ∧ t.disp.kicked = u.disp.kicked ||| (1 : BitVec 64) <<< q))

/-- R104, R108, R110, R381, R382, R390: a free core is given the least fitting ordinal (MODEL'S CHOICE, log 37); a unit starts with its indices and constants,
after 8,192 cycles where the tag changes, when everything else has been zeroed; a queue of tier 0 pre-empts
as it becomes eligible, and only then; a pre-empted unit halts, a handler that runs being abandoned with its record back at the head of
its queue (MODEL'S CHOICE, log 39), and is saved into a free slot of its die, where it also stands whole in Dispatch.saved (MODEL'S
CHOICE, log 38); a unit that is over is reported, and its report is
acknowledged in a later cycle (MODEL'S CHOICE, log 37). -/
def Obligations.UnitsOnCores : Prop :=
  ∀ s g,
    let c := s.core g
    let others (t : State) : Prop := ∀ h, h ≠ g → t.core h = s.core h
    let starts (o : LoadedObj) (h : Handed) (k : Core) : Prop :=
      (∀ i, i < h.idx.length → Tbl.get 0 k.s (1 + i) = BitVec.ofNat 64 (h.idx.getD i 0)) ∧ Tbl.get 0 k.s (1 + h.idx.length) = BitVec.ofNat 64 h.unit.n ∧
      (∀ i, i < h.consts.length → Tbl.get 0 k.s (16 + i) = h.consts.getD i 0) ∧ k.fstk = 0 ∧ k.fpctl = 0 ∧ k.mprof = h.unit.profile ∧
      (∀ e, (k.stream e).pc = h.unit.entry.getD (engNum e) 0 ∧ (k.stream e).ready = s.now + 4) ∧
      (∀ e, e < 4 → e < o.tks.length → Tbl.get 0 k.tks e = o.tks.getD e 0) ∧ k.next = none ∧ k.unit = some { h.unit with start := s.now }
    (∀ q n, dispOk s = true → coreFree s g = true → let u := noteEligible s
      choose u g = some q → resumeOn u { q with owns := q.owns || q.lrec.gang } g = none →
      firstOrd u { q with owns := q.owns || q.lrec.gang } g q.lrec.total 0 = some n → u.disp.cur = [q] →
      ∃ t h x, exec (.unitHandOut g) s = .next t ∧ t.core g = { u.core g with next := some h } ∧ (∀ k, k ≠ g → t.core k = u.core k) ∧
        h.unit.n = n ∧ h.idx = q.lrec.walk n ∧ h.consts = q.lrec.consts ∧ h.unit.tag = q.lrec.tag ∧ h.unit.place = q.lrec.place ∧
        t.disp.cur = [x] ∧ x.handed = q.handed ++ [n] ∧ x.out = q.out + 1) ∧
    (∀ h o, c.next = some h → h.resume = none → h.idx.length = 6 → h.consts.length = 16 → s.objOf h.unit.handle = some o → fencedDie s (coreDie g) = false →
      (c.unit = none → c.lastTag = some h.unit.tag →
        ∃ t, exec (.unitStart g) s = .next t ∧ others t ∧ SameMemory s t ∧ starts o h (t.core g)) ∧
      (c.unit = none → c.lastTag ≠ some h.unit.tag →
        ∃ t, exec (.unitStart g) s = .next t ∧ others t ∧ SameMemory s t ∧ (t.core g).zeroing = some (s.now + 8192) ∧ (t.core g).runs = false) ∧
      (∀ z, c.zeroing = some z → z ≤ s.now → c.stopped = false →
        ∃ t, exec (.tagChangeZeroing g) s = .next t ∧ others t ∧ starts o h (t.core g) ∧ (∀ a, byteAt (t.core g).sp a = 0) ∧ (t.core g).v = [] ∧
          (t.core g).acc = [] ∧ (t.core g).mgrp = [] ∧ (t.core g).tags = [] ∧ (t.core g).spillS = [] ∧ (t.core g).zeroing = none ∧
          ∀ k, 8 ≤ k → k < 16 ∨ 32 ≤ k → k < 120 → Tbl.get 0 (t.core g).s k = 0)) ∧
    (∀ q x u, let v := newlyEligible s
      s.disp.cur = [x] → x.q = q → q < 64 → dispOk s = true → queueEligible s x = true → x.id ∉ s.disp.elig → queueTier q s = 0 →
      placeCores x.lrec.place = [g] → c.unit = some u → u.gang = false → queueTier u.queue v = 1 → c.stopped = false → c.haltReq = none →
      freeSlotsOf v (coreDie g) ≠ 0 →
      ∃ t, exec (.preEmption q) s = .next t ∧ others t ∧ t.core g = { c with haltReq := some s.now } ∧ t.disp = v.disp) ∧
    (∀ q, (∀ x ∈ s.disp.cur, x.q = q → x.id ∈ s.disp.elig) → exec (.preEmption q) s = .next s) ∧
    (c.haltReq ≠ none → c.runs = true → atRest s g = true → (c.stream .s).ended = false →
      ∃ t, exec (.halt g) s = .next t ∧ others t ∧ SameMemory s t ∧ (t.core g).halted = true ∧ (t.core g).runs = false ∧ (t.core g).haltAt = s.now ∧
        (c.uiact = false → ∀ e, (t.core g).stream e = { c.stream e with wait := none, dbnd := none }) ∧
        (c.uiact = true → (t.core g).uiact = false ∧
          (c.uiBound = false → (t.core g).notifyQ = c.uiinfo.extractLsb' 0 16 :: c.notifyQ ∧ (t.core g).boundQ = c.boundQ) ∧
          (c.uiBound = true → (t.core g).notifyQ = c.notifyQ ∧ ∃ r, (t.core g).boundQ = r :: c.boundQ ∧ r.record = c.brec))) ∧
    (∀ u k, c.unit = some u → c.halted = true → c.stopped = false → k < 128 → (∀ x ∈ s.disp.saved, x.die = coreDie g → x.slot ≠ k) →
      ∃ t x, exec (.contextSave g) s = .next t ∧ t.disp.saved = s.disp.saved ++ [x] ∧ x.core = c ∧ x.unit = u ∧ x.die = coreDie g ∧ x.home = g ∧
        x.ran = c.haltAt - c.cycBase ∧ x.slot < 128 ∧ (∀ y ∈ s.disp.saved, y.die = coreDie g → y.slot ≠ x.slot) ∧
        (∀ y ∈ s.disp.saved, y.id < x.id) ∧ (t.core g).unit = none ∧ (t.core g).halted = false ∧ others t) ∧
    (∀ u, c.unit = some u → c.reports = [] → unitOver s g = true →
      ∃ t r, exec (.endReport g) s = .next t ∧ others t ∧ SameMemory s t ∧ (t.core g).unit = none ∧ (t.core g).reports = [r] ∧ r.unit = u ∧ r.whole = true ∧
        r.fstk = c.fstk.extractLsb' 0 10 ∧ r.at_ = s.now) ∧
    (∀ r x, c.reports = [r] → pendingReports s = [r] → r.at_ < s.now → Holds s x → x.id = r.unit.launch → x.refused = false → r.whole = true →
      ∃ t y, exec (.endReport g) s = .next t ∧ others t ∧ t.core g = { c with reports := [] } ∧ t.disp.cur = [y] ∧ y.out = x.out - 1 ∧ y.units = x.units + 1 ∧
        y.flags = x.flags ||| r.fstk)

/-- R374, R375, R377 to R379, R384 to R387: a purge, begun here or by another device, takes a tag's units, with the arrivals of those that have
ended, and nothing of another tag, once the accesses that must still be performed are; a fenced die's units stop, and the failing unit's bank records it (its code and
address are free values, log 53); the standby Dispatcher takes over; a bank is read and its fields are written as its table says.
MODEL'S CHOICE: an uncorrectable error of die 0's slice controllers, which the event names as die 4, stops the module (log 45), and the
banks are reached through ERROR_BANK_CLEAR, with or without a word to write (log 58). -/
def Obligations.PurgesFencesAndTakeOver : Prop :=
  ∀ s,
    (∀ tag peer, (∃ p, s.purges = [p] ∧ p.tag = tag) ∨ (s.purges = [] ∧ peer ≠ none) → purgeHeld s tag = false → s.disp.cur = [] → s.disp.saved = [] → s.closes = [] →
      s.collRun = [] → s.collIn = [] → (∀ g, (s.core g).next = none) →
      ∃ t, exec (.purgeComplete ⟨tag, peer⟩) s = .next t ∧ t.purges = [] ∧ SameMemory s t ∧ (∀ h ∈ t.holding, h.tag ≠ tag) ∧
        (∀ h ∈ s.holding, h.tag ≠ tag → h ∈ t.holding) ∧ (∀ r ∈ t.retry, r.pkt.tag ≠ tag) ∧
        (∀ g u, g < 256 → (s.core g).unit = some u → u.tag = tag → (t.core g).unit = none ∧ (t.core g).mcmds = [] ∧ (t.core g).kcmds = [] ∧
          ∃ r, (t.core g).reports = (s.core g).reports ++ [r] ∧ r.unit = u ∧ r.whole = false) ∧
        (∀ g u, (s.core g).unit = some u → u.tag ≠ tag → t.core g = s.core g) ∧
        ∀ g, g < 256 → (s.core g).unit = none → t.core g =
          if (s.core g).lastTag = some tag then { s.core g with arrived := [], bOwes := [] } else s.core g) ∧
    (∀ tag peer, (s.purges = [] ∧ peer = none) ∨ purgeHeld s tag = true → exec (.purgeComplete ⟨tag, peer⟩) s = .next s) ∧
    (∀ die bank, die < 4 → ∃ t, exec (.dieFence ⟨die, bank⟩) s = .next t ∧ SameMemory s t ∧ t.fenced = s.fenced ||| (1 <<< die) ∧
      (∀ g u, g / 64 = die → (s.core g).unit = some u → (t.core g).stopped = true ∧ ∃ p ∈ t.purges, p.tag = u.tag) ∧
      (∀ g, g / 64 ≠ die → (t.core g).stopped = (s.core g).stopped ∧ (t.core g).unit = (s.core g).unit) ∧
      (∀ b, bank = some b → s.bank b = Bank.reset → bankKey b ∉ s.ucNow → (t.bank b).valid = true ∧ (t.bank b).uc = true ∧
        (t.bank b).ebs.extractLsb' 16 4 = 8)) ∧
    exec (.dieFence ⟨4, none⟩) s = .next { s with stopped := true, replies := s.replies ++ [.stopped] } ∧
    (s.disp.takeover = none → s.disp.ready = true → s.disp.failed = 0 → s.disp.active < 2 →
      ∃ t k, exec .dispatcherTakeOver s = .next t ∧ t.disp.active = 1 - s.disp.active ∧ t.disp.failed = 1 <<< s.disp.active ∧
        k ≤ s.disp.journal.length + 1 ∧ t.disp.takeover = some (s.now + 7200 + 240 * k) ∧
        ∀ g u, (s.core g).unit = some u → { t.core g with haltReq := (s.core g).haltReq } = s.core g) ∧
    (∀ dev b w, (dev = none ∧ dispOk s = true) ∨ dev = some s.plat.station.toNat →
      ∃ t, exec (.errorBankClear ⟨dev, b, w⟩) s = .next t ∧ { t with banks := s.banks, replies := s.replies } = s ∧
        t.replies = s.replies ++ [.bank b (s.bank b)] ∧ (∀ b', bankKey b' ≠ bankKey b → t.bank b' = s.bank b') ∧ (w = none → t.bank b = s.bank b) ∧
        ∀ v, w = some v → (t.bank b).cecnt = v.extractLsb' 32 16 ∧ (t.bank b).ovfcnt = v.extractLsb' 48 16 ∧
          (v.getLsbD 0 = true → (t.bank b).ebs.extractLsb' 0 32 = 0 ∧ (t.bank b).eba = 0 ∧ (t.bank b).ebx = 0 ∧ (t.bank b).ebc = 0) ∧
          (v.getLsbD 0 = false → (t.bank b).valid = (s.bank b).valid ∧ (t.bank b).uc = (s.bank b).uc ∧
            (t.bank b).ebs.getLsbD 2 = ((s.bank b).ebs.getLsbD 2 && !v.getLsbD 2) ∧ (t.bank b).ebs.extractLsb' 8 8 = (s.bank b).ebs.extractLsb' 8 8 ∧
            (t.bank b).eba = (s.bank b).eba ∧ (t.bank b).ebx = (s.bank b).ebx ∧ (t.bank b).ebc = (s.bank b).ebc))

/-- R65, R379, R396 to R398: a module reset that verifies clears the queue table and is ready, and one that does not stays in its step,
with the platform record as it was; the clock; the thermal trip, and the stop of a stopped module on every turn but the security
controller's; and what the station alone may ask. MODEL'S CHOICE: what a reset keeps, and that one whose queue table cannot be cleared
stays in step 4 (log 31); the verdict on the chain of signatures below the root key and that on a counter request are operands, and the
root key whose hash stands in ROM is a free value (log 46); in a stopped module no time passes, and
every turn but the listed ones, a stream's issue too, is the fault moduleStopped (log 57). -/
def Obligations.ResetAndManagement : Prop :=
  ∀ s (dev watts : Nat) (r : Sensors) (v : BitVec 32) (p : Platform) (chain : Chain) (b : BankId) (w : Option (BitVec 64)),
    let mine := s.plat.station.toNat
    let plat := s.platNext.getD s.plat
    (∀ by_, by_ = none ∨ by_ = some mine →
     let cleared := ownWrite plat.qbase.toNat (List.replicate 0x808 0) { afterReset s with plat := plat, platNext := none }
     ∀ firmware record : Chain,
     let reset := exec (.moduleReset { dev := by_, firmware := firmware, record := record }) s
     let verifies (k : Chain) : Prop := k.sound = true ∧ sha512 k.root = romHash
     (∀ u, cleared = (.ok (), u) → verifies firmware → verifies record → ∃ t, reset = .next t ∧ t.cores = [] ∧ t.stopped = false ∧ t.fenced = 0 ∧ t.dram = u.dram ∧
       t.objs = [] ∧ t.purges = [] ∧ t.disp.ready = true ∧ t.disp.cur = [] ∧ t.plat = plat ∧ t.platNext = none ∧ t.counter = s.counter ∧
       t.retry = [] ∧ t.holding = []) ∧
     (∀ e u, cleared = (.error e, u) → verifies firmware → verifies record → ∃ t, reset = .next t ∧ t.disp.ready = false ∧ t.disp.failStep = some 4 ∧
       t.dram = u.dram ∧ t.plat = plat) ∧
     (¬ verifies firmware → ∃ t, reset = .next t ∧ t.disp.ready = false ∧ t.disp.failStep = some 1 ∧ t.dram = s.dram ∧ t.plat = s.plat ∧
       t.platNext = s.platNext) ∧
     (verifies firmware → ¬ verifies record → ∃ t, reset = .next t ∧ t.disp.ready = false ∧ t.disp.failStep = some 2 ∧ t.dram = s.dram ∧ t.plat = s.plat ∧
       t.platNext = s.platNext)) ∧
    (1200 ≤ s.clock → s.clock ≤ 2400 →
      (∃ t, exec (.throttle false) s = .next t ∧ { t with clock := s.clock } = s ∧ t.clock ≤ s.clock ∧ 1200 ≤ t.clock ∧ (1350 ≤ s.clock → t.clock = s.clock - 150)) ∧
      (∃ t, exec (.throttle true) s = .next t ∧ { t with clock := s.clock } = s ∧ s.clock ≤ t.clock ∧ t.clock ≤ 2400 ∧ (s.clock ≤ 2250 → t.clock = s.clock + 150))) ∧
    exec .thermalTrip s = .next { s with stopped := true, replies := s.replies ++ [.stopped] } ∧
    (∀ i dt rest, s.stopped = true → s.sched = (dt, .event i) :: rest →
      step s = if isManagement (.event i) then exec i { s with sched := rest, tick := s.tick + 1 } else .fault .moduleStopped) ∧
    (∀ g e n dt turn rest, s.stopped = true → turn = .issue g e ∨ turn = .advance g e n → s.sched = (dt, turn) :: rest →
      step s = .fault .moduleStopped) ∧
    exec (.readSensors mine r) s = .next { s with replies := s.replies ++ [.sensors r] } ∧
    (1600 ≤ watts → watts ≤ 3200 → exec (.setPowerCap mine watts) s = .next { s with powerCap := watts, replies := s.replies ++ [.done] }) ∧
    (s.counter.toNat < v.toNat → exec (.counterAdvance mine v true) s = .next { s with counter := v, replies := s.replies ++ [.done] }) ∧
    (v.toNat ≤ s.counter.toNat → ∃ t, exec (.counterAdvance mine v true) s = .next t ∧ { t with replies := s.replies } = s) ∧
    exec (.installPlatformRecord mine p chain) s = .next (if chain.sound = true ∧ sha512 chain.root = romHash then
      { s with platNext := some p, replies := s.replies ++ [.done] } else { s with replies := s.replies ++ [.refused 0x06] }) ∧
    (dev ≠ mine → ∀ i, i = .readSensors dev r ∨ i = .setPowerCap dev watts ∨ i = .counterAdvance dev v true ∨ i = .installPlatformRecord dev p chain ∨
        (∃ firmware record, i = .moduleReset { dev := some dev, firmware := firmware, record := record }) ∨ i = .errorBankClear ⟨some dev, b, w⟩ →
      exec i s = .next { s with replies := s.replies ++ [.refused 0x06] })

namespace Sys2Proof.Claims
open Sys2Proof.Machine

/- The whole machine. -/

/-- Stream e of the issuing core may issue, and the n words at its pc stand in its fetch buffer, within the block whose
signature has been checked. -/
def WordsAtHand (e : Eng) (n : Nat) (s : State) : Prop :=
  let st := s.me.stream e
  s.me.mayIssue e s.now = true ∧ Turns e s ∧ st.lo ≤ st.pc ∧ st.pc + 4 * n ≤ st.hi ∧ 1 ≤ n ∧ st.holds st.pc = true ∧ st.holds (st.pc + 4 * (n - 1)) = true

/-- The n words at the pc of stream e. -/
def wordsAtPc (e : Eng) (n : Nat) (s : State) : List (BitVec 32) :=
  (List.range n).map (fun k => (s.me.stream e).word ((s.me.stream e).pc + 4 * k))

end Sys2Proof.Claims

/-- R114 to R116, R161, R179: a step runs the instruction that the words at the pc hold, or the illegal word that they are, as are also
those that name a profile or a descriptor that the unit's object does not hold; where no
block is checked it runs the check of the block that begins there; where an entry of the handler is due S enters it (R134, R126); and
where nothing may issue it does nothing. An instruction captures its DBND field as it becomes next (08 R164). While rows are divided
this is so where the group is not held in its fetch (log 25). That a turn names the stream that issues is the model's own (log 1). -/
def Obligations.StepRunsTheDecodedInstruction : Prop :=
  ∀ g e r s, TurnOf g e r s →
    let due : Option Instr := if e = .s then entryDue g s.me else none
    let u := s.setMe (captureDbnd s.me e)
    (∀ i, due = some i → s.me.mayIssue e s.now = true → step r = exec i s) ∧
    (∀ i n, due = none → WordsAtHand e n s → n = instrWords e ((s.me.stream e).word (s.me.stream e).pc) → decodeList e (wordsAtPc e n s) = .ok (i, []) →
      step r = exec (if listed s g i then i else .illegalWord e) u) ∧
    (∀ x n, due = none → WordsAtHand e n s → n = instrWords e ((s.me.stream e).word (s.me.stream e).pc) → decodeList e (wordsAtPc e n s) = .error x →
      step r = exec (.illegalWord e) u) ∧
    (∀ w, due = none → s.me.mayIssue e s.now = true → Turns e s → (s.me.stream e).pc < (s.me.text e).2 → ¬ ((s.me.stream e).lo ≤ (s.me.stream e).pc ∧ (s.me.stream e).pc < (s.me.stream e).hi) →
      (s.me.stream e).holds (s.me.stream e).pc = true → w = (s.me.stream e).word (s.me.stream e).pc → w.extractLsb' 25 7 = 0x7F →
      step r = exec (.blockSignatureCheck e (w.extractLsb' 16 9) (w.extractLsb' 0 16)) s) ∧
    (s.me.mayIssue e s.now = false → step r = .next s)

/-- Worked encodings of 05 to 12, one of each family, with the instruction that each stands for. -/
def Obligations.WorkedWordsDecode : Prop :=
  let two (h d : BitVec 8) (prof : BitVec 4) : CmdHdr := { seq := h, dep0 := d, dep1 := 0, e := 0, prof := prof, ta := 63, tb := 63, tk := 0 }
  decodeList .s [0x4240E029] = .ok (.addi 8 7 5 1, []) ∧
  decodeList .s [0x5661BE00] = .ok (.plc 12 13 0b1111 0 0 0, []) ∧
  decodeList .s [0xB8400080] = .ok (.rsr 8 1 0, []) ∧
  decodeList .s [0xD0282000] = .ok (.arr 5 1 0 0 0, []) ∧
  decodeList .s [0xE2420488] = .ok (.ofdecl 8 16 9 1 0, []) ∧
  decodeList .v [0x070C20C8] = .ok (.vmul 33 33 1 9 0, []) ∧
  decodeList .v [0x2A102180] = .ok (.vcvt 2 1 0 3 0 0, []) ∧
  decodeList .v [0x9028C418] = .ok (.vamo 5 6 2 3 0, []) ∧
  decodeList .m [0x02000000, 0x007FF800, 0xA0010040, 0x00000200] = .ok (.mlnt (two 0 0 0) 5 1 64 512, []) ∧
  decodeList .m [0x20040200, 0x00FFF800, 0x08000000] = .ok (.mgo (two 2 1 1) 0 1 0, []) ∧
  decodeList .k [0x03020000, 0x047FF800, 0x00200080, 0x00040001] = .ok (.kcpy (two 0x81 0 8) 0 0 2 128 4 1, []) ∧
  decodeList .k [0x20006000] = .ok (.kbind 3 0 0, [])

/-- R168 to R174, R179: the words of every well-formed instruction decode, in one of the four streams, to that instruction, no bit of a
field lost; and whatever decodes is well formed and has exactly these words, so no two encodings stand for one instruction of a stream. -/
def Obligations.EncodingsAndDecodingAgree : Prop :=
  (∀ i : Instr, i.wf = true → encode i ≠ [] → ∃ e, decodeList e (encode i) = .ok (i, []) ∧ decodeBytes e (bytesOfWords (encode i)) = .ok i) ∧
  (∀ e w0 w1 w2 w3 i, decodeWords e w0 w1 w2 w3 = .ok i → i.wf = true ∧ encode i = [w0, w1, w2, w3].take (instrWords e w0))

/-- What the rules that speak of reset leave: R1, R16, R21, R40, R110, R119, R148, R273, R336, R374, R384, R396, R397. A value read here from a
core is the one that the first unit's zeroing leaves too; the model holds it from reset on (log 3). -/
def Obligations.ResetState : Prop :=
  let s := State.reset
  Safety.memWf s = true ∧ Safety.faultless s = true ∧ s.now = 0 ∧ s.fenced = 0 ∧ s.clock = 2400 ∧ s.powerCap = 3200 ∧
    s.disp.ready = false ∧ s.disp.takeover = none ∧ s.objs = [] ∧ s.retry = [] ∧ s.meridian = Meridian.reset ∧
    (∀ b, s.bank b = { ebs := 0, eba := 0, ebx := 0, ebc := 0 }) ∧ (∀ k, Tbl.get 0 s.sendSeq k = 0) ∧
    ∀ g, let c := s.core g
      c.unit = none ∧ c.runs = false ∧ c.fpctl = 0 ∧ c.fstk = 0 ∧ c.trapcause = 0 ∧ c.vmode = 0 ∧ c.gsel = 0 ∧
        (∀ e, (c.stream e).ended = true) ∧ (∀ r, c.getS r = 0) ∧ (∀ r, c.getP r = decide (r = 0)) ∧
        (∀ f, c.depth f = 64 ∧ c.fifo f = []) ∧ (∀ a, bfOf c a = 0xFF) ∧ (∀ a, byteAt c.sp a = 0) ∧
        (∀ r, Tbl.get 0 c.ty r = 0) ∧ (∀ k, (Tbl.get MGroup.reset c.mgrp k).valid = false) ∧ ∀ l, Tbl.get 1 c.ln l = 1

/-- Every step of every kind, a module reset too, keeps all memory in its canonical form: the DRAM, every scratchpad, and those of the
units that are saved. -/
def Obligations.StepsKeepMemoryCanonical : Prop :=
  ∀ s t, step s = .next t → Safety.memWf s = true → Safety.memWf t = true
end

