-- ==== Sys2Proof/Laws/Tbl.lean ====
section
/-!
SUPPORT. The laws of sparse tables: read after write, and that writing keeps the canonical form.
-/
namespace Sys2Proof.Laws
open Sys2Proof.Machine

variable {α : Type}

theorem tbl_get_place_same (d v : α) (k : Nat) (t : Tbl α) : Tbl.get d (Tbl.place k v t) k = v := by
  induction t with
  | nil => simp [Tbl.place, Tbl.get]
  | cons p t ih =>
    obtain ⟨j, w⟩ := p
    unfold Tbl.place
    split
    · simp [Tbl.get]
    · split
      · simp [Tbl.get]
      · have : ¬ j = k := fun h => by omega
        simp [Tbl.get, this, ih]

theorem tbl_get_place_other (d v : α) {k i : Nat} (h : k ≠ i) (t : Tbl α) :
    Tbl.get d (Tbl.place k v t) i = Tbl.get d t i := by
  induction t with
  | nil => simp [Tbl.place, Tbl.get, h]
  | cons p t ih =>
    obtain ⟨j, w⟩ := p
    unfold Tbl.place
    split
    · simp [Tbl.get, h]
    · split
      · rename_i hk; subst hk; simp [Tbl.get, h]
      · simp [Tbl.get, ih]

theorem tbl_get_erase_same (d : α) (k : Nat) (t : Tbl α) : Tbl.get d (Tbl.erase k t) k = d := by
  unfold Tbl.erase
  induction t with
  | nil => rfl
  | cons p t ih =>
    by_cases hp : p.1 = k
    · simpa [List.filter_cons, hp] using ih
    · simpa [List.filter_cons, hp, Tbl.get] using ih

theorem tbl_get_erase_other (d : α) {k i : Nat} (h : k ≠ i) (t : Tbl α) :
    Tbl.get d (Tbl.erase k t) i = Tbl.get d t i := by
  unfold Tbl.erase
  induction t with
  | nil => rfl
  | cons p t ih =>
    by_cases hp : p.1 = k
    · have : ¬ p.1 = i := fun e => h (hp.symm.trans e)
      simpa [List.filter_cons, hp, Tbl.get, h] using ih
    · simp [hp, Tbl.get, ih]

@[simp] theorem tbl_get_set_same [DecidableEq α] (d v : α) (k : Nat) (t : Tbl α) :
    Tbl.get d (Tbl.set d t k v) k = v := by
  unfold Tbl.set
  split
  · rename_i h; rw [tbl_get_erase_same, h]
  · exact tbl_get_place_same d v k t

theorem tbl_get_set_other [DecidableEq α] (d v : α) {k i : Nat} (h : k ≠ i) (t : Tbl α) :
    Tbl.get d (Tbl.set d t k v) i = Tbl.get d t i := by
  unfold Tbl.set
  split
  · exact tbl_get_erase_other d h t
  · exact tbl_get_place_other d v h t

theorem tbl_get_set [DecidableEq α] (d v : α) (k i : Nat) (t : Tbl α) :
    Tbl.get d (Tbl.set d t k v) i = if k = i then v else Tbl.get d t i := by
  split
  · rename_i h; subst h; simp
  · rename_i h; exact tbl_get_set_other d v h t

theorem tbl_rising_iff (t : Tbl α) : Tbl.rising t = true ↔ t.Pairwise (fun a b => a.1 < b.1) := by
  induction t with
  | nil => simp [Tbl.rising]
  | cons p t ih =>
    cases t with
    | nil => simp [Tbl.rising]
    | cons q t =>
      simp only [Tbl.rising, Bool.and_eq_true, decide_eq_true_eq, ih, List.pairwise_cons]
      constructor
      · rintro ⟨h, hq, ht⟩
        refine ⟨fun a ha => ?_, hq, ht⟩
        rcases List.mem_cons.1 ha with rfl | ha
        · exact h
        · exact Nat.lt_trans h (hq a ha)
      · rintro ⟨h, hq, ht⟩
        exact ⟨h q (List.mem_cons_self ..), hq, ht⟩

theorem tbl_mem_place {k : Nat} {v : α} {t : Tbl α} {p : Nat × α} (h : p ∈ Tbl.place k v t) :
    p = (k, v) ∨ p ∈ t := by
  induction t with
  | nil => simpa [Tbl.place] using h
  | cons q t ih =>
    unfold Tbl.place at h
    split at h
    · simpa using h
    · split at h
      · rcases List.mem_cons.1 h with h | h
        · exact .inl h
        · exact .inr (List.mem_cons_of_mem _ h)
      · rcases List.mem_cons.1 h with h | h
        · exact .inr (h ▸ List.mem_cons_self ..)
        · exact (ih h).imp_right (List.mem_cons_of_mem _)

theorem tbl_rising_place {k : Nat} {v : α} {t : Tbl α} (h : Tbl.rising t = true) :
    Tbl.rising (Tbl.place k v t) = true := by
  rw [tbl_rising_iff] at *
  induction t with
  | nil => simp [Tbl.place]
  | cons q t ih =>
    obtain ⟨hq, ht⟩ := List.pairwise_cons.1 h
    unfold Tbl.place
    split
    · rename_i hk
      refine List.pairwise_cons.2 ⟨fun a ha => ?_, h⟩
      rcases List.mem_cons.1 ha with rfl | ha
      · exact hk
      · exact Nat.lt_trans hk (hq a ha)
    · split
      · rename_i hk
        exact List.pairwise_cons.2 ⟨fun a ha => hk ▸ hq a ha, ht⟩
      · rename_i h1 h2
        refine List.pairwise_cons.2 ⟨fun a ha => ?_, ih ht⟩
        rcases tbl_mem_place ha with rfl | ha
        · show q.1 < k
          omega
        · exact hq a ha

/-- Writing keeps the canonical form. -/
theorem tbl_wf_set [DecidableEq α] {d v : α} {k : Nat} {t : Tbl α} (h : Tbl.wf d t = true) :
    Tbl.wf d (Tbl.set d t k v) = true := by
  unfold Tbl.wf at *
  obtain ⟨hr, hd⟩ := (Bool.and_eq_true _ _).mp h |> id
  refine (Bool.and_eq_true _ _).mpr ?_ |> id
  unfold Tbl.set
  split
  · constructor
    · rw [tbl_rising_iff] at *
      exact hr.sublist List.filter_sublist
    · rw [List.all_eq_true] at *
      exact fun p hp => hd p (List.mem_filter.1 hp).1
  · rename_i hv
    refine ⟨tbl_rising_place hr, ?_⟩
    rw [List.all_eq_true] at *
    intro p hp
    rcases tbl_mem_place hp with rfl | hp
    · simpa using hv
    · exact hd p hp

theorem tbl_wf_setRun [DecidableEq α] {d : α} (vs : List α) :
    ∀ {t : Tbl α} {k : Nat}, Tbl.wf d t = true → Tbl.wf d (Tbl.setRun d t k vs) = true := by
  induction vs with
  | nil => exact fun h => h
  | cons v vs ih => exact fun h => ih (tbl_wf_set h)

theorem tbl_wf_clearRange [DecidableEq α] {d : α} {t : Tbl α} {lo hi : Nat} (h : Tbl.wf d t = true) :
    Tbl.wf d (Tbl.clearRange t lo hi) = true := by
  unfold Tbl.wf Tbl.clearRange at *
  rw [Bool.and_eq_true] at *
  constructor
  · rw [tbl_rising_iff] at *
    exact h.1.sublist List.filter_sublist
  · have hd := h.2
    rw [List.all_eq_true] at *
    exact fun p hp => hd p (List.mem_filter.1 hp).1

theorem tbl_get_setRun_outside [DecidableEq α] (d : α) (vs : List α) :
    ∀ (t : Tbl α) (k i : Nat), (i < k ∨ k + vs.length ≤ i) →
      Tbl.get d (Tbl.setRun d t k vs) i = Tbl.get d t i := by
  induction vs with
  | nil => intro t k i _; rfl
  | cons v vs ih =>
    intro t k i h
    have hl : (v :: vs).length = vs.length + 1 := rfl
    rw [Tbl.setRun, ih _ _ _ (by omega), tbl_get_set_other d v (by omega)]

theorem tbl_getRun_setRun [DecidableEq α] (d : α) (vs : List α) :
    ∀ (t : Tbl α) (k : Nat), Tbl.getRun d (Tbl.setRun d t k vs) k vs.length = vs := by
  induction vs with
  | nil => intro t k; rfl
  | cons v vs ih =>
    intro t k
    show Tbl.get d _ k :: Tbl.getRun d _ (k + 1) vs.length = v :: vs
    rw [Tbl.setRun, ih, tbl_get_setRun_outside d vs _ _ _ (by omega), tbl_get_set_same]

end Sys2Proof.Laws
end

