-- ==== Sys2Proof/Laws/Memory.lean ====
section
/-!
SUPPORT. The laws of memory: read after write, and that every operation that writes bytes, or puts a core back, keeps the
canonical form of all memory.
-/
namespace Sys2Proof.Laws
open Sys2Proof.Machine Sys2Proof.Safety

/- One memory. -/

/-- Writing bytes keeps a memory's canonical form. -/
theorem putBytes_wf {m : List Host.Cell} {a : Nat} {bs : List Byte} (h : Memory.wf m = true) :
    Memory.wf (putBytes m a bs) = true := tbl_wf_setRun bs h

/-- A read of the bytes just written gives them back. -/
@[simp] theorem bytesAt_putBytes (m : List Host.Cell) (a : Nat) (bs : List Byte) :
    bytesAt (putBytes m a bs) a bs.length = bs := tbl_getRun_setRun _ bs m a

/-- A byte outside those written stays. -/
theorem byteAt_putBytes_outside (m : List Host.Cell) (bs : List Byte) {a i : Nat} (h : i < a ∨ a + bs.length ≤ i) :
    byteAt (putBytes m a bs) i = byteAt m i := tbl_get_setRun_outside _ bs m a i h

/-- What a byte reads as after a write, wherever it lies. -/
theorem byteAt_putBytes (bs : List Byte) : ∀ (m : List Host.Cell) (a i : Nat),
    byteAt (putBytes m a bs) i = if a ≤ i ∧ i < a + bs.length then bs.getD (i - a) 0 else byteAt m i := by
  induction bs with
  | nil => intro m a i; rw [if_neg (by simp)]; rfl
  | cons b bs ih =>
    intro m a i
    have e : putBytes m a (b :: bs) = putBytes (Tbl.set memDefault m a b) (a + 1) bs := rfl
    rw [e, ih]
    have l : (b :: bs).length = bs.length + 1 := rfl
    by_cases h : a + 1 ≤ i ∧ i < a + 1 + bs.length
    · obtain ⟨k, rfl⟩ : ∃ k, i = a + (k + 1) := ⟨i - a - 1, by omega⟩
      rw [if_pos h, if_pos (by omega), show a + (k + 1) - (a + 1) = k by omega, show a + (k + 1) - a = k + 1 by omega]
      rfl
    · rw [if_neg h]
      by_cases k : i = a
      · subst k; rw [if_pos (by omega), Nat.sub_self]
        exact tbl_get_set_same _ _ _ _
      · rw [if_neg (by omega)]
        exact tbl_get_set_other _ _ (fun c => k c.symm) _

/- All memory of a state. -/

/-- The reset state lists no memory. -/
theorem reset_memWf : memWf State.reset = true := by decide

theorem memWf_iff {s : State} : memWf s = true ↔
    Memory.wf s.dram = true ∧ (∀ p ∈ s.cores, spWf p.2 = true) ∧ ∀ x ∈ s.disp.saved, spWf x.core = true := by
  simp [memWf, and_assoc]

/-- A property of every listed entry and of the default holds of what is read. -/
theorem tbl_get_of {α : Type} {P : α → Prop} {d : α} (hd : P d) : ∀ {t : Tbl α}, (∀ p ∈ t, P p.2) → ∀ k, P (Tbl.get d t k)
  | [], _, _ => hd
  | q :: t, h, k => by
    unfold Tbl.get
    split
    · exact h q (List.mem_cons_self ..)
    · exact tbl_get_of hd (fun p m => h p (List.mem_cons_of_mem _ m)) k

/-- It holds of every entry after a write of a value that has it. -/
theorem tbl_set_of {α : Type} [DecidableEq α] {P : α → Prop} {d v : α} {k : Nat} {t : Tbl α} (h : ∀ p ∈ t, P p.2) (hv : P v) :
    ∀ p ∈ Tbl.set d t k v, P p.2 := by
  intro p m
  unfold Tbl.set at m
  split at m
  · exact h p (List.mem_filter.1 m).1
  · rcases tbl_mem_place m with rfl | m
    · exact hv
    · exact h p m

/-- Every core of a state whose memory is in canonical form has its scratchpad so. -/
theorem core_spWf {s : State} (h : memWf s = true) (g : Nat) : spWf (s.core g) = true :=
  tbl_get_of (P := fun c => spWf c = true) (by decide) (memWf_iff.1 h).2.1 g

/-- Putting back a core whose scratchpad is in canonical form keeps all memory so. -/
theorem setCore_memWf {s : State} {c : Core} (h : memWf s = true) (hc : spWf c = true) (g : Nat) : memWf (s.setCore g c) = true := by
  obtain ⟨hd, hs, hv⟩ := memWf_iff.1 h
  exact memWf_iff.2 ⟨hd, tbl_set_of (P := fun c => spWf c = true) hs hc, hv⟩

/-- One that keeps its scratchpad may be put back. -/
theorem setCore_memWf_same {s : State} {c : Core} {g : Nat} (h : memWf s = true) (e : c.sp = (s.core g).sp) : memWf (s.setCore g c) = true :=
  setCore_memWf h (by have := core_spWf h g; unfold spWf at *; rw [e]; exact this) g

theorem setMe_memWf_same {s : State} {c : Core} (h : memWf s = true) (e : c.sp = s.me.sp) : memWf (s.setMe c) = true :=
  setCore_memWf_same h e

/-- A state that agrees in its memories, its cores and its saved units has them in canonical form as well. -/
theorem memWf_congr {s t : State} (h : memWf s = true) (hd : t.dram = s.dram) (hc : t.cores = s.cores) (hv : t.disp.saved = s.disp.saved) :
    memWf t = true := by
  unfold memWf at *; rw [hd, hc, hv]; exact h

/-- A fold of an operation that keeps the canonical form keeps it. -/
theorem foldl_memWf {α : Type} {f : State → α → State} (hf : ∀ s x, memWf s = true → memWf (f s x) = true) (xs : List α) :
    ∀ {s : State}, memWf s = true → memWf (xs.foldl f s) = true := by
  induction xs with
  | nil => exact fun h => h
  | cons x xs ih => exact fun h => ih (hf _ x h)

/- The operations that write memory. -/

/-- Bytes written into a scratchpad. -/
theorem writeSp_memWf {s : State} (t a : Nat) (bs : List Byte) (h : memWf s = true) : memWf (writeSp t a bs s) = true :=
  setCore_memWf h (by exact putBytes_wf (core_spWf h t)) t

/-- Bytes written along runs of the DRAM. -/
theorem writeSegs_memWf {s : State} (r : List Seg) (bs : List Byte) (h : memWf s = true) : memWf (writeSegs r bs s) = true := by
  unfold writeSegs
  induction r generalizing s bs with
  | nil => exact h
  | cons x r ih =>
    obtain ⟨hd, hs, hv⟩ := memWf_iff.1 h
    exact ih _ (memWf_iff.2 ⟨putBytes_wf hd, hs, hv⟩)

/-- A W store that lands in its members' scratchpads. -/
theorem landW_memWf {s : State} (f : WFlight) (h : memWf s = true) : memWf (landW f s) = true := by
  unfold landW
  refine foldl_memWf ?_ _ (foldl_memWf ?_ _ h)
  · intro s m h
    refine foldl_memWf ?_ _ h
    intro s x h
    refine setCore_memWf h ?_ m
    exact core_spWf h m
  · intro s r h
    exact writeSp_memWf _ _ _ h

/-- The correction of single-bit errors changes the list of errors and the banks that count them, and nothing else. -/
theorem correctIn_only (mem : Nat) (bank : Nat → BankId) (a n : Nat) (tag : BitVec 16) (s : State) :
    { correctIn mem bank a n tag s with flips := s.flips, banks := s.banks } = s := by
  have each (xs : List (Nat × Nat)) : ∀ u : State,
      { xs.foldl (fun s x => s.setBank (bank (8 * x.2)) ((s.bank (bank (8 * x.2))).correctable tag
          { code := 0, src := 5, pc := 0, addr := BitVec.ofNat 64 (8 * x.2) })) u with flips := s.flips, banks := s.banks } =
        { u with flips := s.flips, banks := s.banks } := by
    induction xs with
    | nil => exact fun _ => rfl
    | cons x xs ih => exact fun u => (ih _).trans rfl
  unfold correctIn
  split
  · rfl
  · exact (each _ _).trans rfl

@[simp] theorem correctIn_cores (mem : Nat) (bank : Nat → BankId) (a n : Nat) (tag : BitVec 16) (s : State) :
    (correctIn mem bank a n tag s).cores = s.cores := by
  conv => rhs; rw [← correctIn_only mem bank a n tag s]
@[simp] theorem correctIn_dram (mem : Nat) (bank : Nat → BankId) (a n : Nat) (tag : BitVec 16) (s : State) :
    (correctIn mem bank a n tag s).dram = s.dram := by
  conv => rhs; rw [← correctIn_only mem bank a n tag s]
@[simp] theorem correctIn_disp (mem : Nat) (bank : Nat → BankId) (a n : Nat) (tag : BitVec 16) (s : State) :
    (correctIn mem bank a n tag s).disp = s.disp := by
  conv => rhs; rw [← correctIn_only mem bank a n tag s]

/-- The updates of a tag that a close applies. -/
theorem applyEntry_memWf {s : State} (e : HoldEntry) (h : memWf s = true) : memWf (applyEntry s e) = true := by
  obtain ⟨hd, hs, hv⟩ := memWf_iff.1 h
  have w (m : List Host.Cell) (hm : Memory.wf m = true) : memWf { correctDram e.pa e.width e.tag s with dram := m } = true :=
    memWf_iff.2 ⟨hm, by simpa [correctDram] using hs, by simpa [correctDram] using hv⟩
  exact w _ (putBytes_wf hd)

/-- A close at a slice. -/
theorem closeAt_memWf {s : State} (k : Nat) (x : CloseRun) (h : memWf s = true) : memWf (closeAt k x s) = true := by
  unfold closeAt
  split
  · exact memWf_congr (applyEntry_memWf _ h) rfl rfl rfl
  · split
    · exact h
    · exact memWf_congr h rfl rfl rfl

/-- An image written over a range. -/
theorem putImage_wf {m : List Host.Cell} (a n : Nat) (rs : List (Nat × List Byte)) (h : Memory.wf m = true) :
    Memory.wf (putImage m a n rs) = true := by
  unfold putImage
  have h : Memory.wf (Tbl.clearRange m a (a + n)) = true := tbl_wf_clearRange h
  generalize Tbl.clearRange m a (a + n) = m' at h
  induction rs generalizing m' with
  | nil => exact h
  | cons r rs ih => exact ih _ (putBytes_wf h)

/-- A context saved in its slot. -/
theorem writeContext_memWf {s : State} (base k : Nat) (c : Core) (h : memWf s = true) : memWf (writeContext base k c s) = true := by
  obtain ⟨hd, hs, hv⟩ := memWf_iff.1 h
  exact memWf_iff.2 ⟨putImage_wf _ _ _ hd, hs, hv⟩

/- What they leave alone. -/

/-- A scratchpad write reads back, and every other byte of every scratchpad and of the DRAM stays. -/
theorem writeSp_byteAt (s : State) (t a : Nat) (bs : List Byte) (g i : Nat) :
    byteAt ((writeSp t a bs s).core g).sp i =
      if g = t ∧ a ≤ i ∧ i < a + bs.length then bs.getD (i - a) 0 else byteAt (s.core g).sp i := by
  unfold writeSp State.setCore State.core
  by_cases e : t = g
  · subst e
    simp only [tbl_get_set_same, true_and]
    exact byteAt_putBytes bs _ a i
  · simp only [tbl_get_set_other _ _ e]
    rw [if_neg (fun c => e c.1.symm)]

theorem writeSp_dram (s : State) (t a : Nat) (bs : List Byte) : (writeSp t a bs s).dram = s.dram := rfl

/-- A DRAM write leaves every core as it is. -/
theorem writeSegs_cores (r : List Seg) (bs : List Byte) (s : State) : (writeSegs r bs s).cores = s.cores := by
  unfold writeSegs
  induction r generalizing s bs with
  | nil => rfl
  | cons x r ih => exact ih _ _

/-- A write of one run of the DRAM reads back, and every other byte stays. -/
theorem writeSegs_byteAt (s : State) (a : Nat) (bs : List Byte) (i : Nat) :
    byteAt (writeSegs [(a, bs.length)] bs s).dram i = if a ≤ i ∧ i < a + bs.length then bs.getD (i - a) 0 else byteAt s.dram i := by
  have e : (writeSegs [(a, bs.length)] bs s).dram = putBytes s.dram a bs := by
    show putBytes s.dram a (bs.take bs.length) = _
    rw [List.take_length]
  rw [e]; exact byteAt_putBytes bs _ a i

/- An engine's write neither reads nor changes what the collectives have finished. -/

theorem noteWalk_collParts (die va : Nat) (tag : BitVec 16) (w : Walk) (s : State) (ps : List CollPart) :
    noteWalk die va tag w { s with collParts := ps } = { noteWalk die va tag w s with collParts := ps } := by
  have fold (l : List Nat) (id : BankId) (f : Nat → FaultInfo) (s : State) :
      l.foldl (fun (s : State) a => s.setBank id ((s.bank id).correctable tag (f a))) { s with collParts := ps } =
        { l.foldl (fun (s : State) a => s.setBank id ((s.bank id).correctable tag (f a))) s with collParts := ps } := by
    induction l generalizing s with
    | nil => rfl
    | cons a l ih => exact ih (s.setBank id ((s.bank id).correctable tag (f a)))
  have uc (id : BankId) (x : FaultInfo) (s : State) : recordUc id tag x { s with collParts := ps } = { recordUc id tag x s with collParts := ps } := by
    unfold recordUc
    simp only [show ({ s with collParts := ps } : State).bank id = s.bank id from rfl]
    split
    · split <;> rfl
    · rfl
  unfold noteWalk
  simp only [fold]
  cases w.bad with
  | none => rfl
  | some a => exact uc _ _ _

theorem ownSegs_collParts (disp : Bool) (va n : Nat) (wr : Bool) (s : State) (ps : List CollPart) :
    ownSegs disp va n wr { s with collParts := ps } = ((ownSegs disp va n wr s).1, { (ownSegs disp va n wr s).2 with collParts := ps }) := by
  have tr (va : Nat) (s : State) : translateOwn disp va wr { s with collParts := ps } = ((translateOwn disp va wr s).1, { (translateOwn disp va wr s).2 with collParts := ps }) := by
    unfold translateOwn
    simp only [noteWalk_collParts]
    simp only [show walkAt { s with collParts := ps } (if disp then 0 else 4) va wr false = walkAt s (if disp then 0 else 4) va wr false from rfl]
    cases (walkAt s (if disp then 0 else 4) va wr false).res <;> rfl
  have segs (fuel va n : Nat) (s : State) : segments (fun a s => translateOwn disp a wr s) fuel va n { s with collParts := ps } =
      ((segments (fun a s => translateOwn disp a wr s) fuel va n s).1, { (segments (fun a s => translateOwn disp a wr s) fuel va n s).2 with collParts := ps }) := by
    induction fuel generalizing va n s with
    | zero => rfl
    | succ fuel ih =>
      unfold segments
      split
      · rfl
      · simp only [tr]
        rcases translateOwn disp va wr s with ⟨e | pa, t⟩
        · rfl
        · simp only [ih]
          rcases segments (fun a s => translateOwn disp a wr s) fuel (va + min n (2 ^ 21 - va % 2 ^ 21)) (n - min n (2 ^ 21 - va % 2 ^ 21)) t with ⟨e | r, u⟩ <;> rfl
  unfold ownSegs
  split
  · rfl
  · simp only [show inCew { s with collParts := ps } va n = inCew s va n from rfl]
    split
    · rfl
    · simp only [segs]
      rcases segments (fun a s => translateOwn disp a wr s) (pagesOf n) va n s with ⟨e | r, t⟩
      · rfl
      · simp only [show ∀ d, fencedDie { t with collParts := ps } d = fencedDie t d from fun _ => rfl]
        split <;> rfl

theorem engWrite_collParts (va : Nat) (bs : List MByte) (s : State) (ps : List CollPart) :
    engWrite va bs { s with collParts := ps } = ((engWrite va bs s).1, { (engWrite va bs s).2 with collParts := ps }) := by
  have put (r : List Seg) (bs : List Byte) (s : State) : writeSegs r bs { s with collParts := ps } = { writeSegs r bs s with collParts := ps } := by
    have cons (x : Seg) (r : List Seg) (bs : List Byte) (s : State) : writeSegs (x :: r) bs s = writeSegs r (bs.drop x.2)
        { s with dram := putBytes s.dram x.1 (bs.take x.2), dramPoison := clearPoison s.dramPoison x.1 x.2,
                 flips := clearFlips flipDram x.1 x.2 s.flips } := rfl
    induction r generalizing s bs with
    | nil => rfl
    | cons x r ih => rw [cons, cons]; exact ih (bs.drop x.2) { s with dram := putBytes s.dram x.1 (bs.take x.2), dramPoison := clearPoison s.dramPoison x.1 x.2, flips := clearFlips flipDram x.1 x.2 s.flips }
  have mark (r : List Seg) (acc : State × List MByte) :
      (r.foldl (fun (acc : State × List MByte) x => ({ acc.1 with dramPoison := marksOf x.1 (acc.2.take x.2) acc.1.dramPoison }, acc.2.drop x.2))
        ({ acc.1 with collParts := ps }, acc.2)).1 =
      { (r.foldl (fun (acc : State × List MByte) x => ({ acc.1 with dramPoison := marksOf x.1 (acc.2.take x.2) acc.1.dramPoison }, acc.2.drop x.2)) acc).1
          with collParts := ps } := by
    induction r generalizing acc with
    | nil => rfl
    | cons x r ih => exact ih ({ acc.1 with dramPoison := marksOf x.1 (acc.2.take x.2) acc.1.dramPoison }, acc.2.drop x.2)
  unfold engWrite
  rw [ownSegs_collParts]
  rcases ownSegs false va bs.length true s with ⟨e | r, t⟩
  · rfl
  · refine congrArg (Prod.mk (Except.ok ())) ?_
    show writeSegsM r bs { t with collParts := ps } = { writeSegsM r bs t with collParts := ps }
    unfold writeSegsM
    simp only [put]
    exact mark r (writeSegs r (bs.map Prod.fst) t, bs)

end Sys2Proof.Laws
end

