-- ==== Sys2Proof/Laws/State.lean ====
section
/-!
SUPPORT. What each update of the state leaves: one equation for each field and update, so that no proof unfolds a
record update.
-/
namespace Sys2Proof.Machine
open Sys2Proof.Laws

/- Updates of the module. -/

@[simp] theorem setCore_cur (s : State) (g : Nat) (c : Core) : (s.setCore g c).cur = s.cur := rfl
@[simp] theorem setCore_now (s : State) (g : Nat) (c : Core) : (s.setCore g c).now = s.now := rfl
@[simp] theorem setCore_sched (s : State) (g : Nat) (c : Core) : (s.setCore g c).sched = s.sched := rfl
@[simp] theorem setCore_tick (s : State) (g : Nat) (c : Core) : (s.setCore g c).tick = s.tick := rfl
@[simp] theorem setCore_dram (s : State) (g : Nat) (c : Core) : (s.setCore g c).dram = s.dram := rfl
@[simp] theorem setCore_dramPoison (s : State) (g : Nat) (c : Core) : (s.setCore g c).dramPoison = s.dramPoison := rfl
@[simp] theorem setCore_banks (s : State) (g : Nat) (c : Core) : (s.setCore g c).banks = s.banks := rfl
@[simp] theorem setCore_fenced (s : State) (g : Nat) (c : Core) : (s.setCore g c).fenced = s.fenced := rfl
@[simp] theorem setCore_purges (s : State) (g : Nat) (c : Core) : (s.setCore g c).purges = s.purges := rfl
@[simp] theorem setCore_wFlight (s : State) (g : Nat) (c : Core) : (s.setCore g c).wFlight = s.wFlight := rfl
@[simp] theorem setCore_retry (s : State) (g : Nat) (c : Core) : (s.setCore g c).retry = s.retry := rfl
@[simp] theorem setCore_sendSeq (s : State) (g : Nat) (c : Core) : (s.setCore g c).sendSeq = s.sendSeq := rfl
@[simp] theorem setCore_pathDown (s : State) (g : Nat) (c : Core) : (s.setCore g c).pathDown = s.pathDown := rfl
@[simp] theorem setCore_recv (s : State) (g : Nat) (c : Core) : (s.setCore g c).recv = s.recv := rfl
@[simp] theorem setCore_outbox (s : State) (g : Nat) (c : Core) : (s.setCore g c).outbox = s.outbox := rfl
@[simp] theorem setCore_headers (s : State) (g : Nat) (c : Core) : (s.setCore g c).headers = s.headers := rfl
@[simp] theorem setCore_updFlight (s : State) (g : Nat) (c : Core) : (s.setCore g c).updFlight = s.updFlight := rfl
@[simp] theorem setCore_redFlight (s : State) (g : Nat) (c : Core) : (s.setCore g c).redFlight = s.redFlight := rfl
@[simp] theorem setCore_holding (s : State) (g : Nat) (c : Core) : (s.setCore g c).holding = s.holding := rfl
@[simp] theorem setCore_closes (s : State) (g : Nat) (c : Core) : (s.setCore g c).closes = s.closes := rfl
@[simp] theorem setCore_meridian (s : State) (g : Nat) (c : Core) : (s.setCore g c).meridian = s.meridian := rfl
@[simp] theorem setCore_zenith (s : State) (g : Nat) (c : Core) : (s.setCore g c).zenith = s.zenith := rfl
@[simp] theorem setCore_zNext (s : State) (g : Nat) (c : Core) : (s.setCore g c).zNext = s.zNext := rfl
@[simp] theorem setCore_zSent (s : State) (g : Nat) (c : Core) : (s.setCore g c).zSent = s.zSent := rfl
@[simp] theorem setCore_longs (s : State) (g : Nat) (c : Core) : (s.setCore g c).longs = s.longs := rfl
@[simp] theorem setCore_sevFlight (s : State) (g : Nat) (c : Core) : (s.setCore g c).sevFlight = s.sevFlight := rfl
@[simp] theorem setCore_stopped (s : State) (g : Nat) (c : Core) : (s.setCore g c).stopped = s.stopped := rfl
@[simp] theorem setCore_disp (s : State) (g : Nat) (c : Core) : (s.setCore g c).disp = s.disp := rfl
@[simp] theorem setCore_objs (s : State) (g : Nat) (c : Core) : (s.setCore g c).objs = s.objs := rfl
@[simp] theorem setCore_collIn (s : State) (g : Nat) (c : Core) : (s.setCore g c).collIn = s.collIn := rfl
@[simp] theorem setCore_collRun (s : State) (g : Nat) (c : Core) : (s.setCore g c).collRun = s.collRun := rfl
@[simp] theorem setCore_collWait (s : State) (g : Nat) (c : Core) : (s.setCore g c).collWait = s.collWait := rfl
@[simp] theorem setCore_plat (s : State) (g : Nat) (c : Core) : (s.setCore g c).plat = s.plat := rfl
@[simp] theorem setCore_platNext (s : State) (g : Nat) (c : Core) : (s.setCore g c).platNext = s.platNext := rfl
@[simp] theorem setCore_counter (s : State) (g : Nat) (c : Core) : (s.setCore g c).counter = s.counter := rfl
@[simp] theorem setCore_powerCap (s : State) (g : Nat) (c : Core) : (s.setCore g c).powerCap = s.powerCap := rfl
@[simp] theorem setCore_clock (s : State) (g : Nat) (c : Core) : (s.setCore g c).clock = s.clock := rfl
@[simp] theorem setCore_replies (s : State) (g : Nat) (c : Core) : (s.setCore g c).replies = s.replies := rfl
@[simp] theorem setCore_flips (s : State) (g : Nat) (c : Core) : (s.setCore g c).flips = s.flips := rfl
@[simp] theorem setCore_misses (s : State) (g : Nat) (c : Core) : (s.setCore g c).misses = s.misses := rfl
@[simp] theorem setCore_ucNow (s : State) (g : Nat) (c : Core) : (s.setCore g c).ucNow = s.ucNow := rfl
@[simp] theorem setCore_used (s : State) (g : Nat) (c : Core) : (s.setCore g c).used = s.used := rfl
@[simp] theorem setCore_links (s : State) (g : Nat) (c : Core) : (s.setCore g c).links = s.links := rfl
@[simp] theorem setCore_accepted (s : State) (g : Nat) (c : Core) : (s.setCore g c).accepted = s.accepted := rfl
@[simp] theorem setCore_collNo (s : State) (g : Nat) (c : Core) : (s.setCore g c).collNo = s.collNo := rfl
@[simp] theorem setCore_collParts (s : State) (g : Nat) (c : Core) : (s.setCore g c).collParts = s.collParts := rfl
@[simp] theorem setMe_cur (s : State) (c : Core) : (s.setMe c).cur = s.cur := rfl
@[simp] theorem setMe_now (s : State) (c : Core) : (s.setMe c).now = s.now := rfl
@[simp] theorem setMe_sched (s : State) (c : Core) : (s.setMe c).sched = s.sched := rfl
@[simp] theorem setMe_tick (s : State) (c : Core) : (s.setMe c).tick = s.tick := rfl
@[simp] theorem setMe_dram (s : State) (c : Core) : (s.setMe c).dram = s.dram := rfl
@[simp] theorem setMe_dramPoison (s : State) (c : Core) : (s.setMe c).dramPoison = s.dramPoison := rfl
@[simp] theorem setMe_banks (s : State) (c : Core) : (s.setMe c).banks = s.banks := rfl
@[simp] theorem setMe_fenced (s : State) (c : Core) : (s.setMe c).fenced = s.fenced := rfl
@[simp] theorem setMe_purges (s : State) (c : Core) : (s.setMe c).purges = s.purges := rfl
@[simp] theorem setMe_wFlight (s : State) (c : Core) : (s.setMe c).wFlight = s.wFlight := rfl
@[simp] theorem setMe_retry (s : State) (c : Core) : (s.setMe c).retry = s.retry := rfl
@[simp] theorem setMe_sendSeq (s : State) (c : Core) : (s.setMe c).sendSeq = s.sendSeq := rfl
@[simp] theorem setMe_pathDown (s : State) (c : Core) : (s.setMe c).pathDown = s.pathDown := rfl
@[simp] theorem setMe_recv (s : State) (c : Core) : (s.setMe c).recv = s.recv := rfl
@[simp] theorem setMe_outbox (s : State) (c : Core) : (s.setMe c).outbox = s.outbox := rfl
@[simp] theorem setMe_headers (s : State) (c : Core) : (s.setMe c).headers = s.headers := rfl
@[simp] theorem setMe_updFlight (s : State) (c : Core) : (s.setMe c).updFlight = s.updFlight := rfl
@[simp] theorem setMe_redFlight (s : State) (c : Core) : (s.setMe c).redFlight = s.redFlight := rfl
@[simp] theorem setMe_holding (s : State) (c : Core) : (s.setMe c).holding = s.holding := rfl
@[simp] theorem setMe_closes (s : State) (c : Core) : (s.setMe c).closes = s.closes := rfl
@[simp] theorem setMe_meridian (s : State) (c : Core) : (s.setMe c).meridian = s.meridian := rfl
@[simp] theorem setMe_zenith (s : State) (c : Core) : (s.setMe c).zenith = s.zenith := rfl
@[simp] theorem setMe_zNext (s : State) (c : Core) : (s.setMe c).zNext = s.zNext := rfl
@[simp] theorem setMe_zSent (s : State) (c : Core) : (s.setMe c).zSent = s.zSent := rfl
@[simp] theorem setMe_longs (s : State) (c : Core) : (s.setMe c).longs = s.longs := rfl
@[simp] theorem setMe_sevFlight (s : State) (c : Core) : (s.setMe c).sevFlight = s.sevFlight := rfl
@[simp] theorem setMe_stopped (s : State) (c : Core) : (s.setMe c).stopped = s.stopped := rfl
@[simp] theorem setMe_disp (s : State) (c : Core) : (s.setMe c).disp = s.disp := rfl
@[simp] theorem setMe_objs (s : State) (c : Core) : (s.setMe c).objs = s.objs := rfl
@[simp] theorem setMe_collIn (s : State) (c : Core) : (s.setMe c).collIn = s.collIn := rfl
@[simp] theorem setMe_collRun (s : State) (c : Core) : (s.setMe c).collRun = s.collRun := rfl
@[simp] theorem setMe_collWait (s : State) (c : Core) : (s.setMe c).collWait = s.collWait := rfl
@[simp] theorem setMe_plat (s : State) (c : Core) : (s.setMe c).plat = s.plat := rfl
@[simp] theorem setMe_platNext (s : State) (c : Core) : (s.setMe c).platNext = s.platNext := rfl
@[simp] theorem setMe_counter (s : State) (c : Core) : (s.setMe c).counter = s.counter := rfl
@[simp] theorem setMe_powerCap (s : State) (c : Core) : (s.setMe c).powerCap = s.powerCap := rfl
@[simp] theorem setMe_clock (s : State) (c : Core) : (s.setMe c).clock = s.clock := rfl
@[simp] theorem setMe_replies (s : State) (c : Core) : (s.setMe c).replies = s.replies := rfl
@[simp] theorem setMe_flips (s : State) (c : Core) : (s.setMe c).flips = s.flips := rfl
@[simp] theorem setMe_misses (s : State) (c : Core) : (s.setMe c).misses = s.misses := rfl
@[simp] theorem setMe_ucNow (s : State) (c : Core) : (s.setMe c).ucNow = s.ucNow := rfl
@[simp] theorem setMe_used (s : State) (c : Core) : (s.setMe c).used = s.used := rfl
@[simp] theorem setMe_links (s : State) (c : Core) : (s.setMe c).links = s.links := rfl
@[simp] theorem setMe_accepted (s : State) (c : Core) : (s.setMe c).accepted = s.accepted := rfl
@[simp] theorem setMe_collNo (s : State) (c : Core) : (s.setMe c).collNo = s.collNo := rfl
@[simp] theorem setMe_collParts (s : State) (c : Core) : (s.setMe c).collParts = s.collParts := rfl
@[simp] theorem onMe_cur (s : State) (f : Core → Core) : (s.onMe f).cur = s.cur := rfl
@[simp] theorem onMe_now (s : State) (f : Core → Core) : (s.onMe f).now = s.now := rfl
@[simp] theorem onMe_sched (s : State) (f : Core → Core) : (s.onMe f).sched = s.sched := rfl
@[simp] theorem onMe_tick (s : State) (f : Core → Core) : (s.onMe f).tick = s.tick := rfl
@[simp] theorem onMe_dram (s : State) (f : Core → Core) : (s.onMe f).dram = s.dram := rfl
@[simp] theorem onMe_dramPoison (s : State) (f : Core → Core) : (s.onMe f).dramPoison = s.dramPoison := rfl
@[simp] theorem onMe_banks (s : State) (f : Core → Core) : (s.onMe f).banks = s.banks := rfl
@[simp] theorem onMe_fenced (s : State) (f : Core → Core) : (s.onMe f).fenced = s.fenced := rfl
@[simp] theorem onMe_purges (s : State) (f : Core → Core) : (s.onMe f).purges = s.purges := rfl
@[simp] theorem onMe_wFlight (s : State) (f : Core → Core) : (s.onMe f).wFlight = s.wFlight := rfl
@[simp] theorem onMe_retry (s : State) (f : Core → Core) : (s.onMe f).retry = s.retry := rfl
@[simp] theorem onMe_sendSeq (s : State) (f : Core → Core) : (s.onMe f).sendSeq = s.sendSeq := rfl
@[simp] theorem onMe_pathDown (s : State) (f : Core → Core) : (s.onMe f).pathDown = s.pathDown := rfl
@[simp] theorem onMe_recv (s : State) (f : Core → Core) : (s.onMe f).recv = s.recv := rfl
@[simp] theorem onMe_outbox (s : State) (f : Core → Core) : (s.onMe f).outbox = s.outbox := rfl
@[simp] theorem onMe_headers (s : State) (f : Core → Core) : (s.onMe f).headers = s.headers := rfl
@[simp] theorem onMe_updFlight (s : State) (f : Core → Core) : (s.onMe f).updFlight = s.updFlight := rfl
@[simp] theorem onMe_redFlight (s : State) (f : Core → Core) : (s.onMe f).redFlight = s.redFlight := rfl
@[simp] theorem onMe_holding (s : State) (f : Core → Core) : (s.onMe f).holding = s.holding := rfl
@[simp] theorem onMe_closes (s : State) (f : Core → Core) : (s.onMe f).closes = s.closes := rfl
@[simp] theorem onMe_meridian (s : State) (f : Core → Core) : (s.onMe f).meridian = s.meridian := rfl
@[simp] theorem onMe_zenith (s : State) (f : Core → Core) : (s.onMe f).zenith = s.zenith := rfl
@[simp] theorem onMe_zNext (s : State) (f : Core → Core) : (s.onMe f).zNext = s.zNext := rfl
@[simp] theorem onMe_zSent (s : State) (f : Core → Core) : (s.onMe f).zSent = s.zSent := rfl
@[simp] theorem onMe_longs (s : State) (f : Core → Core) : (s.onMe f).longs = s.longs := rfl
@[simp] theorem onMe_sevFlight (s : State) (f : Core → Core) : (s.onMe f).sevFlight = s.sevFlight := rfl
@[simp] theorem onMe_stopped (s : State) (f : Core → Core) : (s.onMe f).stopped = s.stopped := rfl
@[simp] theorem onMe_disp (s : State) (f : Core → Core) : (s.onMe f).disp = s.disp := rfl
@[simp] theorem onMe_objs (s : State) (f : Core → Core) : (s.onMe f).objs = s.objs := rfl
@[simp] theorem onMe_collIn (s : State) (f : Core → Core) : (s.onMe f).collIn = s.collIn := rfl
@[simp] theorem onMe_collRun (s : State) (f : Core → Core) : (s.onMe f).collRun = s.collRun := rfl
@[simp] theorem onMe_collWait (s : State) (f : Core → Core) : (s.onMe f).collWait = s.collWait := rfl
@[simp] theorem onMe_plat (s : State) (f : Core → Core) : (s.onMe f).plat = s.plat := rfl
@[simp] theorem onMe_platNext (s : State) (f : Core → Core) : (s.onMe f).platNext = s.platNext := rfl
@[simp] theorem onMe_counter (s : State) (f : Core → Core) : (s.onMe f).counter = s.counter := rfl
@[simp] theorem onMe_powerCap (s : State) (f : Core → Core) : (s.onMe f).powerCap = s.powerCap := rfl
@[simp] theorem onMe_clock (s : State) (f : Core → Core) : (s.onMe f).clock = s.clock := rfl
@[simp] theorem onMe_replies (s : State) (f : Core → Core) : (s.onMe f).replies = s.replies := rfl
@[simp] theorem onMe_flips (s : State) (f : Core → Core) : (s.onMe f).flips = s.flips := rfl
@[simp] theorem onMe_misses (s : State) (f : Core → Core) : (s.onMe f).misses = s.misses := rfl
@[simp] theorem onMe_ucNow (s : State) (f : Core → Core) : (s.onMe f).ucNow = s.ucNow := rfl
@[simp] theorem onMe_used (s : State) (f : Core → Core) : (s.onMe f).used = s.used := rfl
@[simp] theorem onMe_links (s : State) (f : Core → Core) : (s.onMe f).links = s.links := rfl
@[simp] theorem onMe_accepted (s : State) (f : Core → Core) : (s.onMe f).accepted = s.accepted := rfl
@[simp] theorem onMe_collNo (s : State) (f : Core → Core) : (s.onMe f).collNo = s.collNo := rfl
@[simp] theorem onMe_collParts (s : State) (f : Core → Core) : (s.onMe f).collParts = s.collParts := rfl
@[simp] theorem setBank_cores (s : State) (b : BankId) (x : Bank) : (s.setBank b x).cores = s.cores := rfl
@[simp] theorem setBank_cur (s : State) (b : BankId) (x : Bank) : (s.setBank b x).cur = s.cur := rfl
@[simp] theorem setBank_now (s : State) (b : BankId) (x : Bank) : (s.setBank b x).now = s.now := rfl
@[simp] theorem setBank_sched (s : State) (b : BankId) (x : Bank) : (s.setBank b x).sched = s.sched := rfl
@[simp] theorem setBank_tick (s : State) (b : BankId) (x : Bank) : (s.setBank b x).tick = s.tick := rfl
@[simp] theorem setBank_dram (s : State) (b : BankId) (x : Bank) : (s.setBank b x).dram = s.dram := rfl
@[simp] theorem setBank_dramPoison (s : State) (b : BankId) (x : Bank) : (s.setBank b x).dramPoison = s.dramPoison := rfl
@[simp] theorem setBank_fenced (s : State) (b : BankId) (x : Bank) : (s.setBank b x).fenced = s.fenced := rfl
@[simp] theorem setBank_purges (s : State) (b : BankId) (x : Bank) : (s.setBank b x).purges = s.purges := rfl
@[simp] theorem setBank_wFlight (s : State) (b : BankId) (x : Bank) : (s.setBank b x).wFlight = s.wFlight := rfl
@[simp] theorem setBank_retry (s : State) (b : BankId) (x : Bank) : (s.setBank b x).retry = s.retry := rfl
@[simp] theorem setBank_sendSeq (s : State) (b : BankId) (x : Bank) : (s.setBank b x).sendSeq = s.sendSeq := rfl
@[simp] theorem setBank_pathDown (s : State) (b : BankId) (x : Bank) : (s.setBank b x).pathDown = s.pathDown := rfl
@[simp] theorem setBank_recv (s : State) (b : BankId) (x : Bank) : (s.setBank b x).recv = s.recv := rfl
@[simp] theorem setBank_outbox (s : State) (b : BankId) (x : Bank) : (s.setBank b x).outbox = s.outbox := rfl
@[simp] theorem setBank_headers (s : State) (b : BankId) (x : Bank) : (s.setBank b x).headers = s.headers := rfl
@[simp] theorem setBank_updFlight (s : State) (b : BankId) (x : Bank) : (s.setBank b x).updFlight = s.updFlight := rfl
@[simp] theorem setBank_redFlight (s : State) (b : BankId) (x : Bank) : (s.setBank b x).redFlight = s.redFlight := rfl
@[simp] theorem setBank_holding (s : State) (b : BankId) (x : Bank) : (s.setBank b x).holding = s.holding := rfl
@[simp] theorem setBank_closes (s : State) (b : BankId) (x : Bank) : (s.setBank b x).closes = s.closes := rfl
@[simp] theorem setBank_meridian (s : State) (b : BankId) (x : Bank) : (s.setBank b x).meridian = s.meridian := rfl
@[simp] theorem setBank_zenith (s : State) (b : BankId) (x : Bank) : (s.setBank b x).zenith = s.zenith := rfl
@[simp] theorem setBank_zNext (s : State) (b : BankId) (x : Bank) : (s.setBank b x).zNext = s.zNext := rfl
@[simp] theorem setBank_zSent (s : State) (b : BankId) (x : Bank) : (s.setBank b x).zSent = s.zSent := rfl
@[simp] theorem setBank_longs (s : State) (b : BankId) (x : Bank) : (s.setBank b x).longs = s.longs := rfl
@[simp] theorem setBank_sevFlight (s : State) (b : BankId) (x : Bank) : (s.setBank b x).sevFlight = s.sevFlight := rfl
@[simp] theorem setBank_stopped (s : State) (b : BankId) (x : Bank) : (s.setBank b x).stopped = s.stopped := rfl
@[simp] theorem setBank_disp (s : State) (b : BankId) (x : Bank) : (s.setBank b x).disp = s.disp := rfl
@[simp] theorem setBank_objs (s : State) (b : BankId) (x : Bank) : (s.setBank b x).objs = s.objs := rfl
@[simp] theorem setBank_collIn (s : State) (b : BankId) (x : Bank) : (s.setBank b x).collIn = s.collIn := rfl
@[simp] theorem setBank_collRun (s : State) (b : BankId) (x : Bank) : (s.setBank b x).collRun = s.collRun := rfl
@[simp] theorem setBank_collWait (s : State) (b : BankId) (x : Bank) : (s.setBank b x).collWait = s.collWait := rfl
@[simp] theorem setBank_plat (s : State) (b : BankId) (x : Bank) : (s.setBank b x).plat = s.plat := rfl
@[simp] theorem setBank_platNext (s : State) (b : BankId) (x : Bank) : (s.setBank b x).platNext = s.platNext := rfl
@[simp] theorem setBank_counter (s : State) (b : BankId) (x : Bank) : (s.setBank b x).counter = s.counter := rfl
@[simp] theorem setBank_powerCap (s : State) (b : BankId) (x : Bank) : (s.setBank b x).powerCap = s.powerCap := rfl
@[simp] theorem setBank_clock (s : State) (b : BankId) (x : Bank) : (s.setBank b x).clock = s.clock := rfl
@[simp] theorem setBank_replies (s : State) (b : BankId) (x : Bank) : (s.setBank b x).replies = s.replies := rfl
@[simp] theorem setBank_flips (s : State) (b : BankId) (x : Bank) : (s.setBank b x).flips = s.flips := rfl
@[simp] theorem setBank_misses (s : State) (b : BankId) (x : Bank) : (s.setBank b x).misses = s.misses := rfl
@[simp] theorem setBank_ucNow (s : State) (b : BankId) (x : Bank) : (s.setBank b x).ucNow = s.ucNow := rfl
@[simp] theorem setBank_used (s : State) (b : BankId) (x : Bank) : (s.setBank b x).used = s.used := rfl
@[simp] theorem setBank_links (s : State) (b : BankId) (x : Bank) : (s.setBank b x).links = s.links := rfl
@[simp] theorem setBank_accepted (s : State) (b : BankId) (x : Bank) : (s.setBank b x).accepted = s.accepted := rfl
@[simp] theorem setBank_collNo (s : State) (b : BankId) (x : Bank) : (s.setBank b x).collNo = s.collNo := rfl
@[simp] theorem setBank_collParts (s : State) (b : BankId) (x : Bank) : (s.setBank b x).collParts = s.collParts := rfl
@[simp] theorem setDisp_cores (s : State) (d : Dispatch) : (s.setDisp d).cores = s.cores := rfl
@[simp] theorem setDisp_cur (s : State) (d : Dispatch) : (s.setDisp d).cur = s.cur := rfl
@[simp] theorem setDisp_now (s : State) (d : Dispatch) : (s.setDisp d).now = s.now := rfl
@[simp] theorem setDisp_sched (s : State) (d : Dispatch) : (s.setDisp d).sched = s.sched := rfl
@[simp] theorem setDisp_tick (s : State) (d : Dispatch) : (s.setDisp d).tick = s.tick := rfl
@[simp] theorem setDisp_dram (s : State) (d : Dispatch) : (s.setDisp d).dram = s.dram := rfl
@[simp] theorem setDisp_dramPoison (s : State) (d : Dispatch) : (s.setDisp d).dramPoison = s.dramPoison := rfl
@[simp] theorem setDisp_banks (s : State) (d : Dispatch) : (s.setDisp d).banks = s.banks := rfl
@[simp] theorem setDisp_fenced (s : State) (d : Dispatch) : (s.setDisp d).fenced = s.fenced := rfl
@[simp] theorem setDisp_purges (s : State) (d : Dispatch) : (s.setDisp d).purges = s.purges := rfl
@[simp] theorem setDisp_wFlight (s : State) (d : Dispatch) : (s.setDisp d).wFlight = s.wFlight := rfl
@[simp] theorem setDisp_retry (s : State) (d : Dispatch) : (s.setDisp d).retry = s.retry := rfl
@[simp] theorem setDisp_sendSeq (s : State) (d : Dispatch) : (s.setDisp d).sendSeq = s.sendSeq := rfl
@[simp] theorem setDisp_pathDown (s : State) (d : Dispatch) : (s.setDisp d).pathDown = s.pathDown := rfl
@[simp] theorem setDisp_recv (s : State) (d : Dispatch) : (s.setDisp d).recv = s.recv := rfl
@[simp] theorem setDisp_outbox (s : State) (d : Dispatch) : (s.setDisp d).outbox = s.outbox := rfl
@[simp] theorem setDisp_headers (s : State) (d : Dispatch) : (s.setDisp d).headers = s.headers := rfl
@[simp] theorem setDisp_updFlight (s : State) (d : Dispatch) : (s.setDisp d).updFlight = s.updFlight := rfl
@[simp] theorem setDisp_redFlight (s : State) (d : Dispatch) : (s.setDisp d).redFlight = s.redFlight := rfl
@[simp] theorem setDisp_holding (s : State) (d : Dispatch) : (s.setDisp d).holding = s.holding := rfl
@[simp] theorem setDisp_closes (s : State) (d : Dispatch) : (s.setDisp d).closes = s.closes := rfl
@[simp] theorem setDisp_meridian (s : State) (d : Dispatch) : (s.setDisp d).meridian = s.meridian := rfl
@[simp] theorem setDisp_zenith (s : State) (d : Dispatch) : (s.setDisp d).zenith = s.zenith := rfl
@[simp] theorem setDisp_zNext (s : State) (d : Dispatch) : (s.setDisp d).zNext = s.zNext := rfl
@[simp] theorem setDisp_zSent (s : State) (d : Dispatch) : (s.setDisp d).zSent = s.zSent := rfl
@[simp] theorem setDisp_longs (s : State) (d : Dispatch) : (s.setDisp d).longs = s.longs := rfl
@[simp] theorem setDisp_sevFlight (s : State) (d : Dispatch) : (s.setDisp d).sevFlight = s.sevFlight := rfl
@[simp] theorem setDisp_stopped (s : State) (d : Dispatch) : (s.setDisp d).stopped = s.stopped := rfl
@[simp] theorem setDisp_objs (s : State) (d : Dispatch) : (s.setDisp d).objs = s.objs := rfl
@[simp] theorem setDisp_collIn (s : State) (d : Dispatch) : (s.setDisp d).collIn = s.collIn := rfl
@[simp] theorem setDisp_collRun (s : State) (d : Dispatch) : (s.setDisp d).collRun = s.collRun := rfl
@[simp] theorem setDisp_collWait (s : State) (d : Dispatch) : (s.setDisp d).collWait = s.collWait := rfl
@[simp] theorem setDisp_plat (s : State) (d : Dispatch) : (s.setDisp d).plat = s.plat := rfl
@[simp] theorem setDisp_platNext (s : State) (d : Dispatch) : (s.setDisp d).platNext = s.platNext := rfl
@[simp] theorem setDisp_counter (s : State) (d : Dispatch) : (s.setDisp d).counter = s.counter := rfl
@[simp] theorem setDisp_powerCap (s : State) (d : Dispatch) : (s.setDisp d).powerCap = s.powerCap := rfl
@[simp] theorem setDisp_clock (s : State) (d : Dispatch) : (s.setDisp d).clock = s.clock := rfl
@[simp] theorem setDisp_replies (s : State) (d : Dispatch) : (s.setDisp d).replies = s.replies := rfl
@[simp] theorem setDisp_flips (s : State) (d : Dispatch) : (s.setDisp d).flips = s.flips := rfl
@[simp] theorem setDisp_misses (s : State) (d : Dispatch) : (s.setDisp d).misses = s.misses := rfl
@[simp] theorem setDisp_ucNow (s : State) (d : Dispatch) : (s.setDisp d).ucNow = s.ucNow := rfl
@[simp] theorem setDisp_used (s : State) (d : Dispatch) : (s.setDisp d).used = s.used := rfl
@[simp] theorem setDisp_links (s : State) (d : Dispatch) : (s.setDisp d).links = s.links := rfl
@[simp] theorem setDisp_accepted (s : State) (d : Dispatch) : (s.setDisp d).accepted = s.accepted := rfl
@[simp] theorem setDisp_collNo (s : State) (d : Dispatch) : (s.setDisp d).collNo = s.collNo := rfl
@[simp] theorem setDisp_collParts (s : State) (d : Dispatch) : (s.setDisp d).collParts = s.collParts := rfl
@[simp] theorem setDisp_disp (s : State) (d : Dispatch) : (s.setDisp d).disp = d := rfl

/- Cores. -/

@[simp] theorem core_setCore_same (s : State) (g : Nat) (c : Core) : (s.setCore g c).core g = c :=
  tbl_get_set_same _ _ _ _
theorem core_setCore_other (s : State) {g h : Nat} (c : Core) (n : g ≠ h) : (s.setCore g c).core h = s.core h :=
  tbl_get_set_other _ _ n _
theorem core_setCore (s : State) (g h : Nat) (c : Core) : (s.setCore g c).core h = if g = h then c else s.core h :=
  tbl_get_set _ _ _ _ _
@[simp] theorem me_setMe (s : State) (c : Core) : (s.setMe c).me = c := tbl_get_set_same _ _ _ _
@[simp] theorem me_onMe (s : State) (f : Core → Core) : (s.onMe f).me = f s.me := tbl_get_set_same _ _ _ _
theorem core_setMe_other (s : State) {g : Nat} (c : Core) (n : g ≠ s.cur) : (s.setMe c).core g = s.core g :=
  core_setCore_other s c (Ne.symm n)
theorem core_onMe_other (s : State) {g : Nat} (f : Core → Core) (n : g ≠ s.cur) : (s.onMe f).core g = s.core g :=
  core_setMe_other s _ n
@[simp] theorem core_setBank (s : State) (b : BankId) (x : Bank) (g : Nat) : (s.setBank b x).core g = s.core g := rfl
@[simp] theorem core_setDisp (s : State) (d : Dispatch) (g : Nat) : (s.setDisp d).core g = s.core g := rfl
@[simp] theorem me_setBank (s : State) (b : BankId) (x : Bank) : (s.setBank b x).me = s.me := rfl

/- Updates of a core. -/

@[simp] theorem setStream_s (c : Core) (e : Eng) (st : Stream) : (c.setStream e st).s = c.s := rfl
@[simp] theorem setStream_p (c : Core) (e : Eng) (st : Stream) : (c.setStream e st).p = c.p := rfl
@[simp] theorem setStream_spillS (c : Core) (e : Eng) (st : Stream) : (c.setStream e st).spillS = c.spillS := rfl
@[simp] theorem setStream_fpctl (c : Core) (e : Eng) (st : Stream) : (c.setStream e st).fpctl = c.fpctl := rfl
@[simp] theorem setStream_fstk (c : Core) (e : Eng) (st : Stream) : (c.setStream e st).fstk = c.fstk := rfl
@[simp] theorem setStream_dbnd (c : Core) (e : Eng) (st : Stream) : (c.setStream e st).dbnd = c.dbnd := rfl
@[simp] theorem setStream_trapcause (c : Core) (e : Eng) (st : Stream) : (c.setStream e st).trapcause = c.trapcause := rfl
@[simp] theorem setStream_brec (c : Core) (e : Eng) (st : Stream) : (c.setStream e st).brec = c.brec := rfl
@[simp] theorem setStream_boundQ (c : Core) (e : Eng) (st : Stream) : (c.setStream e st).boundQ = c.boundQ := rfl
@[simp] theorem setStream_uivec (c : Core) (e : Eng) (st : Stream) : (c.setStream e st).uivec = c.uivec := rfl
@[simp] theorem setStream_uien (c : Core) (e : Eng) (st : Stream) : (c.setStream e st).uien = c.uien := rfl
@[simp] theorem setStream_uiact (c : Core) (e : Eng) (st : Stream) : (c.setStream e st).uiact = c.uiact := rfl
@[simp] theorem setStream_uiinfo (c : Core) (e : Eng) (st : Stream) : (c.setStream e st).uiinfo = c.uiinfo := rfl
@[simp] theorem setStream_uiepc (c : Core) (e : Eng) (st : Stream) : (c.setStream e st).uiepc = c.uiepc := rfl
@[simp] theorem setStream_uiBound (c : Core) (e : Eng) (st : Stream) : (c.setStream e st).uiBound = c.uiBound := rfl
@[simp] theorem setStream_uiBlk (c : Core) (e : Eng) (st : Stream) : (c.setStream e st).uiBlk = c.uiBlk := rfl
@[simp] theorem setStream_notifyQ (c : Core) (e : Eng) (st : Stream) : (c.setStream e st).notifyQ = c.notifyQ := rfl
@[simp] theorem setStream_bf (c : Core) (e : Eng) (st : Stream) : (c.setStream e st).bf = c.bf := rfl
@[simp] theorem setStream_latch (c : Core) (e : Eng) (st : Stream) : (c.setStream e st).latch = c.latch := rfl
@[simp] theorem setStream_cycBase (c : Core) (e : Eng) (st : Stream) : (c.setStream e st).cycBase = c.cycBase := rfl
@[simp] theorem setStream_dom (c : Core) (e : Eng) (st : Stream) : (c.setStream e st).dom = c.dom := rfl
@[simp] theorem setStream_bobj (c : Core) (e : Eng) (st : Stream) : (c.setStream e st).bobj = c.bobj := rfl
@[simp] theorem setStream_bOwes (c : Core) (e : Eng) (st : Stream) : (c.setStream e st).bOwes = c.bOwes := rfl
@[simp] theorem setStream_arrived (c : Core) (e : Eng) (st : Stream) : (c.setStream e st).arrived = c.arrived := rfl
@[simp] theorem setStream_seen (c : Core) (e : Eng) (st : Stream) : (c.setStream e st).seen = c.seen := rfl
@[simp] theorem setStream_slip (c : Core) (e : Eng) (st : Stream) : (c.setStream e st).slip = c.slip := rfl
@[simp] theorem setStream_tks (c : Core) (e : Eng) (st : Stream) : (c.setStream e st).tks = c.tks := rfl
@[simp] theorem setStream_tokens (c : Core) (e : Eng) (st : Stream) : (c.setStream e st).tokens = c.tokens := rfl
@[simp] theorem setStream_reserved (c : Core) (e : Eng) (st : Stream) : (c.setStream e st).reserved = c.reserved := rfl
@[simp] theorem setStream_queues (c : Core) (e : Eng) (st : Stream) : (c.setStream e st).queues = c.queues := rfl
@[simp] theorem setStream_tags (c : Core) (e : Eng) (st : Stream) : (c.setStream e st).tags = c.tags := rfl
@[simp] theorem setStream_recency (c : Core) (e : Eng) (st : Stream) : (c.setStream e st).recency = c.recency := rfl
@[simp] theorem setStream_ofs (c : Core) (e : Eng) (st : Stream) : (c.setStream e st).ofs = c.ofs := rfl
@[simp] theorem setStream_ty (c : Core) (e : Eng) (st : Stream) : (c.setStream e st).ty = c.ty := rfl
@[simp] theorem setStream_acc (c : Core) (e : Eng) (st : Stream) : (c.setStream e st).acc = c.acc := rfl
@[simp] theorem setStream_mgrp (c : Core) (e : Eng) (st : Stream) : (c.setStream e st).mgrp = c.mgrp := rfl
@[simp] theorem setStream_gsel (c : Core) (e : Eng) (st : Stream) : (c.setStream e st).gsel = c.gsel := rfl
@[simp] theorem setStream_mprof (c : Core) (e : Eng) (st : Stream) : (c.setStream e st).mprof = c.mprof := rfl
@[simp] theorem setStream_ln (c : Core) (e : Eng) (st : Stream) : (c.setStream e st).ln = c.ln := rfl
@[simp] theorem setStream_mx (c : Core) (e : Eng) (st : Stream) : (c.setStream e st).mx = c.mx := rfl
@[simp] theorem setStream_spillM (c : Core) (e : Eng) (st : Stream) : (c.setStream e st).spillM = c.spillM := rfl
@[simp] theorem setStream_spillK (c : Core) (e : Eng) (st : Stream) : (c.setStream e st).spillK = c.spillK := rfl
@[simp] theorem setStream_resumable (c : Core) (e : Eng) (st : Stream) : (c.setStream e st).resumable = c.resumable := rfl
@[simp] theorem setStream_mcmds (c : Core) (e : Eng) (st : Stream) : (c.setStream e st).mcmds = c.mcmds := rfl
@[simp] theorem setStream_kcmds (c : Core) (e : Eng) (st : Stream) : (c.setStream e st).kcmds = c.kcmds := rfl
@[simp] theorem setStream_cmdNo (c : Core) (e : Eng) (st : Stream) : (c.setStream e st).cmdNo = c.cmdNo := rfl
@[simp] theorem setStream_names (c : Core) (e : Eng) (st : Stream) : (c.setStream e st).names = c.names := rfl
@[simp] theorem setStream_kbind (c : Core) (e : Eng) (st : Stream) : (c.setStream e st).kbind = c.kbind := rfl
@[simp] theorem setStream_window (c : Core) (e : Eng) (st : Stream) : (c.setStream e st).window = c.window := rfl
@[simp] theorem setStream_lq (c : Core) (e : Eng) (st : Stream) : (c.setStream e st).lq = c.lq := rfl
@[simp] theorem setStream_stq (c : Core) (e : Eng) (st : Stream) : (c.setStream e st).stq = c.stq := rfl
@[simp] theorem setStream_vmode (c : Core) (e : Eng) (st : Stream) : (c.setStream e st).vmode = c.vmode := rfl
@[simp] theorem setStream_rb (c : Core) (e : Eng) (st : Stream) : (c.setStream e st).rb = c.rb := rfl
@[simp] theorem setStream_v (c : Core) (e : Eng) (st : Stream) : (c.setStream e st).v = c.v := rfl
@[simp] theorem setStream_vp (c : Core) (e : Eng) (st : Stream) : (c.setStream e st).vp = c.vp := rfl
@[simp] theorem setStream_spillV (c : Core) (e : Eng) (st : Stream) : (c.setStream e st).spillV = c.spillV := rfl
@[simp] theorem setStream_vloop (c : Core) (e : Eng) (st : Stream) : (c.setStream e st).vloop = c.vloop := rfl
@[simp] theorem setStream_pend (c : Core) (e : Eng) (st : Stream) : (c.setStream e st).pend = c.pend := rfl
@[simp] theorem setStream_rows (c : Core) (e : Eng) (st : Stream) : (c.setStream e st).rows = c.rows := rfl
@[simp] theorem setStream_groups (c : Core) (e : Eng) (st : Stream) : (c.setStream e st).groups = c.groups := rfl
@[simp] theorem setStream_forks (c : Core) (e : Eng) (st : Stream) : (c.setStream e st).forks = c.forks := rfl
@[simp] theorem setStream_sp (c : Core) (e : Eng) (st : Stream) : (c.setStream e st).sp = c.sp := rfl
@[simp] theorem setStream_spPoison (c : Core) (e : Eng) (st : Stream) : (c.setStream e st).spPoison = c.spPoison := rfl
@[simp] theorem setStream_tlb (c : Core) (e : Eng) (st : Stream) : (c.setStream e st).tlb = c.tlb := rfl
@[simp] theorem setStream_unit (c : Core) (e : Eng) (st : Stream) : (c.setStream e st).unit = c.unit := rfl
@[simp] theorem setStream_stopped (c : Core) (e : Eng) (st : Stream) : (c.setStream e st).stopped = c.stopped := rfl
@[simp] theorem setStream_sysc (c : Core) (e : Eng) (st : Stream) : (c.setStream e st).sysc = c.sysc := rfl
@[simp] theorem setStream_lastTag (c : Core) (e : Eng) (st : Stream) : (c.setStream e st).lastTag = c.lastTag := rfl
@[simp] theorem setStream_lastLaunch (c : Core) (e : Eng) (st : Stream) : (c.setStream e st).lastLaunch = c.lastLaunch := rfl
@[simp] theorem setStream_sOrd (c : Core) (e : Eng) (st : Stream) : (c.setStream e st).sOrd = c.sOrd := rfl
@[simp] theorem setStream_undeclared (c : Core) (e : Eng) (st : Stream) : (c.setStream e st).undeclared = c.undeclared := rfl
@[simp] theorem setStream_subs (c : Core) (e : Eng) (st : Stream) : (c.setStream e st).subs = c.subs := rfl
@[simp] theorem setStream_zeroing (c : Core) (e : Eng) (st : Stream) : (c.setStream e st).zeroing = c.zeroing := rfl
@[simp] theorem setStream_haltReq (c : Core) (e : Eng) (st : Stream) : (c.setStream e st).haltReq = c.haltReq := rfl
@[simp] theorem setStream_halted (c : Core) (e : Eng) (st : Stream) : (c.setStream e st).halted = c.halted := rfl
@[simp] theorem setStream_next (c : Core) (e : Eng) (st : Stream) : (c.setStream e st).next = c.next := rfl
@[simp] theorem setStream_reports (c : Core) (e : Eng) (st : Stream) : (c.setStream e st).reports = c.reports := rfl
@[simp] theorem setStream_stg (c : Core) (e : Eng) (st : Stream) : (c.setStream e st).stg = c.stg := rfl
@[simp] theorem setStream_outQ (c : Core) (e : Eng) (st : Stream) : (c.setStream e st).outQ = c.outQ := rfl
@[simp] theorem setStream_goRaised (c : Core) (e : Eng) (st : Stream) : (c.setStream e st).goRaised = c.goRaised := rfl
@[simp] theorem setStream_hBlk (c : Core) (e : Eng) (st : Stream) : (c.setStream e st).hBlk = c.hBlk := rfl
@[simp] theorem setStream_spillPoison (c : Core) (e : Eng) (st : Stream) : (c.setStream e st).spillPoison = c.spillPoison := rfl
@[simp] theorem setStream_walkFault (c : Core) (e : Eng) (st : Stream) : (c.setStream e st).walkFault = c.walkFault := rfl
@[simp] theorem setStream_haltAt (c : Core) (e : Eng) (st : Stream) : (c.setStream e st).haltAt = c.haltAt := rfl
@[simp] theorem setStream_cyc (c : Core) (e : Eng) (st : Stream) : (c.setStream e st).cyc = c.cyc := rfl

@[simp] theorem setQueue_s (c : Core) (q : Nat) (l : List QEntry) : (c.setQueue q l).s = c.s := rfl
@[simp] theorem setQueue_p (c : Core) (q : Nat) (l : List QEntry) : (c.setQueue q l).p = c.p := rfl
@[simp] theorem setQueue_spillS (c : Core) (q : Nat) (l : List QEntry) : (c.setQueue q l).spillS = c.spillS := rfl
@[simp] theorem setQueue_fpctl (c : Core) (q : Nat) (l : List QEntry) : (c.setQueue q l).fpctl = c.fpctl := rfl
@[simp] theorem setQueue_fstk (c : Core) (q : Nat) (l : List QEntry) : (c.setQueue q l).fstk = c.fstk := rfl
@[simp] theorem setQueue_dbnd (c : Core) (q : Nat) (l : List QEntry) : (c.setQueue q l).dbnd = c.dbnd := rfl
@[simp] theorem setQueue_trapcause (c : Core) (q : Nat) (l : List QEntry) : (c.setQueue q l).trapcause = c.trapcause := rfl
@[simp] theorem setQueue_brec (c : Core) (q : Nat) (l : List QEntry) : (c.setQueue q l).brec = c.brec := rfl
@[simp] theorem setQueue_boundQ (c : Core) (q : Nat) (l : List QEntry) : (c.setQueue q l).boundQ = c.boundQ := rfl
@[simp] theorem setQueue_uivec (c : Core) (q : Nat) (l : List QEntry) : (c.setQueue q l).uivec = c.uivec := rfl
@[simp] theorem setQueue_uien (c : Core) (q : Nat) (l : List QEntry) : (c.setQueue q l).uien = c.uien := rfl
@[simp] theorem setQueue_uiact (c : Core) (q : Nat) (l : List QEntry) : (c.setQueue q l).uiact = c.uiact := rfl
@[simp] theorem setQueue_uiinfo (c : Core) (q : Nat) (l : List QEntry) : (c.setQueue q l).uiinfo = c.uiinfo := rfl
@[simp] theorem setQueue_uiepc (c : Core) (q : Nat) (l : List QEntry) : (c.setQueue q l).uiepc = c.uiepc := rfl
@[simp] theorem setQueue_uiBound (c : Core) (q : Nat) (l : List QEntry) : (c.setQueue q l).uiBound = c.uiBound := rfl
@[simp] theorem setQueue_uiBlk (c : Core) (q : Nat) (l : List QEntry) : (c.setQueue q l).uiBlk = c.uiBlk := rfl
@[simp] theorem setQueue_notifyQ (c : Core) (q : Nat) (l : List QEntry) : (c.setQueue q l).notifyQ = c.notifyQ := rfl
@[simp] theorem setQueue_bf (c : Core) (q : Nat) (l : List QEntry) : (c.setQueue q l).bf = c.bf := rfl
@[simp] theorem setQueue_latch (c : Core) (q : Nat) (l : List QEntry) : (c.setQueue q l).latch = c.latch := rfl
@[simp] theorem setQueue_cycBase (c : Core) (q : Nat) (l : List QEntry) : (c.setQueue q l).cycBase = c.cycBase := rfl
@[simp] theorem setQueue_dom (c : Core) (q : Nat) (l : List QEntry) : (c.setQueue q l).dom = c.dom := rfl
@[simp] theorem setQueue_bobj (c : Core) (q : Nat) (l : List QEntry) : (c.setQueue q l).bobj = c.bobj := rfl
@[simp] theorem setQueue_bOwes (c : Core) (q : Nat) (l : List QEntry) : (c.setQueue q l).bOwes = c.bOwes := rfl
@[simp] theorem setQueue_arrived (c : Core) (q : Nat) (l : List QEntry) : (c.setQueue q l).arrived = c.arrived := rfl
@[simp] theorem setQueue_seen (c : Core) (q : Nat) (l : List QEntry) : (c.setQueue q l).seen = c.seen := rfl
@[simp] theorem setQueue_slip (c : Core) (q : Nat) (l : List QEntry) : (c.setQueue q l).slip = c.slip := rfl
@[simp] theorem setQueue_tks (c : Core) (q : Nat) (l : List QEntry) : (c.setQueue q l).tks = c.tks := rfl
@[simp] theorem setQueue_tokens (c : Core) (q : Nat) (l : List QEntry) : (c.setQueue q l).tokens = c.tokens := rfl
@[simp] theorem setQueue_reserved (c : Core) (q : Nat) (l : List QEntry) : (c.setQueue q l).reserved = c.reserved := rfl
@[simp] theorem setQueue_tags (c : Core) (q : Nat) (l : List QEntry) : (c.setQueue q l).tags = c.tags := rfl
@[simp] theorem setQueue_recency (c : Core) (q : Nat) (l : List QEntry) : (c.setQueue q l).recency = c.recency := rfl
@[simp] theorem setQueue_ofs (c : Core) (q : Nat) (l : List QEntry) : (c.setQueue q l).ofs = c.ofs := rfl
@[simp] theorem setQueue_ty (c : Core) (q : Nat) (l : List QEntry) : (c.setQueue q l).ty = c.ty := rfl
@[simp] theorem setQueue_acc (c : Core) (q : Nat) (l : List QEntry) : (c.setQueue q l).acc = c.acc := rfl
@[simp] theorem setQueue_mgrp (c : Core) (q : Nat) (l : List QEntry) : (c.setQueue q l).mgrp = c.mgrp := rfl
@[simp] theorem setQueue_gsel (c : Core) (q : Nat) (l : List QEntry) : (c.setQueue q l).gsel = c.gsel := rfl
@[simp] theorem setQueue_mprof (c : Core) (q : Nat) (l : List QEntry) : (c.setQueue q l).mprof = c.mprof := rfl
@[simp] theorem setQueue_ln (c : Core) (q : Nat) (l : List QEntry) : (c.setQueue q l).ln = c.ln := rfl
@[simp] theorem setQueue_mx (c : Core) (q : Nat) (l : List QEntry) : (c.setQueue q l).mx = c.mx := rfl
@[simp] theorem setQueue_spillM (c : Core) (q : Nat) (l : List QEntry) : (c.setQueue q l).spillM = c.spillM := rfl
@[simp] theorem setQueue_spillK (c : Core) (q : Nat) (l : List QEntry) : (c.setQueue q l).spillK = c.spillK := rfl
@[simp] theorem setQueue_resumable (c : Core) (q : Nat) (l : List QEntry) : (c.setQueue q l).resumable = c.resumable := rfl
@[simp] theorem setQueue_mcmds (c : Core) (q : Nat) (l : List QEntry) : (c.setQueue q l).mcmds = c.mcmds := rfl
@[simp] theorem setQueue_kcmds (c : Core) (q : Nat) (l : List QEntry) : (c.setQueue q l).kcmds = c.kcmds := rfl
@[simp] theorem setQueue_cmdNo (c : Core) (q : Nat) (l : List QEntry) : (c.setQueue q l).cmdNo = c.cmdNo := rfl
@[simp] theorem setQueue_names (c : Core) (q : Nat) (l : List QEntry) : (c.setQueue q l).names = c.names := rfl
@[simp] theorem setQueue_kbind (c : Core) (q : Nat) (l : List QEntry) : (c.setQueue q l).kbind = c.kbind := rfl
@[simp] theorem setQueue_window (c : Core) (q : Nat) (l : List QEntry) : (c.setQueue q l).window = c.window := rfl
@[simp] theorem setQueue_streams (c : Core) (q : Nat) (l : List QEntry) : (c.setQueue q l).streams = c.streams := rfl
@[simp] theorem setQueue_lq (c : Core) (q : Nat) (l : List QEntry) : (c.setQueue q l).lq = c.lq := rfl
@[simp] theorem setQueue_stq (c : Core) (q : Nat) (l : List QEntry) : (c.setQueue q l).stq = c.stq := rfl
@[simp] theorem setQueue_vmode (c : Core) (q : Nat) (l : List QEntry) : (c.setQueue q l).vmode = c.vmode := rfl
@[simp] theorem setQueue_rb (c : Core) (q : Nat) (l : List QEntry) : (c.setQueue q l).rb = c.rb := rfl
@[simp] theorem setQueue_v (c : Core) (q : Nat) (l : List QEntry) : (c.setQueue q l).v = c.v := rfl
@[simp] theorem setQueue_vp (c : Core) (q : Nat) (l : List QEntry) : (c.setQueue q l).vp = c.vp := rfl
@[simp] theorem setQueue_spillV (c : Core) (q : Nat) (l : List QEntry) : (c.setQueue q l).spillV = c.spillV := rfl
@[simp] theorem setQueue_vloop (c : Core) (q : Nat) (l : List QEntry) : (c.setQueue q l).vloop = c.vloop := rfl
@[simp] theorem setQueue_pend (c : Core) (q : Nat) (l : List QEntry) : (c.setQueue q l).pend = c.pend := rfl
@[simp] theorem setQueue_rows (c : Core) (q : Nat) (l : List QEntry) : (c.setQueue q l).rows = c.rows := rfl
@[simp] theorem setQueue_groups (c : Core) (q : Nat) (l : List QEntry) : (c.setQueue q l).groups = c.groups := rfl
@[simp] theorem setQueue_forks (c : Core) (q : Nat) (l : List QEntry) : (c.setQueue q l).forks = c.forks := rfl
@[simp] theorem setQueue_sp (c : Core) (q : Nat) (l : List QEntry) : (c.setQueue q l).sp = c.sp := rfl
@[simp] theorem setQueue_spPoison (c : Core) (q : Nat) (l : List QEntry) : (c.setQueue q l).spPoison = c.spPoison := rfl
@[simp] theorem setQueue_tlb (c : Core) (q : Nat) (l : List QEntry) : (c.setQueue q l).tlb = c.tlb := rfl
@[simp] theorem setQueue_unit (c : Core) (q : Nat) (l : List QEntry) : (c.setQueue q l).unit = c.unit := rfl
@[simp] theorem setQueue_stopped (c : Core) (q : Nat) (l : List QEntry) : (c.setQueue q l).stopped = c.stopped := rfl
@[simp] theorem setQueue_sysc (c : Core) (q : Nat) (l : List QEntry) : (c.setQueue q l).sysc = c.sysc := rfl
@[simp] theorem setQueue_lastTag (c : Core) (q : Nat) (l : List QEntry) : (c.setQueue q l).lastTag = c.lastTag := rfl
@[simp] theorem setQueue_lastLaunch (c : Core) (q : Nat) (l : List QEntry) : (c.setQueue q l).lastLaunch = c.lastLaunch := rfl
@[simp] theorem setQueue_sOrd (c : Core) (q : Nat) (l : List QEntry) : (c.setQueue q l).sOrd = c.sOrd := rfl
@[simp] theorem setQueue_undeclared (c : Core) (q : Nat) (l : List QEntry) : (c.setQueue q l).undeclared = c.undeclared := rfl
@[simp] theorem setQueue_subs (c : Core) (q : Nat) (l : List QEntry) : (c.setQueue q l).subs = c.subs := rfl
@[simp] theorem setQueue_zeroing (c : Core) (q : Nat) (l : List QEntry) : (c.setQueue q l).zeroing = c.zeroing := rfl
@[simp] theorem setQueue_haltReq (c : Core) (q : Nat) (l : List QEntry) : (c.setQueue q l).haltReq = c.haltReq := rfl
@[simp] theorem setQueue_halted (c : Core) (q : Nat) (l : List QEntry) : (c.setQueue q l).halted = c.halted := rfl
@[simp] theorem setQueue_next (c : Core) (q : Nat) (l : List QEntry) : (c.setQueue q l).next = c.next := rfl
@[simp] theorem setQueue_reports (c : Core) (q : Nat) (l : List QEntry) : (c.setQueue q l).reports = c.reports := rfl
@[simp] theorem setQueue_stg (c : Core) (q : Nat) (l : List QEntry) : (c.setQueue q l).stg = c.stg := rfl
@[simp] theorem setQueue_outQ (c : Core) (q : Nat) (l : List QEntry) : (c.setQueue q l).outQ = c.outQ := rfl
@[simp] theorem setQueue_goRaised (c : Core) (q : Nat) (l : List QEntry) : (c.setQueue q l).goRaised = c.goRaised := rfl
@[simp] theorem setQueue_hBlk (c : Core) (q : Nat) (l : List QEntry) : (c.setQueue q l).hBlk = c.hBlk := rfl
@[simp] theorem setQueue_spillPoison (c : Core) (q : Nat) (l : List QEntry) : (c.setQueue q l).spillPoison = c.spillPoison := rfl
@[simp] theorem setQueue_walkFault (c : Core) (q : Nat) (l : List QEntry) : (c.setQueue q l).walkFault = c.walkFault := rfl
@[simp] theorem setQueue_haltAt (c : Core) (q : Nat) (l : List QEntry) : (c.setQueue q l).haltAt = c.haltAt := rfl
@[simp] theorem setQueue_cyc (c : Core) (q : Nat) (l : List QEntry) : (c.setQueue q l).cyc = c.cyc := rfl

@[simp] theorem setLoads_s (c : Core) (e : Eng) (l : List Access) : (c.setLoads e l).s = c.s := rfl
@[simp] theorem setLoads_p (c : Core) (e : Eng) (l : List Access) : (c.setLoads e l).p = c.p := rfl
@[simp] theorem setLoads_spillS (c : Core) (e : Eng) (l : List Access) : (c.setLoads e l).spillS = c.spillS := rfl
@[simp] theorem setLoads_fpctl (c : Core) (e : Eng) (l : List Access) : (c.setLoads e l).fpctl = c.fpctl := rfl
@[simp] theorem setLoads_fstk (c : Core) (e : Eng) (l : List Access) : (c.setLoads e l).fstk = c.fstk := rfl
@[simp] theorem setLoads_dbnd (c : Core) (e : Eng) (l : List Access) : (c.setLoads e l).dbnd = c.dbnd := rfl
@[simp] theorem setLoads_trapcause (c : Core) (e : Eng) (l : List Access) : (c.setLoads e l).trapcause = c.trapcause := rfl
@[simp] theorem setLoads_brec (c : Core) (e : Eng) (l : List Access) : (c.setLoads e l).brec = c.brec := rfl
@[simp] theorem setLoads_boundQ (c : Core) (e : Eng) (l : List Access) : (c.setLoads e l).boundQ = c.boundQ := rfl
@[simp] theorem setLoads_uivec (c : Core) (e : Eng) (l : List Access) : (c.setLoads e l).uivec = c.uivec := rfl
@[simp] theorem setLoads_uien (c : Core) (e : Eng) (l : List Access) : (c.setLoads e l).uien = c.uien := rfl
@[simp] theorem setLoads_uiact (c : Core) (e : Eng) (l : List Access) : (c.setLoads e l).uiact = c.uiact := rfl
@[simp] theorem setLoads_uiinfo (c : Core) (e : Eng) (l : List Access) : (c.setLoads e l).uiinfo = c.uiinfo := rfl
@[simp] theorem setLoads_uiepc (c : Core) (e : Eng) (l : List Access) : (c.setLoads e l).uiepc = c.uiepc := rfl
@[simp] theorem setLoads_uiBound (c : Core) (e : Eng) (l : List Access) : (c.setLoads e l).uiBound = c.uiBound := rfl
@[simp] theorem setLoads_uiBlk (c : Core) (e : Eng) (l : List Access) : (c.setLoads e l).uiBlk = c.uiBlk := rfl
@[simp] theorem setLoads_notifyQ (c : Core) (e : Eng) (l : List Access) : (c.setLoads e l).notifyQ = c.notifyQ := rfl
@[simp] theorem setLoads_bf (c : Core) (e : Eng) (l : List Access) : (c.setLoads e l).bf = c.bf := rfl
@[simp] theorem setLoads_latch (c : Core) (e : Eng) (l : List Access) : (c.setLoads e l).latch = c.latch := rfl
@[simp] theorem setLoads_cycBase (c : Core) (e : Eng) (l : List Access) : (c.setLoads e l).cycBase = c.cycBase := rfl
@[simp] theorem setLoads_dom (c : Core) (e : Eng) (l : List Access) : (c.setLoads e l).dom = c.dom := rfl
@[simp] theorem setLoads_bobj (c : Core) (e : Eng) (l : List Access) : (c.setLoads e l).bobj = c.bobj := rfl
@[simp] theorem setLoads_bOwes (c : Core) (e : Eng) (l : List Access) : (c.setLoads e l).bOwes = c.bOwes := rfl
@[simp] theorem setLoads_arrived (c : Core) (e : Eng) (l : List Access) : (c.setLoads e l).arrived = c.arrived := rfl
@[simp] theorem setLoads_seen (c : Core) (e : Eng) (l : List Access) : (c.setLoads e l).seen = c.seen := rfl
@[simp] theorem setLoads_slip (c : Core) (e : Eng) (l : List Access) : (c.setLoads e l).slip = c.slip := rfl
@[simp] theorem setLoads_tks (c : Core) (e : Eng) (l : List Access) : (c.setLoads e l).tks = c.tks := rfl
@[simp] theorem setLoads_tokens (c : Core) (e : Eng) (l : List Access) : (c.setLoads e l).tokens = c.tokens := rfl
@[simp] theorem setLoads_reserved (c : Core) (e : Eng) (l : List Access) : (c.setLoads e l).reserved = c.reserved := rfl
@[simp] theorem setLoads_queues (c : Core) (e : Eng) (l : List Access) : (c.setLoads e l).queues = c.queues := rfl
@[simp] theorem setLoads_tags (c : Core) (e : Eng) (l : List Access) : (c.setLoads e l).tags = c.tags := rfl
@[simp] theorem setLoads_recency (c : Core) (e : Eng) (l : List Access) : (c.setLoads e l).recency = c.recency := rfl
@[simp] theorem setLoads_ofs (c : Core) (e : Eng) (l : List Access) : (c.setLoads e l).ofs = c.ofs := rfl
@[simp] theorem setLoads_ty (c : Core) (e : Eng) (l : List Access) : (c.setLoads e l).ty = c.ty := rfl
@[simp] theorem setLoads_acc (c : Core) (e : Eng) (l : List Access) : (c.setLoads e l).acc = c.acc := rfl
@[simp] theorem setLoads_mgrp (c : Core) (e : Eng) (l : List Access) : (c.setLoads e l).mgrp = c.mgrp := rfl
@[simp] theorem setLoads_gsel (c : Core) (e : Eng) (l : List Access) : (c.setLoads e l).gsel = c.gsel := rfl
@[simp] theorem setLoads_mprof (c : Core) (e : Eng) (l : List Access) : (c.setLoads e l).mprof = c.mprof := rfl
@[simp] theorem setLoads_ln (c : Core) (e : Eng) (l : List Access) : (c.setLoads e l).ln = c.ln := rfl
@[simp] theorem setLoads_mx (c : Core) (e : Eng) (l : List Access) : (c.setLoads e l).mx = c.mx := rfl
@[simp] theorem setLoads_spillM (c : Core) (e : Eng) (l : List Access) : (c.setLoads e l).spillM = c.spillM := rfl
@[simp] theorem setLoads_spillK (c : Core) (e : Eng) (l : List Access) : (c.setLoads e l).spillK = c.spillK := rfl
@[simp] theorem setLoads_resumable (c : Core) (e : Eng) (l : List Access) : (c.setLoads e l).resumable = c.resumable := rfl
@[simp] theorem setLoads_mcmds (c : Core) (e : Eng) (l : List Access) : (c.setLoads e l).mcmds = c.mcmds := rfl
@[simp] theorem setLoads_kcmds (c : Core) (e : Eng) (l : List Access) : (c.setLoads e l).kcmds = c.kcmds := rfl
@[simp] theorem setLoads_cmdNo (c : Core) (e : Eng) (l : List Access) : (c.setLoads e l).cmdNo = c.cmdNo := rfl
@[simp] theorem setLoads_names (c : Core) (e : Eng) (l : List Access) : (c.setLoads e l).names = c.names := rfl
@[simp] theorem setLoads_kbind (c : Core) (e : Eng) (l : List Access) : (c.setLoads e l).kbind = c.kbind := rfl
@[simp] theorem setLoads_window (c : Core) (e : Eng) (l : List Access) : (c.setLoads e l).window = c.window := rfl
@[simp] theorem setLoads_streams (c : Core) (e : Eng) (l : List Access) : (c.setLoads e l).streams = c.streams := rfl
@[simp] theorem setLoads_stq (c : Core) (e : Eng) (l : List Access) : (c.setLoads e l).stq = c.stq := rfl
@[simp] theorem setLoads_vmode (c : Core) (e : Eng) (l : List Access) : (c.setLoads e l).vmode = c.vmode := rfl
@[simp] theorem setLoads_rb (c : Core) (e : Eng) (l : List Access) : (c.setLoads e l).rb = c.rb := rfl
@[simp] theorem setLoads_v (c : Core) (e : Eng) (l : List Access) : (c.setLoads e l).v = c.v := rfl
@[simp] theorem setLoads_vp (c : Core) (e : Eng) (l : List Access) : (c.setLoads e l).vp = c.vp := rfl
@[simp] theorem setLoads_spillV (c : Core) (e : Eng) (l : List Access) : (c.setLoads e l).spillV = c.spillV := rfl
@[simp] theorem setLoads_vloop (c : Core) (e : Eng) (l : List Access) : (c.setLoads e l).vloop = c.vloop := rfl
@[simp] theorem setLoads_pend (c : Core) (e : Eng) (l : List Access) : (c.setLoads e l).pend = c.pend := rfl
@[simp] theorem setLoads_rows (c : Core) (e : Eng) (l : List Access) : (c.setLoads e l).rows = c.rows := rfl
@[simp] theorem setLoads_groups (c : Core) (e : Eng) (l : List Access) : (c.setLoads e l).groups = c.groups := rfl
@[simp] theorem setLoads_forks (c : Core) (e : Eng) (l : List Access) : (c.setLoads e l).forks = c.forks := rfl
@[simp] theorem setLoads_sp (c : Core) (e : Eng) (l : List Access) : (c.setLoads e l).sp = c.sp := rfl
@[simp] theorem setLoads_spPoison (c : Core) (e : Eng) (l : List Access) : (c.setLoads e l).spPoison = c.spPoison := rfl
@[simp] theorem setLoads_tlb (c : Core) (e : Eng) (l : List Access) : (c.setLoads e l).tlb = c.tlb := rfl
@[simp] theorem setLoads_unit (c : Core) (e : Eng) (l : List Access) : (c.setLoads e l).unit = c.unit := rfl
@[simp] theorem setLoads_stopped (c : Core) (e : Eng) (l : List Access) : (c.setLoads e l).stopped = c.stopped := rfl
@[simp] theorem setLoads_sysc (c : Core) (e : Eng) (l : List Access) : (c.setLoads e l).sysc = c.sysc := rfl
@[simp] theorem setLoads_lastTag (c : Core) (e : Eng) (l : List Access) : (c.setLoads e l).lastTag = c.lastTag := rfl
@[simp] theorem setLoads_lastLaunch (c : Core) (e : Eng) (l : List Access) : (c.setLoads e l).lastLaunch = c.lastLaunch := rfl
@[simp] theorem setLoads_sOrd (c : Core) (e : Eng) (l : List Access) : (c.setLoads e l).sOrd = c.sOrd := rfl
@[simp] theorem setLoads_undeclared (c : Core) (e : Eng) (l : List Access) : (c.setLoads e l).undeclared = c.undeclared := rfl
@[simp] theorem setLoads_subs (c : Core) (e : Eng) (l : List Access) : (c.setLoads e l).subs = c.subs := rfl
@[simp] theorem setLoads_zeroing (c : Core) (e : Eng) (l : List Access) : (c.setLoads e l).zeroing = c.zeroing := rfl
@[simp] theorem setLoads_haltReq (c : Core) (e : Eng) (l : List Access) : (c.setLoads e l).haltReq = c.haltReq := rfl
@[simp] theorem setLoads_halted (c : Core) (e : Eng) (l : List Access) : (c.setLoads e l).halted = c.halted := rfl
@[simp] theorem setLoads_next (c : Core) (e : Eng) (l : List Access) : (c.setLoads e l).next = c.next := rfl
@[simp] theorem setLoads_reports (c : Core) (e : Eng) (l : List Access) : (c.setLoads e l).reports = c.reports := rfl
@[simp] theorem setLoads_stg (c : Core) (e : Eng) (l : List Access) : (c.setLoads e l).stg = c.stg := rfl
@[simp] theorem setLoads_outQ (c : Core) (e : Eng) (l : List Access) : (c.setLoads e l).outQ = c.outQ := rfl
@[simp] theorem setLoads_goRaised (c : Core) (e : Eng) (l : List Access) : (c.setLoads e l).goRaised = c.goRaised := rfl
@[simp] theorem setLoads_hBlk (c : Core) (e : Eng) (l : List Access) : (c.setLoads e l).hBlk = c.hBlk := rfl
@[simp] theorem setLoads_spillPoison (c : Core) (e : Eng) (l : List Access) : (c.setLoads e l).spillPoison = c.spillPoison := rfl
@[simp] theorem setLoads_walkFault (c : Core) (e : Eng) (l : List Access) : (c.setLoads e l).walkFault = c.walkFault := rfl
@[simp] theorem setLoads_haltAt (c : Core) (e : Eng) (l : List Access) : (c.setLoads e l).haltAt = c.haltAt := rfl
@[simp] theorem setLoads_cyc (c : Core) (e : Eng) (l : List Access) : (c.setLoads e l).cyc = c.cyc := rfl

@[simp] theorem setStores_s (c : Core) (e : Eng) (l : List Access) : (c.setStores e l).s = c.s := rfl
@[simp] theorem setStores_p (c : Core) (e : Eng) (l : List Access) : (c.setStores e l).p = c.p := rfl
@[simp] theorem setStores_spillS (c : Core) (e : Eng) (l : List Access) : (c.setStores e l).spillS = c.spillS := rfl
@[simp] theorem setStores_fpctl (c : Core) (e : Eng) (l : List Access) : (c.setStores e l).fpctl = c.fpctl := rfl
@[simp] theorem setStores_fstk (c : Core) (e : Eng) (l : List Access) : (c.setStores e l).fstk = c.fstk := rfl
@[simp] theorem setStores_dbnd (c : Core) (e : Eng) (l : List Access) : (c.setStores e l).dbnd = c.dbnd := rfl
@[simp] theorem setStores_trapcause (c : Core) (e : Eng) (l : List Access) : (c.setStores e l).trapcause = c.trapcause := rfl
@[simp] theorem setStores_brec (c : Core) (e : Eng) (l : List Access) : (c.setStores e l).brec = c.brec := rfl
@[simp] theorem setStores_boundQ (c : Core) (e : Eng) (l : List Access) : (c.setStores e l).boundQ = c.boundQ := rfl
@[simp] theorem setStores_uivec (c : Core) (e : Eng) (l : List Access) : (c.setStores e l).uivec = c.uivec := rfl
@[simp] theorem setStores_uien (c : Core) (e : Eng) (l : List Access) : (c.setStores e l).uien = c.uien := rfl
@[simp] theorem setStores_uiact (c : Core) (e : Eng) (l : List Access) : (c.setStores e l).uiact = c.uiact := rfl
@[simp] theorem setStores_uiinfo (c : Core) (e : Eng) (l : List Access) : (c.setStores e l).uiinfo = c.uiinfo := rfl
@[simp] theorem setStores_uiepc (c : Core) (e : Eng) (l : List Access) : (c.setStores e l).uiepc = c.uiepc := rfl
@[simp] theorem setStores_uiBound (c : Core) (e : Eng) (l : List Access) : (c.setStores e l).uiBound = c.uiBound := rfl
@[simp] theorem setStores_uiBlk (c : Core) (e : Eng) (l : List Access) : (c.setStores e l).uiBlk = c.uiBlk := rfl
@[simp] theorem setStores_notifyQ (c : Core) (e : Eng) (l : List Access) : (c.setStores e l).notifyQ = c.notifyQ := rfl
@[simp] theorem setStores_bf (c : Core) (e : Eng) (l : List Access) : (c.setStores e l).bf = c.bf := rfl
@[simp] theorem setStores_latch (c : Core) (e : Eng) (l : List Access) : (c.setStores e l).latch = c.latch := rfl
@[simp] theorem setStores_cycBase (c : Core) (e : Eng) (l : List Access) : (c.setStores e l).cycBase = c.cycBase := rfl
@[simp] theorem setStores_dom (c : Core) (e : Eng) (l : List Access) : (c.setStores e l).dom = c.dom := rfl
@[simp] theorem setStores_bobj (c : Core) (e : Eng) (l : List Access) : (c.setStores e l).bobj = c.bobj := rfl
@[simp] theorem setStores_bOwes (c : Core) (e : Eng) (l : List Access) : (c.setStores e l).bOwes = c.bOwes := rfl
@[simp] theorem setStores_arrived (c : Core) (e : Eng) (l : List Access) : (c.setStores e l).arrived = c.arrived := rfl
@[simp] theorem setStores_seen (c : Core) (e : Eng) (l : List Access) : (c.setStores e l).seen = c.seen := rfl
@[simp] theorem setStores_slip (c : Core) (e : Eng) (l : List Access) : (c.setStores e l).slip = c.slip := rfl
@[simp] theorem setStores_tks (c : Core) (e : Eng) (l : List Access) : (c.setStores e l).tks = c.tks := rfl
@[simp] theorem setStores_tokens (c : Core) (e : Eng) (l : List Access) : (c.setStores e l).tokens = c.tokens := rfl
@[simp] theorem setStores_reserved (c : Core) (e : Eng) (l : List Access) : (c.setStores e l).reserved = c.reserved := rfl
@[simp] theorem setStores_queues (c : Core) (e : Eng) (l : List Access) : (c.setStores e l).queues = c.queues := rfl
@[simp] theorem setStores_tags (c : Core) (e : Eng) (l : List Access) : (c.setStores e l).tags = c.tags := rfl
@[simp] theorem setStores_recency (c : Core) (e : Eng) (l : List Access) : (c.setStores e l).recency = c.recency := rfl
@[simp] theorem setStores_ofs (c : Core) (e : Eng) (l : List Access) : (c.setStores e l).ofs = c.ofs := rfl
@[simp] theorem setStores_ty (c : Core) (e : Eng) (l : List Access) : (c.setStores e l).ty = c.ty := rfl
@[simp] theorem setStores_acc (c : Core) (e : Eng) (l : List Access) : (c.setStores e l).acc = c.acc := rfl
@[simp] theorem setStores_mgrp (c : Core) (e : Eng) (l : List Access) : (c.setStores e l).mgrp = c.mgrp := rfl
@[simp] theorem setStores_gsel (c : Core) (e : Eng) (l : List Access) : (c.setStores e l).gsel = c.gsel := rfl
@[simp] theorem setStores_mprof (c : Core) (e : Eng) (l : List Access) : (c.setStores e l).mprof = c.mprof := rfl
@[simp] theorem setStores_ln (c : Core) (e : Eng) (l : List Access) : (c.setStores e l).ln = c.ln := rfl
@[simp] theorem setStores_mx (c : Core) (e : Eng) (l : List Access) : (c.setStores e l).mx = c.mx := rfl
@[simp] theorem setStores_spillM (c : Core) (e : Eng) (l : List Access) : (c.setStores e l).spillM = c.spillM := rfl
@[simp] theorem setStores_spillK (c : Core) (e : Eng) (l : List Access) : (c.setStores e l).spillK = c.spillK := rfl
@[simp] theorem setStores_resumable (c : Core) (e : Eng) (l : List Access) : (c.setStores e l).resumable = c.resumable := rfl
@[simp] theorem setStores_mcmds (c : Core) (e : Eng) (l : List Access) : (c.setStores e l).mcmds = c.mcmds := rfl
@[simp] theorem setStores_kcmds (c : Core) (e : Eng) (l : List Access) : (c.setStores e l).kcmds = c.kcmds := rfl
@[simp] theorem setStores_cmdNo (c : Core) (e : Eng) (l : List Access) : (c.setStores e l).cmdNo = c.cmdNo := rfl
@[simp] theorem setStores_names (c : Core) (e : Eng) (l : List Access) : (c.setStores e l).names = c.names := rfl
@[simp] theorem setStores_kbind (c : Core) (e : Eng) (l : List Access) : (c.setStores e l).kbind = c.kbind := rfl
@[simp] theorem setStores_window (c : Core) (e : Eng) (l : List Access) : (c.setStores e l).window = c.window := rfl
@[simp] theorem setStores_streams (c : Core) (e : Eng) (l : List Access) : (c.setStores e l).streams = c.streams := rfl
@[simp] theorem setStores_lq (c : Core) (e : Eng) (l : List Access) : (c.setStores e l).lq = c.lq := rfl
@[simp] theorem setStores_vmode (c : Core) (e : Eng) (l : List Access) : (c.setStores e l).vmode = c.vmode := rfl
@[simp] theorem setStores_rb (c : Core) (e : Eng) (l : List Access) : (c.setStores e l).rb = c.rb := rfl
@[simp] theorem setStores_v (c : Core) (e : Eng) (l : List Access) : (c.setStores e l).v = c.v := rfl
@[simp] theorem setStores_vp (c : Core) (e : Eng) (l : List Access) : (c.setStores e l).vp = c.vp := rfl
@[simp] theorem setStores_spillV (c : Core) (e : Eng) (l : List Access) : (c.setStores e l).spillV = c.spillV := rfl
@[simp] theorem setStores_vloop (c : Core) (e : Eng) (l : List Access) : (c.setStores e l).vloop = c.vloop := rfl
@[simp] theorem setStores_pend (c : Core) (e : Eng) (l : List Access) : (c.setStores e l).pend = c.pend := rfl
@[simp] theorem setStores_rows (c : Core) (e : Eng) (l : List Access) : (c.setStores e l).rows = c.rows := rfl
@[simp] theorem setStores_groups (c : Core) (e : Eng) (l : List Access) : (c.setStores e l).groups = c.groups := rfl
@[simp] theorem setStores_forks (c : Core) (e : Eng) (l : List Access) : (c.setStores e l).forks = c.forks := rfl
@[simp] theorem setStores_sp (c : Core) (e : Eng) (l : List Access) : (c.setStores e l).sp = c.sp := rfl
@[simp] theorem setStores_spPoison (c : Core) (e : Eng) (l : List Access) : (c.setStores e l).spPoison = c.spPoison := rfl
@[simp] theorem setStores_tlb (c : Core) (e : Eng) (l : List Access) : (c.setStores e l).tlb = c.tlb := rfl
@[simp] theorem setStores_unit (c : Core) (e : Eng) (l : List Access) : (c.setStores e l).unit = c.unit := rfl
@[simp] theorem setStores_stopped (c : Core) (e : Eng) (l : List Access) : (c.setStores e l).stopped = c.stopped := rfl
@[simp] theorem setStores_sysc (c : Core) (e : Eng) (l : List Access) : (c.setStores e l).sysc = c.sysc := rfl
@[simp] theorem setStores_lastTag (c : Core) (e : Eng) (l : List Access) : (c.setStores e l).lastTag = c.lastTag := rfl
@[simp] theorem setStores_lastLaunch (c : Core) (e : Eng) (l : List Access) : (c.setStores e l).lastLaunch = c.lastLaunch := rfl
@[simp] theorem setStores_sOrd (c : Core) (e : Eng) (l : List Access) : (c.setStores e l).sOrd = c.sOrd := rfl
@[simp] theorem setStores_undeclared (c : Core) (e : Eng) (l : List Access) : (c.setStores e l).undeclared = c.undeclared := rfl
@[simp] theorem setStores_subs (c : Core) (e : Eng) (l : List Access) : (c.setStores e l).subs = c.subs := rfl
@[simp] theorem setStores_zeroing (c : Core) (e : Eng) (l : List Access) : (c.setStores e l).zeroing = c.zeroing := rfl
@[simp] theorem setStores_haltReq (c : Core) (e : Eng) (l : List Access) : (c.setStores e l).haltReq = c.haltReq := rfl
@[simp] theorem setStores_halted (c : Core) (e : Eng) (l : List Access) : (c.setStores e l).halted = c.halted := rfl
@[simp] theorem setStores_next (c : Core) (e : Eng) (l : List Access) : (c.setStores e l).next = c.next := rfl
@[simp] theorem setStores_reports (c : Core) (e : Eng) (l : List Access) : (c.setStores e l).reports = c.reports := rfl
@[simp] theorem setStores_stg (c : Core) (e : Eng) (l : List Access) : (c.setStores e l).stg = c.stg := rfl
@[simp] theorem setStores_outQ (c : Core) (e : Eng) (l : List Access) : (c.setStores e l).outQ = c.outQ := rfl
@[simp] theorem setStores_goRaised (c : Core) (e : Eng) (l : List Access) : (c.setStores e l).goRaised = c.goRaised := rfl
@[simp] theorem setStores_hBlk (c : Core) (e : Eng) (l : List Access) : (c.setStores e l).hBlk = c.hBlk := rfl
@[simp] theorem setStores_spillPoison (c : Core) (e : Eng) (l : List Access) : (c.setStores e l).spillPoison = c.spillPoison := rfl
@[simp] theorem setStores_walkFault (c : Core) (e : Eng) (l : List Access) : (c.setStores e l).walkFault = c.walkFault := rfl
@[simp] theorem setStores_haltAt (c : Core) (e : Eng) (l : List Access) : (c.setStores e l).haltAt = c.haltAt := rfl
@[simp] theorem setStores_cyc (c : Core) (e : Eng) (l : List Access) : (c.setStores e l).cyc = c.cyc := rfl

@[simp] theorem setSeen_s (c : Core) (e : Eng) (b : Nat) (v : BitVec 24) : (c.setSeen e b v).s = c.s := rfl
@[simp] theorem setSeen_p (c : Core) (e : Eng) (b : Nat) (v : BitVec 24) : (c.setSeen e b v).p = c.p := rfl
@[simp] theorem setSeen_spillS (c : Core) (e : Eng) (b : Nat) (v : BitVec 24) : (c.setSeen e b v).spillS = c.spillS := rfl
@[simp] theorem setSeen_fpctl (c : Core) (e : Eng) (b : Nat) (v : BitVec 24) : (c.setSeen e b v).fpctl = c.fpctl := rfl
@[simp] theorem setSeen_fstk (c : Core) (e : Eng) (b : Nat) (v : BitVec 24) : (c.setSeen e b v).fstk = c.fstk := rfl
@[simp] theorem setSeen_dbnd (c : Core) (e : Eng) (b : Nat) (v : BitVec 24) : (c.setSeen e b v).dbnd = c.dbnd := rfl
@[simp] theorem setSeen_trapcause (c : Core) (e : Eng) (b : Nat) (v : BitVec 24) : (c.setSeen e b v).trapcause = c.trapcause := rfl
@[simp] theorem setSeen_brec (c : Core) (e : Eng) (b : Nat) (v : BitVec 24) : (c.setSeen e b v).brec = c.brec := rfl
@[simp] theorem setSeen_boundQ (c : Core) (e : Eng) (b : Nat) (v : BitVec 24) : (c.setSeen e b v).boundQ = c.boundQ := rfl
@[simp] theorem setSeen_uivec (c : Core) (e : Eng) (b : Nat) (v : BitVec 24) : (c.setSeen e b v).uivec = c.uivec := rfl
@[simp] theorem setSeen_uien (c : Core) (e : Eng) (b : Nat) (v : BitVec 24) : (c.setSeen e b v).uien = c.uien := rfl
@[simp] theorem setSeen_uiact (c : Core) (e : Eng) (b : Nat) (v : BitVec 24) : (c.setSeen e b v).uiact = c.uiact := rfl
@[simp] theorem setSeen_uiinfo (c : Core) (e : Eng) (b : Nat) (v : BitVec 24) : (c.setSeen e b v).uiinfo = c.uiinfo := rfl
@[simp] theorem setSeen_uiepc (c : Core) (e : Eng) (b : Nat) (v : BitVec 24) : (c.setSeen e b v).uiepc = c.uiepc := rfl
@[simp] theorem setSeen_uiBound (c : Core) (e : Eng) (b : Nat) (v : BitVec 24) : (c.setSeen e b v).uiBound = c.uiBound := rfl
@[simp] theorem setSeen_uiBlk (c : Core) (e : Eng) (b : Nat) (v : BitVec 24) : (c.setSeen e b v).uiBlk = c.uiBlk := rfl
@[simp] theorem setSeen_notifyQ (c : Core) (e : Eng) (b : Nat) (v : BitVec 24) : (c.setSeen e b v).notifyQ = c.notifyQ := rfl
@[simp] theorem setSeen_bf (c : Core) (e : Eng) (b : Nat) (v : BitVec 24) : (c.setSeen e b v).bf = c.bf := rfl
@[simp] theorem setSeen_latch (c : Core) (e : Eng) (b : Nat) (v : BitVec 24) : (c.setSeen e b v).latch = c.latch := rfl
@[simp] theorem setSeen_cycBase (c : Core) (e : Eng) (b : Nat) (v : BitVec 24) : (c.setSeen e b v).cycBase = c.cycBase := rfl
@[simp] theorem setSeen_dom (c : Core) (e : Eng) (b : Nat) (v : BitVec 24) : (c.setSeen e b v).dom = c.dom := rfl
@[simp] theorem setSeen_bobj (c : Core) (e : Eng) (b : Nat) (v : BitVec 24) : (c.setSeen e b v).bobj = c.bobj := rfl
@[simp] theorem setSeen_bOwes (c : Core) (e : Eng) (b : Nat) (v : BitVec 24) : (c.setSeen e b v).bOwes = c.bOwes := rfl
@[simp] theorem setSeen_arrived (c : Core) (e : Eng) (b : Nat) (v : BitVec 24) : (c.setSeen e b v).arrived = c.arrived := rfl
@[simp] theorem setSeen_slip (c : Core) (e : Eng) (b : Nat) (v : BitVec 24) : (c.setSeen e b v).slip = c.slip := rfl
@[simp] theorem setSeen_tks (c : Core) (e : Eng) (b : Nat) (v : BitVec 24) : (c.setSeen e b v).tks = c.tks := rfl
@[simp] theorem setSeen_tokens (c : Core) (e : Eng) (b : Nat) (v : BitVec 24) : (c.setSeen e b v).tokens = c.tokens := rfl
@[simp] theorem setSeen_reserved (c : Core) (e : Eng) (b : Nat) (v : BitVec 24) : (c.setSeen e b v).reserved = c.reserved := rfl
@[simp] theorem setSeen_queues (c : Core) (e : Eng) (b : Nat) (v : BitVec 24) : (c.setSeen e b v).queues = c.queues := rfl
@[simp] theorem setSeen_tags (c : Core) (e : Eng) (b : Nat) (v : BitVec 24) : (c.setSeen e b v).tags = c.tags := rfl
@[simp] theorem setSeen_recency (c : Core) (e : Eng) (b : Nat) (v : BitVec 24) : (c.setSeen e b v).recency = c.recency := rfl
@[simp] theorem setSeen_ofs (c : Core) (e : Eng) (b : Nat) (v : BitVec 24) : (c.setSeen e b v).ofs = c.ofs := rfl
@[simp] theorem setSeen_ty (c : Core) (e : Eng) (b : Nat) (v : BitVec 24) : (c.setSeen e b v).ty = c.ty := rfl
@[simp] theorem setSeen_acc (c : Core) (e : Eng) (b : Nat) (v : BitVec 24) : (c.setSeen e b v).acc = c.acc := rfl
@[simp] theorem setSeen_mgrp (c : Core) (e : Eng) (b : Nat) (v : BitVec 24) : (c.setSeen e b v).mgrp = c.mgrp := rfl
@[simp] theorem setSeen_gsel (c : Core) (e : Eng) (b : Nat) (v : BitVec 24) : (c.setSeen e b v).gsel = c.gsel := rfl
@[simp] theorem setSeen_mprof (c : Core) (e : Eng) (b : Nat) (v : BitVec 24) : (c.setSeen e b v).mprof = c.mprof := rfl
@[simp] theorem setSeen_ln (c : Core) (e : Eng) (b : Nat) (v : BitVec 24) : (c.setSeen e b v).ln = c.ln := rfl
@[simp] theorem setSeen_mx (c : Core) (e : Eng) (b : Nat) (v : BitVec 24) : (c.setSeen e b v).mx = c.mx := rfl
@[simp] theorem setSeen_spillM (c : Core) (e : Eng) (b : Nat) (v : BitVec 24) : (c.setSeen e b v).spillM = c.spillM := rfl
@[simp] theorem setSeen_spillK (c : Core) (e : Eng) (b : Nat) (v : BitVec 24) : (c.setSeen e b v).spillK = c.spillK := rfl
@[simp] theorem setSeen_resumable (c : Core) (e : Eng) (b : Nat) (v : BitVec 24) : (c.setSeen e b v).resumable = c.resumable := rfl
@[simp] theorem setSeen_mcmds (c : Core) (e : Eng) (b : Nat) (v : BitVec 24) : (c.setSeen e b v).mcmds = c.mcmds := rfl
@[simp] theorem setSeen_kcmds (c : Core) (e : Eng) (b : Nat) (v : BitVec 24) : (c.setSeen e b v).kcmds = c.kcmds := rfl
@[simp] theorem setSeen_cmdNo (c : Core) (e : Eng) (b : Nat) (v : BitVec 24) : (c.setSeen e b v).cmdNo = c.cmdNo := rfl
@[simp] theorem setSeen_names (c : Core) (e : Eng) (b : Nat) (v : BitVec 24) : (c.setSeen e b v).names = c.names := rfl
@[simp] theorem setSeen_kbind (c : Core) (e : Eng) (b : Nat) (v : BitVec 24) : (c.setSeen e b v).kbind = c.kbind := rfl
@[simp] theorem setSeen_window (c : Core) (e : Eng) (b : Nat) (v : BitVec 24) : (c.setSeen e b v).window = c.window := rfl
@[simp] theorem setSeen_streams (c : Core) (e : Eng) (b : Nat) (v : BitVec 24) : (c.setSeen e b v).streams = c.streams := rfl
@[simp] theorem setSeen_lq (c : Core) (e : Eng) (b : Nat) (v : BitVec 24) : (c.setSeen e b v).lq = c.lq := rfl
@[simp] theorem setSeen_stq (c : Core) (e : Eng) (b : Nat) (v : BitVec 24) : (c.setSeen e b v).stq = c.stq := rfl
@[simp] theorem setSeen_vmode (c : Core) (e : Eng) (b : Nat) (v : BitVec 24) : (c.setSeen e b v).vmode = c.vmode := rfl
@[simp] theorem setSeen_rb (c : Core) (e : Eng) (b : Nat) (v : BitVec 24) : (c.setSeen e b v).rb = c.rb := rfl
@[simp] theorem setSeen_v (c : Core) (e : Eng) (b : Nat) (v : BitVec 24) : (c.setSeen e b v).v = c.v := rfl
@[simp] theorem setSeen_vp (c : Core) (e : Eng) (b : Nat) (v : BitVec 24) : (c.setSeen e b v).vp = c.vp := rfl
@[simp] theorem setSeen_spillV (c : Core) (e : Eng) (b : Nat) (v : BitVec 24) : (c.setSeen e b v).spillV = c.spillV := rfl
@[simp] theorem setSeen_vloop (c : Core) (e : Eng) (b : Nat) (v : BitVec 24) : (c.setSeen e b v).vloop = c.vloop := rfl
@[simp] theorem setSeen_pend (c : Core) (e : Eng) (b : Nat) (v : BitVec 24) : (c.setSeen e b v).pend = c.pend := rfl
@[simp] theorem setSeen_rows (c : Core) (e : Eng) (b : Nat) (v : BitVec 24) : (c.setSeen e b v).rows = c.rows := rfl
@[simp] theorem setSeen_groups (c : Core) (e : Eng) (b : Nat) (v : BitVec 24) : (c.setSeen e b v).groups = c.groups := rfl
@[simp] theorem setSeen_forks (c : Core) (e : Eng) (b : Nat) (v : BitVec 24) : (c.setSeen e b v).forks = c.forks := rfl
@[simp] theorem setSeen_sp (c : Core) (e : Eng) (b : Nat) (v : BitVec 24) : (c.setSeen e b v).sp = c.sp := rfl
@[simp] theorem setSeen_spPoison (c : Core) (e : Eng) (b : Nat) (v : BitVec 24) : (c.setSeen e b v).spPoison = c.spPoison := rfl
@[simp] theorem setSeen_tlb (c : Core) (e : Eng) (b : Nat) (v : BitVec 24) : (c.setSeen e b v).tlb = c.tlb := rfl
@[simp] theorem setSeen_unit (c : Core) (e : Eng) (b : Nat) (v : BitVec 24) : (c.setSeen e b v).unit = c.unit := rfl
@[simp] theorem setSeen_stopped (c : Core) (e : Eng) (b : Nat) (v : BitVec 24) : (c.setSeen e b v).stopped = c.stopped := rfl
@[simp] theorem setSeen_sysc (c : Core) (e : Eng) (b : Nat) (v : BitVec 24) : (c.setSeen e b v).sysc = c.sysc := rfl
@[simp] theorem setSeen_lastTag (c : Core) (e : Eng) (b : Nat) (v : BitVec 24) : (c.setSeen e b v).lastTag = c.lastTag := rfl
@[simp] theorem setSeen_lastLaunch (c : Core) (e : Eng) (b : Nat) (v : BitVec 24) : (c.setSeen e b v).lastLaunch = c.lastLaunch := rfl
@[simp] theorem setSeen_sOrd (c : Core) (e : Eng) (b : Nat) (v : BitVec 24) : (c.setSeen e b v).sOrd = c.sOrd := rfl
@[simp] theorem setSeen_undeclared (c : Core) (e : Eng) (b : Nat) (v : BitVec 24) : (c.setSeen e b v).undeclared = c.undeclared := rfl
@[simp] theorem setSeen_subs (c : Core) (e : Eng) (b : Nat) (v : BitVec 24) : (c.setSeen e b v).subs = c.subs := rfl
@[simp] theorem setSeen_zeroing (c : Core) (e : Eng) (b : Nat) (v : BitVec 24) : (c.setSeen e b v).zeroing = c.zeroing := rfl
@[simp] theorem setSeen_haltReq (c : Core) (e : Eng) (b : Nat) (v : BitVec 24) : (c.setSeen e b v).haltReq = c.haltReq := rfl
@[simp] theorem setSeen_halted (c : Core) (e : Eng) (b : Nat) (v : BitVec 24) : (c.setSeen e b v).halted = c.halted := rfl
@[simp] theorem setSeen_next (c : Core) (e : Eng) (b : Nat) (v : BitVec 24) : (c.setSeen e b v).next = c.next := rfl
@[simp] theorem setSeen_reports (c : Core) (e : Eng) (b : Nat) (v : BitVec 24) : (c.setSeen e b v).reports = c.reports := rfl
@[simp] theorem setSeen_stg (c : Core) (e : Eng) (b : Nat) (v : BitVec 24) : (c.setSeen e b v).stg = c.stg := rfl
@[simp] theorem setSeen_outQ (c : Core) (e : Eng) (b : Nat) (v : BitVec 24) : (c.setSeen e b v).outQ = c.outQ := rfl
@[simp] theorem setSeen_goRaised (c : Core) (e : Eng) (b : Nat) (v : BitVec 24) : (c.setSeen e b v).goRaised = c.goRaised := rfl
@[simp] theorem setSeen_hBlk (c : Core) (e : Eng) (b : Nat) (v : BitVec 24) : (c.setSeen e b v).hBlk = c.hBlk := rfl
@[simp] theorem setSeen_spillPoison (c : Core) (e : Eng) (b : Nat) (v : BitVec 24) : (c.setSeen e b v).spillPoison = c.spillPoison := rfl
@[simp] theorem setSeen_walkFault (c : Core) (e : Eng) (b : Nat) (v : BitVec 24) : (c.setSeen e b v).walkFault = c.walkFault := rfl
@[simp] theorem setSeen_haltAt (c : Core) (e : Eng) (b : Nat) (v : BitVec 24) : (c.setSeen e b v).haltAt = c.haltAt := rfl
@[simp] theorem setSeen_cyc (c : Core) (e : Eng) (b : Nat) (v : BitVec 24) : (c.setSeen e b v).cyc = c.cyc := rfl

@[simp] theorem setOf_s (c : Core) (i : Nat) (o : OfSlot) : (c.setOf i o).s = c.s := rfl
@[simp] theorem setOf_p (c : Core) (i : Nat) (o : OfSlot) : (c.setOf i o).p = c.p := rfl
@[simp] theorem setOf_spillS (c : Core) (i : Nat) (o : OfSlot) : (c.setOf i o).spillS = c.spillS := rfl
@[simp] theorem setOf_fpctl (c : Core) (i : Nat) (o : OfSlot) : (c.setOf i o).fpctl = c.fpctl := rfl
@[simp] theorem setOf_fstk (c : Core) (i : Nat) (o : OfSlot) : (c.setOf i o).fstk = c.fstk := rfl
@[simp] theorem setOf_dbnd (c : Core) (i : Nat) (o : OfSlot) : (c.setOf i o).dbnd = c.dbnd := rfl
@[simp] theorem setOf_trapcause (c : Core) (i : Nat) (o : OfSlot) : (c.setOf i o).trapcause = c.trapcause := rfl
@[simp] theorem setOf_brec (c : Core) (i : Nat) (o : OfSlot) : (c.setOf i o).brec = c.brec := rfl
@[simp] theorem setOf_boundQ (c : Core) (i : Nat) (o : OfSlot) : (c.setOf i o).boundQ = c.boundQ := rfl
@[simp] theorem setOf_uivec (c : Core) (i : Nat) (o : OfSlot) : (c.setOf i o).uivec = c.uivec := rfl
@[simp] theorem setOf_uien (c : Core) (i : Nat) (o : OfSlot) : (c.setOf i o).uien = c.uien := rfl
@[simp] theorem setOf_uiact (c : Core) (i : Nat) (o : OfSlot) : (c.setOf i o).uiact = c.uiact := rfl
@[simp] theorem setOf_uiinfo (c : Core) (i : Nat) (o : OfSlot) : (c.setOf i o).uiinfo = c.uiinfo := rfl
@[simp] theorem setOf_uiepc (c : Core) (i : Nat) (o : OfSlot) : (c.setOf i o).uiepc = c.uiepc := rfl
@[simp] theorem setOf_uiBound (c : Core) (i : Nat) (o : OfSlot) : (c.setOf i o).uiBound = c.uiBound := rfl
@[simp] theorem setOf_uiBlk (c : Core) (i : Nat) (o : OfSlot) : (c.setOf i o).uiBlk = c.uiBlk := rfl
@[simp] theorem setOf_notifyQ (c : Core) (i : Nat) (o : OfSlot) : (c.setOf i o).notifyQ = c.notifyQ := rfl
@[simp] theorem setOf_bf (c : Core) (i : Nat) (o : OfSlot) : (c.setOf i o).bf = c.bf := rfl
@[simp] theorem setOf_latch (c : Core) (i : Nat) (o : OfSlot) : (c.setOf i o).latch = c.latch := rfl
@[simp] theorem setOf_cycBase (c : Core) (i : Nat) (o : OfSlot) : (c.setOf i o).cycBase = c.cycBase := rfl
@[simp] theorem setOf_dom (c : Core) (i : Nat) (o : OfSlot) : (c.setOf i o).dom = c.dom := rfl
@[simp] theorem setOf_bobj (c : Core) (i : Nat) (o : OfSlot) : (c.setOf i o).bobj = c.bobj := rfl
@[simp] theorem setOf_bOwes (c : Core) (i : Nat) (o : OfSlot) : (c.setOf i o).bOwes = c.bOwes := rfl
@[simp] theorem setOf_arrived (c : Core) (i : Nat) (o : OfSlot) : (c.setOf i o).arrived = c.arrived := rfl
@[simp] theorem setOf_seen (c : Core) (i : Nat) (o : OfSlot) : (c.setOf i o).seen = c.seen := rfl
@[simp] theorem setOf_slip (c : Core) (i : Nat) (o : OfSlot) : (c.setOf i o).slip = c.slip := rfl
@[simp] theorem setOf_tks (c : Core) (i : Nat) (o : OfSlot) : (c.setOf i o).tks = c.tks := rfl
@[simp] theorem setOf_tokens (c : Core) (i : Nat) (o : OfSlot) : (c.setOf i o).tokens = c.tokens := rfl
@[simp] theorem setOf_reserved (c : Core) (i : Nat) (o : OfSlot) : (c.setOf i o).reserved = c.reserved := rfl
@[simp] theorem setOf_queues (c : Core) (i : Nat) (o : OfSlot) : (c.setOf i o).queues = c.queues := rfl
@[simp] theorem setOf_tags (c : Core) (i : Nat) (o : OfSlot) : (c.setOf i o).tags = c.tags := rfl
@[simp] theorem setOf_recency (c : Core) (i : Nat) (o : OfSlot) : (c.setOf i o).recency = c.recency := rfl
@[simp] theorem setOf_ty (c : Core) (i : Nat) (o : OfSlot) : (c.setOf i o).ty = c.ty := rfl
@[simp] theorem setOf_acc (c : Core) (i : Nat) (o : OfSlot) : (c.setOf i o).acc = c.acc := rfl
@[simp] theorem setOf_mgrp (c : Core) (i : Nat) (o : OfSlot) : (c.setOf i o).mgrp = c.mgrp := rfl
@[simp] theorem setOf_gsel (c : Core) (i : Nat) (o : OfSlot) : (c.setOf i o).gsel = c.gsel := rfl
@[simp] theorem setOf_mprof (c : Core) (i : Nat) (o : OfSlot) : (c.setOf i o).mprof = c.mprof := rfl
@[simp] theorem setOf_ln (c : Core) (i : Nat) (o : OfSlot) : (c.setOf i o).ln = c.ln := rfl
@[simp] theorem setOf_mx (c : Core) (i : Nat) (o : OfSlot) : (c.setOf i o).mx = c.mx := rfl
@[simp] theorem setOf_spillM (c : Core) (i : Nat) (o : OfSlot) : (c.setOf i o).spillM = c.spillM := rfl
@[simp] theorem setOf_spillK (c : Core) (i : Nat) (o : OfSlot) : (c.setOf i o).spillK = c.spillK := rfl
@[simp] theorem setOf_resumable (c : Core) (i : Nat) (o : OfSlot) : (c.setOf i o).resumable = c.resumable := rfl
@[simp] theorem setOf_mcmds (c : Core) (i : Nat) (o : OfSlot) : (c.setOf i o).mcmds = c.mcmds := rfl
@[simp] theorem setOf_kcmds (c : Core) (i : Nat) (o : OfSlot) : (c.setOf i o).kcmds = c.kcmds := rfl
@[simp] theorem setOf_cmdNo (c : Core) (i : Nat) (o : OfSlot) : (c.setOf i o).cmdNo = c.cmdNo := rfl
@[simp] theorem setOf_names (c : Core) (i : Nat) (o : OfSlot) : (c.setOf i o).names = c.names := rfl
@[simp] theorem setOf_kbind (c : Core) (i : Nat) (o : OfSlot) : (c.setOf i o).kbind = c.kbind := rfl
@[simp] theorem setOf_window (c : Core) (i : Nat) (o : OfSlot) : (c.setOf i o).window = c.window := rfl
@[simp] theorem setOf_streams (c : Core) (i : Nat) (o : OfSlot) : (c.setOf i o).streams = c.streams := rfl
@[simp] theorem setOf_lq (c : Core) (i : Nat) (o : OfSlot) : (c.setOf i o).lq = c.lq := rfl
@[simp] theorem setOf_stq (c : Core) (i : Nat) (o : OfSlot) : (c.setOf i o).stq = c.stq := rfl
@[simp] theorem setOf_vmode (c : Core) (i : Nat) (o : OfSlot) : (c.setOf i o).vmode = c.vmode := rfl
@[simp] theorem setOf_rb (c : Core) (i : Nat) (o : OfSlot) : (c.setOf i o).rb = c.rb := rfl
@[simp] theorem setOf_v (c : Core) (i : Nat) (o : OfSlot) : (c.setOf i o).v = c.v := rfl
@[simp] theorem setOf_vp (c : Core) (i : Nat) (o : OfSlot) : (c.setOf i o).vp = c.vp := rfl
@[simp] theorem setOf_spillV (c : Core) (i : Nat) (o : OfSlot) : (c.setOf i o).spillV = c.spillV := rfl
@[simp] theorem setOf_vloop (c : Core) (i : Nat) (o : OfSlot) : (c.setOf i o).vloop = c.vloop := rfl
@[simp] theorem setOf_pend (c : Core) (i : Nat) (o : OfSlot) : (c.setOf i o).pend = c.pend := rfl
@[simp] theorem setOf_rows (c : Core) (i : Nat) (o : OfSlot) : (c.setOf i o).rows = c.rows := rfl
@[simp] theorem setOf_groups (c : Core) (i : Nat) (o : OfSlot) : (c.setOf i o).groups = c.groups := rfl
@[simp] theorem setOf_forks (c : Core) (i : Nat) (o : OfSlot) : (c.setOf i o).forks = c.forks := rfl
@[simp] theorem setOf_sp (c : Core) (i : Nat) (o : OfSlot) : (c.setOf i o).sp = c.sp := rfl
@[simp] theorem setOf_spPoison (c : Core) (i : Nat) (o : OfSlot) : (c.setOf i o).spPoison = c.spPoison := rfl
@[simp] theorem setOf_tlb (c : Core) (i : Nat) (o : OfSlot) : (c.setOf i o).tlb = c.tlb := rfl
@[simp] theorem setOf_unit (c : Core) (i : Nat) (o : OfSlot) : (c.setOf i o).unit = c.unit := rfl
@[simp] theorem setOf_stopped (c : Core) (i : Nat) (o : OfSlot) : (c.setOf i o).stopped = c.stopped := rfl
@[simp] theorem setOf_sysc (c : Core) (i : Nat) (o : OfSlot) : (c.setOf i o).sysc = c.sysc := rfl
@[simp] theorem setOf_lastTag (c : Core) (i : Nat) (o : OfSlot) : (c.setOf i o).lastTag = c.lastTag := rfl
@[simp] theorem setOf_lastLaunch (c : Core) (i : Nat) (o : OfSlot) : (c.setOf i o).lastLaunch = c.lastLaunch := rfl
@[simp] theorem setOf_sOrd (c : Core) (i : Nat) (o : OfSlot) : (c.setOf i o).sOrd = c.sOrd := rfl
@[simp] theorem setOf_undeclared (c : Core) (i : Nat) (o : OfSlot) : (c.setOf i o).undeclared = c.undeclared := rfl
@[simp] theorem setOf_subs (c : Core) (i : Nat) (o : OfSlot) : (c.setOf i o).subs = c.subs := rfl
@[simp] theorem setOf_zeroing (c : Core) (i : Nat) (o : OfSlot) : (c.setOf i o).zeroing = c.zeroing := rfl
@[simp] theorem setOf_haltReq (c : Core) (i : Nat) (o : OfSlot) : (c.setOf i o).haltReq = c.haltReq := rfl
@[simp] theorem setOf_halted (c : Core) (i : Nat) (o : OfSlot) : (c.setOf i o).halted = c.halted := rfl
@[simp] theorem setOf_next (c : Core) (i : Nat) (o : OfSlot) : (c.setOf i o).next = c.next := rfl
@[simp] theorem setOf_reports (c : Core) (i : Nat) (o : OfSlot) : (c.setOf i o).reports = c.reports := rfl
@[simp] theorem setOf_stg (c : Core) (i : Nat) (o : OfSlot) : (c.setOf i o).stg = c.stg := rfl
@[simp] theorem setOf_outQ (c : Core) (i : Nat) (o : OfSlot) : (c.setOf i o).outQ = c.outQ := rfl
@[simp] theorem setOf_goRaised (c : Core) (i : Nat) (o : OfSlot) : (c.setOf i o).goRaised = c.goRaised := rfl
@[simp] theorem setOf_hBlk (c : Core) (i : Nat) (o : OfSlot) : (c.setOf i o).hBlk = c.hBlk := rfl
@[simp] theorem setOf_spillPoison (c : Core) (i : Nat) (o : OfSlot) : (c.setOf i o).spillPoison = c.spillPoison := rfl
@[simp] theorem setOf_walkFault (c : Core) (i : Nat) (o : OfSlot) : (c.setOf i o).walkFault = c.walkFault := rfl
@[simp] theorem setOf_haltAt (c : Core) (i : Nat) (o : OfSlot) : (c.setOf i o).haltAt = c.haltAt := rfl
@[simp] theorem setOf_cyc (c : Core) (i : Nat) (o : OfSlot) : (c.setOf i o).cyc = c.cyc := rfl

@[simp] theorem setTag_s (c : Core) (set way : Nat) (v : Word) : (c.setTag set way v).s = c.s := rfl
@[simp] theorem setTag_p (c : Core) (set way : Nat) (v : Word) : (c.setTag set way v).p = c.p := rfl
@[simp] theorem setTag_spillS (c : Core) (set way : Nat) (v : Word) : (c.setTag set way v).spillS = c.spillS := rfl
@[simp] theorem setTag_fpctl (c : Core) (set way : Nat) (v : Word) : (c.setTag set way v).fpctl = c.fpctl := rfl
@[simp] theorem setTag_fstk (c : Core) (set way : Nat) (v : Word) : (c.setTag set way v).fstk = c.fstk := rfl
@[simp] theorem setTag_dbnd (c : Core) (set way : Nat) (v : Word) : (c.setTag set way v).dbnd = c.dbnd := rfl
@[simp] theorem setTag_trapcause (c : Core) (set way : Nat) (v : Word) : (c.setTag set way v).trapcause = c.trapcause := rfl
@[simp] theorem setTag_brec (c : Core) (set way : Nat) (v : Word) : (c.setTag set way v).brec = c.brec := rfl
@[simp] theorem setTag_boundQ (c : Core) (set way : Nat) (v : Word) : (c.setTag set way v).boundQ = c.boundQ := rfl
@[simp] theorem setTag_uivec (c : Core) (set way : Nat) (v : Word) : (c.setTag set way v).uivec = c.uivec := rfl
@[simp] theorem setTag_uien (c : Core) (set way : Nat) (v : Word) : (c.setTag set way v).uien = c.uien := rfl
@[simp] theorem setTag_uiact (c : Core) (set way : Nat) (v : Word) : (c.setTag set way v).uiact = c.uiact := rfl
@[simp] theorem setTag_uiinfo (c : Core) (set way : Nat) (v : Word) : (c.setTag set way v).uiinfo = c.uiinfo := rfl
@[simp] theorem setTag_uiepc (c : Core) (set way : Nat) (v : Word) : (c.setTag set way v).uiepc = c.uiepc := rfl
@[simp] theorem setTag_uiBound (c : Core) (set way : Nat) (v : Word) : (c.setTag set way v).uiBound = c.uiBound := rfl
@[simp] theorem setTag_uiBlk (c : Core) (set way : Nat) (v : Word) : (c.setTag set way v).uiBlk = c.uiBlk := rfl
@[simp] theorem setTag_notifyQ (c : Core) (set way : Nat) (v : Word) : (c.setTag set way v).notifyQ = c.notifyQ := rfl
@[simp] theorem setTag_bf (c : Core) (set way : Nat) (v : Word) : (c.setTag set way v).bf = c.bf := rfl
@[simp] theorem setTag_latch (c : Core) (set way : Nat) (v : Word) : (c.setTag set way v).latch = c.latch := rfl
@[simp] theorem setTag_cycBase (c : Core) (set way : Nat) (v : Word) : (c.setTag set way v).cycBase = c.cycBase := rfl
@[simp] theorem setTag_dom (c : Core) (set way : Nat) (v : Word) : (c.setTag set way v).dom = c.dom := rfl
@[simp] theorem setTag_bobj (c : Core) (set way : Nat) (v : Word) : (c.setTag set way v).bobj = c.bobj := rfl
@[simp] theorem setTag_bOwes (c : Core) (set way : Nat) (v : Word) : (c.setTag set way v).bOwes = c.bOwes := rfl
@[simp] theorem setTag_arrived (c : Core) (set way : Nat) (v : Word) : (c.setTag set way v).arrived = c.arrived := rfl
@[simp] theorem setTag_seen (c : Core) (set way : Nat) (v : Word) : (c.setTag set way v).seen = c.seen := rfl
@[simp] theorem setTag_slip (c : Core) (set way : Nat) (v : Word) : (c.setTag set way v).slip = c.slip := rfl
@[simp] theorem setTag_tks (c : Core) (set way : Nat) (v : Word) : (c.setTag set way v).tks = c.tks := rfl
@[simp] theorem setTag_tokens (c : Core) (set way : Nat) (v : Word) : (c.setTag set way v).tokens = c.tokens := rfl
@[simp] theorem setTag_reserved (c : Core) (set way : Nat) (v : Word) : (c.setTag set way v).reserved = c.reserved := rfl
@[simp] theorem setTag_queues (c : Core) (set way : Nat) (v : Word) : (c.setTag set way v).queues = c.queues := rfl
@[simp] theorem setTag_recency (c : Core) (set way : Nat) (v : Word) : (c.setTag set way v).recency = c.recency := rfl
@[simp] theorem setTag_ofs (c : Core) (set way : Nat) (v : Word) : (c.setTag set way v).ofs = c.ofs := rfl
@[simp] theorem setTag_ty (c : Core) (set way : Nat) (v : Word) : (c.setTag set way v).ty = c.ty := rfl
@[simp] theorem setTag_acc (c : Core) (set way : Nat) (v : Word) : (c.setTag set way v).acc = c.acc := rfl
@[simp] theorem setTag_mgrp (c : Core) (set way : Nat) (v : Word) : (c.setTag set way v).mgrp = c.mgrp := rfl
@[simp] theorem setTag_gsel (c : Core) (set way : Nat) (v : Word) : (c.setTag set way v).gsel = c.gsel := rfl
@[simp] theorem setTag_mprof (c : Core) (set way : Nat) (v : Word) : (c.setTag set way v).mprof = c.mprof := rfl
@[simp] theorem setTag_ln (c : Core) (set way : Nat) (v : Word) : (c.setTag set way v).ln = c.ln := rfl
@[simp] theorem setTag_mx (c : Core) (set way : Nat) (v : Word) : (c.setTag set way v).mx = c.mx := rfl
@[simp] theorem setTag_spillM (c : Core) (set way : Nat) (v : Word) : (c.setTag set way v).spillM = c.spillM := rfl
@[simp] theorem setTag_spillK (c : Core) (set way : Nat) (v : Word) : (c.setTag set way v).spillK = c.spillK := rfl
@[simp] theorem setTag_resumable (c : Core) (set way : Nat) (v : Word) : (c.setTag set way v).resumable = c.resumable := rfl
@[simp] theorem setTag_mcmds (c : Core) (set way : Nat) (v : Word) : (c.setTag set way v).mcmds = c.mcmds := rfl
@[simp] theorem setTag_kcmds (c : Core) (set way : Nat) (v : Word) : (c.setTag set way v).kcmds = c.kcmds := rfl
@[simp] theorem setTag_cmdNo (c : Core) (set way : Nat) (v : Word) : (c.setTag set way v).cmdNo = c.cmdNo := rfl
@[simp] theorem setTag_names (c : Core) (set way : Nat) (v : Word) : (c.setTag set way v).names = c.names := rfl
@[simp] theorem setTag_kbind (c : Core) (set way : Nat) (v : Word) : (c.setTag set way v).kbind = c.kbind := rfl
@[simp] theorem setTag_window (c : Core) (set way : Nat) (v : Word) : (c.setTag set way v).window = c.window := rfl
@[simp] theorem setTag_streams (c : Core) (set way : Nat) (v : Word) : (c.setTag set way v).streams = c.streams := rfl
@[simp] theorem setTag_lq (c : Core) (set way : Nat) (v : Word) : (c.setTag set way v).lq = c.lq := rfl
@[simp] theorem setTag_stq (c : Core) (set way : Nat) (v : Word) : (c.setTag set way v).stq = c.stq := rfl
@[simp] theorem setTag_vmode (c : Core) (set way : Nat) (v : Word) : (c.setTag set way v).vmode = c.vmode := rfl
@[simp] theorem setTag_rb (c : Core) (set way : Nat) (v : Word) : (c.setTag set way v).rb = c.rb := rfl
@[simp] theorem setTag_v (c : Core) (set way : Nat) (v : Word) : (c.setTag set way v).v = c.v := rfl
@[simp] theorem setTag_vp (c : Core) (set way : Nat) (v : Word) : (c.setTag set way v).vp = c.vp := rfl
@[simp] theorem setTag_spillV (c : Core) (set way : Nat) (v : Word) : (c.setTag set way v).spillV = c.spillV := rfl
@[simp] theorem setTag_vloop (c : Core) (set way : Nat) (v : Word) : (c.setTag set way v).vloop = c.vloop := rfl
@[simp] theorem setTag_pend (c : Core) (set way : Nat) (v : Word) : (c.setTag set way v).pend = c.pend := rfl
@[simp] theorem setTag_rows (c : Core) (set way : Nat) (v : Word) : (c.setTag set way v).rows = c.rows := rfl
@[simp] theorem setTag_groups (c : Core) (set way : Nat) (v : Word) : (c.setTag set way v).groups = c.groups := rfl
@[simp] theorem setTag_forks (c : Core) (set way : Nat) (v : Word) : (c.setTag set way v).forks = c.forks := rfl
@[simp] theorem setTag_sp (c : Core) (set way : Nat) (v : Word) : (c.setTag set way v).sp = c.sp := rfl
@[simp] theorem setTag_spPoison (c : Core) (set way : Nat) (v : Word) : (c.setTag set way v).spPoison = c.spPoison := rfl
@[simp] theorem setTag_tlb (c : Core) (set way : Nat) (v : Word) : (c.setTag set way v).tlb = c.tlb := rfl
@[simp] theorem setTag_unit (c : Core) (set way : Nat) (v : Word) : (c.setTag set way v).unit = c.unit := rfl
@[simp] theorem setTag_stopped (c : Core) (set way : Nat) (v : Word) : (c.setTag set way v).stopped = c.stopped := rfl
@[simp] theorem setTag_sysc (c : Core) (set way : Nat) (v : Word) : (c.setTag set way v).sysc = c.sysc := rfl
@[simp] theorem setTag_lastTag (c : Core) (set way : Nat) (v : Word) : (c.setTag set way v).lastTag = c.lastTag := rfl
@[simp] theorem setTag_lastLaunch (c : Core) (set way : Nat) (v : Word) : (c.setTag set way v).lastLaunch = c.lastLaunch := rfl
@[simp] theorem setTag_sOrd (c : Core) (set way : Nat) (v : Word) : (c.setTag set way v).sOrd = c.sOrd := rfl
@[simp] theorem setTag_undeclared (c : Core) (set way : Nat) (v : Word) : (c.setTag set way v).undeclared = c.undeclared := rfl
@[simp] theorem setTag_subs (c : Core) (set way : Nat) (v : Word) : (c.setTag set way v).subs = c.subs := rfl
@[simp] theorem setTag_zeroing (c : Core) (set way : Nat) (v : Word) : (c.setTag set way v).zeroing = c.zeroing := rfl
@[simp] theorem setTag_haltReq (c : Core) (set way : Nat) (v : Word) : (c.setTag set way v).haltReq = c.haltReq := rfl
@[simp] theorem setTag_halted (c : Core) (set way : Nat) (v : Word) : (c.setTag set way v).halted = c.halted := rfl
@[simp] theorem setTag_next (c : Core) (set way : Nat) (v : Word) : (c.setTag set way v).next = c.next := rfl
@[simp] theorem setTag_reports (c : Core) (set way : Nat) (v : Word) : (c.setTag set way v).reports = c.reports := rfl
@[simp] theorem setTag_stg (c : Core) (set way : Nat) (v : Word) : (c.setTag set way v).stg = c.stg := rfl
@[simp] theorem setTag_outQ (c : Core) (set way : Nat) (v : Word) : (c.setTag set way v).outQ = c.outQ := rfl
@[simp] theorem setTag_goRaised (c : Core) (set way : Nat) (v : Word) : (c.setTag set way v).goRaised = c.goRaised := rfl
@[simp] theorem setTag_hBlk (c : Core) (set way : Nat) (v : Word) : (c.setTag set way v).hBlk = c.hBlk := rfl
@[simp] theorem setTag_spillPoison (c : Core) (set way : Nat) (v : Word) : (c.setTag set way v).spillPoison = c.spillPoison := rfl
@[simp] theorem setTag_walkFault (c : Core) (set way : Nat) (v : Word) : (c.setTag set way v).walkFault = c.walkFault := rfl
@[simp] theorem setTag_haltAt (c : Core) (set way : Nat) (v : Word) : (c.setTag set way v).haltAt = c.haltAt := rfl
@[simp] theorem setTag_cyc (c : Core) (set way : Nat) (v : Word) : (c.setTag set way v).cyc = c.cyc := rfl

@[simp] theorem setV_s (c : Core) (n : BitVec 6) (x : VReg) : (c.setV n x).s = c.s := rfl
@[simp] theorem setV_p (c : Core) (n : BitVec 6) (x : VReg) : (c.setV n x).p = c.p := rfl
@[simp] theorem setV_spillS (c : Core) (n : BitVec 6) (x : VReg) : (c.setV n x).spillS = c.spillS := rfl
@[simp] theorem setV_fpctl (c : Core) (n : BitVec 6) (x : VReg) : (c.setV n x).fpctl = c.fpctl := rfl
@[simp] theorem setV_fstk (c : Core) (n : BitVec 6) (x : VReg) : (c.setV n x).fstk = c.fstk := rfl
@[simp] theorem setV_dbnd (c : Core) (n : BitVec 6) (x : VReg) : (c.setV n x).dbnd = c.dbnd := rfl
@[simp] theorem setV_trapcause (c : Core) (n : BitVec 6) (x : VReg) : (c.setV n x).trapcause = c.trapcause := rfl
@[simp] theorem setV_brec (c : Core) (n : BitVec 6) (x : VReg) : (c.setV n x).brec = c.brec := rfl
@[simp] theorem setV_boundQ (c : Core) (n : BitVec 6) (x : VReg) : (c.setV n x).boundQ = c.boundQ := rfl
@[simp] theorem setV_uivec (c : Core) (n : BitVec 6) (x : VReg) : (c.setV n x).uivec = c.uivec := rfl
@[simp] theorem setV_uien (c : Core) (n : BitVec 6) (x : VReg) : (c.setV n x).uien = c.uien := rfl
@[simp] theorem setV_uiact (c : Core) (n : BitVec 6) (x : VReg) : (c.setV n x).uiact = c.uiact := rfl
@[simp] theorem setV_uiinfo (c : Core) (n : BitVec 6) (x : VReg) : (c.setV n x).uiinfo = c.uiinfo := rfl
@[simp] theorem setV_uiepc (c : Core) (n : BitVec 6) (x : VReg) : (c.setV n x).uiepc = c.uiepc := rfl
@[simp] theorem setV_uiBound (c : Core) (n : BitVec 6) (x : VReg) : (c.setV n x).uiBound = c.uiBound := rfl
@[simp] theorem setV_uiBlk (c : Core) (n : BitVec 6) (x : VReg) : (c.setV n x).uiBlk = c.uiBlk := rfl
@[simp] theorem setV_notifyQ (c : Core) (n : BitVec 6) (x : VReg) : (c.setV n x).notifyQ = c.notifyQ := rfl
@[simp] theorem setV_bf (c : Core) (n : BitVec 6) (x : VReg) : (c.setV n x).bf = c.bf := rfl
@[simp] theorem setV_latch (c : Core) (n : BitVec 6) (x : VReg) : (c.setV n x).latch = c.latch := rfl
@[simp] theorem setV_cycBase (c : Core) (n : BitVec 6) (x : VReg) : (c.setV n x).cycBase = c.cycBase := rfl
@[simp] theorem setV_dom (c : Core) (n : BitVec 6) (x : VReg) : (c.setV n x).dom = c.dom := rfl
@[simp] theorem setV_bobj (c : Core) (n : BitVec 6) (x : VReg) : (c.setV n x).bobj = c.bobj := rfl
@[simp] theorem setV_bOwes (c : Core) (n : BitVec 6) (x : VReg) : (c.setV n x).bOwes = c.bOwes := rfl
@[simp] theorem setV_arrived (c : Core) (n : BitVec 6) (x : VReg) : (c.setV n x).arrived = c.arrived := rfl
@[simp] theorem setV_seen (c : Core) (n : BitVec 6) (x : VReg) : (c.setV n x).seen = c.seen := rfl
@[simp] theorem setV_slip (c : Core) (n : BitVec 6) (x : VReg) : (c.setV n x).slip = c.slip := rfl
@[simp] theorem setV_tks (c : Core) (n : BitVec 6) (x : VReg) : (c.setV n x).tks = c.tks := rfl
@[simp] theorem setV_tokens (c : Core) (n : BitVec 6) (x : VReg) : (c.setV n x).tokens = c.tokens := rfl
@[simp] theorem setV_reserved (c : Core) (n : BitVec 6) (x : VReg) : (c.setV n x).reserved = c.reserved := rfl
@[simp] theorem setV_queues (c : Core) (n : BitVec 6) (x : VReg) : (c.setV n x).queues = c.queues := rfl
@[simp] theorem setV_tags (c : Core) (n : BitVec 6) (x : VReg) : (c.setV n x).tags = c.tags := rfl
@[simp] theorem setV_recency (c : Core) (n : BitVec 6) (x : VReg) : (c.setV n x).recency = c.recency := rfl
@[simp] theorem setV_ofs (c : Core) (n : BitVec 6) (x : VReg) : (c.setV n x).ofs = c.ofs := rfl
@[simp] theorem setV_ty (c : Core) (n : BitVec 6) (x : VReg) : (c.setV n x).ty = c.ty := rfl
@[simp] theorem setV_acc (c : Core) (n : BitVec 6) (x : VReg) : (c.setV n x).acc = c.acc := rfl
@[simp] theorem setV_mgrp (c : Core) (n : BitVec 6) (x : VReg) : (c.setV n x).mgrp = c.mgrp := rfl
@[simp] theorem setV_gsel (c : Core) (n : BitVec 6) (x : VReg) : (c.setV n x).gsel = c.gsel := rfl
@[simp] theorem setV_mprof (c : Core) (n : BitVec 6) (x : VReg) : (c.setV n x).mprof = c.mprof := rfl
@[simp] theorem setV_ln (c : Core) (n : BitVec 6) (x : VReg) : (c.setV n x).ln = c.ln := rfl
@[simp] theorem setV_mx (c : Core) (n : BitVec 6) (x : VReg) : (c.setV n x).mx = c.mx := rfl
@[simp] theorem setV_spillM (c : Core) (n : BitVec 6) (x : VReg) : (c.setV n x).spillM = c.spillM := rfl
@[simp] theorem setV_spillK (c : Core) (n : BitVec 6) (x : VReg) : (c.setV n x).spillK = c.spillK := rfl
@[simp] theorem setV_resumable (c : Core) (n : BitVec 6) (x : VReg) : (c.setV n x).resumable = c.resumable := rfl
@[simp] theorem setV_mcmds (c : Core) (n : BitVec 6) (x : VReg) : (c.setV n x).mcmds = c.mcmds := rfl
@[simp] theorem setV_kcmds (c : Core) (n : BitVec 6) (x : VReg) : (c.setV n x).kcmds = c.kcmds := rfl
@[simp] theorem setV_cmdNo (c : Core) (n : BitVec 6) (x : VReg) : (c.setV n x).cmdNo = c.cmdNo := rfl
@[simp] theorem setV_names (c : Core) (n : BitVec 6) (x : VReg) : (c.setV n x).names = c.names := rfl
@[simp] theorem setV_kbind (c : Core) (n : BitVec 6) (x : VReg) : (c.setV n x).kbind = c.kbind := rfl
@[simp] theorem setV_window (c : Core) (n : BitVec 6) (x : VReg) : (c.setV n x).window = c.window := rfl
@[simp] theorem setV_streams (c : Core) (n : BitVec 6) (x : VReg) : (c.setV n x).streams = c.streams := rfl
@[simp] theorem setV_lq (c : Core) (n : BitVec 6) (x : VReg) : (c.setV n x).lq = c.lq := rfl
@[simp] theorem setV_stq (c : Core) (n : BitVec 6) (x : VReg) : (c.setV n x).stq = c.stq := rfl
@[simp] theorem setV_vmode (c : Core) (n : BitVec 6) (x : VReg) : (c.setV n x).vmode = c.vmode := rfl
@[simp] theorem setV_rb (c : Core) (n : BitVec 6) (x : VReg) : (c.setV n x).rb = c.rb := rfl
@[simp] theorem setV_vp (c : Core) (n : BitVec 6) (x : VReg) : (c.setV n x).vp = c.vp := rfl
@[simp] theorem setV_spillV (c : Core) (n : BitVec 6) (x : VReg) : (c.setV n x).spillV = c.spillV := rfl
@[simp] theorem setV_vloop (c : Core) (n : BitVec 6) (x : VReg) : (c.setV n x).vloop = c.vloop := rfl
@[simp] theorem setV_pend (c : Core) (n : BitVec 6) (x : VReg) : (c.setV n x).pend = c.pend := rfl
@[simp] theorem setV_rows (c : Core) (n : BitVec 6) (x : VReg) : (c.setV n x).rows = c.rows := rfl
@[simp] theorem setV_groups (c : Core) (n : BitVec 6) (x : VReg) : (c.setV n x).groups = c.groups := rfl
@[simp] theorem setV_forks (c : Core) (n : BitVec 6) (x : VReg) : (c.setV n x).forks = c.forks := rfl
@[simp] theorem setV_sp (c : Core) (n : BitVec 6) (x : VReg) : (c.setV n x).sp = c.sp := rfl
@[simp] theorem setV_spPoison (c : Core) (n : BitVec 6) (x : VReg) : (c.setV n x).spPoison = c.spPoison := rfl
@[simp] theorem setV_tlb (c : Core) (n : BitVec 6) (x : VReg) : (c.setV n x).tlb = c.tlb := rfl
@[simp] theorem setV_unit (c : Core) (n : BitVec 6) (x : VReg) : (c.setV n x).unit = c.unit := rfl
@[simp] theorem setV_stopped (c : Core) (n : BitVec 6) (x : VReg) : (c.setV n x).stopped = c.stopped := rfl
@[simp] theorem setV_sysc (c : Core) (n : BitVec 6) (x : VReg) : (c.setV n x).sysc = c.sysc := rfl
@[simp] theorem setV_lastTag (c : Core) (n : BitVec 6) (x : VReg) : (c.setV n x).lastTag = c.lastTag := rfl
@[simp] theorem setV_lastLaunch (c : Core) (n : BitVec 6) (x : VReg) : (c.setV n x).lastLaunch = c.lastLaunch := rfl
@[simp] theorem setV_sOrd (c : Core) (n : BitVec 6) (x : VReg) : (c.setV n x).sOrd = c.sOrd := rfl
@[simp] theorem setV_undeclared (c : Core) (n : BitVec 6) (x : VReg) : (c.setV n x).undeclared = c.undeclared := rfl
@[simp] theorem setV_subs (c : Core) (n : BitVec 6) (x : VReg) : (c.setV n x).subs = c.subs := rfl
@[simp] theorem setV_zeroing (c : Core) (n : BitVec 6) (x : VReg) : (c.setV n x).zeroing = c.zeroing := rfl
@[simp] theorem setV_haltReq (c : Core) (n : BitVec 6) (x : VReg) : (c.setV n x).haltReq = c.haltReq := rfl
@[simp] theorem setV_halted (c : Core) (n : BitVec 6) (x : VReg) : (c.setV n x).halted = c.halted := rfl
@[simp] theorem setV_next (c : Core) (n : BitVec 6) (x : VReg) : (c.setV n x).next = c.next := rfl
@[simp] theorem setV_reports (c : Core) (n : BitVec 6) (x : VReg) : (c.setV n x).reports = c.reports := rfl
@[simp] theorem setV_stg (c : Core) (n : BitVec 6) (x : VReg) : (c.setV n x).stg = c.stg := rfl
@[simp] theorem setV_outQ (c : Core) (n : BitVec 6) (x : VReg) : (c.setV n x).outQ = c.outQ := rfl
@[simp] theorem setV_goRaised (c : Core) (n : BitVec 6) (x : VReg) : (c.setV n x).goRaised = c.goRaised := rfl
@[simp] theorem setV_hBlk (c : Core) (n : BitVec 6) (x : VReg) : (c.setV n x).hBlk = c.hBlk := rfl
@[simp] theorem setV_spillPoison (c : Core) (n : BitVec 6) (x : VReg) : (c.setV n x).spillPoison = c.spillPoison := rfl
@[simp] theorem setV_walkFault (c : Core) (n : BitVec 6) (x : VReg) : (c.setV n x).walkFault = c.walkFault := rfl
@[simp] theorem setV_haltAt (c : Core) (n : BitVec 6) (x : VReg) : (c.setV n x).haltAt = c.haltAt := rfl
@[simp] theorem setV_cyc (c : Core) (n : BitVec 6) (x : VReg) : (c.setV n x).cyc = c.cyc := rfl

@[simp] theorem addFlags_s (c : Core) (f : Flags) : (c.addFlags f).s = c.s := rfl
@[simp] theorem addFlags_p (c : Core) (f : Flags) : (c.addFlags f).p = c.p := rfl
@[simp] theorem addFlags_spillS (c : Core) (f : Flags) : (c.addFlags f).spillS = c.spillS := rfl
@[simp] theorem addFlags_fpctl (c : Core) (f : Flags) : (c.addFlags f).fpctl = c.fpctl := rfl
@[simp] theorem addFlags_dbnd (c : Core) (f : Flags) : (c.addFlags f).dbnd = c.dbnd := rfl
@[simp] theorem addFlags_trapcause (c : Core) (f : Flags) : (c.addFlags f).trapcause = c.trapcause := rfl
@[simp] theorem addFlags_brec (c : Core) (f : Flags) : (c.addFlags f).brec = c.brec := rfl
@[simp] theorem addFlags_boundQ (c : Core) (f : Flags) : (c.addFlags f).boundQ = c.boundQ := rfl
@[simp] theorem addFlags_uivec (c : Core) (f : Flags) : (c.addFlags f).uivec = c.uivec := rfl
@[simp] theorem addFlags_uien (c : Core) (f : Flags) : (c.addFlags f).uien = c.uien := rfl
@[simp] theorem addFlags_uiact (c : Core) (f : Flags) : (c.addFlags f).uiact = c.uiact := rfl
@[simp] theorem addFlags_uiinfo (c : Core) (f : Flags) : (c.addFlags f).uiinfo = c.uiinfo := rfl
@[simp] theorem addFlags_uiepc (c : Core) (f : Flags) : (c.addFlags f).uiepc = c.uiepc := rfl
@[simp] theorem addFlags_uiBound (c : Core) (f : Flags) : (c.addFlags f).uiBound = c.uiBound := rfl
@[simp] theorem addFlags_uiBlk (c : Core) (f : Flags) : (c.addFlags f).uiBlk = c.uiBlk := rfl
@[simp] theorem addFlags_notifyQ (c : Core) (f : Flags) : (c.addFlags f).notifyQ = c.notifyQ := rfl
@[simp] theorem addFlags_bf (c : Core) (f : Flags) : (c.addFlags f).bf = c.bf := rfl
@[simp] theorem addFlags_latch (c : Core) (f : Flags) : (c.addFlags f).latch = c.latch := rfl
@[simp] theorem addFlags_cycBase (c : Core) (f : Flags) : (c.addFlags f).cycBase = c.cycBase := rfl
@[simp] theorem addFlags_dom (c : Core) (f : Flags) : (c.addFlags f).dom = c.dom := rfl
@[simp] theorem addFlags_bobj (c : Core) (f : Flags) : (c.addFlags f).bobj = c.bobj := rfl
@[simp] theorem addFlags_bOwes (c : Core) (f : Flags) : (c.addFlags f).bOwes = c.bOwes := rfl
@[simp] theorem addFlags_arrived (c : Core) (f : Flags) : (c.addFlags f).arrived = c.arrived := rfl
@[simp] theorem addFlags_seen (c : Core) (f : Flags) : (c.addFlags f).seen = c.seen := rfl
@[simp] theorem addFlags_slip (c : Core) (f : Flags) : (c.addFlags f).slip = c.slip := rfl
@[simp] theorem addFlags_tks (c : Core) (f : Flags) : (c.addFlags f).tks = c.tks := rfl
@[simp] theorem addFlags_tokens (c : Core) (f : Flags) : (c.addFlags f).tokens = c.tokens := rfl
@[simp] theorem addFlags_reserved (c : Core) (f : Flags) : (c.addFlags f).reserved = c.reserved := rfl
@[simp] theorem addFlags_queues (c : Core) (f : Flags) : (c.addFlags f).queues = c.queues := rfl
@[simp] theorem addFlags_tags (c : Core) (f : Flags) : (c.addFlags f).tags = c.tags := rfl
@[simp] theorem addFlags_recency (c : Core) (f : Flags) : (c.addFlags f).recency = c.recency := rfl
@[simp] theorem addFlags_ofs (c : Core) (f : Flags) : (c.addFlags f).ofs = c.ofs := rfl
@[simp] theorem addFlags_ty (c : Core) (f : Flags) : (c.addFlags f).ty = c.ty := rfl
@[simp] theorem addFlags_acc (c : Core) (f : Flags) : (c.addFlags f).acc = c.acc := rfl
@[simp] theorem addFlags_mgrp (c : Core) (f : Flags) : (c.addFlags f).mgrp = c.mgrp := rfl
@[simp] theorem addFlags_gsel (c : Core) (f : Flags) : (c.addFlags f).gsel = c.gsel := rfl
@[simp] theorem addFlags_mprof (c : Core) (f : Flags) : (c.addFlags f).mprof = c.mprof := rfl
@[simp] theorem addFlags_ln (c : Core) (f : Flags) : (c.addFlags f).ln = c.ln := rfl
@[simp] theorem addFlags_mx (c : Core) (f : Flags) : (c.addFlags f).mx = c.mx := rfl
@[simp] theorem addFlags_spillM (c : Core) (f : Flags) : (c.addFlags f).spillM = c.spillM := rfl
@[simp] theorem addFlags_spillK (c : Core) (f : Flags) : (c.addFlags f).spillK = c.spillK := rfl
@[simp] theorem addFlags_resumable (c : Core) (f : Flags) : (c.addFlags f).resumable = c.resumable := rfl
@[simp] theorem addFlags_mcmds (c : Core) (f : Flags) : (c.addFlags f).mcmds = c.mcmds := rfl
@[simp] theorem addFlags_kcmds (c : Core) (f : Flags) : (c.addFlags f).kcmds = c.kcmds := rfl
@[simp] theorem addFlags_cmdNo (c : Core) (f : Flags) : (c.addFlags f).cmdNo = c.cmdNo := rfl
@[simp] theorem addFlags_names (c : Core) (f : Flags) : (c.addFlags f).names = c.names := rfl
@[simp] theorem addFlags_kbind (c : Core) (f : Flags) : (c.addFlags f).kbind = c.kbind := rfl
@[simp] theorem addFlags_window (c : Core) (f : Flags) : (c.addFlags f).window = c.window := rfl
@[simp] theorem addFlags_streams (c : Core) (f : Flags) : (c.addFlags f).streams = c.streams := rfl
@[simp] theorem addFlags_lq (c : Core) (f : Flags) : (c.addFlags f).lq = c.lq := rfl
@[simp] theorem addFlags_stq (c : Core) (f : Flags) : (c.addFlags f).stq = c.stq := rfl
@[simp] theorem addFlags_vmode (c : Core) (f : Flags) : (c.addFlags f).vmode = c.vmode := rfl
@[simp] theorem addFlags_rb (c : Core) (f : Flags) : (c.addFlags f).rb = c.rb := rfl
@[simp] theorem addFlags_v (c : Core) (f : Flags) : (c.addFlags f).v = c.v := rfl
@[simp] theorem addFlags_vp (c : Core) (f : Flags) : (c.addFlags f).vp = c.vp := rfl
@[simp] theorem addFlags_spillV (c : Core) (f : Flags) : (c.addFlags f).spillV = c.spillV := rfl
@[simp] theorem addFlags_vloop (c : Core) (f : Flags) : (c.addFlags f).vloop = c.vloop := rfl
@[simp] theorem addFlags_pend (c : Core) (f : Flags) : (c.addFlags f).pend = c.pend := rfl
@[simp] theorem addFlags_rows (c : Core) (f : Flags) : (c.addFlags f).rows = c.rows := rfl
@[simp] theorem addFlags_groups (c : Core) (f : Flags) : (c.addFlags f).groups = c.groups := rfl
@[simp] theorem addFlags_forks (c : Core) (f : Flags) : (c.addFlags f).forks = c.forks := rfl
@[simp] theorem addFlags_sp (c : Core) (f : Flags) : (c.addFlags f).sp = c.sp := rfl
@[simp] theorem addFlags_spPoison (c : Core) (f : Flags) : (c.addFlags f).spPoison = c.spPoison := rfl
@[simp] theorem addFlags_tlb (c : Core) (f : Flags) : (c.addFlags f).tlb = c.tlb := rfl
@[simp] theorem addFlags_unit (c : Core) (f : Flags) : (c.addFlags f).unit = c.unit := rfl
@[simp] theorem addFlags_stopped (c : Core) (f : Flags) : (c.addFlags f).stopped = c.stopped := rfl
@[simp] theorem addFlags_sysc (c : Core) (f : Flags) : (c.addFlags f).sysc = c.sysc := rfl
@[simp] theorem addFlags_lastTag (c : Core) (f : Flags) : (c.addFlags f).lastTag = c.lastTag := rfl
@[simp] theorem addFlags_lastLaunch (c : Core) (f : Flags) : (c.addFlags f).lastLaunch = c.lastLaunch := rfl
@[simp] theorem addFlags_sOrd (c : Core) (f : Flags) : (c.addFlags f).sOrd = c.sOrd := rfl
@[simp] theorem addFlags_undeclared (c : Core) (f : Flags) : (c.addFlags f).undeclared = c.undeclared := rfl
@[simp] theorem addFlags_subs (c : Core) (f : Flags) : (c.addFlags f).subs = c.subs := rfl
@[simp] theorem addFlags_zeroing (c : Core) (f : Flags) : (c.addFlags f).zeroing = c.zeroing := rfl
@[simp] theorem addFlags_haltReq (c : Core) (f : Flags) : (c.addFlags f).haltReq = c.haltReq := rfl
@[simp] theorem addFlags_halted (c : Core) (f : Flags) : (c.addFlags f).halted = c.halted := rfl
@[simp] theorem addFlags_next (c : Core) (f : Flags) : (c.addFlags f).next = c.next := rfl
@[simp] theorem addFlags_reports (c : Core) (f : Flags) : (c.addFlags f).reports = c.reports := rfl
@[simp] theorem addFlags_stg (c : Core) (f : Flags) : (c.addFlags f).stg = c.stg := rfl
@[simp] theorem addFlags_outQ (c : Core) (f : Flags) : (c.addFlags f).outQ = c.outQ := rfl
@[simp] theorem addFlags_goRaised (c : Core) (f : Flags) : (c.addFlags f).goRaised = c.goRaised := rfl
@[simp] theorem addFlags_hBlk (c : Core) (f : Flags) : (c.addFlags f).hBlk = c.hBlk := rfl
@[simp] theorem addFlags_spillPoison (c : Core) (f : Flags) : (c.addFlags f).spillPoison = c.spillPoison := rfl
@[simp] theorem addFlags_walkFault (c : Core) (f : Flags) : (c.addFlags f).walkFault = c.walkFault := rfl
@[simp] theorem addFlags_haltAt (c : Core) (f : Flags) : (c.addFlags f).haltAt = c.haltAt := rfl

@[simp] theorem advancePc_s (c : Core) (e : Eng) (now n : Nat) : (c.advancePc e now n).s = c.s := rfl
@[simp] theorem advancePc_p (c : Core) (e : Eng) (now n : Nat) : (c.advancePc e now n).p = c.p := rfl
@[simp] theorem advancePc_spillS (c : Core) (e : Eng) (now n : Nat) : (c.advancePc e now n).spillS = c.spillS := rfl
@[simp] theorem advancePc_fpctl (c : Core) (e : Eng) (now n : Nat) : (c.advancePc e now n).fpctl = c.fpctl := rfl
@[simp] theorem advancePc_fstk (c : Core) (e : Eng) (now n : Nat) : (c.advancePc e now n).fstk = c.fstk := rfl
@[simp] theorem advancePc_dbnd (c : Core) (e : Eng) (now n : Nat) : (c.advancePc e now n).dbnd = c.dbnd := rfl
@[simp] theorem advancePc_trapcause (c : Core) (e : Eng) (now n : Nat) : (c.advancePc e now n).trapcause = c.trapcause := rfl
@[simp] theorem advancePc_brec (c : Core) (e : Eng) (now n : Nat) : (c.advancePc e now n).brec = c.brec := rfl
@[simp] theorem advancePc_boundQ (c : Core) (e : Eng) (now n : Nat) : (c.advancePc e now n).boundQ = c.boundQ := rfl
@[simp] theorem advancePc_uivec (c : Core) (e : Eng) (now n : Nat) : (c.advancePc e now n).uivec = c.uivec := rfl
@[simp] theorem advancePc_uien (c : Core) (e : Eng) (now n : Nat) : (c.advancePc e now n).uien = c.uien := rfl
@[simp] theorem advancePc_uiact (c : Core) (e : Eng) (now n : Nat) : (c.advancePc e now n).uiact = c.uiact := rfl
@[simp] theorem advancePc_uiinfo (c : Core) (e : Eng) (now n : Nat) : (c.advancePc e now n).uiinfo = c.uiinfo := rfl
@[simp] theorem advancePc_uiepc (c : Core) (e : Eng) (now n : Nat) : (c.advancePc e now n).uiepc = c.uiepc := rfl
@[simp] theorem advancePc_uiBound (c : Core) (e : Eng) (now n : Nat) : (c.advancePc e now n).uiBound = c.uiBound := rfl
@[simp] theorem advancePc_uiBlk (c : Core) (e : Eng) (now n : Nat) : (c.advancePc e now n).uiBlk = c.uiBlk := rfl
@[simp] theorem advancePc_notifyQ (c : Core) (e : Eng) (now n : Nat) : (c.advancePc e now n).notifyQ = c.notifyQ := rfl
@[simp] theorem advancePc_bf (c : Core) (e : Eng) (now n : Nat) : (c.advancePc e now n).bf = c.bf := rfl
@[simp] theorem advancePc_latch (c : Core) (e : Eng) (now n : Nat) : (c.advancePc e now n).latch = c.latch := rfl
@[simp] theorem advancePc_cycBase (c : Core) (e : Eng) (now n : Nat) : (c.advancePc e now n).cycBase = c.cycBase := rfl
@[simp] theorem advancePc_dom (c : Core) (e : Eng) (now n : Nat) : (c.advancePc e now n).dom = c.dom := rfl
@[simp] theorem advancePc_bobj (c : Core) (e : Eng) (now n : Nat) : (c.advancePc e now n).bobj = c.bobj := rfl
@[simp] theorem advancePc_bOwes (c : Core) (e : Eng) (now n : Nat) : (c.advancePc e now n).bOwes = c.bOwes := rfl
@[simp] theorem advancePc_arrived (c : Core) (e : Eng) (now n : Nat) : (c.advancePc e now n).arrived = c.arrived := rfl
@[simp] theorem advancePc_seen (c : Core) (e : Eng) (now n : Nat) : (c.advancePc e now n).seen = c.seen := rfl
@[simp] theorem advancePc_slip (c : Core) (e : Eng) (now n : Nat) : (c.advancePc e now n).slip = c.slip := rfl
@[simp] theorem advancePc_tks (c : Core) (e : Eng) (now n : Nat) : (c.advancePc e now n).tks = c.tks := rfl
@[simp] theorem advancePc_tokens (c : Core) (e : Eng) (now n : Nat) : (c.advancePc e now n).tokens = c.tokens := rfl
@[simp] theorem advancePc_reserved (c : Core) (e : Eng) (now n : Nat) : (c.advancePc e now n).reserved = c.reserved := rfl
@[simp] theorem advancePc_queues (c : Core) (e : Eng) (now n : Nat) : (c.advancePc e now n).queues = c.queues := rfl
@[simp] theorem advancePc_tags (c : Core) (e : Eng) (now n : Nat) : (c.advancePc e now n).tags = c.tags := rfl
@[simp] theorem advancePc_recency (c : Core) (e : Eng) (now n : Nat) : (c.advancePc e now n).recency = c.recency := rfl
@[simp] theorem advancePc_ofs (c : Core) (e : Eng) (now n : Nat) : (c.advancePc e now n).ofs = c.ofs := rfl
@[simp] theorem advancePc_ty (c : Core) (e : Eng) (now n : Nat) : (c.advancePc e now n).ty = c.ty := rfl
@[simp] theorem advancePc_acc (c : Core) (e : Eng) (now n : Nat) : (c.advancePc e now n).acc = c.acc := rfl
@[simp] theorem advancePc_mgrp (c : Core) (e : Eng) (now n : Nat) : (c.advancePc e now n).mgrp = c.mgrp := rfl
@[simp] theorem advancePc_gsel (c : Core) (e : Eng) (now n : Nat) : (c.advancePc e now n).gsel = c.gsel := rfl
@[simp] theorem advancePc_mprof (c : Core) (e : Eng) (now n : Nat) : (c.advancePc e now n).mprof = c.mprof := rfl
@[simp] theorem advancePc_ln (c : Core) (e : Eng) (now n : Nat) : (c.advancePc e now n).ln = c.ln := rfl
@[simp] theorem advancePc_mx (c : Core) (e : Eng) (now n : Nat) : (c.advancePc e now n).mx = c.mx := rfl
@[simp] theorem advancePc_spillM (c : Core) (e : Eng) (now n : Nat) : (c.advancePc e now n).spillM = c.spillM := rfl
@[simp] theorem advancePc_spillK (c : Core) (e : Eng) (now n : Nat) : (c.advancePc e now n).spillK = c.spillK := rfl
@[simp] theorem advancePc_resumable (c : Core) (e : Eng) (now n : Nat) : (c.advancePc e now n).resumable = c.resumable := rfl
@[simp] theorem advancePc_mcmds (c : Core) (e : Eng) (now n : Nat) : (c.advancePc e now n).mcmds = c.mcmds := rfl
@[simp] theorem advancePc_kcmds (c : Core) (e : Eng) (now n : Nat) : (c.advancePc e now n).kcmds = c.kcmds := rfl
@[simp] theorem advancePc_cmdNo (c : Core) (e : Eng) (now n : Nat) : (c.advancePc e now n).cmdNo = c.cmdNo := rfl
@[simp] theorem advancePc_names (c : Core) (e : Eng) (now n : Nat) : (c.advancePc e now n).names = c.names := rfl
@[simp] theorem advancePc_kbind (c : Core) (e : Eng) (now n : Nat) : (c.advancePc e now n).kbind = c.kbind := rfl
@[simp] theorem advancePc_window (c : Core) (e : Eng) (now n : Nat) : (c.advancePc e now n).window = c.window := rfl
@[simp] theorem advancePc_lq (c : Core) (e : Eng) (now n : Nat) : (c.advancePc e now n).lq = c.lq := rfl
@[simp] theorem advancePc_stq (c : Core) (e : Eng) (now n : Nat) : (c.advancePc e now n).stq = c.stq := rfl
@[simp] theorem advancePc_vmode (c : Core) (e : Eng) (now n : Nat) : (c.advancePc e now n).vmode = c.vmode := rfl
@[simp] theorem advancePc_rb (c : Core) (e : Eng) (now n : Nat) : (c.advancePc e now n).rb = c.rb := rfl
@[simp] theorem advancePc_v (c : Core) (e : Eng) (now n : Nat) : (c.advancePc e now n).v = c.v := rfl
@[simp] theorem advancePc_vp (c : Core) (e : Eng) (now n : Nat) : (c.advancePc e now n).vp = c.vp := rfl
@[simp] theorem advancePc_spillV (c : Core) (e : Eng) (now n : Nat) : (c.advancePc e now n).spillV = c.spillV := rfl
@[simp] theorem advancePc_vloop (c : Core) (e : Eng) (now n : Nat) : (c.advancePc e now n).vloop = c.vloop := rfl
@[simp] theorem advancePc_pend (c : Core) (e : Eng) (now n : Nat) : (c.advancePc e now n).pend = c.pend := rfl
@[simp] theorem advancePc_rows (c : Core) (e : Eng) (now n : Nat) : (c.advancePc e now n).rows = c.rows := rfl
@[simp] theorem advancePc_groups (c : Core) (e : Eng) (now n : Nat) : (c.advancePc e now n).groups = c.groups := rfl
@[simp] theorem advancePc_forks (c : Core) (e : Eng) (now n : Nat) : (c.advancePc e now n).forks = c.forks := rfl
@[simp] theorem advancePc_sp (c : Core) (e : Eng) (now n : Nat) : (c.advancePc e now n).sp = c.sp := rfl
@[simp] theorem advancePc_spPoison (c : Core) (e : Eng) (now n : Nat) : (c.advancePc e now n).spPoison = c.spPoison := rfl
@[simp] theorem advancePc_tlb (c : Core) (e : Eng) (now n : Nat) : (c.advancePc e now n).tlb = c.tlb := rfl
@[simp] theorem advancePc_unit (c : Core) (e : Eng) (now n : Nat) : (c.advancePc e now n).unit = c.unit := rfl
@[simp] theorem advancePc_stopped (c : Core) (e : Eng) (now n : Nat) : (c.advancePc e now n).stopped = c.stopped := rfl
@[simp] theorem advancePc_sysc (c : Core) (e : Eng) (now n : Nat) : (c.advancePc e now n).sysc = c.sysc := rfl
@[simp] theorem advancePc_lastTag (c : Core) (e : Eng) (now n : Nat) : (c.advancePc e now n).lastTag = c.lastTag := rfl
@[simp] theorem advancePc_lastLaunch (c : Core) (e : Eng) (now n : Nat) : (c.advancePc e now n).lastLaunch = c.lastLaunch := rfl
@[simp] theorem advancePc_sOrd (c : Core) (e : Eng) (now n : Nat) : (c.advancePc e now n).sOrd = c.sOrd := rfl
@[simp] theorem advancePc_undeclared (c : Core) (e : Eng) (now n : Nat) : (c.advancePc e now n).undeclared = c.undeclared := rfl
@[simp] theorem advancePc_subs (c : Core) (e : Eng) (now n : Nat) : (c.advancePc e now n).subs = c.subs := rfl
@[simp] theorem advancePc_zeroing (c : Core) (e : Eng) (now n : Nat) : (c.advancePc e now n).zeroing = c.zeroing := rfl
@[simp] theorem advancePc_haltReq (c : Core) (e : Eng) (now n : Nat) : (c.advancePc e now n).haltReq = c.haltReq := rfl
@[simp] theorem advancePc_halted (c : Core) (e : Eng) (now n : Nat) : (c.advancePc e now n).halted = c.halted := rfl
@[simp] theorem advancePc_next (c : Core) (e : Eng) (now n : Nat) : (c.advancePc e now n).next = c.next := rfl
@[simp] theorem advancePc_reports (c : Core) (e : Eng) (now n : Nat) : (c.advancePc e now n).reports = c.reports := rfl
@[simp] theorem advancePc_stg (c : Core) (e : Eng) (now n : Nat) : (c.advancePc e now n).stg = c.stg := rfl
@[simp] theorem advancePc_outQ (c : Core) (e : Eng) (now n : Nat) : (c.advancePc e now n).outQ = c.outQ := rfl
@[simp] theorem advancePc_goRaised (c : Core) (e : Eng) (now n : Nat) : (c.advancePc e now n).goRaised = c.goRaised := rfl
@[simp] theorem advancePc_hBlk (c : Core) (e : Eng) (now n : Nat) : (c.advancePc e now n).hBlk = c.hBlk := rfl
@[simp] theorem advancePc_spillPoison (c : Core) (e : Eng) (now n : Nat) : (c.advancePc e now n).spillPoison = c.spillPoison := rfl
@[simp] theorem advancePc_walkFault (c : Core) (e : Eng) (now n : Nat) : (c.advancePc e now n).walkFault = c.walkFault := rfl
@[simp] theorem advancePc_haltAt (c : Core) (e : Eng) (now n : Nat) : (c.advancePc e now n).haltAt = c.haltAt := rfl
@[simp] theorem advancePc_cyc (c : Core) (e : Eng) (now n : Nat) : (c.advancePc e now n).cyc = c.cyc := rfl

@[simp] theorem goto_s (c : Core) (e : Eng) (now target : Nat) : (c.goto e now target).s = c.s := rfl
@[simp] theorem goto_p (c : Core) (e : Eng) (now target : Nat) : (c.goto e now target).p = c.p := rfl
@[simp] theorem goto_spillS (c : Core) (e : Eng) (now target : Nat) : (c.goto e now target).spillS = c.spillS := rfl
@[simp] theorem goto_fpctl (c : Core) (e : Eng) (now target : Nat) : (c.goto e now target).fpctl = c.fpctl := rfl
@[simp] theorem goto_fstk (c : Core) (e : Eng) (now target : Nat) : (c.goto e now target).fstk = c.fstk := rfl
@[simp] theorem goto_dbnd (c : Core) (e : Eng) (now target : Nat) : (c.goto e now target).dbnd = c.dbnd := rfl
@[simp] theorem goto_trapcause (c : Core) (e : Eng) (now target : Nat) : (c.goto e now target).trapcause = c.trapcause := rfl
@[simp] theorem goto_brec (c : Core) (e : Eng) (now target : Nat) : (c.goto e now target).brec = c.brec := rfl
@[simp] theorem goto_boundQ (c : Core) (e : Eng) (now target : Nat) : (c.goto e now target).boundQ = c.boundQ := rfl
@[simp] theorem goto_uivec (c : Core) (e : Eng) (now target : Nat) : (c.goto e now target).uivec = c.uivec := rfl
@[simp] theorem goto_uien (c : Core) (e : Eng) (now target : Nat) : (c.goto e now target).uien = c.uien := rfl
@[simp] theorem goto_uiact (c : Core) (e : Eng) (now target : Nat) : (c.goto e now target).uiact = c.uiact := rfl
@[simp] theorem goto_uiinfo (c : Core) (e : Eng) (now target : Nat) : (c.goto e now target).uiinfo = c.uiinfo := rfl
@[simp] theorem goto_uiepc (c : Core) (e : Eng) (now target : Nat) : (c.goto e now target).uiepc = c.uiepc := rfl
@[simp] theorem goto_uiBound (c : Core) (e : Eng) (now target : Nat) : (c.goto e now target).uiBound = c.uiBound := rfl
@[simp] theorem goto_uiBlk (c : Core) (e : Eng) (now target : Nat) : (c.goto e now target).uiBlk = c.uiBlk := rfl
@[simp] theorem goto_notifyQ (c : Core) (e : Eng) (now target : Nat) : (c.goto e now target).notifyQ = c.notifyQ := rfl
@[simp] theorem goto_bf (c : Core) (e : Eng) (now target : Nat) : (c.goto e now target).bf = c.bf := rfl
@[simp] theorem goto_latch (c : Core) (e : Eng) (now target : Nat) : (c.goto e now target).latch = c.latch := rfl
@[simp] theorem goto_cycBase (c : Core) (e : Eng) (now target : Nat) : (c.goto e now target).cycBase = c.cycBase := rfl
@[simp] theorem goto_dom (c : Core) (e : Eng) (now target : Nat) : (c.goto e now target).dom = c.dom := rfl
@[simp] theorem goto_bobj (c : Core) (e : Eng) (now target : Nat) : (c.goto e now target).bobj = c.bobj := rfl
@[simp] theorem goto_bOwes (c : Core) (e : Eng) (now target : Nat) : (c.goto e now target).bOwes = c.bOwes := rfl
@[simp] theorem goto_arrived (c : Core) (e : Eng) (now target : Nat) : (c.goto e now target).arrived = c.arrived := rfl
@[simp] theorem goto_seen (c : Core) (e : Eng) (now target : Nat) : (c.goto e now target).seen = c.seen := rfl
@[simp] theorem goto_slip (c : Core) (e : Eng) (now target : Nat) : (c.goto e now target).slip = c.slip := rfl
@[simp] theorem goto_tks (c : Core) (e : Eng) (now target : Nat) : (c.goto e now target).tks = c.tks := rfl
@[simp] theorem goto_tokens (c : Core) (e : Eng) (now target : Nat) : (c.goto e now target).tokens = c.tokens := rfl
@[simp] theorem goto_reserved (c : Core) (e : Eng) (now target : Nat) : (c.goto e now target).reserved = c.reserved := rfl
@[simp] theorem goto_queues (c : Core) (e : Eng) (now target : Nat) : (c.goto e now target).queues = c.queues := rfl
@[simp] theorem goto_tags (c : Core) (e : Eng) (now target : Nat) : (c.goto e now target).tags = c.tags := rfl
@[simp] theorem goto_recency (c : Core) (e : Eng) (now target : Nat) : (c.goto e now target).recency = c.recency := rfl
@[simp] theorem goto_ofs (c : Core) (e : Eng) (now target : Nat) : (c.goto e now target).ofs = c.ofs := rfl
@[simp] theorem goto_ty (c : Core) (e : Eng) (now target : Nat) : (c.goto e now target).ty = c.ty := rfl
@[simp] theorem goto_acc (c : Core) (e : Eng) (now target : Nat) : (c.goto e now target).acc = c.acc := rfl
@[simp] theorem goto_mgrp (c : Core) (e : Eng) (now target : Nat) : (c.goto e now target).mgrp = c.mgrp := rfl
@[simp] theorem goto_gsel (c : Core) (e : Eng) (now target : Nat) : (c.goto e now target).gsel = c.gsel := rfl
@[simp] theorem goto_mprof (c : Core) (e : Eng) (now target : Nat) : (c.goto e now target).mprof = c.mprof := rfl
@[simp] theorem goto_ln (c : Core) (e : Eng) (now target : Nat) : (c.goto e now target).ln = c.ln := rfl
@[simp] theorem goto_mx (c : Core) (e : Eng) (now target : Nat) : (c.goto e now target).mx = c.mx := rfl
@[simp] theorem goto_spillM (c : Core) (e : Eng) (now target : Nat) : (c.goto e now target).spillM = c.spillM := rfl
@[simp] theorem goto_spillK (c : Core) (e : Eng) (now target : Nat) : (c.goto e now target).spillK = c.spillK := rfl
@[simp] theorem goto_resumable (c : Core) (e : Eng) (now target : Nat) : (c.goto e now target).resumable = c.resumable := rfl
@[simp] theorem goto_mcmds (c : Core) (e : Eng) (now target : Nat) : (c.goto e now target).mcmds = c.mcmds := rfl
@[simp] theorem goto_kcmds (c : Core) (e : Eng) (now target : Nat) : (c.goto e now target).kcmds = c.kcmds := rfl
@[simp] theorem goto_cmdNo (c : Core) (e : Eng) (now target : Nat) : (c.goto e now target).cmdNo = c.cmdNo := rfl
@[simp] theorem goto_names (c : Core) (e : Eng) (now target : Nat) : (c.goto e now target).names = c.names := rfl
@[simp] theorem goto_kbind (c : Core) (e : Eng) (now target : Nat) : (c.goto e now target).kbind = c.kbind := rfl
@[simp] theorem goto_window (c : Core) (e : Eng) (now target : Nat) : (c.goto e now target).window = c.window := rfl
@[simp] theorem goto_lq (c : Core) (e : Eng) (now target : Nat) : (c.goto e now target).lq = c.lq := rfl
@[simp] theorem goto_stq (c : Core) (e : Eng) (now target : Nat) : (c.goto e now target).stq = c.stq := rfl
@[simp] theorem goto_vmode (c : Core) (e : Eng) (now target : Nat) : (c.goto e now target).vmode = c.vmode := rfl
@[simp] theorem goto_rb (c : Core) (e : Eng) (now target : Nat) : (c.goto e now target).rb = c.rb := rfl
@[simp] theorem goto_v (c : Core) (e : Eng) (now target : Nat) : (c.goto e now target).v = c.v := rfl
@[simp] theorem goto_vp (c : Core) (e : Eng) (now target : Nat) : (c.goto e now target).vp = c.vp := rfl
@[simp] theorem goto_spillV (c : Core) (e : Eng) (now target : Nat) : (c.goto e now target).spillV = c.spillV := rfl
@[simp] theorem goto_vloop (c : Core) (e : Eng) (now target : Nat) : (c.goto e now target).vloop = c.vloop := rfl
@[simp] theorem goto_pend (c : Core) (e : Eng) (now target : Nat) : (c.goto e now target).pend = c.pend := rfl
@[simp] theorem goto_rows (c : Core) (e : Eng) (now target : Nat) : (c.goto e now target).rows = c.rows := rfl
@[simp] theorem goto_groups (c : Core) (e : Eng) (now target : Nat) : (c.goto e now target).groups = c.groups := rfl
@[simp] theorem goto_forks (c : Core) (e : Eng) (now target : Nat) : (c.goto e now target).forks = c.forks := rfl
@[simp] theorem goto_sp (c : Core) (e : Eng) (now target : Nat) : (c.goto e now target).sp = c.sp := rfl
@[simp] theorem goto_spPoison (c : Core) (e : Eng) (now target : Nat) : (c.goto e now target).spPoison = c.spPoison := rfl
@[simp] theorem goto_tlb (c : Core) (e : Eng) (now target : Nat) : (c.goto e now target).tlb = c.tlb := rfl
@[simp] theorem goto_unit (c : Core) (e : Eng) (now target : Nat) : (c.goto e now target).unit = c.unit := rfl
@[simp] theorem goto_stopped (c : Core) (e : Eng) (now target : Nat) : (c.goto e now target).stopped = c.stopped := rfl
@[simp] theorem goto_sysc (c : Core) (e : Eng) (now target : Nat) : (c.goto e now target).sysc = c.sysc := rfl
@[simp] theorem goto_lastTag (c : Core) (e : Eng) (now target : Nat) : (c.goto e now target).lastTag = c.lastTag := rfl
@[simp] theorem goto_lastLaunch (c : Core) (e : Eng) (now target : Nat) : (c.goto e now target).lastLaunch = c.lastLaunch := rfl
@[simp] theorem goto_sOrd (c : Core) (e : Eng) (now target : Nat) : (c.goto e now target).sOrd = c.sOrd := rfl
@[simp] theorem goto_undeclared (c : Core) (e : Eng) (now target : Nat) : (c.goto e now target).undeclared = c.undeclared := rfl
@[simp] theorem goto_subs (c : Core) (e : Eng) (now target : Nat) : (c.goto e now target).subs = c.subs := rfl
@[simp] theorem goto_zeroing (c : Core) (e : Eng) (now target : Nat) : (c.goto e now target).zeroing = c.zeroing := rfl
@[simp] theorem goto_haltReq (c : Core) (e : Eng) (now target : Nat) : (c.goto e now target).haltReq = c.haltReq := rfl
@[simp] theorem goto_halted (c : Core) (e : Eng) (now target : Nat) : (c.goto e now target).halted = c.halted := rfl
@[simp] theorem goto_next (c : Core) (e : Eng) (now target : Nat) : (c.goto e now target).next = c.next := rfl
@[simp] theorem goto_reports (c : Core) (e : Eng) (now target : Nat) : (c.goto e now target).reports = c.reports := rfl
@[simp] theorem goto_stg (c : Core) (e : Eng) (now target : Nat) : (c.goto e now target).stg = c.stg := rfl
@[simp] theorem goto_outQ (c : Core) (e : Eng) (now target : Nat) : (c.goto e now target).outQ = c.outQ := rfl
@[simp] theorem goto_goRaised (c : Core) (e : Eng) (now target : Nat) : (c.goto e now target).goRaised = c.goRaised := rfl
@[simp] theorem goto_hBlk (c : Core) (e : Eng) (now target : Nat) : (c.goto e now target).hBlk = c.hBlk := rfl
@[simp] theorem goto_spillPoison (c : Core) (e : Eng) (now target : Nat) : (c.goto e now target).spillPoison = c.spillPoison := rfl
@[simp] theorem goto_walkFault (c : Core) (e : Eng) (now target : Nat) : (c.goto e now target).walkFault = c.walkFault := rfl
@[simp] theorem goto_haltAt (c : Core) (e : Eng) (now target : Nat) : (c.goto e now target).haltAt = c.haltAt := rfl
@[simp] theorem goto_cyc (c : Core) (e : Eng) (now target : Nat) : (c.goto e now target).cyc = c.cyc := rfl

@[simp] theorem setS_p (c : Core) (n : BitVec 6) (v : Word) : (c.setS n v).p = c.p := by unfold Core.setS; split <;> rfl
@[simp] theorem setS_spillS (c : Core) (n : BitVec 6) (v : Word) : (c.setS n v).spillS = c.spillS := by unfold Core.setS; split <;> rfl
@[simp] theorem setS_fpctl (c : Core) (n : BitVec 6) (v : Word) : (c.setS n v).fpctl = c.fpctl := by unfold Core.setS; split <;> rfl
@[simp] theorem setS_fstk (c : Core) (n : BitVec 6) (v : Word) : (c.setS n v).fstk = c.fstk := by unfold Core.setS; split <;> rfl
@[simp] theorem setS_dbnd (c : Core) (n : BitVec 6) (v : Word) : (c.setS n v).dbnd = c.dbnd := by unfold Core.setS; split <;> rfl
@[simp] theorem setS_trapcause (c : Core) (n : BitVec 6) (v : Word) : (c.setS n v).trapcause = c.trapcause := by unfold Core.setS; split <;> rfl
@[simp] theorem setS_brec (c : Core) (n : BitVec 6) (v : Word) : (c.setS n v).brec = c.brec := by unfold Core.setS; split <;> rfl
@[simp] theorem setS_boundQ (c : Core) (n : BitVec 6) (v : Word) : (c.setS n v).boundQ = c.boundQ := by unfold Core.setS; split <;> rfl
@[simp] theorem setS_uivec (c : Core) (n : BitVec 6) (v : Word) : (c.setS n v).uivec = c.uivec := by unfold Core.setS; split <;> rfl
@[simp] theorem setS_uien (c : Core) (n : BitVec 6) (v : Word) : (c.setS n v).uien = c.uien := by unfold Core.setS; split <;> rfl
@[simp] theorem setS_uiact (c : Core) (n : BitVec 6) (v : Word) : (c.setS n v).uiact = c.uiact := by unfold Core.setS; split <;> rfl
@[simp] theorem setS_uiinfo (c : Core) (n : BitVec 6) (v : Word) : (c.setS n v).uiinfo = c.uiinfo := by unfold Core.setS; split <;> rfl
@[simp] theorem setS_uiepc (c : Core) (n : BitVec 6) (v : Word) : (c.setS n v).uiepc = c.uiepc := by unfold Core.setS; split <;> rfl
@[simp] theorem setS_uiBound (c : Core) (n : BitVec 6) (v : Word) : (c.setS n v).uiBound = c.uiBound := by unfold Core.setS; split <;> rfl
@[simp] theorem setS_uiBlk (c : Core) (n : BitVec 6) (v : Word) : (c.setS n v).uiBlk = c.uiBlk := by unfold Core.setS; split <;> rfl
@[simp] theorem setS_notifyQ (c : Core) (n : BitVec 6) (v : Word) : (c.setS n v).notifyQ = c.notifyQ := by unfold Core.setS; split <;> rfl
@[simp] theorem setS_bf (c : Core) (n : BitVec 6) (v : Word) : (c.setS n v).bf = c.bf := by unfold Core.setS; split <;> rfl
@[simp] theorem setS_latch (c : Core) (n : BitVec 6) (v : Word) : (c.setS n v).latch = c.latch := by unfold Core.setS; split <;> rfl
@[simp] theorem setS_cycBase (c : Core) (n : BitVec 6) (v : Word) : (c.setS n v).cycBase = c.cycBase := by unfold Core.setS; split <;> rfl
@[simp] theorem setS_dom (c : Core) (n : BitVec 6) (v : Word) : (c.setS n v).dom = c.dom := by unfold Core.setS; split <;> rfl
@[simp] theorem setS_bobj (c : Core) (n : BitVec 6) (v : Word) : (c.setS n v).bobj = c.bobj := by unfold Core.setS; split <;> rfl
@[simp] theorem setS_hBlk (c : Core) (n : BitVec 6) (v : Word) : (c.setS n v).hBlk = c.hBlk := by unfold Core.setS; split <;> rfl
@[simp] theorem setS_bOwes (c : Core) (n : BitVec 6) (v : Word) : (c.setS n v).bOwes = c.bOwes := by unfold Core.setS; split <;> rfl
@[simp] theorem setS_spillPoison (c : Core) (n : BitVec 6) (v : Word) : (c.setS n v).spillPoison = c.spillPoison := by unfold Core.setS; split <;> rfl
@[simp] theorem setS_walkFault (c : Core) (n : BitVec 6) (v : Word) : (c.setS n v).walkFault = c.walkFault := by unfold Core.setS; split <;> rfl
@[simp] theorem setS_haltAt (c : Core) (n : BitVec 6) (v : Word) : (c.setS n v).haltAt = c.haltAt := by unfold Core.setS; split <;> rfl
@[simp] theorem setS_cyc (c : Core) (n : BitVec 6) (v : Word) : (c.setS n v).cyc = c.cyc := by unfold Core.setS; split <;> rfl
@[simp] theorem setS_arrived (c : Core) (n : BitVec 6) (v : Word) : (c.setS n v).arrived = c.arrived := by unfold Core.setS; split <;> rfl
@[simp] theorem setS_seen (c : Core) (n : BitVec 6) (v : Word) : (c.setS n v).seen = c.seen := by unfold Core.setS; split <;> rfl
@[simp] theorem setS_slip (c : Core) (n : BitVec 6) (v : Word) : (c.setS n v).slip = c.slip := by unfold Core.setS; split <;> rfl
@[simp] theorem setS_tks (c : Core) (n : BitVec 6) (v : Word) : (c.setS n v).tks = c.tks := by unfold Core.setS; split <;> rfl
@[simp] theorem setS_tokens (c : Core) (n : BitVec 6) (v : Word) : (c.setS n v).tokens = c.tokens := by unfold Core.setS; split <;> rfl
@[simp] theorem setS_reserved (c : Core) (n : BitVec 6) (v : Word) : (c.setS n v).reserved = c.reserved := by unfold Core.setS; split <;> rfl
@[simp] theorem setS_queues (c : Core) (n : BitVec 6) (v : Word) : (c.setS n v).queues = c.queues := by unfold Core.setS; split <;> rfl
@[simp] theorem setS_tags (c : Core) (n : BitVec 6) (v : Word) : (c.setS n v).tags = c.tags := by unfold Core.setS; split <;> rfl
@[simp] theorem setS_recency (c : Core) (n : BitVec 6) (v : Word) : (c.setS n v).recency = c.recency := by unfold Core.setS; split <;> rfl
@[simp] theorem setS_ofs (c : Core) (n : BitVec 6) (v : Word) : (c.setS n v).ofs = c.ofs := by unfold Core.setS; split <;> rfl
@[simp] theorem setS_ty (c : Core) (n : BitVec 6) (v : Word) : (c.setS n v).ty = c.ty := by unfold Core.setS; split <;> rfl
@[simp] theorem setS_acc (c : Core) (n : BitVec 6) (v : Word) : (c.setS n v).acc = c.acc := by unfold Core.setS; split <;> rfl
@[simp] theorem setS_mgrp (c : Core) (n : BitVec 6) (v : Word) : (c.setS n v).mgrp = c.mgrp := by unfold Core.setS; split <;> rfl
@[simp] theorem setS_gsel (c : Core) (n : BitVec 6) (v : Word) : (c.setS n v).gsel = c.gsel := by unfold Core.setS; split <;> rfl
@[simp] theorem setS_mprof (c : Core) (n : BitVec 6) (v : Word) : (c.setS n v).mprof = c.mprof := by unfold Core.setS; split <;> rfl
@[simp] theorem setS_ln (c : Core) (n : BitVec 6) (v : Word) : (c.setS n v).ln = c.ln := by unfold Core.setS; split <;> rfl
@[simp] theorem setS_mx (c : Core) (n : BitVec 6) (v : Word) : (c.setS n v).mx = c.mx := by unfold Core.setS; split <;> rfl
@[simp] theorem setS_spillM (c : Core) (n : BitVec 6) (v : Word) : (c.setS n v).spillM = c.spillM := by unfold Core.setS; split <;> rfl
@[simp] theorem setS_spillK (c : Core) (n : BitVec 6) (v : Word) : (c.setS n v).spillK = c.spillK := by unfold Core.setS; split <;> rfl
@[simp] theorem setS_resumable (c : Core) (n : BitVec 6) (v : Word) : (c.setS n v).resumable = c.resumable := by unfold Core.setS; split <;> rfl
@[simp] theorem setS_mcmds (c : Core) (n : BitVec 6) (v : Word) : (c.setS n v).mcmds = c.mcmds := by unfold Core.setS; split <;> rfl
@[simp] theorem setS_kcmds (c : Core) (n : BitVec 6) (v : Word) : (c.setS n v).kcmds = c.kcmds := by unfold Core.setS; split <;> rfl
@[simp] theorem setS_cmdNo (c : Core) (n : BitVec 6) (v : Word) : (c.setS n v).cmdNo = c.cmdNo := by unfold Core.setS; split <;> rfl
@[simp] theorem setS_names (c : Core) (n : BitVec 6) (v : Word) : (c.setS n v).names = c.names := by unfold Core.setS; split <;> rfl
@[simp] theorem setS_kbind (c : Core) (n : BitVec 6) (v : Word) : (c.setS n v).kbind = c.kbind := by unfold Core.setS; split <;> rfl
@[simp] theorem setS_window (c : Core) (n : BitVec 6) (v : Word) : (c.setS n v).window = c.window := by unfold Core.setS; split <;> rfl
@[simp] theorem setS_streams (c : Core) (n : BitVec 6) (v : Word) : (c.setS n v).streams = c.streams := by unfold Core.setS; split <;> rfl
@[simp] theorem setS_lq (c : Core) (n : BitVec 6) (v : Word) : (c.setS n v).lq = c.lq := by unfold Core.setS; split <;> rfl
@[simp] theorem setS_stq (c : Core) (n : BitVec 6) (v : Word) : (c.setS n v).stq = c.stq := by unfold Core.setS; split <;> rfl
@[simp] theorem setS_vmode (c : Core) (n : BitVec 6) (v : Word) : (c.setS n v).vmode = c.vmode := by unfold Core.setS; split <;> rfl
@[simp] theorem setS_rb (c : Core) (n : BitVec 6) (v : Word) : (c.setS n v).rb = c.rb := by unfold Core.setS; split <;> rfl
@[simp] theorem setS_v (c : Core) (n : BitVec 6) (v : Word) : (c.setS n v).v = c.v := by unfold Core.setS; split <;> rfl
@[simp] theorem setS_vp (c : Core) (n : BitVec 6) (v : Word) : (c.setS n v).vp = c.vp := by unfold Core.setS; split <;> rfl
@[simp] theorem setS_spillV (c : Core) (n : BitVec 6) (v : Word) : (c.setS n v).spillV = c.spillV := by unfold Core.setS; split <;> rfl
@[simp] theorem setS_vloop (c : Core) (n : BitVec 6) (v : Word) : (c.setS n v).vloop = c.vloop := by unfold Core.setS; split <;> rfl
@[simp] theorem setS_pend (c : Core) (n : BitVec 6) (v : Word) : (c.setS n v).pend = c.pend := by unfold Core.setS; split <;> rfl
@[simp] theorem setS_rows (c : Core) (n : BitVec 6) (v : Word) : (c.setS n v).rows = c.rows := by unfold Core.setS; split <;> rfl
@[simp] theorem setS_groups (c : Core) (n : BitVec 6) (v : Word) : (c.setS n v).groups = c.groups := by unfold Core.setS; split <;> rfl
@[simp] theorem setS_forks (c : Core) (n : BitVec 6) (v : Word) : (c.setS n v).forks = c.forks := by unfold Core.setS; split <;> rfl
@[simp] theorem setS_sp (c : Core) (n : BitVec 6) (v : Word) : (c.setS n v).sp = c.sp := by unfold Core.setS; split <;> rfl
@[simp] theorem setS_spPoison (c : Core) (n : BitVec 6) (v : Word) : (c.setS n v).spPoison = c.spPoison := by unfold Core.setS; split <;> rfl
@[simp] theorem setS_tlb (c : Core) (n : BitVec 6) (v : Word) : (c.setS n v).tlb = c.tlb := by unfold Core.setS; split <;> rfl
@[simp] theorem setS_unit (c : Core) (n : BitVec 6) (v : Word) : (c.setS n v).unit = c.unit := by unfold Core.setS; split <;> rfl
@[simp] theorem setS_stopped (c : Core) (n : BitVec 6) (v : Word) : (c.setS n v).stopped = c.stopped := by unfold Core.setS; split <;> rfl
@[simp] theorem setS_sysc (c : Core) (n : BitVec 6) (v : Word) : (c.setS n v).sysc = c.sysc := by unfold Core.setS; split <;> rfl
@[simp] theorem setS_lastTag (c : Core) (n : BitVec 6) (v : Word) : (c.setS n v).lastTag = c.lastTag := by unfold Core.setS; split <;> rfl
@[simp] theorem setS_lastLaunch (c : Core) (n : BitVec 6) (v : Word) : (c.setS n v).lastLaunch = c.lastLaunch := by unfold Core.setS; split <;> rfl
@[simp] theorem setS_sOrd (c : Core) (n : BitVec 6) (v : Word) : (c.setS n v).sOrd = c.sOrd := by unfold Core.setS; split <;> rfl
@[simp] theorem setS_undeclared (c : Core) (n : BitVec 6) (v : Word) : (c.setS n v).undeclared = c.undeclared := by unfold Core.setS; split <;> rfl
@[simp] theorem setS_subs (c : Core) (n : BitVec 6) (v : Word) : (c.setS n v).subs = c.subs := by unfold Core.setS; split <;> rfl
@[simp] theorem setS_zeroing (c : Core) (n : BitVec 6) (v : Word) : (c.setS n v).zeroing = c.zeroing := by unfold Core.setS; split <;> rfl
@[simp] theorem setS_haltReq (c : Core) (n : BitVec 6) (v : Word) : (c.setS n v).haltReq = c.haltReq := by unfold Core.setS; split <;> rfl
@[simp] theorem setS_halted (c : Core) (n : BitVec 6) (v : Word) : (c.setS n v).halted = c.halted := by unfold Core.setS; split <;> rfl
@[simp] theorem setS_next (c : Core) (n : BitVec 6) (v : Word) : (c.setS n v).next = c.next := by unfold Core.setS; split <;> rfl
@[simp] theorem setS_reports (c : Core) (n : BitVec 6) (v : Word) : (c.setS n v).reports = c.reports := by unfold Core.setS; split <;> rfl
@[simp] theorem setS_stg (c : Core) (n : BitVec 6) (v : Word) : (c.setS n v).stg = c.stg := by unfold Core.setS; split <;> rfl
@[simp] theorem setS_outQ (c : Core) (n : BitVec 6) (v : Word) : (c.setS n v).outQ = c.outQ := by unfold Core.setS; split <;> rfl
@[simp] theorem setS_goRaised (c : Core) (n : BitVec 6) (v : Word) : (c.setS n v).goRaised = c.goRaised := by unfold Core.setS; split <;> rfl

@[simp] theorem setP_s (c : Core) (n : BitVec 4) (b : Bool) : (c.setP n b).s = c.s := by unfold Core.setP; split <;> rfl
@[simp] theorem setP_spillS (c : Core) (n : BitVec 4) (b : Bool) : (c.setP n b).spillS = c.spillS := by unfold Core.setP; split <;> rfl
@[simp] theorem setP_fpctl (c : Core) (n : BitVec 4) (b : Bool) : (c.setP n b).fpctl = c.fpctl := by unfold Core.setP; split <;> rfl
@[simp] theorem setP_fstk (c : Core) (n : BitVec 4) (b : Bool) : (c.setP n b).fstk = c.fstk := by unfold Core.setP; split <;> rfl
@[simp] theorem setP_dbnd (c : Core) (n : BitVec 4) (b : Bool) : (c.setP n b).dbnd = c.dbnd := by unfold Core.setP; split <;> rfl
@[simp] theorem setP_trapcause (c : Core) (n : BitVec 4) (b : Bool) : (c.setP n b).trapcause = c.trapcause := by unfold Core.setP; split <;> rfl
@[simp] theorem setP_brec (c : Core) (n : BitVec 4) (b : Bool) : (c.setP n b).brec = c.brec := by unfold Core.setP; split <;> rfl
@[simp] theorem setP_boundQ (c : Core) (n : BitVec 4) (b : Bool) : (c.setP n b).boundQ = c.boundQ := by unfold Core.setP; split <;> rfl
@[simp] theorem setP_uivec (c : Core) (n : BitVec 4) (b : Bool) : (c.setP n b).uivec = c.uivec := by unfold Core.setP; split <;> rfl
@[simp] theorem setP_uien (c : Core) (n : BitVec 4) (b : Bool) : (c.setP n b).uien = c.uien := by unfold Core.setP; split <;> rfl
@[simp] theorem setP_uiact (c : Core) (n : BitVec 4) (b : Bool) : (c.setP n b).uiact = c.uiact := by unfold Core.setP; split <;> rfl
@[simp] theorem setP_uiinfo (c : Core) (n : BitVec 4) (b : Bool) : (c.setP n b).uiinfo = c.uiinfo := by unfold Core.setP; split <;> rfl
@[simp] theorem setP_uiepc (c : Core) (n : BitVec 4) (b : Bool) : (c.setP n b).uiepc = c.uiepc := by unfold Core.setP; split <;> rfl
@[simp] theorem setP_uiBound (c : Core) (n : BitVec 4) (b : Bool) : (c.setP n b).uiBound = c.uiBound := by unfold Core.setP; split <;> rfl
@[simp] theorem setP_uiBlk (c : Core) (n : BitVec 4) (b : Bool) : (c.setP n b).uiBlk = c.uiBlk := by unfold Core.setP; split <;> rfl
@[simp] theorem setP_notifyQ (c : Core) (n : BitVec 4) (b : Bool) : (c.setP n b).notifyQ = c.notifyQ := by unfold Core.setP; split <;> rfl
@[simp] theorem setP_bf (c : Core) (n : BitVec 4) (b : Bool) : (c.setP n b).bf = c.bf := by unfold Core.setP; split <;> rfl
@[simp] theorem setP_latch (c : Core) (n : BitVec 4) (b : Bool) : (c.setP n b).latch = c.latch := by unfold Core.setP; split <;> rfl
@[simp] theorem setP_cycBase (c : Core) (n : BitVec 4) (b : Bool) : (c.setP n b).cycBase = c.cycBase := by unfold Core.setP; split <;> rfl
@[simp] theorem setP_dom (c : Core) (n : BitVec 4) (b : Bool) : (c.setP n b).dom = c.dom := by unfold Core.setP; split <;> rfl
@[simp] theorem setP_bobj (c : Core) (n : BitVec 4) (b : Bool) : (c.setP n b).bobj = c.bobj := by unfold Core.setP; split <;> rfl
@[simp] theorem setP_hBlk (c : Core) (n : BitVec 4) (b : Bool) : (c.setP n b).hBlk = c.hBlk := by unfold Core.setP; split <;> rfl
@[simp] theorem setP_bOwes (c : Core) (n : BitVec 4) (b : Bool) : (c.setP n b).bOwes = c.bOwes := by unfold Core.setP; split <;> rfl
@[simp] theorem setP_spillPoison (c : Core) (n : BitVec 4) (b : Bool) : (c.setP n b).spillPoison = c.spillPoison := by unfold Core.setP; split <;> rfl
@[simp] theorem setP_walkFault (c : Core) (n : BitVec 4) (b : Bool) : (c.setP n b).walkFault = c.walkFault := by unfold Core.setP; split <;> rfl
@[simp] theorem setP_haltAt (c : Core) (n : BitVec 4) (b : Bool) : (c.setP n b).haltAt = c.haltAt := by unfold Core.setP; split <;> rfl
@[simp] theorem setP_cyc (c : Core) (n : BitVec 4) (b : Bool) : (c.setP n b).cyc = c.cyc := by unfold Core.setP; split <;> rfl
@[simp] theorem setP_arrived (c : Core) (n : BitVec 4) (b : Bool) : (c.setP n b).arrived = c.arrived := by unfold Core.setP; split <;> rfl
@[simp] theorem setP_seen (c : Core) (n : BitVec 4) (b : Bool) : (c.setP n b).seen = c.seen := by unfold Core.setP; split <;> rfl
@[simp] theorem setP_slip (c : Core) (n : BitVec 4) (b : Bool) : (c.setP n b).slip = c.slip := by unfold Core.setP; split <;> rfl
@[simp] theorem setP_tks (c : Core) (n : BitVec 4) (b : Bool) : (c.setP n b).tks = c.tks := by unfold Core.setP; split <;> rfl
@[simp] theorem setP_tokens (c : Core) (n : BitVec 4) (b : Bool) : (c.setP n b).tokens = c.tokens := by unfold Core.setP; split <;> rfl
@[simp] theorem setP_reserved (c : Core) (n : BitVec 4) (b : Bool) : (c.setP n b).reserved = c.reserved := by unfold Core.setP; split <;> rfl
@[simp] theorem setP_queues (c : Core) (n : BitVec 4) (b : Bool) : (c.setP n b).queues = c.queues := by unfold Core.setP; split <;> rfl
@[simp] theorem setP_tags (c : Core) (n : BitVec 4) (b : Bool) : (c.setP n b).tags = c.tags := by unfold Core.setP; split <;> rfl
@[simp] theorem setP_recency (c : Core) (n : BitVec 4) (b : Bool) : (c.setP n b).recency = c.recency := by unfold Core.setP; split <;> rfl
@[simp] theorem setP_ofs (c : Core) (n : BitVec 4) (b : Bool) : (c.setP n b).ofs = c.ofs := by unfold Core.setP; split <;> rfl
@[simp] theorem setP_ty (c : Core) (n : BitVec 4) (b : Bool) : (c.setP n b).ty = c.ty := by unfold Core.setP; split <;> rfl
@[simp] theorem setP_acc (c : Core) (n : BitVec 4) (b : Bool) : (c.setP n b).acc = c.acc := by unfold Core.setP; split <;> rfl
@[simp] theorem setP_mgrp (c : Core) (n : BitVec 4) (b : Bool) : (c.setP n b).mgrp = c.mgrp := by unfold Core.setP; split <;> rfl
@[simp] theorem setP_gsel (c : Core) (n : BitVec 4) (b : Bool) : (c.setP n b).gsel = c.gsel := by unfold Core.setP; split <;> rfl
@[simp] theorem setP_mprof (c : Core) (n : BitVec 4) (b : Bool) : (c.setP n b).mprof = c.mprof := by unfold Core.setP; split <;> rfl
@[simp] theorem setP_ln (c : Core) (n : BitVec 4) (b : Bool) : (c.setP n b).ln = c.ln := by unfold Core.setP; split <;> rfl
@[simp] theorem setP_mx (c : Core) (n : BitVec 4) (b : Bool) : (c.setP n b).mx = c.mx := by unfold Core.setP; split <;> rfl
@[simp] theorem setP_spillM (c : Core) (n : BitVec 4) (b : Bool) : (c.setP n b).spillM = c.spillM := by unfold Core.setP; split <;> rfl
@[simp] theorem setP_spillK (c : Core) (n : BitVec 4) (b : Bool) : (c.setP n b).spillK = c.spillK := by unfold Core.setP; split <;> rfl
@[simp] theorem setP_resumable (c : Core) (n : BitVec 4) (b : Bool) : (c.setP n b).resumable = c.resumable := by unfold Core.setP; split <;> rfl
@[simp] theorem setP_mcmds (c : Core) (n : BitVec 4) (b : Bool) : (c.setP n b).mcmds = c.mcmds := by unfold Core.setP; split <;> rfl
@[simp] theorem setP_kcmds (c : Core) (n : BitVec 4) (b : Bool) : (c.setP n b).kcmds = c.kcmds := by unfold Core.setP; split <;> rfl
@[simp] theorem setP_cmdNo (c : Core) (n : BitVec 4) (b : Bool) : (c.setP n b).cmdNo = c.cmdNo := by unfold Core.setP; split <;> rfl
@[simp] theorem setP_names (c : Core) (n : BitVec 4) (b : Bool) : (c.setP n b).names = c.names := by unfold Core.setP; split <;> rfl
@[simp] theorem setP_kbind (c : Core) (n : BitVec 4) (b : Bool) : (c.setP n b).kbind = c.kbind := by unfold Core.setP; split <;> rfl
@[simp] theorem setP_window (c : Core) (n : BitVec 4) (b : Bool) : (c.setP n b).window = c.window := by unfold Core.setP; split <;> rfl
@[simp] theorem setP_streams (c : Core) (n : BitVec 4) (b : Bool) : (c.setP n b).streams = c.streams := by unfold Core.setP; split <;> rfl
@[simp] theorem setP_lq (c : Core) (n : BitVec 4) (b : Bool) : (c.setP n b).lq = c.lq := by unfold Core.setP; split <;> rfl
@[simp] theorem setP_stq (c : Core) (n : BitVec 4) (b : Bool) : (c.setP n b).stq = c.stq := by unfold Core.setP; split <;> rfl
@[simp] theorem setP_vmode (c : Core) (n : BitVec 4) (b : Bool) : (c.setP n b).vmode = c.vmode := by unfold Core.setP; split <;> rfl
@[simp] theorem setP_rb (c : Core) (n : BitVec 4) (b : Bool) : (c.setP n b).rb = c.rb := by unfold Core.setP; split <;> rfl
@[simp] theorem setP_v (c : Core) (n : BitVec 4) (b : Bool) : (c.setP n b).v = c.v := by unfold Core.setP; split <;> rfl
@[simp] theorem setP_vp (c : Core) (n : BitVec 4) (b : Bool) : (c.setP n b).vp = c.vp := by unfold Core.setP; split <;> rfl
@[simp] theorem setP_spillV (c : Core) (n : BitVec 4) (b : Bool) : (c.setP n b).spillV = c.spillV := by unfold Core.setP; split <;> rfl
@[simp] theorem setP_vloop (c : Core) (n : BitVec 4) (b : Bool) : (c.setP n b).vloop = c.vloop := by unfold Core.setP; split <;> rfl
@[simp] theorem setP_pend (c : Core) (n : BitVec 4) (b : Bool) : (c.setP n b).pend = c.pend := by unfold Core.setP; split <;> rfl
@[simp] theorem setP_rows (c : Core) (n : BitVec 4) (b : Bool) : (c.setP n b).rows = c.rows := by unfold Core.setP; split <;> rfl
@[simp] theorem setP_groups (c : Core) (n : BitVec 4) (b : Bool) : (c.setP n b).groups = c.groups := by unfold Core.setP; split <;> rfl
@[simp] theorem setP_forks (c : Core) (n : BitVec 4) (b : Bool) : (c.setP n b).forks = c.forks := by unfold Core.setP; split <;> rfl
@[simp] theorem setP_sp (c : Core) (n : BitVec 4) (b : Bool) : (c.setP n b).sp = c.sp := by unfold Core.setP; split <;> rfl
@[simp] theorem setP_spPoison (c : Core) (n : BitVec 4) (b : Bool) : (c.setP n b).spPoison = c.spPoison := by unfold Core.setP; split <;> rfl
@[simp] theorem setP_tlb (c : Core) (n : BitVec 4) (b : Bool) : (c.setP n b).tlb = c.tlb := by unfold Core.setP; split <;> rfl
@[simp] theorem setP_unit (c : Core) (n : BitVec 4) (b : Bool) : (c.setP n b).unit = c.unit := by unfold Core.setP; split <;> rfl
@[simp] theorem setP_stopped (c : Core) (n : BitVec 4) (b : Bool) : (c.setP n b).stopped = c.stopped := by unfold Core.setP; split <;> rfl
@[simp] theorem setP_sysc (c : Core) (n : BitVec 4) (b : Bool) : (c.setP n b).sysc = c.sysc := by unfold Core.setP; split <;> rfl
@[simp] theorem setP_lastTag (c : Core) (n : BitVec 4) (b : Bool) : (c.setP n b).lastTag = c.lastTag := by unfold Core.setP; split <;> rfl
@[simp] theorem setP_lastLaunch (c : Core) (n : BitVec 4) (b : Bool) : (c.setP n b).lastLaunch = c.lastLaunch := by unfold Core.setP; split <;> rfl
@[simp] theorem setP_sOrd (c : Core) (n : BitVec 4) (b : Bool) : (c.setP n b).sOrd = c.sOrd := by unfold Core.setP; split <;> rfl
@[simp] theorem setP_undeclared (c : Core) (n : BitVec 4) (b : Bool) : (c.setP n b).undeclared = c.undeclared := by unfold Core.setP; split <;> rfl
@[simp] theorem setP_subs (c : Core) (n : BitVec 4) (b : Bool) : (c.setP n b).subs = c.subs := by unfold Core.setP; split <;> rfl
@[simp] theorem setP_zeroing (c : Core) (n : BitVec 4) (b : Bool) : (c.setP n b).zeroing = c.zeroing := by unfold Core.setP; split <;> rfl
@[simp] theorem setP_haltReq (c : Core) (n : BitVec 4) (b : Bool) : (c.setP n b).haltReq = c.haltReq := by unfold Core.setP; split <;> rfl
@[simp] theorem setP_halted (c : Core) (n : BitVec 4) (b : Bool) : (c.setP n b).halted = c.halted := by unfold Core.setP; split <;> rfl
@[simp] theorem setP_next (c : Core) (n : BitVec 4) (b : Bool) : (c.setP n b).next = c.next := by unfold Core.setP; split <;> rfl
@[simp] theorem setP_reports (c : Core) (n : BitVec 4) (b : Bool) : (c.setP n b).reports = c.reports := by unfold Core.setP; split <;> rfl
@[simp] theorem setP_stg (c : Core) (n : BitVec 4) (b : Bool) : (c.setP n b).stg = c.stg := by unfold Core.setP; split <;> rfl
@[simp] theorem setP_outQ (c : Core) (n : BitVec 4) (b : Bool) : (c.setP n b).outQ = c.outQ := by unfold Core.setP; split <;> rfl
@[simp] theorem setP_goRaised (c : Core) (n : BitVec 4) (b : Bool) : (c.setP n b).goRaised = c.goRaised := by unfold Core.setP; split <;> rfl

@[simp] theorem setVp_s (c : Core) (n : BitVec 4) (mask x : VPred) : (c.setVp n mask x).s = c.s := by unfold Core.setVp; split <;> rfl
@[simp] theorem setVp_p (c : Core) (n : BitVec 4) (mask x : VPred) : (c.setVp n mask x).p = c.p := by unfold Core.setVp; split <;> rfl
@[simp] theorem setVp_spillS (c : Core) (n : BitVec 4) (mask x : VPred) : (c.setVp n mask x).spillS = c.spillS := by unfold Core.setVp; split <;> rfl
@[simp] theorem setVp_fpctl (c : Core) (n : BitVec 4) (mask x : VPred) : (c.setVp n mask x).fpctl = c.fpctl := by unfold Core.setVp; split <;> rfl
@[simp] theorem setVp_fstk (c : Core) (n : BitVec 4) (mask x : VPred) : (c.setVp n mask x).fstk = c.fstk := by unfold Core.setVp; split <;> rfl
@[simp] theorem setVp_dbnd (c : Core) (n : BitVec 4) (mask x : VPred) : (c.setVp n mask x).dbnd = c.dbnd := by unfold Core.setVp; split <;> rfl
@[simp] theorem setVp_trapcause (c : Core) (n : BitVec 4) (mask x : VPred) : (c.setVp n mask x).trapcause = c.trapcause := by unfold Core.setVp; split <;> rfl
@[simp] theorem setVp_brec (c : Core) (n : BitVec 4) (mask x : VPred) : (c.setVp n mask x).brec = c.brec := by unfold Core.setVp; split <;> rfl
@[simp] theorem setVp_boundQ (c : Core) (n : BitVec 4) (mask x : VPred) : (c.setVp n mask x).boundQ = c.boundQ := by unfold Core.setVp; split <;> rfl
@[simp] theorem setVp_uivec (c : Core) (n : BitVec 4) (mask x : VPred) : (c.setVp n mask x).uivec = c.uivec := by unfold Core.setVp; split <;> rfl
@[simp] theorem setVp_uien (c : Core) (n : BitVec 4) (mask x : VPred) : (c.setVp n mask x).uien = c.uien := by unfold Core.setVp; split <;> rfl
@[simp] theorem setVp_uiact (c : Core) (n : BitVec 4) (mask x : VPred) : (c.setVp n mask x).uiact = c.uiact := by unfold Core.setVp; split <;> rfl
@[simp] theorem setVp_uiinfo (c : Core) (n : BitVec 4) (mask x : VPred) : (c.setVp n mask x).uiinfo = c.uiinfo := by unfold Core.setVp; split <;> rfl
@[simp] theorem setVp_uiepc (c : Core) (n : BitVec 4) (mask x : VPred) : (c.setVp n mask x).uiepc = c.uiepc := by unfold Core.setVp; split <;> rfl
@[simp] theorem setVp_uiBound (c : Core) (n : BitVec 4) (mask x : VPred) : (c.setVp n mask x).uiBound = c.uiBound := by unfold Core.setVp; split <;> rfl
@[simp] theorem setVp_uiBlk (c : Core) (n : BitVec 4) (mask x : VPred) : (c.setVp n mask x).uiBlk = c.uiBlk := by unfold Core.setVp; split <;> rfl
@[simp] theorem setVp_notifyQ (c : Core) (n : BitVec 4) (mask x : VPred) : (c.setVp n mask x).notifyQ = c.notifyQ := by unfold Core.setVp; split <;> rfl
@[simp] theorem setVp_bf (c : Core) (n : BitVec 4) (mask x : VPred) : (c.setVp n mask x).bf = c.bf := by unfold Core.setVp; split <;> rfl
@[simp] theorem setVp_latch (c : Core) (n : BitVec 4) (mask x : VPred) : (c.setVp n mask x).latch = c.latch := by unfold Core.setVp; split <;> rfl
@[simp] theorem setVp_cycBase (c : Core) (n : BitVec 4) (mask x : VPred) : (c.setVp n mask x).cycBase = c.cycBase := by unfold Core.setVp; split <;> rfl
@[simp] theorem setVp_dom (c : Core) (n : BitVec 4) (mask x : VPred) : (c.setVp n mask x).dom = c.dom := by unfold Core.setVp; split <;> rfl
@[simp] theorem setVp_bobj (c : Core) (n : BitVec 4) (mask x : VPred) : (c.setVp n mask x).bobj = c.bobj := by unfold Core.setVp; split <;> rfl
@[simp] theorem setVp_hBlk (c : Core) (n : BitVec 4) (mask x : VPred) : (c.setVp n mask x).hBlk = c.hBlk := by unfold Core.setVp; split <;> rfl
@[simp] theorem setVp_bOwes (c : Core) (n : BitVec 4) (mask x : VPred) : (c.setVp n mask x).bOwes = c.bOwes := by unfold Core.setVp; split <;> rfl
@[simp] theorem setVp_spillPoison (c : Core) (n : BitVec 4) (mask x : VPred) : (c.setVp n mask x).spillPoison = c.spillPoison := by unfold Core.setVp; split <;> rfl
@[simp] theorem setVp_walkFault (c : Core) (n : BitVec 4) (mask x : VPred) : (c.setVp n mask x).walkFault = c.walkFault := by unfold Core.setVp; split <;> rfl
@[simp] theorem setVp_haltAt (c : Core) (n : BitVec 4) (mask x : VPred) : (c.setVp n mask x).haltAt = c.haltAt := by unfold Core.setVp; split <;> rfl
@[simp] theorem setVp_cyc (c : Core) (n : BitVec 4) (mask x : VPred) : (c.setVp n mask x).cyc = c.cyc := by unfold Core.setVp; split <;> rfl
@[simp] theorem setVp_arrived (c : Core) (n : BitVec 4) (mask x : VPred) : (c.setVp n mask x).arrived = c.arrived := by unfold Core.setVp; split <;> rfl
@[simp] theorem setVp_seen (c : Core) (n : BitVec 4) (mask x : VPred) : (c.setVp n mask x).seen = c.seen := by unfold Core.setVp; split <;> rfl
@[simp] theorem setVp_slip (c : Core) (n : BitVec 4) (mask x : VPred) : (c.setVp n mask x).slip = c.slip := by unfold Core.setVp; split <;> rfl
@[simp] theorem setVp_tks (c : Core) (n : BitVec 4) (mask x : VPred) : (c.setVp n mask x).tks = c.tks := by unfold Core.setVp; split <;> rfl
@[simp] theorem setVp_tokens (c : Core) (n : BitVec 4) (mask x : VPred) : (c.setVp n mask x).tokens = c.tokens := by unfold Core.setVp; split <;> rfl
@[simp] theorem setVp_reserved (c : Core) (n : BitVec 4) (mask x : VPred) : (c.setVp n mask x).reserved = c.reserved := by unfold Core.setVp; split <;> rfl
@[simp] theorem setVp_queues (c : Core) (n : BitVec 4) (mask x : VPred) : (c.setVp n mask x).queues = c.queues := by unfold Core.setVp; split <;> rfl
@[simp] theorem setVp_tags (c : Core) (n : BitVec 4) (mask x : VPred) : (c.setVp n mask x).tags = c.tags := by unfold Core.setVp; split <;> rfl
@[simp] theorem setVp_recency (c : Core) (n : BitVec 4) (mask x : VPred) : (c.setVp n mask x).recency = c.recency := by unfold Core.setVp; split <;> rfl
@[simp] theorem setVp_ofs (c : Core) (n : BitVec 4) (mask x : VPred) : (c.setVp n mask x).ofs = c.ofs := by unfold Core.setVp; split <;> rfl
@[simp] theorem setVp_ty (c : Core) (n : BitVec 4) (mask x : VPred) : (c.setVp n mask x).ty = c.ty := by unfold Core.setVp; split <;> rfl
@[simp] theorem setVp_acc (c : Core) (n : BitVec 4) (mask x : VPred) : (c.setVp n mask x).acc = c.acc := by unfold Core.setVp; split <;> rfl
@[simp] theorem setVp_mgrp (c : Core) (n : BitVec 4) (mask x : VPred) : (c.setVp n mask x).mgrp = c.mgrp := by unfold Core.setVp; split <;> rfl
@[simp] theorem setVp_gsel (c : Core) (n : BitVec 4) (mask x : VPred) : (c.setVp n mask x).gsel = c.gsel := by unfold Core.setVp; split <;> rfl
@[simp] theorem setVp_mprof (c : Core) (n : BitVec 4) (mask x : VPred) : (c.setVp n mask x).mprof = c.mprof := by unfold Core.setVp; split <;> rfl
@[simp] theorem setVp_ln (c : Core) (n : BitVec 4) (mask x : VPred) : (c.setVp n mask x).ln = c.ln := by unfold Core.setVp; split <;> rfl
@[simp] theorem setVp_mx (c : Core) (n : BitVec 4) (mask x : VPred) : (c.setVp n mask x).mx = c.mx := by unfold Core.setVp; split <;> rfl
@[simp] theorem setVp_spillM (c : Core) (n : BitVec 4) (mask x : VPred) : (c.setVp n mask x).spillM = c.spillM := by unfold Core.setVp; split <;> rfl
@[simp] theorem setVp_spillK (c : Core) (n : BitVec 4) (mask x : VPred) : (c.setVp n mask x).spillK = c.spillK := by unfold Core.setVp; split <;> rfl
@[simp] theorem setVp_resumable (c : Core) (n : BitVec 4) (mask x : VPred) : (c.setVp n mask x).resumable = c.resumable := by unfold Core.setVp; split <;> rfl
@[simp] theorem setVp_mcmds (c : Core) (n : BitVec 4) (mask x : VPred) : (c.setVp n mask x).mcmds = c.mcmds := by unfold Core.setVp; split <;> rfl
@[simp] theorem setVp_kcmds (c : Core) (n : BitVec 4) (mask x : VPred) : (c.setVp n mask x).kcmds = c.kcmds := by unfold Core.setVp; split <;> rfl
@[simp] theorem setVp_cmdNo (c : Core) (n : BitVec 4) (mask x : VPred) : (c.setVp n mask x).cmdNo = c.cmdNo := by unfold Core.setVp; split <;> rfl
@[simp] theorem setVp_names (c : Core) (n : BitVec 4) (mask x : VPred) : (c.setVp n mask x).names = c.names := by unfold Core.setVp; split <;> rfl
@[simp] theorem setVp_kbind (c : Core) (n : BitVec 4) (mask x : VPred) : (c.setVp n mask x).kbind = c.kbind := by unfold Core.setVp; split <;> rfl
@[simp] theorem setVp_window (c : Core) (n : BitVec 4) (mask x : VPred) : (c.setVp n mask x).window = c.window := by unfold Core.setVp; split <;> rfl
@[simp] theorem setVp_streams (c : Core) (n : BitVec 4) (mask x : VPred) : (c.setVp n mask x).streams = c.streams := by unfold Core.setVp; split <;> rfl
@[simp] theorem setVp_lq (c : Core) (n : BitVec 4) (mask x : VPred) : (c.setVp n mask x).lq = c.lq := by unfold Core.setVp; split <;> rfl
@[simp] theorem setVp_stq (c : Core) (n : BitVec 4) (mask x : VPred) : (c.setVp n mask x).stq = c.stq := by unfold Core.setVp; split <;> rfl
@[simp] theorem setVp_vmode (c : Core) (n : BitVec 4) (mask x : VPred) : (c.setVp n mask x).vmode = c.vmode := by unfold Core.setVp; split <;> rfl
@[simp] theorem setVp_rb (c : Core) (n : BitVec 4) (mask x : VPred) : (c.setVp n mask x).rb = c.rb := by unfold Core.setVp; split <;> rfl
@[simp] theorem setVp_v (c : Core) (n : BitVec 4) (mask x : VPred) : (c.setVp n mask x).v = c.v := by unfold Core.setVp; split <;> rfl
@[simp] theorem setVp_spillV (c : Core) (n : BitVec 4) (mask x : VPred) : (c.setVp n mask x).spillV = c.spillV := by unfold Core.setVp; split <;> rfl
@[simp] theorem setVp_vloop (c : Core) (n : BitVec 4) (mask x : VPred) : (c.setVp n mask x).vloop = c.vloop := by unfold Core.setVp; split <;> rfl
@[simp] theorem setVp_pend (c : Core) (n : BitVec 4) (mask x : VPred) : (c.setVp n mask x).pend = c.pend := by unfold Core.setVp; split <;> rfl
@[simp] theorem setVp_rows (c : Core) (n : BitVec 4) (mask x : VPred) : (c.setVp n mask x).rows = c.rows := by unfold Core.setVp; split <;> rfl
@[simp] theorem setVp_groups (c : Core) (n : BitVec 4) (mask x : VPred) : (c.setVp n mask x).groups = c.groups := by unfold Core.setVp; split <;> rfl
@[simp] theorem setVp_forks (c : Core) (n : BitVec 4) (mask x : VPred) : (c.setVp n mask x).forks = c.forks := by unfold Core.setVp; split <;> rfl
@[simp] theorem setVp_sp (c : Core) (n : BitVec 4) (mask x : VPred) : (c.setVp n mask x).sp = c.sp := by unfold Core.setVp; split <;> rfl
@[simp] theorem setVp_spPoison (c : Core) (n : BitVec 4) (mask x : VPred) : (c.setVp n mask x).spPoison = c.spPoison := by unfold Core.setVp; split <;> rfl
@[simp] theorem setVp_tlb (c : Core) (n : BitVec 4) (mask x : VPred) : (c.setVp n mask x).tlb = c.tlb := by unfold Core.setVp; split <;> rfl
@[simp] theorem setVp_unit (c : Core) (n : BitVec 4) (mask x : VPred) : (c.setVp n mask x).unit = c.unit := by unfold Core.setVp; split <;> rfl
@[simp] theorem setVp_stopped (c : Core) (n : BitVec 4) (mask x : VPred) : (c.setVp n mask x).stopped = c.stopped := by unfold Core.setVp; split <;> rfl
@[simp] theorem setVp_sysc (c : Core) (n : BitVec 4) (mask x : VPred) : (c.setVp n mask x).sysc = c.sysc := by unfold Core.setVp; split <;> rfl
@[simp] theorem setVp_lastTag (c : Core) (n : BitVec 4) (mask x : VPred) : (c.setVp n mask x).lastTag = c.lastTag := by unfold Core.setVp; split <;> rfl
@[simp] theorem setVp_lastLaunch (c : Core) (n : BitVec 4) (mask x : VPred) : (c.setVp n mask x).lastLaunch = c.lastLaunch := by unfold Core.setVp; split <;> rfl
@[simp] theorem setVp_sOrd (c : Core) (n : BitVec 4) (mask x : VPred) : (c.setVp n mask x).sOrd = c.sOrd := by unfold Core.setVp; split <;> rfl
@[simp] theorem setVp_undeclared (c : Core) (n : BitVec 4) (mask x : VPred) : (c.setVp n mask x).undeclared = c.undeclared := by unfold Core.setVp; split <;> rfl
@[simp] theorem setVp_subs (c : Core) (n : BitVec 4) (mask x : VPred) : (c.setVp n mask x).subs = c.subs := by unfold Core.setVp; split <;> rfl
@[simp] theorem setVp_zeroing (c : Core) (n : BitVec 4) (mask x : VPred) : (c.setVp n mask x).zeroing = c.zeroing := by unfold Core.setVp; split <;> rfl
@[simp] theorem setVp_haltReq (c : Core) (n : BitVec 4) (mask x : VPred) : (c.setVp n mask x).haltReq = c.haltReq := by unfold Core.setVp; split <;> rfl
@[simp] theorem setVp_halted (c : Core) (n : BitVec 4) (mask x : VPred) : (c.setVp n mask x).halted = c.halted := by unfold Core.setVp; split <;> rfl
@[simp] theorem setVp_next (c : Core) (n : BitVec 4) (mask x : VPred) : (c.setVp n mask x).next = c.next := by unfold Core.setVp; split <;> rfl
@[simp] theorem setVp_reports (c : Core) (n : BitVec 4) (mask x : VPred) : (c.setVp n mask x).reports = c.reports := by unfold Core.setVp; split <;> rfl
@[simp] theorem setVp_stg (c : Core) (n : BitVec 4) (mask x : VPred) : (c.setVp n mask x).stg = c.stg := by unfold Core.setVp; split <;> rfl
@[simp] theorem setVp_outQ (c : Core) (n : BitVec 4) (mask x : VPred) : (c.setVp n mask x).outQ = c.outQ := by unfold Core.setVp; split <;> rfl
@[simp] theorem setVp_goRaised (c : Core) (n : BitVec 4) (mask x : VPred) : (c.setVp n mask x).goRaised = c.goRaised := by unfold Core.setVp; split <;> rfl

/- Streams and queues read back. -/

@[simp] theorem stream_setStream_same (c : Core) (e : Eng) (st : Stream) : (c.setStream e st).stream e = st :=
  tbl_get_set_same _ _ _ _
theorem engNum_inj {e f : Eng} (h : engNum e = engNum f) : e = f := by cases e <;> cases f <;> simp_all [engNum]
theorem stream_setStream_other (c : Core) {e f : Eng} (st : Stream) (n : e ≠ f) : (c.setStream e st).stream f = c.stream f :=
  tbl_get_set_other _ _ (fun h => n (engNum_inj h)) _
@[simp] theorem queue_setQueue_same (c : Core) (q : Nat) (l : List QEntry) : (c.setQueue q l).queue q = l :=
  tbl_get_set_same _ _ _ _
theorem queue_setQueue_other (c : Core) {q r : Nat} (l : List QEntry) (n : q ≠ r) : (c.setQueue q l).queue r = c.queue r :=
  tbl_get_set_other _ _ n _
@[simp] theorem loads_setLoads_same (c : Core) (e : Eng) (l : List Access) : (c.setLoads e l).loads e = l :=
  tbl_get_set_same _ _ _ _
theorem loads_setLoads_other (c : Core) {e f : Eng} (l : List Access) (n : e ≠ f) : (c.setLoads e l).loads f = c.loads f :=
  tbl_get_set_other _ _ (fun h => n (engNum_inj h)) _
@[simp] theorem stores_setStores_same (c : Core) (e : Eng) (l : List Access) : (c.setStores e l).stores e = l :=
  tbl_get_set_same _ _ _ _
theorem stores_setStores_other (c : Core) {e f : Eng} (l : List Access) (n : e ≠ f) : (c.setStores e l).stores f = c.stores f :=
  tbl_get_set_other _ _ (fun h => n (engNum_inj h)) _
@[simp] theorem ofSlot_setOf_same (c : Core) (i : Nat) (o : OfSlot) : (c.setOf i o).ofSlot i = o := tbl_get_set_same _ _ _ _
theorem ofSlot_setOf_other (c : Core) {i j : Nat} (o : OfSlot) (n : i ≠ j) : (c.setOf i o).ofSlot j = c.ofSlot j :=
  tbl_get_set_other _ _ n _

/- S registers and predicates read back (09 R180). -/

theorem sKey_inj (c : Core) {m n : Nat} (hm : m < 64) (hn : n < 64) (h : c.sKey m = c.sKey n) : m = n := by
  unfold Core.sKey at h
  cases c.uiact <;> simp at h <;> split at h <;> split at h <;> omega

theorem getS_setS (c : Core) (n r : BitVec 6) (v : Word) :
    (c.setS n v).getS r = if r = n ∧ r ≠ 0 then v else c.getS r := by
  by_cases hn : n = 0
  · subst hn; by_cases hr : r = 0 <;> simp [Core.setS, hr]
  · by_cases hr : r = 0
    · subst hr; simp [Core.getS]
    · have hk : (c.setS n v).sKey r.toNat = c.sKey r.toNat := by simp [Core.sKey]
      by_cases e : r = n
      · subst e
        have k : (Tbl.set 0 c.s (c.sKey r.toNat) v).get 0 (c.sKey r.toNat) = v := tbl_get_set_same _ _ _ _
        simp only [Core.getS, hr, if_false, hk]
        simpa only [Core.setS, hr, if_false, true_and, ne_eq, not_false_eq_true, if_true] using k
      · have : c.sKey n.toNat ≠ c.sKey r.toNat := fun h =>
          e (BitVec.eq_of_toNat_eq (sKey_inj c n.isLt r.isLt h)).symm
        have k : (Tbl.set 0 c.s (c.sKey n.toNat) v).get 0 (c.sKey r.toNat) = c.s.get 0 (c.sKey r.toNat) :=
          tbl_get_set_other _ _ this _
        simp only [Core.getS, hr, if_false, hk, e, false_and]
        simp only [Core.setS, hn, if_false]
        exact k

theorem getP_setP (c : Core) (n r : BitVec 4) (b : Bool) :
    (c.setP n b).getP r = if r = n ∧ r ≠ 0 then b else c.getP r := by
  by_cases hn : n = 0
  · subst hn; by_cases hr : r = 0 <;> simp [Core.setP, hr]
  · by_cases hr : r = 0
    · subst hr; simp [Core.getP]
    · have hlt : r.toNat < 16 := r.isLt
      have ne : (r = n) ↔ r.toNat = n.toNat := by constructor <;> intro h; · rw [h]
                                                  · exact BitVec.eq_of_toNat_eq h
      simp only [Core.getP, Core.setP, hr, hn, if_false]
      have one : (1#16 <<< n.toNat).getLsbD r.toNat = decide (r = n) := by
        simp only [BitVec.getLsbD_shiftLeft, hlt, decide_true, Bool.true_and, BitVec.getLsbD_one]
        by_cases e : r = n
        · subst e; simp
        · have : r.toNat ≠ n.toNat := fun h => e (ne.mpr h)
          by_cases l : r.toNat < n.toNat
          · simp [l, e]
          · have : r.toNat - n.toNat ≠ 0 := by omega
            simp [l, e, this]
      by_cases e : r = n
      · subst e
        rw [show (if r = r ∧ r ≠ 0 then b else c.p.getLsbD r.toNat) = b from if_pos ⟨rfl, hr⟩]
        cases b <;> simp [hlt]
      · rw [show (if r = n ∧ r ≠ 0 then b else c.p.getLsbD r.toNat) = c.p.getLsbD r.toNat from if_neg (fun h => e h.1)]
        have z : (1#16 <<< n.toNat).getLsbD r.toNat = false := by rw [one]; simp [e]
        cases b
        · rw [if_neg Bool.false_ne_true, BitVec.getLsbD_and, BitVec.getLsbD_not, z]; simp [hlt]
        · rw [if_pos rfl, BitVec.getLsbD_or, z]; simp

end Sys2Proof.Machine
end

