-- ==== Sys2Proof/Laws/Faults.lean ====
section
/-!
SUPPORT. What taking a fault does, and what entering the user-level handler and returning from it do: each said once.
-/
namespace Sys2Proof.Laws
open Sys2Proof.Machine Sys2Proof.Safety

/- Banks. -/

@[simp] theorem bank_setBank_same (s : State) (b : BankId) (x : Bank) : (s.setBank b x).bank b = x := tbl_get_set_same _ _ _ _
theorem bank_setBank_other (s : State) {b d : BankId} (x : Bank) (n : bankKey b ≠ bankKey d) : (s.setBank b x).bank d = s.bank d :=
  tbl_get_set_other _ _ n _

/- The purge that a fault begins (20 R377, R378). -/

/-- It touches the purges only. -/
theorem startPurge_shape (s : State) (tag : BitVec 16) (code g : Nat) : ∃ ps, startPurge s tag code g = { s with purges := ps } := by
  unfold startPurge; split <;> exact ⟨_, rfl⟩

/-- The purge of the tag runs. -/
theorem startPurge_runs (s : State) (tag : BitVec 16) (code g : Nat) : ∃ p ∈ (startPurge s tag code g).purges, p.tag = tag := by
  unfold startPurge
  split
  · rename_i h
    obtain ⟨p, m, e⟩ := List.any_eq_true.1 h
    refine ⟨_, List.mem_map_of_mem m, ?_⟩
    have e : p.tag = tag := by simpa using e
    split <;> exact e
  · exact ⟨_, List.mem_append_right _ (List.mem_singleton_self _), rfl⟩

/- Recording an uncorrectable error (20 R375). -/

/-- It touches its bank, and the list of the banks that have recorded one in this cycle. -/
theorem recordUc_shape (id : BankId) (tag : BitVec 16) (f : FaultInfo) (s : State) :
    ∃ b us, recordUc id tag f s = { s.setBank id b with ucNow := us } := by
  unfold recordUc
  simp only
  split
  · split <;> exact ⟨_, s.ucNow, rfl⟩
  · exact ⟨_, _, rfl⟩

/-- A bank takes the record as R375 says, where its record is none of this cycle from a later source. -/
theorem recordUc_bank {id : BankId} {tag : BitVec 16} {f : FaultInfo} {s : State}
    (h : s.ucNow.contains (bankKey id) = false ∨ ((s.bank id).valid && (s.bank id).uc) = false) :
    (recordUc id tag f s).bank id = (s.bank id).uncorrectable tag f := by
  unfold recordUc
  simp only
  split
  · rename_i k
    rw [if_neg]
    · exact bank_setBank_same _ _ _
    · rcases h with h | h
      · rw [h]; simp
      · rw [h] at k; simp at k
  · exact bank_setBank_same s id _

/-- No other bank differs. -/
theorem recordUc_bank_other {id d : BankId} (tag : BitVec 16) (f : FaultInfo) (s : State) (n : bankKey id ≠ bankKey d) :
    (recordUc id tag f s).bank d = s.bank d := by
  obtain ⟨b, us, e⟩ := recordUc_shape id tag f s
  rw [e]; exact bank_setBank_other s b n

/- Taking a fault (20 R375 to R377). -/

theorem unitFault_shape (g : Nat) (f : FaultInfo) (s : State) : ∃ b us ps, unitFault g f s =
    { (s.setBank (.core g) b).setCore g ((s.core g).faultedBy f.src) with ucNow := us, purges := ps } := by
  obtain ⟨b, us, e⟩ := recordUc_shape (.core g) (s.core g).unitTag (withDdev s f) s
  obtain ⟨ps, k⟩ := startPurge_shape ((recordUc (.core g) (s.core g).unitTag (withDdev s f) s).setCore g
    ((s.core g).faultedBy f.src)) (s.core g).unitTag f.code g
  refine ⟨b, us, ps, ?_⟩
  unfold unitFault
  rw [k, e]; rfl

/-- The banks are as the record leaves them. -/
theorem unitFault_banks (g : Nat) (f : FaultInfo) (s : State) (b : BankId) :
    (unitFault g f s).bank b = (recordUc (.core g) (s.core g).unitTag (withDdev s f) s).bank b := by
  obtain ⟨ps, k⟩ := startPurge_shape ((recordUc (.core g) (s.core g).unitTag (withDdev s f) s).setCore g
    ((s.core g).faultedBy f.src)) (s.core g).unitTag f.code g
  unfold unitFault
  rw [k]; rfl

/-- The unit is stopped. -/
@[simp] theorem unitFault_core (g : Nat) (f : FaultInfo) (s : State) :
    (unitFault g f s).core g = (s.core g).faultedBy f.src := by
  obtain ⟨b, us, ps, e⟩ := unitFault_shape g f s
  rw [e]; exact core_setCore_same _ _ _

/-- No other core is. -/
theorem unitFault_core_other (f : FaultInfo) (s : State) {g h : Nat} (n : g ≠ h) : (unitFault g f s).core h = s.core h := by
  obtain ⟨b, us, ps, e⟩ := unitFault_shape g f s
  rw [e]; exact core_setCore_other _ _ n

@[simp] theorem unitFault_dram (g : Nat) (f : FaultInfo) (s : State) : (unitFault g f s).dram = s.dram := by
  obtain ⟨b, us, ps, e⟩ := unitFault_shape g f s
  rw [e]; rfl

/-- The core's bank receives the record. -/
theorem unitFault_bank {g : Nat} {f : FaultInfo} {s : State}
    (h : s.ucNow.contains g = false ∨ ((s.bank (.core g)).valid && (s.bank (.core g)).uc) = false) :
    (unitFault g f s).bank (.core g) = (s.bank (.core g)).uncorrectable (s.core g).unitTag (withDdev s f) := by
  rw [unitFault_banks]; exact recordUc_bank h

/-- No other bank does. -/
theorem unitFault_bank_other (f : FaultInfo) (s : State) {g : Nat} {b : BankId} (n : g ≠ bankKey b) : (unitFault g f s).bank b = s.bank b := by
  rw [unitFault_banks]; exact recordUc_bank_other _ _ _ n

/-- The purge of the unit's tag runs. -/
theorem unitFault_purges (g : Nat) (f : FaultInfo) (s : State) : ∃ p ∈ (unitFault g f s).purges, p.tag = (s.core g).unitTag :=
  startPurge_runs _ _ _ _

/-- No byte of memory differs. -/
theorem unitFault_sameMemory (g : Nat) (f : FaultInfo) (s : State) : Claims.SameMemory s (unitFault g f s) := by
  refine ⟨fun a => by rw [unitFault_dram], fun h a => ?_⟩
  by_cases e : g = h
  · subst e; rw [unitFault_core]; rfl
  · rw [unitFault_core_other f s e]

theorem unitFault_memWf {s : State} (g : Nat) (f : FaultInfo) (h : memWf s = true) : memWf (unitFault g f s) = true := by
  obtain ⟨b, us, ps, e⟩ := unitFault_shape g f s
  rw [e]
  have h : memWf (s.setBank (.core g) b) = true := h
  obtain ⟨a, b, c⟩ := memWf_iff.1 (setCore_memWf_same (c := (s.core g).faultedBy f.src) (g := g) h rfl)
  exact memWf_iff.2 ⟨a, b, c⟩

/- The fields of EBS (20 R374). -/

variable (ov ce : BitVec 16) (seq code : BitVec 8) (src : BitVec 4) (ovr uc valid : Bool)

/-- A bit of EBS, read from the lowest field up. -/
theorem ebsOf_bit (i : Nat) : (ebsOf ov ce seq code src ovr uc valid).getLsbD i =
    if i < 1 then (BitVec.ofBool valid).getLsbD i else if i < 2 then (BitVec.ofBool uc).getLsbD (i - 1)
    else if i < 3 then (BitVec.ofBool ovr).getLsbD (i - 2) else if i < 8 then false else if i < 16 then code.getLsbD (i - 8)
    else if i < 20 then src.getLsbD (i - 16) else if i < 24 then false else if i < 32 then seq.getLsbD (i - 24)
    else if i < 48 then ce.getLsbD (i - 32) else ov.getLsbD (i - 48) := by
  change (ov ++ ce ++ seq ++ (0 : BitVec 4) ++ src ++ code ++ (0 : BitVec 5) ++ BitVec.ofBool ovr ++ BitVec.ofBool uc ++
    BitVec.ofBool valid : BitVec (16 + 16 + 8 + 4 + 4 + 8 + 5 + 1 + 1 + 1)).getLsbD i = _
  have e (a b c : Nat) (h : a + b = c) (hb : 0 < b) : (i - a < b) = (i < c) := propext (by omega)
  rw [BitVec.getLsbD_append, BitVec.getLsbD_append, BitVec.getLsbD_append, BitVec.getLsbD_append, BitVec.getLsbD_append,
    BitVec.getLsbD_append, BitVec.getLsbD_append, BitVec.getLsbD_append, BitVec.getLsbD_append]
  simp only [Nat.sub_sub, Nat.reduceAdd, e 1 1 2 rfl (by decide), e 2 1 3 rfl (by decide), e 3 5 8 rfl (by decide),
    e 8 8 16 rfl (by decide), e 16 4 20 rfl (by decide), e 20 4 24 rfl (by decide), e 24 8 32 rfl (by decide), e 32 16 48 rfl (by decide),
    BitVec.ofNat_eq_ofNat, BitVec.getLsbD_zero]

@[simp] theorem ebsOf_valid : (ebsOf ov ce seq code src ovr uc valid).getLsbD 0 = valid := by
  rw [ebsOf_bit]; simp
@[simp] theorem ebsOf_uc : (ebsOf ov ce seq code src ovr uc valid).getLsbD 1 = uc := by
  rw [ebsOf_bit]; simp
@[simp] theorem ebsOf_ovr : (ebsOf ov ce seq code src ovr uc valid).getLsbD 2 = ovr := by
  rw [ebsOf_bit]; simp

/-- A field of EBS, of its width at its place. -/
theorem ebsOf_field {n : Nat} (k : Nat) (x : BitVec n) (h : ∀ i, i < n → (ebsOf ov ce seq code src ovr uc valid).getLsbD (k + i) = x.getLsbD i) :
    (ebsOf ov ce seq code src ovr uc valid).extractLsb' k n = x := by
  refine BitVec.eq_of_getLsbD_eq fun i l => ?_
  rw [BitVec.getLsbD_extractLsb', h i l]; simp [l]

@[simp] theorem ebsOf_code : (ebsOf ov ce seq code src ovr uc valid).extractLsb' 8 8 = code := by
  refine ebsOf_field _ _ _ _ _ _ _ _ 8 code fun i h => ?_
  rw [ebsOf_bit]; repeat (first | rw [if_neg (by omega)] | rw [if_pos (by omega)])
  rw [show 8 + i - 8 = i by omega]
@[simp] theorem ebsOf_src : (ebsOf ov ce seq code src ovr uc valid).extractLsb' 16 4 = src := by
  refine ebsOf_field _ _ _ _ _ _ _ _ 16 src fun i h => ?_
  rw [ebsOf_bit]; repeat (first | rw [if_neg (by omega)] | rw [if_pos (by omega)])
  rw [show 16 + i - 16 = i by omega]
@[simp] theorem ebsOf_seq : (ebsOf ov ce seq code src ovr uc valid).extractLsb' 24 8 = seq := by
  refine ebsOf_field _ _ _ _ _ _ _ _ 24 seq fun i h => ?_
  rw [ebsOf_bit]; repeat (first | rw [if_neg (by omega)] | rw [if_pos (by omega)])
  rw [show 24 + i - 24 = i by omega]
@[simp] theorem ebsOf_ce : (ebsOf ov ce seq code src ovr uc valid).extractLsb' 32 16 = ce := by
  refine ebsOf_field _ _ _ _ _ _ _ _ 32 ce fun i h => ?_
  rw [ebsOf_bit]; repeat (first | rw [if_neg (by omega)] | rw [if_pos (by omega)])
  rw [show 32 + i - 32 = i by omega]
@[simp] theorem ebsOf_ov : (ebsOf ov ce seq code src ovr uc valid).extractLsb' 48 16 = ov := by
  refine ebsOf_field _ _ _ _ _ _ _ _ 48 ov fun i h => ?_
  rw [ebsOf_bit]; repeat rw [if_neg (by omega)]
  rw [show 48 + i - 48 = i by omega]

/-- A bank that holds no uncorrectable record takes this one (20 R375). -/
theorem uncorrectable_first {b : Bank} (h : (b.valid && b.uc) = false) (tag : BitVec 16) (f : FaultInfo) :
    b.uncorrectable tag f = b.write tag true b.cecnt f := by
  unfold Bank.uncorrectable; rw [if_neg (by simp [h])]

/-- One that holds one keeps it, and counts. -/
theorem uncorrectable_again {b : Bank} (h : (b.valid && b.uc) = true) (tag : BitVec 16) (f : FaultInfo) :
    (b.uncorrectable tag f).eba = b.eba ∧ (b.uncorrectable tag f).ebx = b.ebx ∧ (b.uncorrectable tag f).ebc = b.ebc ∧
      (b.uncorrectable tag f).ovfcnt = satInc b.ovfcnt ∧ (b.uncorrectable tag f).ebs.extractLsb' 8 8 = b.ebs.extractLsb' 8 8 := by
  unfold Bank.uncorrectable; rw [if_pos h]
  exact ⟨rfl, rfl, rfl, ebsOf_ov .., ebsOf_code ..⟩

/- The user-level handler (06 R133, R134). -/

/-- The other cores stay, and all memory. -/
theorem enterHandler_other {g h : Nat} (info : BitVec 16) (b : Bool) (s : State) (n : g ≠ h) :
    (enterHandler g info b s).core h = s.core h := core_setCore_other _ _ n
theorem enterHandler_sp (g : Nat) (info : BitVec 16) (b : Bool) (s : State) : ((enterHandler g info b s).core g).sp = (s.core g).sp := by
  unfold enterHandler; rw [core_setCore_same]; rfl
theorem enterHandler_memWf {s : State} (g : Nat) (info : BitVec 16) (b : Bool) (h : memWf s = true) : memWf (enterHandler g info b s) = true :=
  setCore_memWf_same h rfl

/-- ACT, INFO and EPC. -/
theorem enterHandler_saved {g : Nat} (info : BitVec 16) (b : Bool) {s : State} (a : (s.core g).uiact = false) :
    let c := (enterHandler g info b s).core g
    c.uiact = true ∧ c.uiinfo = info.zeroExtend 64 ∧
      c.uiepc = BitVec.ofNat 64 (nextOffset ((s.core g).stream .s)) := by
  unfold enterHandler; rw [core_setCore_same]
  exact ⟨rfl, rfl, if_neg (by simp [a])⟩

/-- Returning clears ACT; nothing of the core differs but that, the marks of the entry and its S stream. -/
theorem leaveHandler_shape (c : Core) (now : Nat) : ∃ st, leaveHandler c now = { c with uiact := false, uiBound := false, streams := st } :=
  ⟨_, rfl⟩

end Sys2Proof.Laws
end

