-- ==== Sys2Proof/Laws/Issue.lean ====
section
/-!
SUPPORT. What issuing and completing do: the tokens, the places and the stream after them (06 R115, R118).
-/
namespace Sys2Proof.Laws
open Sys2Proof.Machine Sys2Proof.Claims

/- The FIFOs of an entry. -/

theorem nodup_map_filter {α β : Type} {f : α → β} {p : α → Bool} {l : List α} (h : (l.map f).Nodup) :
    ((l.filter p).map f).Nodup := h.sublist (List.filter_sublist.map f)

theorem fifosPopped_nodup (e : Eng) (t : BitVec 8) : (fifosPopped e t).Nodup :=
  nodup_map_filter (by cases e <;> decide)

theorem fifosPushed_nodup (e : Eng) (t : BitVec 8) : (fifosPushed e t).Nodup :=
  nodup_map_filter (by cases e <;> decide)

theorem fifos_disjoint (e : Eng) (t : BitVec 8) {f : Nat} (h : f ∈ fifosPopped e t) : f ∉ fifosPushed e t := by
  have a : f ∈ (List.range 3).map (fun k => fifoTo (otherEng (engNum e) k) (engNum e)) :=
    (List.filter_sublist.map _).subset h
  intro h
  have b : f ∈ (List.range 3).map (fun k => 3 * engNum e + k) := (List.filter_sublist.map _).subset h
  revert a b
  have : ∀ x ∈ (List.range 3).map (fun k => fifoTo (otherEng (engNum e) k) (engNum e)),
      x ∉ (List.range 3).map (fun k => 3 * engNum e + k) := by cases e <;> decide
  exact fun a b => this f a b

/- Popping. -/

theorem popToken_shape (e : Eng) (c : Core) (f : Nat) :
    ∃ st tok cy, Core.popToken e c f = { c with streams := st, tokens := tok, cyc := cy } := by
  unfold Core.popToken
  split
  · exact ⟨c.streams, c.tokens, c.cyc, rfl⟩
  · exact ⟨_, _, _, rfl⟩

theorem popAll_shape (e : Eng) (fs : List Nat) (c : Core) :
    ∃ st tok cy, fs.foldl (Core.popToken e) c = { c with streams := st, tokens := tok, cyc := cy } := by
  induction fs generalizing c with
  | nil => exact ⟨c.streams, c.tokens, c.cyc, rfl⟩
  | cons f fs ih =>
    obtain ⟨st, tok, cy, h⟩ := popToken_shape e c f
    obtain ⟨st', tok', cy', h'⟩ := ih (Core.popToken e c f)
    exact ⟨st', tok', cy', by rw [List.foldl_cons, h', h]⟩

theorem fifo_popToken (e : Eng) (c : Core) (f g : Nat) :
    (Core.popToken e c f).fifo g = if g = f then (c.fifo g).tail else c.fifo g := by
  unfold Core.popToken
  by_cases h : g = f
  · subst h
    cases k : c.fifo g with
    | nil => simp [k]
    | cons x xs => simp [Core.fifo, Core.setStream]
  · rw [if_neg h]
    split
    · rfl
    · exact tbl_get_set_other _ _ (Ne.symm h) _

theorem fifo_popAll (e : Eng) {fs : List Nat} (n : fs.Nodup) (c : Core) (g : Nat) :
    (fs.foldl (Core.popToken e) c).fifo g = if g ∈ fs then (c.fifo g).tail else c.fifo g := by
  induction fs generalizing c with
  | nil => simp
  | cons f fs ih =>
    rw [List.nodup_cons] at n
    rw [List.foldl_cons, ih n.2, fifo_popToken]
    by_cases a : g = f
    · subst a; simp [n.1]
    · simp [a]

theorem stream_popToken (e e' : Eng) (c : Core) (f : Nat) :
    (Core.popToken e c f).stream e' = { c.stream e' with path := ((Core.popToken e c f).stream e').path } ∧
      (e' ≠ e → (Core.popToken e c f).stream e' = c.stream e') := by
  unfold Core.popToken
  split
  · exact ⟨rfl, fun _ => rfl⟩
  · by_cases h : e' = e
    · subst h; simp [stream_setStream_same]
    · rw [stream_setStream_other _ _ (Ne.symm h)]; exact ⟨rfl, fun _ => rfl⟩

theorem stream_popAll (e e' : Eng) (fs : List Nat) (c : Core) :
    (fs.foldl (Core.popToken e) c).stream e' = { c.stream e' with path := ((fs.foldl (Core.popToken e) c).stream e').path } ∧
      (e' ≠ e → (fs.foldl (Core.popToken e) c).stream e' = c.stream e') := by
  induction fs generalizing c with
  | nil => exact ⟨rfl, fun _ => rfl⟩
  | cons f fs ih =>
    have a := ih (Core.popToken e c f)
    have b := stream_popToken e e' c f
    refine ⟨?_, fun n => (a.2 n).trans (b.2 n)⟩
    rw [List.foldl_cons]
    have a1 := a.1
    rw [b.1] at a1
    exact a1

/- Reserving and delivering. -/

theorem reserveAll_shape (fs : List Nat) (c : Core) : ∃ res, fs.foldl Core.reserve c = { c with reserved := res } := by
  induction fs generalizing c with
  | nil => exact ⟨c.reserved, rfl⟩
  | cons f fs ih =>
    obtain ⟨r, h⟩ := ih (c.reserve f)
    exact ⟨r, by rw [List.foldl_cons, h]; rfl⟩

theorem reserved_reserveAll {fs : List Nat} (n : fs.Nodup) (c : Core) (g : Nat) :
    Tbl.get 0 (fs.foldl Core.reserve c).reserved g = Tbl.get 0 c.reserved g + (if g ∈ fs then 1 else 0) := by
  induction fs generalizing c with
  | nil => simp
  | cons f fs ih =>
    rw [List.nodup_cons] at n
    rw [List.foldl_cons, ih n.2]
    have k : Tbl.get 0 (c.reserve f).reserved g = if f = g then Tbl.get 0 c.reserved f + 1 else Tbl.get 0 c.reserved g := by
      simp only [Core.reserve]; rw [tbl_get_set]
    rw [k]
    by_cases a : f = g
    · subst a; simp [n.1]
    · have : g ≠ f := fun h => a h.symm
      simp [a, this]

theorem deliverAll_shape (p : Token) (fs : List Nat) (c : Core) :
    ∃ tok res cy, c.deliverAll p fs = { c with tokens := tok, reserved := res, cyc := cy } := by
  unfold Core.deliverAll
  induction fs generalizing c with
  | nil => exact ⟨c.tokens, c.reserved, c.cyc, rfl⟩
  | cons f fs ih =>
    obtain ⟨tok, res, cy, h⟩ := ih (Core.deliver p c f)
    exact ⟨tok, res, cy, by rw [List.foldl_cons, h]; rfl⟩

theorem fifo_deliverAll (p : Token) {fs : List Nat} (n : fs.Nodup) (c : Core) (g : Nat) :
    (c.deliverAll p fs).fifo g = c.fifo g ++ (if g ∈ fs then [p] else []) := by
  unfold Core.deliverAll
  induction fs generalizing c with
  | nil => simp
  | cons f fs ih =>
    rw [List.nodup_cons] at n
    rw [List.foldl_cons, ih n.2]
    have k : (Core.deliver p c f).fifo g = if f = g then c.fifo f ++ [p] else c.fifo g := tbl_get_set _ _ _ _ _
    rw [k]
    by_cases a : f = g
    · subst a; simp [n.1]
    · have : g ≠ f := fun h => a h.symm
      simp [a, this]

theorem reserved_deliverAll (p : Token) {fs : List Nat} (n : fs.Nodup) (c : Core) (g : Nat) :
    Tbl.get 0 (c.deliverAll p fs).reserved g = Tbl.get 0 c.reserved g - (if g ∈ fs then 1 else 0) := by
  unfold Core.deliverAll
  induction fs generalizing c with
  | nil => simp
  | cons f fs ih =>
    rw [List.nodup_cons] at n
    rw [List.foldl_cons, ih n.2]
    have k : Tbl.get 0 (Core.deliver p c f).reserved g = if f = g then Tbl.get 0 c.reserved f - 1 else Tbl.get 0 c.reserved g :=
      tbl_get_set _ _ _ _ _
    rw [k]
    by_cases a : f = g
    · subst a; simp [n.1]
    · have : g ≠ f := fun h => a h.symm
      simp [a, this]

/- Issue. -/

/-- An instruction issues with its effect when nothing holds it and no fault at issue is raised. -/
theorem issue_next {nd : Need} {flt : Option FaultInfo} {s : State} {k : State → State} (b : nd.busy = false)
    (u : nd.eng = .s → s.me.undeclared = none) (h : firstHold s nd = none) (f : flt = none) (v : firstEvent s nd = none) :
    issue nd flt s k = .next (k (beginIssue s nd)) := by
  subst f
  unfold issue
  have : (decide (nd.eng = .s) && s.me.undeclaredPending) = false := by
    by_cases e : nd.eng = .s
    · simp [Core.undeclaredPending, u e]
    · simp [e]
  simp only [b, this, Bool.or_self, Bool.false_eq_true, if_false, h, v]

/-- A fault at issue changes nothing else: nothing is popped. -/
theorem issue_fault {nd : Need} {f : FaultInfo} {s : State} {k : State → State} (b : nd.busy = false)
    (u : nd.eng = .s → s.me.undeclared = none) (h : firstHold s nd = none) :
    issue nd (some f) s k = .next (unitFault s.cur f s) := by
  unfold issue
  have : (decide (nd.eng = .s) && s.me.undeclaredPending) = false := by
    by_cases e : nd.eng = .s
    · simp [Core.undeclaredPending, u e]
    · simp [e]
  simp only [b, this, Bool.or_self, Bool.false_eq_true, if_false, h]

theorem tokenHolds_clear {s : State} {e : Eng} {tk : BitVec 3} (r : Ready e tk s) :
    ∀ h ∈ tokenHolds s.me e tk, holdStands s s.cur e h = false := by
  intro h m
  simp only [tokenHolds, List.mem_append, List.mem_map] at m
  rcases m with ⟨f, m, rfl⟩ | ⟨f, m, rfl⟩
  · show (!s.me.hasToken f) = false
    simp [r.1 f m]
  · have := r.2 f m
    show decide (s.me.depth f ≤ s.me.occupancy f + Tbl.get 0 s.me.cyc.freed f) = false
    simp; omega

/-- Nothing holds an instruction that has its tokens and none of whose further holds stands. -/
theorem firstHold_none {s : State} {nd : Need} (r : Ready nd.eng nd.tk s)
    (h : ∀ x ∈ nd.holds, holdStands s s.cur nd.eng x = false) : firstHold s nd = none := by
  rw [firstHold, List.find?_eq_none]
  intro x m
  rcases List.mem_append.mp m with m | m
  · simp [tokenHolds_clear r x m]
  · simp [h x m]

theorem firstEvent_none {s : State} {nd : Need} (h : ∀ x ∈ nd.events, holdStands s s.cur nd.eng x = false) :
    firstEvent s nd = none := by
  rw [firstEvent, List.find?_eq_none]
  intro x m
  simp [h x m]

/- The core after its instruction has issued. -/

theorem beginIssue_shape (s : State) (nd : Need) :
    ∃ st tok res cy, (beginIssue s nd).me = { s.me with streams := st, tokens := tok, reserved := res, cyc := cy } := by
  obtain ⟨st, tok, cy, h⟩ := popAll_shape nd.eng (fifosPopped nd.eng (s.me.tokenSet nd.eng nd.tk)) s.me
  obtain ⟨res, h'⟩ := reserveAll_shape (fifosPushed nd.eng (s.me.tokenSet nd.eng nd.tk))
    ((fifosPopped nd.eng (s.me.tokenSet nd.eng nd.tk)).foldl (Core.popToken nd.eng) s.me)
  refine ⟨(beginIssue s nd).me.streams, tok, res, (beginIssue s nd).me.cyc, ?_⟩
  rw [beginIssue, me_setMe, h', h]
  rfl

theorem beginIssue_stream (s : State) (nd : Need) :
    (beginIssue s nd).me.stream nd.eng =
      { s.me.stream nd.eng with
        wait := none, dbnd := none, path := ((beginIssue s nd).me.stream nd.eng).path,
        issuedBnd := (s.me.stream nd.eng).dbnd.getD (dbndField s.me.dbnd nd.eng) } := by
  obtain ⟨res, h⟩ := reserveAll_shape (fifosPushed nd.eng (s.me.tokenSet nd.eng nd.tk))
    ((fifosPopped nd.eng (s.me.tokenSet nd.eng nd.tk)).foldl (Core.popToken nd.eng) s.me)
  have a := (stream_popAll nd.eng nd.eng (fifosPopped nd.eng (s.me.tokenSet nd.eng nd.tk)) s.me).1
  have hs : ∀ c : Core, (fifosPushed nd.eng (s.me.tokenSet nd.eng nd.tk)).foldl Core.reserve c = { c with reserved := res } →
      c.stream nd.eng = ((fifosPushed nd.eng (s.me.tokenSet nd.eng nd.tk)).foldl Core.reserve c).stream nd.eng :=
    fun c k => by rw [k]; rfl
  obtain ⟨st, tok, cy, hp⟩ := popAll_shape nd.eng (fifosPopped nd.eng (s.me.tokenSet nd.eng nd.tk)) s.me
  have hd : ((fifosPushed nd.eng (s.me.tokenSet nd.eng nd.tk)).foldl Core.reserve
      ((fifosPopped nd.eng (s.me.tokenSet nd.eng nd.tk)).foldl (Core.popToken nd.eng) s.me)).dbnd = s.me.dbnd := by rw [h, hp]
  have key : (beginIssue s nd).me.stream nd.eng =
      let c := (fifosPushed nd.eng (s.me.tokenSet nd.eng nd.tk)).foldl Core.reserve
        ((fifosPopped nd.eng (s.me.tokenSet nd.eng nd.tk)).foldl (Core.popToken nd.eng) s.me)
      { c.stream nd.eng with
        wait := none, dbnd := none, issuedBnd := (c.stream nd.eng).dbnd.getD (dbndField c.dbnd nd.eng) } := by
    rw [beginIssue, me_setMe, stream_setStream_same]; rfl
  rw [key]
  simp only [hd]
  rw [← hs _ h, a]

theorem beginIssue_stream_other (s : State) (nd : Need) {e : Eng} (n : e ≠ nd.eng) :
    (beginIssue s nd).me.stream e = s.me.stream e := by
  obtain ⟨res, h⟩ := reserveAll_shape (fifosPushed nd.eng (s.me.tokenSet nd.eng nd.tk))
    ((fifosPopped nd.eng (s.me.tokenSet nd.eng nd.tk)).foldl (Core.popToken nd.eng) s.me)
  rw [beginIssue, me_setMe, stream_setStream_other _ _ (Ne.symm n)]
  show Core.stream _ e = _
  simp only [h]
  exact (stream_popAll nd.eng e (fifosPopped nd.eng (s.me.tokenSet nd.eng nd.tk)) s.me).2 n

theorem beginIssue_fifo (s : State) (nd : Need) (f : Nat) : (beginIssue s nd).me.fifo f =
    if f ∈ fifosPopped nd.eng (s.me.tokenSet nd.eng nd.tk) then (s.me.fifo f).tail else s.me.fifo f := by
  obtain ⟨res, h⟩ := reserveAll_shape (fifosPushed nd.eng (s.me.tokenSet nd.eng nd.tk))
    ((fifosPopped nd.eng (s.me.tokenSet nd.eng nd.tk)).foldl (Core.popToken nd.eng) s.me)
  rw [beginIssue, me_setMe]
  show Core.fifo { (_ : Core) with } f = _
  rw [h]
  exact fifo_popAll nd.eng (fifosPopped_nodup _ _) s.me f

theorem beginIssue_reserved (s : State) (nd : Need) (f : Nat) : Tbl.get 0 (beginIssue s nd).me.reserved f =
    Tbl.get 0 s.me.reserved f + (if f ∈ fifosPushed nd.eng (s.me.tokenSet nd.eng nd.tk) then 1 else 0) := by
  obtain ⟨st, tok, cy, h⟩ := popAll_shape nd.eng (fifosPopped nd.eng (s.me.tokenSet nd.eng nd.tk)) s.me
  rw [beginIssue, me_setMe, setStream_reserved, reserved_reserveAll (fifosPushed_nodup _ _), h]

/-- A field of the module is as before. -/
theorem onlyMe_field {α : Type} {s t : State} (h : OnlyMe s t) (f : State → α)
    (k : f { t with cores := s.cores } = f t) : f t = f s := k.symm.trans (congrArg f h.1)
theorem onlyMe_cur {s t : State} (h : OnlyMe s t) : t.cur = s.cur := onlyMe_field h State.cur rfl
theorem onlyMe_now {s t : State} (h : OnlyMe s t) : t.now = s.now := onlyMe_field h State.now rfl

theorem beginIssue_onlyMe (s : State) (nd : Need) : OnlyMe s (beginIssue s nd) :=
  ⟨rfl, fun _ n => core_setMe_other s _ n⟩

theorem completeN_onlyMe {s u : State} (e : Eng) (tk : BitVec 3) (n : Nat) (h : OnlyMe s u) :
    OnlyMe s (completeN e tk n u) := by
  have hc := onlyMe_cur h
  exact ⟨h.1, fun g ng => (core_setMe_other u _ (by rw [hc]; exact ng)).trans (h.2 g ng)⟩

theorem onMe_onlyMe {s u : State} (f : Core → Core) (h : OnlyMe s u) : OnlyMe s (u.onMe f) := by
  have hc := onlyMe_cur h
  exact ⟨h.1, fun g ng => (core_onMe_other u _ (by rw [hc]; exact ng)).trans (h.2 g ng)⟩

theorem onlyMe_sameMemory {s t : State} (h : OnlyMe s t) (k : t.me.sp = s.me.sp) : SameMemory s t := by
  have hc := onlyMe_cur h
  refine ⟨fun a => onlyMe_field h (fun x => byteAt x.dram a) rfl, fun g a => ?_⟩
  by_cases e : g = s.cur
  · have : t.core g = t.me := by rw [e, ← hc]; rfl
    have : s.core g = s.me := by rw [e]; rfl
    simp_all
  · rw [h.2 g e]

/-- A core's part in completing: everything but streams, tokens and places stays. -/
theorem completeN_shape (e : Eng) (tk : BitVec 3) (n : Nat) (u : State) :
    ∃ st tok res cy, (completeN e tk n u).me = { u.me with streams := st, tokens := tok, reserved := res, cyc := cy } := by
  obtain ⟨tok, res, cy, h⟩ := deliverAll_shape (u.me.stream e).path (fifosPushed e (u.me.tokenSet e tk)) u.me
  exact ⟨(completeN e tk n u).me.streams, tok, res, cy, by rw [completeN, me_setMe, h]; rfl⟩

/-- What an instruction that completes as it issues leaves: `u` is its state between, after its own effect. -/
theorem completes {s u : State} {nd : Need} (n : Nat) (o : OnlyMe s u) (m : u.me.sp = s.me.sp)
    (ks : u.me.streams = (beginIssue s nd).me.streams) (kt : u.me.tokens = (beginIssue s nd).me.tokens)
    (kr : u.me.reserved = (beginIssue s nd).me.reserved) (kk : u.me.tks = s.me.tks) :
    Completes nd.eng nd.tk n s (completeN nd.eng nd.tk n u) := by
  have o' := completeN_onlyMe nd.eng nd.tk n o
  obtain ⟨tok, res, cy, h⟩ := deliverAll_shape (u.me.stream nd.eng).path (fifosPushed nd.eng (u.me.tokenSet nd.eng nd.tk)) u.me
  have hn := onlyMe_now o
  have hst : ∀ e, u.me.stream e = (beginIssue s nd).me.stream e := fun e => by unfold Core.stream; rw [ks]
  have htk : u.me.tokenSet nd.eng nd.tk = s.me.tokenSet nd.eng nd.tk := by unfold Core.tokenSet; rw [kk]
  have str : (completeN nd.eng nd.tk n u).me.stream nd.eng =
      { u.me.stream nd.eng with pc := (u.me.stream nd.eng).pc + 4 * n, ready := u.now + 1 } := by
    rw [completeN, me_setMe, Core.advancePc, stream_setStream_same, h]; rfl
  refine ⟨o', onlyMe_sameMemory o' ?_, ⟨fun f => ?_, fun f => ?_⟩, ?_, fun e' ne => ?_⟩
  · obtain ⟨a, b, c, d, k⟩ := completeN_shape nd.eng nd.tk n u
    rw [k]; exact m
  · have p : ((completeN nd.eng nd.tk n u).me.stream nd.eng).path = (u.me.stream nd.eng).path := by rw [str]
    rw [p]
    have q : (completeN nd.eng nd.tk n u).me.fifo f =
        (u.me.deliverAll (u.me.stream nd.eng).path (fifosPushed nd.eng (u.me.tokenSet nd.eng nd.tk))).fifo f := by
      rw [completeN, me_setMe]; rfl
    rw [q, fifo_deliverAll _ (fifosPushed_nodup _ _), htk]
    congr 1
    rw [← beginIssue_fifo]
    unfold Core.fifo; rw [kt]
  · have q : (completeN nd.eng nd.tk n u).me.reserved =
        (u.me.deliverAll (u.me.stream nd.eng).path (fifosPushed nd.eng (u.me.tokenSet nd.eng nd.tk))).reserved := by
      rw [completeN, me_setMe]; rfl
    rw [q, reserved_deliverAll _ (fifosPushed_nodup _ _), htk, kr, beginIssue_reserved]
    omega
  · rw [str, hst, beginIssue_stream s nd, hn]
  · rw [completeN, me_setMe, Core.advancePc, stream_setStream_other _ _ (Ne.symm ne), h]
    show u.me.stream e' = _
    rw [hst, beginIssue_stream_other s nd ne]

end Sys2Proof.Laws
end

