-- ==== Sys2Proof/Laws/Scalar.lean ====
section
/-!
SUPPORT. What the shared forms of the S stream's instructions do: results in registers and predicates, and branches.
-/
namespace Sys2Proof.Laws
open Sys2Proof.Machine Sys2Proof.Claims

theorem sNeed_clear {s : State} {tk : BitVec 3} {regs : List (BitVec 6)} (r : Ready .s tk s) :
    firstHold s (sNeed s tk regs) = none ∧ firstEvent s (sNeed s tk regs) = none :=
  ⟨firstHold_none r (fun x m => absurd m (by simp [sNeed])), firstEvent_none (fun x m => absurd m (by simp [sNeed]))⟩

theorem sNeed_ready {s : State} {tk : BitVec 3} {regs : List (BitVec 6)} (b : ∀ r ∈ regs, sBusy s.me r = false) :
    (sNeed s tk regs).busy = false := by
  simpa [sNeed, List.any_eq_false] using b

/-- An S instruction without queue fields issues with its effect. -/
theorem sIssue_next {s : State} {tk : BitVec 3} {regs : List (BitVec 6)} {k : State → State} (r : Ready .s tk s)
    (u : s.me.undeclared = none) (b : ∀ r ∈ regs, sBusy s.me r = false) :
    issue (sNeed s tk regs) none s k = .next (k (beginIssue s (sNeed s tk regs))) :=
  issue_next (sNeed_ready b) (fun _ => u) (sNeed_clear r).1 rfl (sNeed_clear r).2

/-- Reads of a core that its streams and tokens do not enter. -/
theorem beginIssue_reads {α : Type} (f : Core → α) (h : ∀ c st tok res cy, f { c with streams := st, tokens := tok, reserved := res, cyc := cy } = f c)
    (s : State) (nd : Need) : f (beginIssue s nd).me = f s.me := by
  obtain ⟨st, tok, res, cy, k⟩ := beginIssue_shape s nd
  rw [k, h]

@[simp] theorem beginIssue_getS (s : State) (nd : Need) (r : BitVec 6) : (beginIssue s nd).me.getS r = s.me.getS r :=
  beginIssue_reads (fun c => c.getS r) (fun _ _ _ _ _ => rfl) s nd
@[simp] theorem beginIssue_getP (s : State) (nd : Need) (r : BitVec 4) : (beginIssue s nd).me.getP r = s.me.getP r :=
  beginIssue_reads (fun c => c.getP r) (fun _ _ _ _ _ => rfl) s nd
theorem beginIssue_pc (s : State) (nd : Need) : (beginIssue s nd).me.pcOf nd.eng = s.me.pcOf nd.eng := by
  unfold Core.pcOf; rw [beginIssue_stream]
theorem beginIssue_cur (s : State) (nd : Need) : (beginIssue s nd).cur = s.cur := rfl
theorem beginIssue_now (s : State) (nd : Need) : (beginIssue s nd).now = s.now := rfl

/-- An effect `f` on the core that leaves streams, tokens and scratchpad alone, then completion. -/
theorem completes_onMe {s : State} {nd : Need} (n : Nat) (f : Core → Core)
    (h : ∀ c, (f c).sp = c.sp ∧ (f c).streams = c.streams ∧ (f c).tokens = c.tokens ∧ (f c).reserved = c.reserved ∧ (f c).tks = c.tks) :
    Completes nd.eng nd.tk n s (completeN nd.eng nd.tk n ((beginIssue s nd).onMe f)) ∧
      ∃ st tok res cy, (completeN nd.eng nd.tk n ((beginIssue s nd).onMe f)).me =
        { f (beginIssue s nd).me with streams := st, tokens := tok, reserved := res, cyc := cy } := by
  obtain ⟨st, tok, res, cy, k⟩ := beginIssue_shape s nd
  have hf := h (beginIssue s nd).me
  refine ⟨completes n (onMe_onlyMe f (beginIssue_onlyMe s nd)) ?_ ?_ ?_ ?_ ?_, ?_⟩
  · rw [me_onMe, hf.1, k]
  · rw [me_onMe, hf.2.1]
  · rw [me_onMe, hf.2.2.1]
  · rw [me_onMe, hf.2.2.2.1]
  · rw [me_onMe, hf.2.2.2.2, k]
  · obtain ⟨a, b, c, d, m⟩ := completeN_shape nd.eng nd.tk n ((beginIssue s nd).onMe f)
    exact ⟨a, b, c, d, by rw [m, me_onMe]⟩

/-- The same without an effect. -/
theorem completes_id {s : State} {nd : Need} (n : Nat) :
    Completes nd.eng nd.tk n s (completeN nd.eng nd.tk n (beginIssue s nd)) ∧
      ∃ st tok res cy, (completeN nd.eng nd.tk n (beginIssue s nd)).me = { s.me with streams := st, tokens := tok, reserved := res, cyc := cy } := by
  obtain ⟨st, tok, res, cy, k⟩ := beginIssue_shape s nd
  refine ⟨completes n (beginIssue_onlyMe s nd) (by rw [k]) rfl rfl rfl (by rw [k]), ?_⟩
  obtain ⟨a, b, c, d, m⟩ := completeN_shape nd.eng nd.tk n (beginIssue s nd)
  exact ⟨a, b, c, d, by rw [m, k]⟩

theorem setS_key (c : Core) (n : BitVec 6) (v : Word) {k : Nat} (h : k ≠ c.sKey n.toNat) :
    Tbl.get 0 (c.setS n v).s k = Tbl.get 0 c.s k := by
  unfold Core.setS
  split
  · rfl
  · exact tbl_get_set_other _ _ (Ne.symm h) _

/-- An S instruction with a register result: it completes, writes its register and nothing else. -/
theorem sResult_next {s : State} {tk : BitVec 3} {pg : BitVec 4} {sd : BitVec 6} {srcs : List (BitVec 6)} {f : Core → Word} {v : Word}
    (r : Ready .s tk s) (u : s.me.undeclared = none) (b : ∀ r ∈ sd :: srcs, sBusy s.me r = false)
    (hv : ∀ st tok res cy, f { s.me with streams := st, tokens := tok, reserved := res, cyc := cy } = v) :
    ∃ t, sResult tk pg sd srcs f s = .next t ∧ Completes .s tk 1 s t ∧
      (∀ r, t.me.getS r = if s.me.getP pg = true ∧ r = sd ∧ r ≠ 0 then v else s.me.getS r) ∧
      (∀ k, k ≠ s.me.sKey sd.toNat → Tbl.get 0 t.me.s k = Tbl.get 0 s.me.s k) ∧
      { t.me with s := s.me.s, streams := s.me.streams, tokens := s.me.tokens, reserved := s.me.reserved, cyc := s.me.cyc } = s.me := by
  rw [sResult, sIssue_next r u b]
  refine ⟨_, rfl, ?_⟩
  rw [beginIssue_getP]
  by_cases hp : s.me.getP pg
  · rw [if_pos hp]
    obtain ⟨st, tok, res, cy, k⟩ := beginIssue_shape s (sNeed s tk (sd :: srcs))
    obtain ⟨c, st', tok', res', cy', m⟩ := completes_onMe (s := s) (nd := sNeed s tk (sd :: srcs)) 1 (fun c => c.setS sd (f c)) (fun c => by simp)
    rw [k, hv] at m
    refine ⟨c, fun r => ?_, fun j hj => ?_, ?_⟩
    · refine (congrArg (fun c : Core => c.getS r) m).trans ?_
      refine (getS_setS _ sd r v).trans ?_
      simp only [hp, true_and]; rfl
    · refine (congrArg (fun c : Core => Tbl.get 0 c.s j) m).trans ?_
      exact setS_key { s.me with streams := st, tokens := tok, reserved := res, cyc := cy } sd v hj
    · refine (congrArg (fun c : Core => ({ c with s := s.me.s, streams := s.me.streams, tokens := s.me.tokens, reserved := s.me.reserved, cyc := s.me.cyc } : Core)) m).trans ?_
      simp only [Core.setS]; split <;> rfl
  · rw [if_neg hp]
    obtain ⟨c, st', tok', res', cy', m⟩ := completes_id (s := s) (nd := sNeed s tk (sd :: srcs)) 1
    refine ⟨c, fun r => ?_, fun j hj => ?_, ?_⟩
    · rw [if_neg (fun h => hp h.1)]
      exact (congrArg (fun c : Core => c.getS r) m).trans rfl
    · exact (congrArg (fun c : Core => Tbl.get 0 c.s j) m).trans rfl
    · exact (congrArg (fun c : Core => ({ c with s := s.me.s, streams := s.me.streams, tokens := s.me.tokens, reserved := s.me.reserved, cyc := s.me.cyc } : Core)) m).trans rfl

/-- An S instruction with a predicate result. -/
theorem pResult_next {s : State} {tk : BitVec 3} {pg pd : BitVec 4} {srcs : List (BitVec 6)} {f : Core → Bool} {v : Bool}
    (r : Ready .s tk s) (u : s.me.undeclared = none) (b : ∀ r ∈ srcs, sBusy s.me r = false)
    (hv : ∀ st tok res cy, f { s.me with streams := st, tokens := tok, reserved := res, cyc := cy } = v) :
    ∃ t, pResult tk pg pd srcs f s = .next t ∧ Completes .s tk 1 s t ∧
      (∀ r, t.me.getP r = if s.me.getP pg = true ∧ r = pd ∧ r ≠ 0 then v else s.me.getP r) ∧
      { t.me with p := s.me.p, streams := s.me.streams, tokens := s.me.tokens, reserved := s.me.reserved, cyc := s.me.cyc } = s.me := by
  rw [pResult, sIssue_next r u b]
  refine ⟨_, rfl, ?_⟩
  rw [beginIssue_getP]
  by_cases hp : s.me.getP pg
  · rw [if_pos hp]
    obtain ⟨st, tok, res, cy, k⟩ := beginIssue_shape s (sNeed s tk srcs)
    obtain ⟨c, st', tok', res', cy', m⟩ := completes_onMe (s := s) (nd := sNeed s tk srcs) 1 (fun c => c.setP pd (f c)) (fun c => by simp)
    rw [k, hv] at m
    refine ⟨c, fun r => ?_, ?_⟩
    · refine (congrArg (fun c : Core => c.getP r) m).trans ?_
      refine (getP_setP _ pd r v).trans ?_
      simp only [hp, true_and]; rfl
    · refine (congrArg (fun c : Core => ({ c with p := s.me.p, streams := s.me.streams, tokens := s.me.tokens, reserved := s.me.reserved, cyc := s.me.cyc } : Core)) m).trans ?_
      simp only [Core.setP]; split <;> rfl
  · rw [if_neg hp]
    obtain ⟨c, st', tok', res', cy', m⟩ := completes_id (s := s) (nd := sNeed s tk srcs) 1
    refine ⟨c, fun r => ?_, ?_⟩
    · rw [if_neg (fun h => hp h.1)]
      exact (congrArg (fun c : Core => c.getP r) m).trans rfl
    · exact (congrArg (fun c : Core => ({ c with p := s.me.p, streams := s.me.streams, tokens := s.me.tokens, reserved := s.me.reserved, cyc := s.me.cyc } : Core)) m).trans rfl

end Sys2Proof.Laws
end

