-- ==== Sys2Proof/Laws/Vector.lean ====
section
/-!
SUPPORT. What the shared forms of the V stream's instructions do: registers as elements, predicates as bits, and results
in enabled elements.
-/
namespace Sys2Proof.Laws
open Sys2Proof.Machine Sys2Proof.Claims

/- A register from its elements (11 R242). -/

/-- The number that elements of w bits make. -/
def packed (w : Nat) (xs : List Nat) : Nat := xs.foldr (fun x acc => acc * 2 ^ w + x % 2 ^ w) 0

theorem packed_lt (w : Nat) (xs : List Nat) : packed w xs < 2 ^ (w * xs.length) := by
  induction xs with
  | nil => simp [packed]
  | cons x xs ih =>
    show packed w xs * 2 ^ w + x % 2 ^ w < 2 ^ (w * (xs.length + 1))
    rw [Nat.mul_add, Nat.mul_one, Nat.pow_add]
    have : x % 2 ^ w < 2 ^ w := Nat.mod_lt _ (Nat.two_pow_pos w)
    have := Nat.mul_le_mul_right (2 ^ w) (Nat.succ_le_of_lt ih)
    rw [Nat.succ_mul] at this; omega

theorem packed_lt_of {w m : Nat} {xs : List Nat} (h : w * xs.length ≤ m) : packed w xs < 2 ^ m :=
  Nat.lt_of_lt_of_le (packed_lt w xs) (Nat.pow_le_pow_right Nat.two_pos h)

theorem toNat_packed {n w : Nat} {xs : List Nat} (h : w * xs.length ≤ n) : (BitVec.ofNat n (packed w xs)).toNat = packed w xs := by
  rw [BitVec.toNat_ofNat, Nat.mod_eq_of_lt (packed_lt_of h)]

theorem packed_elem (w : Nat) : ∀ (xs : List Nat) (i : Nat), i < xs.length → packed w xs / 2 ^ (w * i) % 2 ^ w = xs.getD i 0 % 2 ^ w
  | [], _, h => absurd h (Nat.not_lt_zero _)
  | x :: xs, i, h => by
    have e : packed w (x :: xs) = packed w xs * 2 ^ w + x % 2 ^ w := rfl
    rw [e]
    have p := Nat.two_pow_pos w
    cases i with
    | zero => simp [Nat.add_mod]
    | succ i =>
      have q : (packed w xs * 2 ^ w + x % 2 ^ w) / 2 ^ w = packed w xs := by
        rw [Nat.mul_comm, Nat.mul_add_div p, Nat.div_eq_of_lt (Nat.mod_lt _ p), Nat.add_zero]
      rw [Nat.mul_add, Nat.mul_one, Nat.pow_add, Nat.mul_comm (2 ^ (w * i)), ← Nat.div_div_eq_div_mul, q,
        packed_elem w xs i (by simpa using h)]
      rfl

/-- Element i of a register made from elements. -/
theorem vElem_vOfElems {w : Nat} {xs : List Nat} {i : Nat} (h : w * xs.length ≤ 32768) (hi : i < xs.length) :
    vElem w (vOfElems w xs) i = xs.getD i 0 % 2 ^ w := by
  unfold vElem vOfElems
  show (BitVec.extractLsb' (w * i) w (BitVec.ofNat 32768 (packed w xs))).toNat = _
  rw [BitVec.extractLsb'_toNat, toNat_packed h, Nat.shiftRight_eq_div_pow, packed_elem w xs i hi]

/-- An element is a code of its width. -/
theorem vElem_lt (w : Nat) (r : VReg) (i : Nat) : vElem w r i < 2 ^ w := BitVec.isLt _

/-- Each enabled element receives its value, the others stay (11 R244). -/
theorem vEach_elem (w : Nat) (mask : VPred) (old : VReg) (f : Nat → Nat × Flags) {i : Nat} (h : i < vCount w) :
    vElem w (vEach w mask old f).1 i = if vOn mask w i then (f i).1 % 2 ^ w else vElem w old i := by
  unfold vEach
  have l : w * vCount w ≤ 32768 := Nat.mul_div_le _ _
  rw [vElem_vOfElems (by simpa using l) (by simpa using h)]
  simp only [List.map_map, List.getD_eq_getElem?_getD, List.getElem?_map, List.getElem?_range h, Option.map_some, Option.getD_some,
    Function.comp_apply]
  split
  · rfl
  · exact Nat.mod_eq_of_lt (vElem_lt ..)

theorem foldl_or_bit (rs : List (Nat × Flags)) : ∀ (a : Flags) (b : Nat),
    (rs.foldl (fun a r => a ||| r.2) a).getLsbD b = (a.getLsbD b || rs.any (fun r => r.2.getLsbD b)) := by
  induction rs with
  | nil => intro a b; simp
  | cons r rs ih => intro a b; simp only [List.foldl_cons, ih, BitVec.getLsbD_or, List.any_cons, Bool.or_assoc]

/-- The flags are those of the enabled elements (01 R21). -/
theorem vEach_flags (w : Nat) (mask : VPred) (old : VReg) (f : Nat → Nat × Flags) (b : Nat) :
    (vEach w mask old f).2.getLsbD b = (List.range (vCount w)).any (fun i => vOn mask w i && (f i).2.getLsbD b) := by
  unfold vEach
  rw [foldl_or_bit, List.any_map]
  simp only [flNone, BitVec.ofNat_eq_ofNat, BitVec.getLsbD_zero, Bool.false_or]
  congr 1
  funext i
  simp only [Function.comp_apply]
  split <;> simp [*]

/-- FSTK collects flags. -/
theorem fstkSet_bit (x : Word) (f : Flags) (b : Nat) : (fstkSet x f).getLsbD b = (x.getLsbD b || f.getLsbD b) := by
  unfold fstkSet
  rw [BitVec.getLsbD_or, BitVec.getLsbD_setWidth]
  by_cases h : b < 64
  · simp [h]
  · simp [h, BitVec.getLsbD_of_ge f b (by omega)]

/- A predicate from its bits. -/

/-- The number that bits make. -/
theorem bits_testBit (f : Nat → Bool) : ∀ (xs : List Nat) (k : Nat), k < xs.length →
    (xs.foldr (fun k acc => 2 * acc + (if f k then 1 else 0)) 0).testBit k = f (xs.getD k 0)
  | [], _, h => absurd h (Nat.not_lt_zero _)
  | x :: xs, 0, _ => by
    simp only [List.foldr_cons, Nat.testBit_zero, List.getD_cons_zero]
    cases f x <;> simp [Nat.add_mod, Nat.mul_mod_right]
  | x :: xs, k + 1, h => by
    simp only [List.foldr_cons, List.getD_cons_succ]
    rw [Nat.testBit_succ, show (2 * xs.foldr (fun k acc => 2 * acc + (if f k then 1 else 0)) 0 + (if f x then 1 else 0)) / 2 =
      xs.foldr (fun k acc => 2 * acc + (if f k then 1 else 0)) 0 by split <;> omega]
    exact bits_testBit f xs k (by simpa using h)

/-- Bit k of a predicate made from its bits. -/
theorem vpOf_bit (f : Nat → Bool) {k : Nat} (h : k < 1024) : (vpOf f).getLsbD k = f k := by
  unfold vpOf
  rw [BitVec.getLsbD_ofNat, bits_testBit f _ k (by simpa using h)]
  simp [h, List.getD_eq_getElem?_getD]

/- The issue of a V instruction (06 R128 to R130). -/

/-- A state whose issuing core and rest are as after completion has completed too. -/
theorem completes_sameMe {e : Eng} {tk : BitVec 3} {n : Nat} {s t u : State} (c : Completes e tk n s t) (o : OnlyMe s u) (m : u.me = t.me) :
    Completes e tk n s u := by
  obtain ⟨ho, hm, ht, hw⟩ := c
  refine ⟨o, ⟨fun a => onlyMe_field o (fun x => byteAt x.dram a) rfl, fun g a => ?_⟩, by unfold TokensMoved at *; rw [m]; exact ht,
    by unfold WentOn at *; rw [m]; exact hw⟩
  by_cases e : g = s.cur
  · have hu : u.core g = u.me := by rw [e, ← onlyMe_cur o]; rfl
    have k : t.core g = t.me := by rw [e, ← onlyMe_cur ho]; rfl
    rw [hu, m, ← k]; exact hm.2 g a
  · rw [o.2 g e]

/-- Behind no kernel's end nothing of the loop moves. -/
theorem loopBack_id {c : Core} (h : ∀ l, c.vloop = some l → (c.stream .v).pc ≠ l.hi) : c.loopBack = c := by
  unfold Core.loopBack
  split
  · rfl
  · rename_i l k; rw [if_pos (h l k)]

/-- With one group of rows no other takes a turn. -/
theorem rotate_id {c : Core} (h : c.groups = []) : c.rotate = c := by
  unfold Core.rotate; rw [h]; rfl

/-- A V instruction, not refused, with one group of rows and no kernel that ends behind it, completes with its effect on the core. -/
theorem vIssue_completes {s : State} {nd : Need} {lone : Bool} {flt : Option FaultInfo} {f : Core → Core} (e : nd.eng = .v) (b : nd.busy = false)
    (fh : firstHold s nd = none) (fe : firstEvent s nd = none) (fl : flt = none) (hg : s.me.groups = [])
    (hl : ∀ l, s.me.vloop = some l → (s.me.stream .v).pc + 4 ≠ l.hi)
    (h : ∀ c, (f c).sp = c.sp ∧ (f c).streams = c.streams ∧ (f c).tokens = c.tokens ∧ (f c).reserved = c.reserved ∧ (f c).tks = c.tks)
    (k : ∀ c, (f c).groups = c.groups ∧ (f c).vloop = c.vloop) :
    ∃ t, vIssue nd lone flt s (fun s => complete .v nd.tk (s.onMe f)) = .next t ∧ Completes .v nd.tk 1 s t ∧
      ∃ st tok res cy st' tok' res' cy', t.me = { f { s.me with streams := st, tokens := tok, reserved := res, cyc := cy } with streams := st', tokens := tok', reserved := res', cyc := cy' } := by
  have hd : s.me.divided = false := by simp [Core.divided, hg]
  obtain ⟨st, tok, res, cy, hs⟩ := beginIssue_shape s nd
  obtain ⟨c, st', tok', res', cy', m⟩ := completes_onMe (s := s) (nd := nd) 1 f h
  rw [e] at c m
  have hk := k (beginIssue s nd).me
  have lb : (completeN .v nd.tk 1 ((beginIssue s nd).onMe f)).me.loopBack = (completeN .v nd.tk 1 ((beginIssue s nd).onMe f)).me := by
    refine loopBack_id fun l q => ?_
    have : ((completeN .v nd.tk 1 ((beginIssue s nd).onMe f)).me.stream .v).pc = (s.me.stream .v).pc + 4 := by rw [c.2.2.2.1]
    rw [this]
    refine hl l ?_
    rw [m] at q
    have q : (f (beginIssue s nd).me).vloop = some l := q
    rw [hk.2, hs] at q; exact q
  refine ⟨((completeN .v nd.tk 1 ((beginIssue s nd).onMe f)).onMe Core.loopBack).onMe Core.rotate, ?_,
    completes_sameMe c (onMe_onlyMe _ (onMe_onlyMe _ c.1)) ?_, st, tok, res, cy, st', tok', res', cy', ?_⟩
  · unfold vIssue complete
    simp only [hd, fl, Bool.false_and, Bool.false_eq_true, if_false]
    rw [issue_next b (fun x => absurd (e ▸ x) (by decide)) fh rfl fe]
  · rw [me_onMe, me_onMe, lb, rotate_id]
    rw [m]; show (f (beginIssue s nd).me).groups = []
    rw [hk.1, hs]; exact hg
  · rw [me_onMe, me_onMe, lb, rotate_id]
    · rw [m, hs]
    · rw [m]; show (f (beginIssue s nd).me).groups = []
      rw [hk.1, hs]; exact hg

theorem vNeed_clear {s : State} {tk : BitVec 3} {regs : List (BitVec 6)} (r : Ready .v tk s) :
    firstHold s (vNeed s tk regs) = none ∧ firstEvent s (vNeed s tk regs) = none :=
  ⟨firstHold_none r (fun x m => absurd m (by simp [vNeed])), firstEvent_none (fun x m => absurd m (by simp [vNeed]))⟩

theorem vNeed_ready {s : State} {tk : BitVec 3} {regs : List (BitVec 6)} (b : ∀ r ∈ regs, vBusy s.me r = false) :
    (vNeed s tk regs).busy = false := by
  simpa [vNeed, List.any_eq_false] using b

/-- A V instruction with a register result: it completes, its enabled elements receive their values and flags, and nothing else of the
core differs. -/
theorem vResult_next {s : State} {lone : Bool} {flt : Option FaultInfo} {tk : BitVec 3} {pg : BitVec 4} {vd : BitVec 6} {srcs : List (BitVec 6)}
    {w : Core → Nat} {f : Core → Nat → Nat × Flags} (r : Ready .v tk s) (b : ∀ r ∈ vd :: srcs, vBusy s.me r = false) (fl : flt = none)
    (hg : s.me.groups = []) (hl : ∀ l, s.me.vloop = some l → (s.me.stream .v).pc + 4 ≠ l.hi)
    (hw : ∀ st tok res cy, w { s.me with streams := st, tokens := tok, reserved := res, cyc := cy } = w s.me)
    (hf : ∀ st tok res cy, f { s.me with streams := st, tokens := tok, reserved := res, cyc := cy } = f s.me) :
    ∃ t, vResult lone flt tk pg vd srcs w f s = .next t ∧ Completes .v tk 1 s t ∧
      (∀ j, j < vCount (w s.me) → vElem (w s.me) (t.me.getV vd) j =
        if vOn (s.me.vMask pg) (w s.me) j then (f s.me j).1 % 2 ^ w s.me else vElem (w s.me) (s.me.getV vd) j) ∧
      (∀ k, k ≠ s.me.vPhys vd → Tbl.get 0 t.me.v k = Tbl.get 0 s.me.v k) ∧
      (∀ b, t.me.fstk.getLsbD b = (s.me.fstk.getLsbD b ||
        (List.range (vCount (w s.me))).any (fun j => vOn (s.me.vMask pg) (w s.me) j && (f s.me j).2.getLsbD b))) ∧
      { t.me with v := s.me.v, fstk := s.me.fstk, streams := s.me.streams, tokens := s.me.tokens, reserved := s.me.reserved, cyc := s.me.cyc } = s.me := by
  obtain ⟨t, ht, hc, st, tok, res, cy, st', tok', res', cy', m⟩ := vIssue_completes (s := s) (nd := vNeed s tk (vd :: srcs)) (lone := lone) (flt := flt)
    (f := fun c => let r := vEach (w c) (c.vMask pg) (c.getV vd) (f c)
                   (c.setV vd r.1).addFlags r.2)
    rfl (vNeed_ready b) (vNeed_clear r).1 (vNeed_clear r).2 fl hg hl (fun c => ⟨rfl, rfl, rfl, rfl, rfl⟩) (fun c => ⟨rfl, rfl⟩)
  refine ⟨t, ht, hc, ?_⟩
  simp only [hw, hf] at m
  rw [m]
  refine ⟨fun j hj => ?_, fun k hk => ?_, fun b => ?_, rfl⟩
  · have : Tbl.get 0 (Tbl.set 0 s.me.v (s.me.vPhys vd) (vEach (w s.me) (s.me.vMask pg) (s.me.getV vd) (f s.me)).1) (s.me.vPhys vd) =
      (vEach (w s.me) (s.me.vMask pg) (s.me.getV vd) (f s.me)).1 := tbl_get_set_same _ _ _ _
    exact (congrArg (fun x => vElem (w s.me) x j) this).trans (vEach_elem _ _ _ _ hj)
  · exact tbl_get_set_other _ _ (Ne.symm hk) _
  · exact (fstkSet_bit _ _ b).trans (congrArg (s.me.fstk.getLsbD b || ·) (vEach_flags _ _ _ _ b))

end Sys2Proof.Laws
end

