-- ==== Sys2Proof/Tests/Slice0.lean ====
section
/-!
SUPPORT. Tests: words written from the encodings of the spec, ill-formed terms, single steps on small states, and
a witness for the hypotheses of every statement.
-/
set_option Elab.async false

namespace Sys2Proof.Tests
open Sys2Proof Sys2Proof.Machine Sys2Proof.Claims

/- Decoding: the expected words come from the layouts of 08 R168 to R174 and from the worked encodings of the chapters. -/

/-- 08 R169, R175: opcode 0x21, sd 8, sa 7, imm 5, tk 1. -/
theorem test_decode_addi : decodeList .s [0b0100001_001000_000111_0000000101_001] = .ok (.addi 8 7 5 1, []) := by decide +kernel
/-- 08 R168: opcode 0x02, three registers, pg, tk. -/
theorem test_decode_sub : decodeList .s [0b0000010_000001_000010_000011_0100_101] = .ok (.sub 1 2 3 4 5, []) := by decide +kernel
/-- 08 R166, its worked place. -/
theorem test_decode_plc : decodeList .s [0x5661BE00] = .ok (.plc 12 13 0b1111 0 0 0, []) := by decide +kernel
/-- 08 R168: a predicate destination has two zero bits above it. -/
theorem test_decode_cmplt : decodeList .s [0b0110010_00_0011_000100_000101_0000_000] = .ok (.cmplt 3 4 5 0 0, []) := by decide +kernel
/-- 09 R201: opcode 0x4B, ss, sa, obs. -/
theorem test_decode_strel : decodeList .s [0x96495200] = .ok (.strel 9 10 0x24 0 0, []) := by decide +kernel
/-- 09 R192: opcode 0x60, an offset of 18 bits, pg, tk. -/
theorem test_decode_br : decodeList .s [0b1100000_111111111111111110_0001_010] = .ok (.br (-2) 1 2, []) := by decide +kernel
/-- 09 R220, its worked encoding. -/
theorem test_decode_rsr : decodeList .s [0xB8400080] = .ok (.rsr 8 1 0, []) := by decide +kernel
/-- 15, litmus 5. -/
theorem test_decode_arr : decodeList .s [0xD0282000] = .ok (.arr 5 1 0 0 0, []) := by decide +kernel
/-- 09 R212 to R213. -/
theorem test_decode_ofdecl : decodeList .s [0xE2420488] = .ok (.ofdecl 8 16 9 1 0, []) := by decide +kernel
/-- 08 R175: opcode 0x79, SYSC. -/
theorem test_decode_sysc : decodeList .s [0b1111001_000000_0000000000000010_011] = .ok (.sysc 2 3, []) := by decide +kernel
/-- 11, worked program: VMUL. -/
theorem test_decode_vmul : decodeList .v [0x070C20C8] = .ok (.vmul 33 33 1 9 0, []) := by decide +kernel
/-- 11 R250, its worked encoding. -/
theorem test_decode_vcvt : decodeList .v [0x2A102180] = .ok (.vcvt 2 1 0 3 0 0, []) := by decide +kernel
/-- 11 R263, its worked atomic OR. -/
theorem test_decode_vamo : decodeList .v [0x9028C418] = .ok (.vamo 5 6 2 3 0, []) := by decide +kernel
/-- 11 R266: stages field 3, length 4. -/
theorem test_decode_vloop : decodeList .v [0b1010001_011_000000100_00000_00000_000] = .ok (.vloop 3 4 0 0, []) := by decide +kernel
/-- 11 R267: predicate 2, join bit 1, offset 16 bits. -/
theorem test_decode_vfork : decodeList .v [0b1010010_00_0010_001_0000000000000100] = .ok (.vfork 2 1 4, []) := by decide +kernel
/-- A header with its other fields zero (08 R172, R173). -/
def plain (seq dep0 : BitVec 8) (prof : BitVec 4) : CmdHdr :=
  { seq := seq, dep0 := dep0, dep1 := 0, e := 0, prof := prof, ta := 63, tb := 63, tk := 0 }
/-- 12, worked commands: MLNT, MLDB, MGO, MSTA. -/
theorem test_decode_mlnt :
    decodeList .m [0x02000000, 0x007FF800, 0xA0010040, 0x00000200] = .ok (.mlnt (plain 0 0 0) 5 1 0x40 0x200, []) := by decide +kernel
theorem test_decode_mldb :
    decodeList .m [0x10020000, 0x00FFF800, 0x00004200] = .ok (.mldb (plain 1 0 1) 0 0x4200, []) := by decide +kernel
theorem test_decode_mgo :
    decodeList .m [0x20040200, 0x00FFF800, 0x08000000] = .ok (.mgo (plain 2 1 1) 0 1 0, []) := by decide +kernel
theorem test_decode_msta :
    decodeList .m [0x34060400, 0x007FF800, 0x08004400] = .ok (.msta (plain 3 2 0) 0 1 0 0x4400, []) := by decide +kernel
/-- 08 R174: MTYP is one word. -/
theorem test_decode_mtyp : decodeList .m [0x04102800] = .ok (.mtyp 2 5 0, []) := by decide +kernel
/-- 12 R303, R304: op 1 of MSOLV is the factorisation and op 2 the resumed one. -/
theorem test_decode_msolv :
    decodeList .m [0x50020000, 0x00020800, 0b10_000101_0000000_00000000001000000, 9] =
      .ok (.msolvLdlt { plain 1 0 0 with ta := 1, tb := 1 } true 5 64 9, []) := by decide +kernel
/-- 10, worked copy: seq 0x81, notify, dims 2, 128 bytes, 4 by 1. -/
theorem test_decode_kcpy : decodeList .k [0x03020000, 0x047FF800, 0x00200080, 0x00040001] = .ok (.kcpy (plain 0x81 0 8) 0 0 2 128 4 1, []) := by
  decide +kernel
/-- 10 R237. -/
theorem test_decode_kbind : decodeList .k [0x20006000] = .ok (.kbind 3 0 0, []) := by decide +kernel
/-- 06 R116: a SIG word of two words. -/
theorem test_decode_sig : decodeList .s [0xFE022BEA] = .ok (.blockSignatureCheck .s 2 0x2BEA, []) := by decide +kernel
/-- 08 R179: an unused opcode, a zero field that is not zero, a value outside its limits, and too few words. -/
theorem test_decode_refuses :
    decodeList .s [0] = .error .unusedOpcode ∧ decodeList .s [0b0010110_000000_000000_000001_0000_000] = .error .zeroField ∧
      decodeList .s [0b0100101_000001_000010_0001000000_000] = .error .reservedValue ∧ decodeList .m [0x02000000, 0x007FF800] = .error .truncated := by
  decide +kernel

/- Well-formedness: for each check a term that breaks it and nothing else (08 R162, R169 to R174, R179, 09 to 12). -/

/-- A header that an M command may carry, and one for a K command. -/
def mh : CmdHdr := plain 1 0 0
def kh : CmdHdr := plain 0x81 0 0

/-- Terms of the S and V streams that a check refuses. -/
def illFormedSV : List Instr :=
  [.shli 1 1 64 0, .shrli 1 1 64 0, .shrai 1 1 64 0, .pset 1 2 0 0, .ldacq 1 1 0 0 0, .strel 1 1 0 0 0, .fence 0 0, .amo 1 1 0 10 0,
   .cas 0 1 0 0, .cas 3 1 0 0, .dred 1 1 1 0, .tins 1 1 8 0, .tinv 1 8 0, .trd 1 1 8 0, .qpush 1 2 0 0, .qpop 1 1 0 0, .qpop 1 4 0 0,
   .bop 1 3 0 0, .bop 1 7 0 0, .rsr 1 5 0, .rsr 1 0x0C0 0, .wsr 1 4 0, .wsr 1 0x050 0, .ofdecl 1 1 1 2 0, .vrotr 1 1 16 0 0, .vbcr 1 1 16 0 0,
   .vredr 1 1 6 0 0, .vredc 1 1 6 0 0, .vamo 1 1 9 0 0, .vdred 1 1 1 0 0, .vloop 1 0 0 0, .blockSignatureCheck .s 0 0]
theorem test_ill_formed_sv : illFormedSV.all (fun i => !i.wf) = true := by decide +kernel

/-- Terms of the M stream that a check refuses. -/
def illFormedM : List Instr :=
  [.mlnt { mh with seq := 0x80 } 0 0 1 0, .mlnt { mh with prof := 1 } 0 0 1 0, .mlnt { mh with ta := 1 } 0 0 1 0, .mlnt { mh with tb := 1 } 0 0 1 0, .mlnt mh 6 0 1 0,
   .mtyp 16 0 0, .mprof 0 0, .mprof 9 0, .mldb { mh with prof := 9 } 0 0, .mldb { mh with ta := 16 } 0 0, .mldb { mh with tb := 1 } 0 0, .mldb mh 0 0x20000,
   .msel { mh with ta := 1 } 0 0, .mgo { mh with prof := 9 } 0 0 0, .mgo { mh with ta := 62 } 0 0 0, .mgo { mh with tb := 62 } 0 0 0, .mgo mh 0 3 0, .mgo mh 1 2 0,
   .mgo mh 0 0 0x20000, .mgo { mh with ta := 1 } 0 0 1, .morb { mh with ta := 16 } 1 0, .morb mh 0 1, .mzero mh 0 0 1 0, .mzero mh 0 0 0 1, .mlda mh 0 0 1 0,
   .mlda mh 0 0 0 0x20000, .msta mh 0 0 1 0, .msta { mh with ta := 1 } 0 0 0 0, .mdrain mh 0 3 0 0, .mdrain mh 0 0 0 0x20000, .mwait 0 0 0, .marrb { mh with prof := 1 } 1 0 0,
   .msolvCg { mh with tb := 1 } 0 0 0, .msolvLdlt { mh with tb := 16 } false 0 0 0, .msupd mh 0 0, .msres mh 0 0, .msres mh 0 9, .msres mh 255 2]
theorem test_ill_formed_m : illFormedM.all (fun i => !i.wf) = true := by decide +kernel

/-- Terms of the K stream that a check refuses. -/
def illFormedK : List Instr :=
  [.kcpy { kh with seq := 1 } 0 0 1 1 1 1, .kcpy { kh with prof := 1 } 0 0 1 1 1 1, .kcpy { kh with ta := 16 } 0 0 1 1 1 1, .kcpy kh 0 0 0 1 1 1, .kcpy kh 0 0 1 0 1 1,
   .kcpy kh 0 0 2 1 0 1, .kcpy kh 0 0 3 1 1 0, .kcpy kh 0 0 1 1 2 1, .kcpy kh 0 0 2 1 1 2, .kcpy kh 3 0 1 1 1 1, .kcpy kh 1 255 1 1 1 1, 
   .kgth kh 0 0 13 0 1, .kgth kh 0 0 0 0 0, .kgth kh 2 254 0 0 1, .ksct { kh with ta := 1 } 0 0 0 0 1, .kmc kh 0 0 63, .kmc kh 0 0 65, .kmc kh 0 0 4194241,
   .kqnt kh 0 0 9 0 1, .kqnt kh 0 0 0 3 1, .kqnt kh 0 0 0 0 0, .kexp { kh with tb := 1 }, .kxfTranspose kh 0 0 3 0 1, .kxfTranspose kh 0 0 0 1 1, .kxfTranspose kh 0 0 0 0 0,
   .kxfOrbitPack kh 0 0 0 0 0, .kxfOrbitPack { kh with ta := 1 } 0 0 1 0 0, .kxfOrbitUnpack { kh with ta := 1 } 0 0 0 0 1, .kxfRequantise kh 0 0 9 0 1,
   .kxfRequantise kh 0 0 0 1 1, .kxfRequantise kh 0 0 0 0 0, .kxfZeroFill kh 0 0 0 0 0, .kxfZeroFill kh 0 0 0 0 1025, .kred kh 0 0 3 1, .kred kh 0 0 0 0, .kexpt { kh with ta := 1 }]
theorem test_ill_formed_k : illFormedK.all (fun i => !i.wf) = true := by decide +kernel

/-- Events that name no place. -/
theorem test_ill_formed_events :
    ([.commandStart 256 .m, .checkerCompare 0 9 true, .zenithArrival 0 ⟨64, none⟩, .ofsubAcceptance 0 4, .beatEnd 4, .batchArrival 0 4, .linkDown 0 4096 0, .linkDown 0 0 4,
   .responseTimeout 0 0 4, .stagingWordWrite 0 7 0, .headLinkWaitEnd 64, .dieFence ⟨5, none⟩, .setPowerCap 4096 0] : List Instr).all (fun i => !i.wf) = true := by decide +kernel

/-- The terms above are well formed but for the field that each breaks. -/
theorem test_well_formed : ([.shli 1 1 63 0, .cas 2 1 0 0, .mlnt mh 5 0 1 0, .mgo mh 0 2 0, .mldb mh 0 0x1FFFF, .msres mh 248 8, .kcpy kh 1 254 1 1 1 1, .kcpy { kh with ta := 1 } 0 0 2 1 1 1,
    .kmc kh 0 0 4194240, .kxfOrbitPack { kh with ta := 15 } 0 0 0 0 0, .kxfZeroFill kh 0 0 0 0 1024, .dieFence ⟨4, none⟩, .checkerCompare 255 8 true] : List Instr).all Instr.wf = true := by
  decide +kernel

/- Single steps. The expected values are worked examples of the spec or computed by hand from the rules named. -/

/-- A stream at offset 4 of a checked block of 63 words, its first line in the buffer. -/
def atFour : Machine.Stream := { Stream.idle with pc := 4, ended := false, hi := 256, lines := [0] }
/-- A unit whose texts are sections of 256 bytes. -/
def someUnit : WorkUnit := { placedUnit with text := [(0, 256), (0, 256), (0, 256), (0, 256)] }
/-- A core that runs this unit, its four streams at offset 4. -/
def running : Core := { Core.reset with unit := some someUnit, streams := [(0, atFour), (1, atFour), (2, atFour), (3, atFour)] }
/-- The module with core 0 as given. -/
def only (c : Core) : State := { State.reset with cores := [(0, c)] }
/-- The running core with its S registers and predicates as given. -/
def withS (s : Tbl Word) (p : BitVec 16) : State := only { running with s := s, p := p }
/-- A check of the state that an instruction leaves. -/
def leaves (i : Instr) (s : State) (ok : State → Bool) : Bool := match exec i s with | .next t => ok t | _ => false
/-- A check of one register. -/
def leavesS (i : Instr) (s : State) (r : BitVec 6) (v : Word) : Bool := leaves i s (fun t => t.me.getS r == v)

/-- R184: sums wrap. -/
theorem test_add_wraps : leavesS (.add 1 2 3 0 0) (withS [(2, BitVec.allOnes 64), (3, 2)] 0) 1 1 = true := by decide +kernel
/-- R184: p[pg] false leaves the destination; s0 discards. -/
theorem test_add_predicated_off : leavesS (.add 2 2 2 1 0) (withS [(2, 5)] 0) 2 5 = true := by decide +kernel
theorem test_add_to_s0 : leavesS (.add 0 2 2 0 0) (withS [(2, 5)] 0) 0 0 = true := by decide +kernel
/-- R184: the high half of (-1) × 2 is -1 signed and 1 unsigned. -/
theorem test_mulh : leavesS (.mulh 1 2 3 0 0) (withS [(2, BitVec.allOnes 64), (3, 2)] 0) 1 (BitVec.allOnes 64) = true := by decide +kernel
theorem test_mulhn : leavesS (.mulhn 1 2 3 0 0) (withS [(2, BitVec.allOnes 64), (3, 2)] 0) 1 1 = true := by decide +kernel
/-- R185: a division by zero gives all ones, and the remainder the dividend. -/
theorem test_divs_by_zero : leavesS (.divs 1 2 3 0 0) (withS [(2, 7)] 0) 1 (BitVec.allOnes 64) = true := by decide +kernel
theorem test_rems_by_zero : leavesS (.rems 1 2 3 0 0) (withS [(2, 7)] 0) 1 7 = true := by decide +kernel
/-- R185: quotients truncate towards zero: -7 by 2 is -3, remainder -1. -/
theorem test_divs_truncates : leavesS (.divs 1 2 3 0 0) (withS [(2, BitVec.ofInt 64 (-7)), (3, 2)] 0) 1 (BitVec.ofInt 64 (-3)) = true := by
  decide +kernel
theorem test_rems_sign : leavesS (.rems 1 2 3 0 0) (withS [(2, BitVec.ofInt 64 (-7)), (3, 2)] 0) 1 (BitVec.ofInt 64 (-1)) = true := by decide +kernel
/-- R184: shifts take six bits of the count. -/
theorem test_shl_modulo : leavesS (.shl 1 2 3 0 0) (withS [(2, 3), (3, 65)] 0) 1 6 = true := by decide +kernel
/-- R186. -/
theorem test_clz_zero : leavesS (.clz 1 2 0 0) (withS [] 0) 1 64 = true := by decide +kernel
theorem test_sext : leavesS (.sext 1 2 7 0 0) (withS [(2, 0x180)] 0) 1 (BitVec.ofInt 64 (-128)) = true := by decide +kernel
/-- R188: LDHI shifts up and takes the constant below. -/
theorem test_ldhi : leavesS (.ldhi 1 0x1234 0) (withS [(1, 0xAAAA000000000005)] 0) 1 0x0000000000051234 = true := by decide +kernel
/-- R189: an L address wraps within its 23 bits. -/
theorem test_lea_wraps : leavesS (.lea 1 2 1 0) (withS [(2, 0x20000000007FFFF8)] 0) 1 0x2000000000000000 = true := by decide +kernel
/-- 08 R166, its worked place: s13 = 0x0004_2000 one core to the west is an N address with dx 15. -/
theorem test_plc : leavesS (.plc 12 13 0b1111 0 0 0) (withS [(13, 0x42000)] 0) 12 0x4000000007842000 = true := by decide +kernel
/-- R190: -1 is less than 0 as a signed number and not as an unsigned one. -/
theorem test_cmplt : leaves (.cmplt 3 2 0 0 0) (withS [(2, BitVec.allOnes 64)] 0) (fun t => t.me.getP 3) = true := by decide +kernel
theorem test_cmpltn : leaves (.cmpltn 3 2 0 0 0) (withS [(2, BitVec.allOnes 64)] 8) (fun t => !t.me.getP 3) = true := by decide +kernel
/-- R192: three words forward from offset 4. -/
theorem test_br : leaves (.br 3 0 0) (withS [] 0) (fun t => decide ((t.me.stream .s).pc = 16)) = true := by decide +kernel
/-- R193: LOOP counts 1 down to 0 and goes on. -/
theorem test_loop_ends : leaves (.loop 1 (-1) 0) (withS [(1, 1)] 0) (fun t => decide ((t.me.stream .s).pc = 8) && t.me.getS 1 == 0) = true := by
  decide +kernel
/-- R219, R220: FSTK's bits clear where a one is written. -/
theorem test_wsr_fstk : leaves (.wsr 1 1 0) (only { running with s := [(1, 0x3)], fstk := 0x6 }) (fun t => t.me.fstk == 4) = true := by decide +kernel
/-- R157, R205: TLK in an empty set misses and offers way 0. -/
theorem test_tlk_miss : leavesS (.tlk 1 2 0) (withS [(2, 0x5000)] 0) 1 (BitVec.ofNat 64 (2 ^ 19 * tagSet 0x5000)) = true := by decide +kernel
/-- R208: BINIT of a local object with EXP 3 sets NEED 3. -/
theorem test_binit : leaves (.binit 2 1 0) (withS [(1, 0x301)] 0) (fun t => bNeed (t.me.barrier 2) == 3 && bExp (t.me.barrier 2) == 3) = true := by
  decide +kernel
/-- R209: the last arrival completes the phase and NEED is EXP again. -/
theorem test_arr_completes : leaves (.arr 2 0 0 0 0) (only { running with bobj := [(2, 0x03000101)] })
    (fun t => bPhase (t.me.barrier 2) == 1 && bNeed (t.me.barrier 2) == 3) = true := by decide +kernel
/-- R195: TRAP faults with ILLEGAL, its code in EBX. -/
theorem test_trap : leaves (.trap 7 0) (withS [] 0) (fun t => (t.bank (.core 0)).ebs.extractLsb' 8 8 == 1 && (t.bank (.core 0)).ebx == 7 && t.me.stopped) = true := by
  decide +kernel
/-- R196: UIRET outside a handler faults with ILLEGAL. -/
theorem test_uiret_outside : leaves (.uiret 0 0) (withS [] 0) (fun t => (t.bank (.core 0)).ebs.extractLsb' 8 8 == 1) = true := by decide +kernel
/-- R118: an instruction that pops a token waits while none is there, and goes on with one. -/
theorem test_token_wait : leaves (.nop 0 1) (only { running with tks := [(0, 0x100)] }) (fun t => decide ((t.me.stream .s).pc = 4)) = true := by
  decide +kernel
theorem test_token_taken : leaves (.nop 0 1) (only { running with tks := [(0, 0x100)], tokens := [(fifoTo (otherEng 0 0) 0, [[]])] })
    (fun t => decide ((t.me.stream .s).pc = 8) && (t.me.tokens == [])) = true := by decide +kernel
/-- R255: VIOTA at 32 bits. -/
theorem test_viota : leaves (.viota 5 0 0) (withS [] 0) (fun t => vElem 32 (t.me.getV 5) 1023 == 1023 && vElem 32 (t.me.getV 5) 1 == 1) = true := by decide +kernel
/-- R250, its worked conversion: 500.0 to E4M3 is 0x7E and sets SAT, OFL and NX. -/
theorem test_vcvt : leaves (.vcvt 2 1 0 3 0 0) (only { running with v := [(1, 0x43FA0000)] }) (fun t => vElem 8 (t.me.getV 2) 0 == 0x7E) = true := by
  decide +kernel
/-- 06 R116, R179: a step fetches, decodes and runs a word; ADDI s8, s7, 5 after reset leaves 5. -/
theorem test_step_addi : (match step (State.reset.withFetchWord 32 0x4240E028) with | .next t => t.me.getS 8 == 5 | _ => false) = true := by decide +kernel
/-- R179: a word that is no instruction of its stream faults with ILLEGAL when it is fetched. -/
theorem test_step_illegal : (match step (State.reset.withFetchWord 32 0) with
    | .next t => (t.bank (.core 0)).ebs.extractLsb' 8 8 == 1 | _ => false) = true := by decide +kernel
/-- 22 R397: after a trip only a module reset runs. -/
theorem test_stopped : (match step { State.reset with stopped := true, sched := [(1, .event .kickScan)] } with
    | .fault x => decide (x = .moduleStopped) | _ => false) = true := by decide +kernel
theorem test_stopped_reports : (match step { State.reset with stopped := true, sched := [(1, .event (.readSensors 0 default))] } with
    | .next t => decide (t.replies.length = 1 ∧ t.now = 0) | _ => false) = true := by decide +kernel
/-- Ch. 17: the worked sum of the tree, as one operator on FP32: 1.0 + 2^24 rounds to 2^24. -/
theorem test_coll_sum : collOp 0x10 0 0x3F800000 0x4B800000 = 0x4B800000 := by decide +kernel

/- Witnesses: for each statement, states and operands that meet the hypotheses of each of its clauses. -/

/-- Token entry 1 of every stream pops one FIFO and pushes one; the popped one holds a token, the pushed one is one short of full. -/
def tokened : Core :=
  { running with tks := [(0, 0x900), (1, 0x900), (2, 0x900), (3, 0x900)],
                 tokens := (List.range 12).map (fun k => (k, [[]])), reserved := (List.range 12).map (fun k => (k, 62)) }
/-- The core with D, L, N and W addresses in s1, s2, s3 and s4. -/
def addressed : Core := { tokened with s := [(1, 0x5000), (2, 0x2000000000000100), (3, 0x4000000000000100), (4, 0x6000000000800100)] }
/-- A queue entry that may be popped. -/
def entryOf (v : Word) : QEntry := { val := v, due := 0, ord := 0, checked := true, pc := 4 }

theorem witness_IntegerRegisterForms : SReady 1 [8, 7, 6] (only tokened) := by unfold SReady Ready; decide +kernel
theorem witness_CountAndExtendForms : SReady 1 [8, 7] (only tokened) := by unfold SReady Ready; decide +kernel
theorem witness_ImmediateAndConstantForms : SReady 1 [8, 7] (only tokened) ∧ (63 : BitVec 10).toNat < 64 := by unfold SReady Ready; decide +kernel
theorem witness_ComparesAndPredicates : SReady 1 [8, 7] (only tokened) ∧ (1 : BitVec 6).toNat ≤ 1 := by unfold SReady Ready; decide +kernel
theorem witness_ImmediateBranches : SReady 1 [8] (only tokened) := by unfold SReady Ready; decide +kernel

/-- AQ and SQ one short of full, BV, BM and BK one short of full, VQ and MQ with one entry. -/
def queued : Core :=
  { tokened with queues := [(0, List.replicate 31 (entryOf 0)), (1, List.replicate 31 (entryOf 0)), (2, [entryOf 7]), (3, [entryOf 8]),
                            (4, List.replicate 63 (entryOf 1)), (5, List.replicate 63 (entryOf 1)), (6, List.replicate 63 (entryOf 1))] }
theorem witness_SpillStores : SReady 1 [] (only queued) ∧ SReady 1 [8] (only queued) := by unfold SReady Ready; decide +kernel
theorem witness_QueuePushes : SReady 1 [8] (only queued) ∧ ∀ q ∈ [(0 : BitVec 3), 1], q.toNat ≤ 1 ∧ ((only queued).me.queue q.toNat).length < 32 := by
  unfold SReady Ready; decide +kernel
theorem witness_BranchPushes : SReady 1 [] (only queued) ∧
    ∀ q ∈ [(4 : BitVec 3), 5, 6], 4 ≤ q.toNat ∧ q.toNat ≤ 6 ∧ ((only queued).me.queue q.toNat).length < 64 := by unfold SReady Ready; decide +kernel
theorem witness_QueuePops : SReady 1 [8] (only queued) ∧ (only queued).me.queue 2 = entryOf 7 :: [] ∧ (only queued).me.queue 3 = entryOf 8 :: [] ∧
    (entryOf 7).due ≤ (only queued).now ∧ storePending (only queued) (only queued).cur .v (entryOf 7).ord = false := by unfold SReady Ready; decide +kernel

theorem witness_SpecialRegisterReads : SReady 0 [8] { State.reset with cur := 255 } ∧
    (∃ x ∈ readable { State.reset with cur := 255 }, x.1 = (0x0BF : BitVec 12).toNat) ∧ (∃ x ∈ readable { State.reset with cur := 255 }, x.1 = (0 : BitVec 12).toNat) ∧
    (255 : Nat) < 256 := by unfold SReady Ready; decide +kernel
theorem witness_SpecialRegisterWrites : SReady 1 [8] (only tokened) ∧ 0x040 ≤ (0x04F : BitVec 12).toNat ∧ (0x04F : BitVec 12).toNat ≤ 0x04F ∧
    bfRefused ((only tokened).me.getS 8) = false ∧ bankOpen (only tokened) (only tokened).cur 5 = true := by unfold SReady Ready; decide +kernel

/-- The set of the D address 0x5000 with the tag in its way 7 only. -/
def tagged : Core := { addressed with tags := [(8 * tagSet 0x5000 + 7, BitVec.ofNat 64 (1 + 2 ^ 15 * 5))] }
theorem witness_TagTable : qSpc ((only tagged).me.getS 1) = 0 ∧ (7 : BitVec 4).toNat < 8 ∧ SReady 1 [8, 1] (only tagged) ∧ SReady 1 [1, 8] (only tagged) ∧
    SReady 1 [1] (only tagged) := by unfold SReady Ready; decide +kernel
theorem witness_TagTableHit : let entry (w : Nat) : Word := Tbl.get 0 (only tagged).me.tags (8 * tagSet 0x5000 + w)
    (entry 7).getLsbD 0 = true ∧ (entry 7).extractLsb' 15 45 = (5 : BitVec 45) ∧ ∀ v, v < 7 → (entry v).getLsbD 0 = false := by decide +kernel
theorem witness_TagTableMiss : ∀ w, w < 8 → ¬ ((Tbl.get (0 : Word) (only addressed).me.tags (8 * tagSet 0x5000 + w)).getLsbD 0 = true) := by decide +kernel

theorem witness_Loads : SReady 1 [8, 2] (only addressed) ∧ qSpc ((only addressed).me.getS 2) ≠ 3 ∧ ((only addressed).me.loads .s).length < 32 ∧
    undeclaredAccess (only addressed) 0 ((only addressed).me.getS 2) 8 false = false := by unfold SReady Ready; decide +kernel
theorem witness_Atomics : ((only addressed).me.stores .s).length < 32 ∧ ¬ ((9 : BitVec 4) = 9 ∧ detInForce (only addressed) = true) ∧
    undeclaredAccess (only addressed) 0 ((only addressed).me.getS 2) 4 true = false ∧ sBusy (only addressed).me (8 + 1) = false ∧
    undeclaredAccess (only addressed) 0 ((only addressed).me.getS 2) 8 true = false := by decide +kernel
theorem witness_Stores : SReady 1 [8, 2] (only addressed) ∧ ((only addressed).me.stores .s).length < 32 ∧
    qSpc ((only addressed).me.getS 2) ≠ 3 ∧ undeclaredAccess (only addressed) 0 ((only addressed).me.getS 2) 8 true = false := by unfold SReady Ready; decide +kernel
theorem witness_Dred : SReady 1 [8, 1] (only addressed) ∧ qSpc ((only addressed).me.getS 1) = 0 ∧
    undeclaredAccess (only addressed) 0 ((only addressed).me.getS 1) 4 true = false := by unfold SReady Ready; decide +kernel
theorem witness_Mark : (only addressed).me.getP 0 = true ∧ (only addressed).me.getP 1 = false ∧ ((only addressed).me.loads .s).length < 32 := by decide +kernel
/-- A unit under det. -/
def detRunning : Core := { addressed with unit := some { someUnit with det := true } }
theorem witness_DetAtomic : SReady 1 [8, 1] (only detRunning) ∧ detInForce (only detRunning) = true ∧ qSpc ((only detRunning).me.getS 1) = 0 ∧
    undeclaredAccess (only detRunning) 0 ((only detRunning).me.getS 1) 4 true = false := by unfold SReady Ready; decide +kernel

/-- A SIG word at offset 64, and s5 to s7 with that offset, one past the section and one that is no multiple of 4. -/
def jumping : Core :=
  { running with s := [(5, 64), (6, 256), (7, 66), (8, 68)], streams := [(0, { atFour with buf := [(67, 0xFE)] }), (1, { atFour with buf := [(67, 0xFE)] })] }
theorem witness_RegisterBranch : SReady 0 [5] (only jumping) ∧ (only jumping).me.getP 0 = true ∧ (only jumping).me.getP 1 = false ∧
    64 % 4 = 0 ∧ 64 < ((only jumping).me.text .s).2 ∧ 64 / 256 ∈ ((only jumping).me.stream .s).lines ∧
    (((only jumping).me.stream .s).word 64).extractLsb' 25 7 = 0x7F := by unfold SReady Ready; decide +kernel
theorem witness_RegisterBranchFaults : SReady 0 [6] (only jumping) ∧ SReady 0 [7] (only jumping) ∧ SReady 0 [8] (only jumping) ∧
    ((only jumping).me.getS 7).toNat % 4 ≠ 0 ∧ ((only jumping).me.getS 6).toNat % 4 = 0 ∧ ((only jumping).me.text .s).2 ≤ ((only jumping).me.getS 6).toNat ∧
    68 / 256 ∈ ((only jumping).me.stream .s).lines ∧ ¬ (((only jumping).me.stream .s).word 68).extractLsb' 25 7 = 0x7F := by unfold SReady Ready; decide +kernel
theorem witness_ReturnFromHandler : SReady 1 [] (only { tokened with uiact := true }) ∧ (only { tokened with uiact := true }).me.getP 0 = true ∧
    (only { tokened with uiact := true }).me.uiact = true ∧ SReady 1 [] (only tokened) ∧ (only tokened).me.uiact = false := by
  unfold SReady Ready; decide +kernel
/-- A core whose SYSC 3 waits. -/
def calling : State := { only { running with sysc := some (3, []) } with disp := { Dispatch.reset with ready := true } }
theorem witness_TrapAndServiceCall : SReady 1 [] (only tokened) ∧ SReady 1 [8] (only tokened) := by
  unfold SReady Ready; decide +kernel
theorem witness_ServiceAnswer : dispOk calling = true ∧ (calling.core 0).runs = true ∧ (calling.core 0).sysc = some (3, []) := by decide +kernel
theorem witness_EndOfTheScalarStream : SReady 1 [] (only tokened) ∧ (only tokened).me.getP 0 = true ∧ accPending (only tokened) 0 .s true 1 = false ∧
    (only tokened).me.pend = [] ∧ (only tokened).me.subs = [] ∧ (only tokened).me.boundQ = [] ∧ (only tokened).me.stopped = false := by unfold SReady Ready; decide +kernel
/-- An access to the last aligned bytes of the scratchpad at the head of the S stream's queues. -/
def accessOf (k : AccKind) (n : Nat) (data : List Byte) : Access :=
  { ord := 0, pc := 4, kind := k, pieces := onePiece (BitVec.ofNat 64 (2 ^ 61 + 2 ^ 23 - n)) n data, got := [], dst := 1, obs := 0, bad := false, begun := false, out := [],
    issued := 0, since := 0, bound := 0, full := none, fullRaised := false, places := [], path := [] }
/-- A load of the S stream, which has not been performed. -/
def loading_ (c : Core) : Core := { c with lq := [(0, [{ accessOf .load 8 [] with ord := 0 }])], sOrd := 1 }
theorem witness_EndWaits : SReady 1 [] (only (loading_ tokened)) ∧ (only (loading_ tokened)).me.getP 0 = true ∧
    accPending (only (loading_ tokened)) 0 .s true 2 = true := by unfold SReady Ready; decide +kernel

/-- s9 and s10 with the operands of BINIT: a local object of 65,535 arrivals and a team object; a team of four. -/
def binding : Core := { tokened with s := [(9, 0xFFFF01), (10, 2), (11, 65534)], dom := [(1, 0x4000000)], bobj := [(3, 0x0000000000000101)] }
theorem witness_BarrierSetUp : SReady 1 [9] (only binding) ∧ (only binding).me.getS 9 = BitVec.ofNat 64 (1 + 2 ^ 8 * 65535) ∧
    SReady 1 [10] (only binding) ∧ (only binding).me.getS 10 = BitVec.ofNat 64 (2 + 2 ^ 8 * 0) ∧ (Tbl.get (0 : Word) (only binding).me.dom (2 - 1)).extractLsb' 24 24 ≠ 0 ∧
    (Tbl.get Arrived.none (only binding).me.arrived 3).atNode = false ∧ (only binding).me.cyc.arr = [] := by unfold SReady Ready; decide +kernel
theorem witness_BarrierExpectation : SReady 1 [11] (only binding) ∧ bMode ((only binding).me.barrier 3) = 1 ∧ 1 ≤ ((only binding).me.getS 11).toNat ∧
    ((only binding).me.getS 11).toNat ≤ 65535 ∧ bNeed ((only binding).me.barrier 3) + ((only binding).me.getS 11).toNat ≤ 65535 := by unfold SReady Ready; decide +kernel
theorem witness_WaitForEvent : SReady 1 [] (only { tokened with latch := true }) ∧ (only { tokened with latch := true }).me.latch = true := by
  unfold SReady Ready; decide +kernel
/-- Units of one launch on a placement of 8 by 1 cores: core 0 with addressed registers, core 7 as well. -/
def teamUnit : WorkUnit := { someUnit with place := { px := 0, py := 0, pw := 8, ph := 1, ndies := 1, die0 := 0 } }
def teamed : State :=
  { State.reset with cores := [(0, { addressed with unit := some teamUnit, s := [(3, 0x4000000003800100), (4, 0x6000000040800100)] }),
                               (7, { running with unit := some teamUnit })] }
theorem witness_SetOwnEvent : SReady 1 [2] (only addressed) ∧ Quiet .s (only addressed) ∧ qSpc ((only addressed).me.getS 2) = 1 ∧
    formFault ((only addressed).me.getS 2) = none := by unfold SReady Ready Quiet NotEnding; decide +kernel
theorem witness_SetOtherEvent : SReady 1 [3] teamed ∧ Quiet .s teamed ∧ qSpc (teamed.me.getS 3) = 2 ∧ formFault (teamed.me.getS 3) = none ∧
    nTarget teamed.me.placeOf 0 (teamed.me.getS 3) = some 7 ∧ tagCheck teamed 0 7 = none ∧ (teamed.core 7).zeroing = none := by
  unfold SReady Ready Quiet NotEnding; decide +kernel
theorem witness_SetTeamEvents : SReady 1 [4] teamed ∧ Quiet .s teamed ∧ qSpc (teamed.me.getS 4) = 3 ∧ formFault (teamed.me.getS 4) = none ∧
    wMembers teamed.me.placeOf 0 (qMask (teamed.me.getS 4)) = some [0, 7] ∧ ∀ m ∈ [0, 7], tagCheck teamed 0 m = none ∧ (teamed.core m).zeroing = none := by
  unfold SReady Ready Quiet NotEnding; decide +kernel

theorem witness_TeamStore : let q := teamed.me.getS 4
    SReady 1 [8, 4] teamed ∧ (teamed.me.stores .s).length < 32 ∧ qSpc q = 3 ∧ formFault q = none ∧ qByte q % 8 = 0 ∧
      wMembers teamed.me.placeOf 0 (qMask q) = some [0, 7] ∧ wRefused teamed 0 [0, 7] = false ∧ undeclaredAccess teamed 0 q 8 true = false ∧
      teamed.me.loads .s = [] ∧ teamed.me.stores .s = [] ∧ teamed.me.stores .v = [] ∧ teamed.me.pend = [] ∧ teamed.wFlight = [] := by
  unfold SReady Ready; decide +kernel

/-- Slot 3 free at its last generation but one, slot 2 open with 15 ranges, slot 1 submitted and granted in full, slot 0 lost; the handles of slots 1 and
2 in s1 and s2; the operands of OFDECL in s5 to s8. -/
def declaring : Core :=
  { addressed with ofs := [(0, { OfSlot.reset with st := .submitted, lost := true }), (1, { OfSlot.reset with st := .submitted, ready := true }),
                           (2, { OfSlot.reset with st := .opened, ranges := List.replicate 15 { space := 0, core := 0, first := 0, count := 1, write := false } }),
                           (3, { OfSlot.reset with gen := 0xFFFE })],
                   s := [(1, 1), (2, 2), (5, 0x1FFFFFFFFFFF000), (6, 1), (7, 0x20000000007FF000), (8, 0x40000000007FF000)], unit := some teamUnit }
theorem witness_OrderFirstOpen : SReady 1 [9] (only declaring) ∧ ((only declaring).me.ofSlot 3).st = .free := by unfold SReady Ready; decide +kernel
theorem witness_OrderFirstEnd : SReady 1 [2] (only declaring) ∧ (only declaring).me.getS 2 = BitVec.ofNat 64 (2 + 4 * ((only declaring).me.ofSlot 2).gen.toNat) ∧
    ((only declaring).me.ofSlot 2).st = .opened := by unfold SReady Ready; decide +kernel
/-- Slot 0 granted; slot 1 submitted, granted in full or not. -/
def ending_ (ready pending : Bool) : State :=
  let c : Core := { tokened with s := [(1, 1)], ofs := [(0, { OfSlot.reset with st := .granted, tx := 4 }), (1, { OfSlot.reset with st := .submitted, ready := ready })] }
  only (if pending then loading_ c else c)
theorem witness_OrderFirstEndSubmitted : ∀ ready ∈ [true, false], let s := ending_ ready false
    s.me.getS 1 = BitVec.ofNat 64 (1 + 4 * (s.me.ofSlot 1).gen.toNat) ∧ (s.me.ofSlot 1).st = .submitted ∧ (s.me.ofSlot 1).ready = ready ∧
      (s.me.ofSlot 1).lost = false ∧ SReady 1 [1] s := by unfold SReady Ready; decide +kernel
theorem witness_OrderFirstEndGranted : ∀ pending ∈ [true, false], let s := ending_ true pending
    s.me.getS 0 = BitVec.ofNat 64 (0 + 4 * (s.me.ofSlot 0).gen.toNat) ∧ (s.me.ofSlot 0).st = .granted ∧ s.me.pend = [] ∧ NotEnding s.cur s ∧
      accPending s s.cur .s true s.me.sOrd = pending ∧ owed s s.cur .s = false ∧ SReady 1 [0] s := by unfold SReady Ready NotEnding; decide +kernel
theorem witness_OrderFirstDeclare : SReady 1 [2, 5, 6] (only declaring) ∧ ((only declaring).me.ofSlot 2).ranges.length < 16 ∧ ((only declaring).me.getS 6).toNat = 1 ∧
    (∀ r ∈ [(5 : BitVec 6), 7, 8], formFault ((only declaring).me.getS r) = none) ∧
    qSpc ((only declaring).me.getS 5) = 0 ∧ qVa ((only declaring).me.getS 5) / 4096 + 1 = 2 ^ 45 ∧
    qSpc ((only declaring).me.getS 7) = 1 ∧ qAddr ((only declaring).me.getS 7) / 4096 + 1 = 2048 ∧
    qSpc ((only declaring).me.getS 8) = 2 ∧ nTarget (only declaring).me.placeOf 0 ((only declaring).me.getS 8) = some 0 ∧
    tagCheck (only declaring) 0 0 = none ∧ qAddr ((only declaring).me.getS 8) / 4096 + 1 = 2048 := by unfold SReady Ready; decide +kernel
theorem witness_OrderFirstSubmit : SReady 1 [2] (only declaring) ∧ (only declaring).me.getS 2 = BitVec.ofNat 64 (2 + 4 * ((only declaring).me.ofSlot 2).gen.toNat) ∧
    ((only declaring).me.ofSlot 2).st = .opened := by unfold SReady Ready; decide +kernel
theorem witness_OrderFirstGranted : SReady 1 [1] (only declaring) ∧ (only declaring).me.getS 1 = BitVec.ofNat 64 (1 + 4 * ((only declaring).me.ofSlot 1).gen.toNat) ∧
    ((only declaring).me.ofSlot 1).st = .submitted ∧ ((only declaring).me.ofSlot 1).ready = true ∧ ((only declaring).me.ofSlot 1).lost = false := by
  unfold SReady Ready; decide +kernel
theorem witness_OrderFirstLost : SReady 1 [9] (only declaring) ∧ (only declaring).me.getS 9 = BitVec.ofNat 64 (0 + 4 * ((only declaring).me.ofSlot 0).gen.toNat) ∧
    ((only declaring).me.ofSlot 0).st = .submitted ∧ ((only declaring).me.ofSlot 0).lost = true := by unfold SReady Ready; decide +kernel

theorem vReady_of {tk : BitVec 3} {regs : List (BitVec 6)} {s : State} (r : Ready .v tk s) (b : ∀ x ∈ regs, vBusy s.me x = false) (g : s.me.groups = [])
    (l : s.me.vloop = none) : VReady tk regs s := ⟨r, b, g, fun x h => by rw [l] at h; cases h⟩
/-- The V stream with its token entries filled is ready in a core without groups, kernel or accesses. -/
theorem vReady_tokened : ∀ r ∈ [(5 : BitVec 6), 40, 63], VReady 1 [r, 6, 7] (only tokened) := by
  intro r h
  exact vReady_of (by unfold Ready; decide +kernel) (by revert r; decide +kernel) (by decide +kernel) (by decide +kernel)
theorem witness_VectorFloatingPoint : VReady 1 [5, 6, 7] (only tokened) ∧ (only tokened).me.vmode.toNat ≠ 3 := ⟨vReady_tokened 5 (by decide), by decide +kernel⟩
/-- The core at 16-bit elements. -/
def narrow : Core := { tokened with vmode := 2 }
theorem witness_VectorDot : VReady 1 [5, 6, 7] (only narrow) ∧ (only narrow).me.vmode.toNat ≠ 0 :=
  ⟨vReady_of (by unfold Ready; decide +kernel) (by decide +kernel) (by decide +kernel) (by decide +kernel), by decide +kernel⟩
theorem witness_VectorIntegers : VReady 1 [63, 6, 7] (only tokened) := vReady_tokened 63 (by decide)
theorem witness_VectorComparesAndPredicates : VReady 1 [40, 6, 7] (only tokened) ∧ (true = true → (only tokened).me.vmode.toNat ≠ 3) :=
  ⟨vReady_tokened 40 (by decide), by decide +kernel⟩
theorem witness_VectorMovesAndReductions : VReady 1 [40, 6, 7] (only tokened) ∧ ((2 : BitVec 6).toNat < 3 → (only tokened).me.vmode.toNat ≠ 3) :=
  ⟨vReady_tokened 40 (by decide), by decide +kernel⟩
theorem witness_VectorConversion : VReady 1 [5, 6, 7] (only tokened) := vReady_tokened 5 (by decide)

/-- SQ with an L base and a stride of 256 bytes, VQ one short of full; and with W, L and N addresses first. -/
def vQueued (base stride : Word) : State :=
  { teamed with cores := [(0, { tokened with unit := some teamUnit, queues := [(1, [entryOf base, entryOf stride]), (2, List.replicate 31 (entryOf 0))] }), (7, running)] }
theorem vReady_vQueued (b n : Word) : Ready .v 1 (vQueued b n) → (∀ x ∈ [(5 : BitVec 6), 6], vBusy (vQueued b n).me x = false) → VReady 1 [5, 6] (vQueued b n) :=
  fun r h => vReady_of r h rfl rfl
/-- The queue of every such state is as written, and its entries may be popped. -/
theorem vQueued_queue (b n : Word) : (vQueued b n).me.queue 1 = [entryOf b, entryOf n] := rfl
theorem witness_VectorModeQueueAndSpill : VReady 1 [5, 6] (vQueued 7 0) ∧ (vQueued 7 0).me.queue 1 = entryOf 7 :: [entryOf 0] ∧
    entryPoppable (vQueued 7 0) 0 1 (entryOf 7) = true ∧ ((vQueued 7 0).me.queue 2).length < 32 :=
  ⟨vReady_vQueued _ _ (by unfold Ready; decide +kernel) (by decide +kernel), rfl, by decide +kernel, by decide +kernel⟩
theorem witness_VectorAccesses : let s := vQueued 0x2000000000000100 256
    VReady 1 [5, 6] s ∧ entryPoppable s 0 1 (entryOf 0x2000000000000100) = true ∧ entryPoppable s 0 1 (entryOf 256) = true ∧
      qSpc (entryOf 0x2000000000000100).val ≠ 3 ∧ (entryOf 256).val.extractLsb' 32 32 = 0 ∧ (s.me.loads .v).length < 16 ∧ (s.me.stores .v).length < 16 ∧
      qSpc (strideAddr 0x2000000000000100 256 (firstLane (s.me.vMask 0))) ≠ 3 :=
  ⟨vReady_vQueued _ _ (by unfold Ready; decide +kernel) (by decide +kernel), by decide +kernel⟩
theorem witness_VectorReduction : entryPoppable (vQueued 0x5000 0) 0 1 (entryOf 0x5000) = true ∧ qSpc (entryOf 0x5000).val = 0 := by decide +kernel
theorem witness_TeamStores : let s := vQueued 0x6000000040800000 256
    VReady 1 [5, 6] s ∧ s.me.vMask 0 ≠ 0 ∧ (s.me.stores .v).length < 16 ∧ qSpc (entryOf 0x6000000040800000).val = 3 ∧ strideBad 0x6000000040800000 256 = false ∧
      entryPoppable s 0 1 (entryOf 0x6000000040800000) = true ∧ entryPoppable s 0 1 (entryOf 256) = true ∧ (entryOf 256).val.extractLsb' 32 32 = 0 ∧
      formFault (entryOf 0x6000000040800000).val = none ∧ wMembers s.me.placeOf 0 (qMask 0x6000000040800000) = some [0, 7] ∧ wRefused s 0 [0, 7] = false ∧
      nextIsW s.me .s = false ∧ s.me.stores .v = [] ∧ s.me.loads .v = [] ∧ s.me.pend = [] ∧ s.me.undeclared = none :=
  ⟨vReady_vQueued _ _ (by unfold Ready; decide +kernel) (by decide +kernel), by decide +kernel⟩
theorem witness_CompressingStores : let s := vQueued 0x2000000000000100 0x4000000003800100
    VReady 1 [5, 6] s ∧ (s.me.stores .v).length < 16 ∧ qSpc (entryOf 0x2000000000000100).val = 1 ∧ qSpc (entryOf 0x4000000003800100).val = 2 ∧
      entryPoppable s 0 1 (entryOf 0x2000000000000100) = true ∧ entryPoppable s 0 1 (entryOf 0x4000000003800100) = true :=
  ⟨vReady_vQueued _ _ (by unfold Ready; decide +kernel) (by decide +kernel), by decide +kernel⟩

/-- A kernel of four words from offset 8, with a SIG word behind it, and its trip count in SQ. -/
def kernelled (trips : Word) : Core :=
  { tokened with queues := [(1, [entryOf trips])], streams := [(1, { atFour with buf := [(27, 0xFE)] })] }
theorem witness_VectorKernelBegins : VReady 1 [] (only (kernelled 3)) ∧ (only (kernelled 3)).me.vloop = none ∧
    (only (kernelled 3)).me.queue 1 = entryOf 3 :: [] ∧ entryPoppable (only (kernelled 3)) 0 1 (entryOf 3) = true ∧ 1 ≤ (4 : BitVec 9).toNat ∧
    8 + 4 * 4 + 4 ≤ ((only (kernelled 3)).me.text .v).2 ∧ 24 / 256 ∈ ((only (kernelled 3)).me.stream .v).lines ∧
    (((only (kernelled 3)).me.stream .v).word 24).extractLsb' 25 7 = 0x7F :=
  ⟨vReady_of (by unfold Ready; decide +kernel) (by decide +kernel) (by decide +kernel) (by decide +kernel), by decide +kernel⟩
theorem witness_VectorKernelPassedOver : (only (kernelled 0)).me.queue 1 = entryOf 0 :: [] ∧ (entryOf 0).val.toNat % 2 ^ 32 = 0 := by decide +kernel
/-- The last instruction of a kernel, with two passes to come and with none. -/
def inKernel (pass : Nat) : Core := { tokened with vloop := some { lo := 4, hi := 8, trips := 2, stages := 2, pass := pass } }
theorem witness_VectorKernelEnds : Ready .v 1 (only (inKernel 0)) ∧ (only (inKernel 0)).me.groups = [] ∧ ((only (inKernel 0)).me.stream .v).pc + 4 = 8 ∧
    0 + 1 < 2 + 2 - 1 ∧ 2 + 2 - 1 ≤ 2 + 1 := by unfold Ready; decide +kernel

/-- V predicate 2 with one bit of row 3, and no bit in predicate 3. -/
def splitting : Core := { running with vp := [(2, BitVec.ofNat 1024 (2 ^ 200))] }
theorem witness_ForkSplitsRows : VReady 0 [] (only splitting) ∧ (only splitting).me.vloop = none ∧ (∀ f ∈ (only splitting).me.forks, f.jk ≠ 1) :=
  ⟨vReady_of (by unfold Ready; decide +kernel) (by decide +kernel) (by decide +kernel) (by decide +kernel), by decide +kernel⟩
theorem witness_ForkConditions : RowsOf ((only splitting).me.getVp 2) 8 ∧ RowsOf ((only splitting).me.getVp 3) 0 ∧ RowsOf ((only splitting).me.getVp 0) 0xFFFF := by
  unfold RowsOf; decide +kernel
/-- Two groups that a fork on join bit 1 has made, the second at its join already, and one that is on its way. -/
def split (atJoin : Option (Nat × Nat)) : Core :=
  { running with rows := 0x00FF, forks := [{ jk := 1, rows := 0xFFFF }],
                 groups := [{ (default : Group) with rows := 0xFF00, pc := 4, atJoin := atJoin }] }
theorem witness_JoinForms : (only (split (some (1, 4)))).me.vloop = none ∧ (only (split (some (1, 4)))).me.forks.find? (fun x => decide (x.jk = 1)) = some { jk := 1, rows := 0xFFFF } ∧
    (∀ x ∈ (only (split (some (1, 4)))).me.groups, x.atJoin = some (1, 4) ∧ x.rows &&& ~~~(0xFFFF : BitVec 16) = 0) ∧
    (only (split (some (1, 4)))).me.groups.foldl (fun r x => r ||| x.rows) (only (split (some (1, 4)))).me.rows = 0xFFFF := by decide +kernel
theorem witness_JoinWaits : (only (split none)).me.groups = [{ (default : Group) with rows := 0xFF00, pc := 4, atJoin := none }] ∧ (only (split none)).me.rows ≠ 0xFFFF := by
  decide +kernel
theorem witness_RowGroups : (only (split none)).me.groups ≠ [] ∧ (∀ r ∈ [(5 : BitVec 6), 6, 7], vBusy (only (split none)).me r = false) ∧ Ready .v 0 (only (split none)) ∧
    Ready .v 1 (only (split none)) ∧ (only (split none)).me.vloop = none ∧ ((only (split none)).me.queue 2).length < 32 ∧ (1 : BitVec 3) ≠ 0 := by unfold Ready; decide +kernel
theorem witness_RowGroupsWrite : let s := only (split none)
    WritesRows s 5 6 7 1 5 0 0 (.viadd 5 6 7 0 0) ∧ WritesRows s 5 6 7 1 5 0 0 (.vredc 5 6 5 0 0) ∧ WritesRows s 5 6 7 1 5 0 0 (.vspl 5 0 0) ∧
      WritesBits s 3 1 2 6 7 0 (.vpand 3 1 2 0 0) := by
  unfold WritesRows WritesBits; exact ⟨.inl ⟨_, List.mem_cons_self, rfl⟩, by decide +kernel, by decide +kernel, by decide +kernel⟩
/-- Two groups, with two entries in SQ and a checked bit in BV. -/
def splitQueued : State := only { split none with queues := [(1, [entryOf 0x2000000000000100, entryOf 256]), (4, [entryOf 1])] }
theorem witness_RowGroupsRefuse : splitQueued.me.groups ≠ [] ∧ Ready .v 1 splitQueued ∧ Supplied 1 splitQueued ∧ Supplied 2 splitQueued ∧
    (splitQueued.me.queue 2).length < 32 ∧ splitQueued.me.queue 4 = entryOf 1 :: [] ∧ (entryOf 1).due ≤ splitQueued.now ∧ (entryOf 1).checked = true ∧
    (let hi := (splitQueued.me.stream .v).pc + 4 + 4 * (4 : BitVec 9).toNat
     hi + 4 ≤ (splitQueued.me.text .v).2 ∧ hi / 256 ∈ (splitQueued.me.stream .v).lines) := by
  refine ⟨by decide +kernel, by unfold Ready; decide +kernel, ⟨⟨[_], [_], rfl, rfl, by decide +kernel⟩, by decide +kernel⟩,
    ⟨⟨[_, _], [], rfl, rfl, by decide +kernel⟩, by decide +kernel⟩, by decide +kernel⟩
/-- BV, BM and BK with one checked outcome each. -/
def branching : Core := { tokened with queues := [(4, [entryOf 1]), (5, [entryOf 0]), (6, [entryOf 1])] }
theorem witness_VectorBranchesAndEnd : VReady 1 [] (only branching) ∧ (only branching).me.vloop = none ∧ (only branching).me.queue 4 = entryOf 1 :: [] ∧
    (entryOf 1).due ≤ 0 ∧ (entryOf 1).checked = true ∧ (only branching).me.vMask 0 ≠ 0 ∧ ¬ (only branching).me.vMask 1 ≠ 0 ∧
    accPending (only branching) 0 .v true 1 = false ∧ ∀ p ∈ (only branching).me.pend, p.e ≠ .v :=
  ⟨vReady_of (by unfold Ready; decide +kernel) (by decide +kernel) (by decide +kernel) (by decide +kernel), by decide +kernel⟩

/-- A local object that awaits its last arrival, one with dam on it, and a team object. -/
def arriving : Core := { tokened with bobj := [(1, 0x0000010003000101), (2, 0x0000000000000111), (3, 0x0000000000000002)] }
theorem witness_BarrierArrivals : SReady 1 [] (only arriving) ∧ VReady 1 [] (only arriving) ∧ (only arriving).me.getP 0 = true ∧ ¬ ((only arriving).me.getP 1 = true) ∧
    (only arriving).me.vMask 0 ≠ 0 ∧ ¬ (only arriving).me.vMask 1 ≠ 0 :=
  ⟨by unfold SReady Ready; decide +kernel, vReady_of (by unfold Ready; decide +kernel) (by decide +kernel) (by decide +kernel) (by decide +kernel), by decide +kernel⟩
theorem witness_LocalArrivals : Quiet .s (only arriving) ∧ Quiet .v (only arriving) ∧ (only arriving).me.undeclared = none ∧
    (only arriving).closes = [] ∧
    ∀ b ∈ [1, 2], bMode ((only arriving).me.barrier b) = 1 ∧ bFlt ((only arriving).me.barrier b) = false ∧ bNeed ((only arriving).me.barrier b) = 1 ∧
      (only arriving).me.laterArrived .s b = false ∧ (only arriving).me.laterArrived .v b = false := by
  unfold Quiet NotEnding; decide +kernel
theorem witness_DomainArrivals : 2 ≤ bMode ((only arriving).me.barrier 3) ∧ bFlt ((only arriving).me.barrier 3) = false ∧ (only arriving).me.hasArrived 3 = false ∧
    (only arriving).me.laterArrived .s 3 = false ∧ (only arriving).me.laterArrived .v 3 = false := by
  decide +kernel
/-- A close for a phase of object 1, the last arrival of another phase; and one for the phase that object 2's dam begins, with an update held. -/
def closeOf (b : Nat) : CloseRun := { id := 1, tag := 0, why := .localPhase 0 b [false], reached := [], left := [], die := 0, send := [], away := [] }
theorem witness_WaitingPhases : let s : State := { only arriving with closes := [closeOf 1], zNext := 2 }
    s.closes = [] ++ closeOf 1 :: [] ∧ (closeOf 1).why = .localPhase s.cur 1 [false] ∧ (closeOf 1).id < s.zNext ∧ bNeed (s.me.barrier 1) = 1 ∧
      bDamc (s.me.barrier 1) = false ∧ s.cur < 256 := by decide +kernel
theorem witness_DamPhases : let h : HoldEntry := { pa := 0x5000, tag := 0, width := 8, fp := false, wide := false, pairs := [(3, partialOf false 8 1)] }
    let s : State := { only arriving with holding := [h], closes := [closeOf 1], zNext := 2 }
    (∀ x ∈ s.closes, x.id < s.zNext ∧ closeDone s x = false) ∧ bDamc (s.me.barrier 2) = true ∧ bNeed (s.me.barrier 2) = 1 ∧ h ∈ s.holding ∧ h.tag = s.me.unitTag ∧
      (only arriving).closes = [] ∧ (only arriving).holding = [] := by decide +kernel
/-- Object 1 has completed one phase, object 2 the last that may be awaited, and object 3 none but carries FLT. -/
def waiting : Core := { tokened with bobj := [(1, 0x0000010000000001), (2, 0x7FFFFF0000000001), (3, 0x0000000000000009), (4, 0x0000010000000009)] }
theorem witness_BarrierWaits : SReady 1 [] (only waiting) ∧ VReady 1 [] (only waiting) ∧ Ready .m 1 (only waiting) ∧ Ready .k 1 (only waiting) ∧
    (∀ b ∈ [1, 2, 3, 4], bMode ((only waiting).me.barrier b) ≠ 0) ∧ ∀ e ∈ [Eng.s, .v, .m, .k],
      (bPhase ((only waiting).me.barrier 1) - (only waiting).me.seenOf e 1).toNat = 1 ∧ (bPhase ((only waiting).me.barrier 2) - (only waiting).me.seenOf e 2).toNat = 2 ^ 23 - 1 ∧
      (bPhase ((only waiting).me.barrier 3) - (only waiting).me.seenOf e 3).toNat = 0 ∧ bFlt ((only waiting).me.barrier 3) = true :=
  ⟨by unfold SReady Ready; decide +kernel, vReady_of (by unfold Ready; decide +kernel) (by decide +kernel) (by decide +kernel) (by decide +kernel),
    by unfold Ready; decide +kernel, by unfold Ready; decide +kernel, by decide +kernel⟩

/-- Such an access in the load queue or the store queue. -/
def accessing (load store : Bool) (a : Access) : State := only { running with lq := if load then [(0, [a])] else [], stq := if store then [(0, [a])] else [] }
theorem witness_ScratchpadAccesses : ∀ n ∈ [1, 2, 4, 8],
    let q : Word := BitVec.ofNat 64 (2 ^ 61 + 2 ^ 23 - n)
    let s := accessing true false (accessOf .load n [])
    qSpc q = 1 ∧ formFault q = none ∧ qAddr q % n = 0 ∧ qAddr q / 8 ∉ (s.core 0).spPoison ∧ nextIsW (s.core 0) .v = false ∧ bankOpen s 0 5 = true ∧ s.wFlight = [] ∧ (s.core 0).pend = [] ∧ (s.core 0).undeclared = none ∧
      (s.core 0).loads .s = [accessOf .load n []] ∧ (s.core 0).stores .s = [] := by decide +kernel
theorem witness_ScratchpadStores : let a := accessOf .store 4 [1, 2, 3, 4]
    let s := accessing false true a
    (s.core 0).loads .s = [] ∧ (s.core 0).stores .s = [a] ∧ s.wFlight = [] ∧ (s.core 0).pend = [] := by decide +kernel
theorem witness_ScratchpadAtomics : ∀ n ∈ [4, 8], let a := accessOf (.amo 8) n (List.replicate n 1)
    let s := accessing true true a
    (s.core 0).loads .s = [a] ∧ (s.core 0).stores .s = [a] ∧ (List.replicate n (1 : Byte)).length = n := by decide +kernel

theorem witness_ScratchpadSwaps : let a := accessOf .cas 8 (natLE 8 0 ++ natLE 8 (2 ^ 64 - 1))
    let s := accessing true true a
    a.pieces = onePiece (BitVec.ofNat 64 (2 ^ 61 + 2 ^ 23 - 8)) 8 (natLE 8 0 ++ natLE 8 (2 ^ 64 - 1)) ∧ (s.core 0).loads .s = [a] ∧ (s.core 0).stores .s = [a] := by decide +kernel
/-- A V access with its last word in the scratchpad's last bytes, and one with a word more. -/
def vAccess (k : AccKind) (more : Bool) : Access :=
  let word (lane a : Nat) : Piece := { lane := lane, qa := BitVec.ofNat 64 (2 ^ 61 + a), n := 4, data := if k = .load then [] else natLE 4 (2 ^ 32 - 1) }
  { accessOf k 4 [] with pieces := word 3 (2 ^ 23 - 4) :: (if more then [word 1023 0x100] else []), got := [{ word 0 0 with data := natLE 4 9 }], begun := true }
theorem witness_VectorWords : ∀ p ∈ [(AccKind.load, true, false), (.store, false, true), (.amo 8, true, true)], ∀ more ∈ [true, false], let x := vAccess p.1 more
    let s := only { running with lq := if p.2.1 then [(1, [x])] else [], stq := if p.2.2 then [(1, [x])] else [] }
    (∀ y ∈ x.pieces, y.n = 4 ∧ qSpc y.qa = 1 ∧ formFault y.qa = none ∧ qAddr y.qa % 4 = 0) ∧ ((x.got ++ x.pieces).map Piece.lane).Nodup ∧
      (∀ y ∈ x.got, y.data.length = 4) ∧ (∀ y ∈ x.got ++ x.pieces, y.lane < 1024) ∧ x.out = [] ∧ x.obs = 0 ∧ x.bad = false ∧ x.err = none ∧
      nextIsW (s.core 0) .s = false ∧ bankOpen s 0 3 = true ∧ bfApack (bfOf (s.core 0) (2 ^ 23 - 4)) = false ∧ (s.core 0).spPoison = [] ∧ s.wFlight = [] ∧
      (s.core 0).pend = [] ∧ (s.core 0).undeclared = none ∧ ((s.core 0).loads .v = if p.2.1 then [x] else []) ∧ ((s.core 0).stores .v = if p.2.2 then [x] else []) := by
  decide +kernel

/-- 06 R116, its worked block: ADDI and END behind the word 0xFE022BEA. -/
def signed_ : Core :=
  { running with streams := [(0, { Stream.idle with pc := 0, ended := false, lines := [0], buf := Tbl.setRun 0 [] 0 (bytesOfWords [0xFE022BEA, 0x4240E029, 0xFC000000]) })] }
theorem witness_Signatures : (∀ off, 0 ≤ off → off < 0 + 4 + 4 * 2 → off / 256 ∈ ((only signed_).me.stream .s).lines) ∧ ((only signed_).me.stream .s).resume = none ∧
    (2 : BitVec 9) ≠ 0 ∧ 0 + 4 + 4 * 2 ≤ ((only signed_).me.text .s).2 ∧ (only signed_).me.hBlk ≠ some (0, 12) ∧ ((only signed_).me.stream .s).ready ≤ ((only signed_).me.stream .s).chkEnd ∧
    (only { signed_ with hBlk := some (0, 12) }).me.hBlk = some (0, 12) ∧ crc16 (Tbl.getRun 0 ((only signed_).me.stream .s).buf 4 8) = 0x2BEA ∧
    crc16 (Tbl.getRun 0 ((only signed_).me.stream .s).buf 4 8) ≠ 0x2BEB ∧ ((only signed_).me.text .s).2 < 0 + 4 + 4 * (64 : BitVec 9).toNat :=
  ⟨fun off _ h => by have : off / 256 = 0 := by omega
                     rw [this]; decide +kernel, by decide +kernel⟩
theorem witness_HandlerCheck : let c := (only { signed_ with uien := true, uiact := true }).me
    c.uien = true ∧ (c.stream .s).pc = c.uivec.toNat % 2 ^ 32 ∧ c.hBlk ≠ some (0, 12) ∧ (c.stream .s).ready ≤ (c.stream .s).chkEnd := by decide +kernel
/-- The state in which the turn of stream e of core 0 is taken. -/
def onTurn (e : Eng) (r : State) : State := skipped e { passTime 0 { r with sched := [] } with cur := 0 }
/-- The turn of S at a block's start, where a word stands that is no SIG word; and at the end of its section. -/
def unsigned_ (pc : Nat) : Core := { running with streams := [(0, { Stream.idle with pc := pc, ended := false, lines := [0] })] }
theorem witness_NoSignature : ∀ pc ∈ [4, 256], let r : State := { only (unsigned_ pc) with sched := [(0, .issue 0 .s)] }
    let s := onTurn .s r
    let st := s.me.stream .s
    entryDue 0 s.me = none ∧ s.me.mayIssue .s s.now = true ∧ ¬ (st.lo ≤ st.pc ∧ st.pc < st.hi) ∧ s.me.hBlk ≠ some (st.pc, st.pc + 4) ∧
      ((s.me.text .s).2 ≤ st.pc ∨ (st.holds st.pc = true ∧ (st.word st.pc).extractLsb' 25 7 ≠ 0x7F)) := by decide +kernel
/-- One outcome in BV that the checker has seen and one that it has not. -/
def checking : Core := { running with queues := [(4, [entryOf 1, { entryOf 0 with checked := false }])] }
theorem witness_Checker : ((only checking).core 0).runs = true ∧ ((only checking).core 0).queue 4 = [entryOf 1] ++ { entryOf 0 with checked := false } :: [] ∧
    (∀ y ∈ [entryOf 1], y.checked = true) := by decide +kernel
/-- A wait for object 63 since cycle 0 under bound 4. -/
def longWait : Wait := { start := 0, bound := 4, dbnd := 0, holds := [{ kind := 4, obj := 63, await := 1 }], raised := false }
/-- Every stream has waited 2^4 cycles for object 63, whose phase is not complete. -/
def overWaiting : State :=
  { only { running with bobj := [(63, 0x0000000000000101)],
                        streams := [0, 1, 2, 3].map (fun k => (k, { atFour with wait := some longWait })) } with now := 16 }
theorem witness_Overruns : (overWaiting.core 0).runs = true ∧ ((overWaiting.core 0).stream .s).ended = false ∧ (overWaiting.core 0).groups = [] ∧
    nextAccess (overWaiting.core 0) .s true = none ∧ ∀ e ∈ [Eng.s, .v, .m, .k],
    ((overWaiting.core 0).stream e).wait = some longWait ∧ longWait.raised = false ∧ longWait.bound ≠ 0 ∧ longWait.start + 2 ^ longWait.bound ≤ overWaiting.now ∧
    (overWaiting.core 0).loads e = [] ∧ (overWaiting.core 0).stores e = [] ∧ (∀ x ∈ longWait.holds, holdDead (overWaiting.core 0) x = false) ∧
    longWait.holds.find? (holdStands overWaiting 0 e) = some { kind := 4, obj := 63, await := 1 } := by decide +kernel
/-- S waits for a token of V, which has ended, without a bound; its handler is enabled or not. -/
def deadWait : Wait := { longWait with bound := 0, holds := [{ kind := 0, obj := 3, await := 1 }] }
theorem witness_DeadWaits : ∀ en ∈ [true, false], let c : Core := { running with uien := en, streams := [(0, { atFour with wait := some deadWait })] }
    ((only c).core 0).runs = true ∧ (c.stream .s).wait = some deadWait ∧ holdDead c { kind := 0, obj := 3, await := 1 } = true ∧
      deadWait.holds.find? (holdDead c) = some { kind := 0, obj := 3, await := 1 } ∧ (c.stream .s).ended = false := by decide +kernel
/-- A command that may start. -/
def startable (i : Instr) : Cmd := { (default : Cmd) with no := 1, i := i, checked := true, started := none, stop := none, deps := [] }
/-- A command of M or K that has reached its bound, with S running or ended. -/
theorem witness_CommandOverruns : ∀ ended ∈ [true, false], let x : Cmd := { startable (.mlnt mh 0 1 2 3) with bound := 4, issued := 0 }
    let y : Cmd := { startable (.kexp kh) with bound := 4, issued := 0 }
    let c : Core := { running with mcmds := [x], kcmds := [y], streams := [(0, { atFour with ended := ended })] }
    let s : State := { only c with now := 16 }
    (s.core 0).runs = true ∧ (s.core 0).cmds .m = [x] ∧ (s.core 0).cmds .k = [y] ∧ isMark x.i = false ∧ isMark y.i = false ∧ x.raised = false ∧ y.raised = false ∧
      x.issued + 2 ^ x.bound ≤ s.now ∧ ((s.core 0).stream .s).ended = ended ∧ s.bank (.core 0) = Bank.reset := by decide +kernel
/-- A core whose handler stands at offset 64, with a BOUND record and a notify record pending. -/
def handling : Core := { jumping with uien := true, uivec := 64, notifyQ := [0x81] }
theorem witness_HandlerEntry : let c := (only handling).core 0
    c.unit.isSome = true ∧ c.stopped = false ∧ (c.stream .s).ended = false ∧ c.sysc = none ∧ c.undeclared = none ∧ c.uien = true ∧ c.uiact = false ∧
      c.uivec.toNat < (c.text .s).2 ∧ c.uivec.toNat % 4 = 0 ∧ c.uivec.toNat / 256 ∈ (c.stream .s).lines ∧ ((c.stream .s).word c.uivec.toNat).extractLsb' 25 7 = 0x7F ∧
      c.boundQ = [] ∧ c.notifyQ = 0x81 :: [] := by decide +kernel
theorem witness_BoundTrap : ((only { handling with boundQ := [{ record := 5, at_ := 0, rank := 0 }] }).core 0).boundQ = { record := 5, at_ := 0, rank := 0 } :: [] := by decide +kernel

/-- A bound type of rank 2 (02 R40): format code, space, extents, symmetry slot, base and strides. -/
def typeWord (fmt space e0 e1 sym base : Nat) (s0 s1 : Nat) : BitVec 640 :=
  BitVec.ofNat 640 (fmt + 2 ^ 8 * 2 + 2 ^ 16 * space + 2 ^ 32 * e0 + 2 ^ 64 * e1 + 2 ^ 96 + 2 ^ 128 + 2 ^ 160 * sym + 2 ^ 192 * base + 2 ^ 256 * s0 + 2 ^ 320 * s1 + 2 ^ 576)
/-- ty1: I8, 64 by 512; ty2: FP32, 64 by 256; ty3, ty4: FP32 SYM 8 by 8, apart; ty5: I32, 64 by 256. -/
def typed : Core :=
  { tokened with ty := [(1, typeWord 0x01 1 64 512 0 0 512 1), (2, typeWord 0x10 1 64 256 0 0 256 1), (3, typeWord 0x10 1 8 8 (1 + 2 ^ 5) 0x10000 1 0),
                        (4, typeWord 0x10 1 8 8 (1 + 2 ^ 5) 0x20000 1 0), (5, typeWord 0x03 1 64 256 0 0 256 1)],
                 bobj := [(1, 0x101)], mprof := 1 }
/-- Header of an M command with its token entry. -/
def mt (ta tb : BitVec 6) (prof : BitVec 4) : CmdHdr := { plain 1 0 prof with ta := ta, tb := tb, tk := 1 }
theorem witness_MatrixCommands : Ready .m 1 (only typed) ∧ (only typed).me.mcmds.length < 64 := by unfold Ready; decide +kernel
theorem witness_MatrixUnchecked : mAllowed (only typed) (.mlnt (mt 63 63 0) 5 1 1 1) ∧ mAllowed (only typed) (.msel (mt 63 63 0) 3 1) ∧ mAllowed (only typed) (.mzero (mt 63 63 0) 0 0 0 0) ∧
    mAllowed (only typed) (.msres (mt 63 63 0) 0 1) := by unfold mAllowed; decide +kernel
theorem witness_MatrixLoads : mAllowed (only typed) (.mldb (mt 63 63 1) 3 0) ∧ mAllowed (only typed) (.mldb (mt 1 63 1) 0 0) := by
  unfold mAllowed InBanks TypedTile; decide +kernel
theorem witness_MatrixProducts : mAllowed (only typed) (.mgo (mt 63 63 1) 0 1 0) ∧ mAllowed (only typed) (.mgo (mt 1 63 1) 0 1 0) ∧ mAllowed (only typed) (.morb (mt 1 1 1) 1 0) := by
  unfold mAllowed; decide +kernel
theorem witness_MatrixAccumulators : mAllowed (only typed) (.mlda (mt 63 63 0) 0 0 0 0) ∧ mAllowed (only typed) (.msta (mt 63 63 0) 0 1 0 0) ∧
    mAllowed (only typed) (.mdrain (mt 63 63 0) 0 1 0 0) :=
  ⟨⟨fun _ => by unfold InBanks; decide +kernel, fun h => absurd rfl h⟩, ⟨fun _ => by unfold InBanks; decide +kernel, fun h => absurd rfl h⟩,
    ⟨fun _ => by unfold InBanks; decide +kernel, fun h => absurd rfl h⟩⟩
theorem witness_MatrixTypedAccumulators : mAllowed (only typed) (.mlda (mt 2 63 0) 0 0 0 0) ∧ mAllowed (only typed) (.msta (mt 63 2 0) 0 0 0 0) ∧
    mAllowed (only typed) (.mdrain (mt 63 5 0) 0 1 1 0) :=
  ⟨⟨fun h => absurd h (by decide), fun _ => by unfold TypedTile; decide +kernel⟩, ⟨fun h => absurd h (by decide), fun _ => by unfold TypedTile; decide +kernel⟩,
    ⟨fun h => absurd h (by decide), fun _ => by unfold TypedTile; decide +kernel⟩⟩
theorem witness_MatrixSolver : mAllowed (only typed) (.marrb (mt 63 63 0) 1 0 0) ∧ mAllowed (only typed) (.msolvCg (mt 3 63 0) 0 0x1FE80 0) ∧
    mAllowed (only typed) (.msolvLdlt (mt 3 4 0) false 0 0 0) ∧ mAllowed (only typed) (.msupd (mt 3 63 0) 1 0) := by unfold mAllowed; decide +kernel

theorem witness_MatrixSingleWords : Ready .m 1 (only branching) ∧ (only branching).me.queue 5 = entryOf 0 :: [] ∧ (entryOf 0).due ≤ 0 ∧ (entryOf 0).checked = true ∧
    (only branching).me.mcmds = [] ∧ (only branching).me.kcmds = [] := by unfold Ready; decide +kernel
/-- The M stream waits for command 5, whose name 3 has since gone to command 6. -/
def waitingFor : Core :=
  { tokened with mcmds := [{ (default : Cmd) with no := 5 }], names := [(3, 6)],
                 streams := [(2, { atFour with wait := some { start := 0, bound := 0, dbnd := 0, holds := [{ kind := 0x7, obj := 3, await := 5 }], raised := false } })] }
theorem witness_NamedWaits : Ready .m 1 (only waitingFor) ∧
    ((only waitingFor).me.stream .m).wait.bind (fun w => w.holds.find? (fun h => decide (h.kind = 0x7))) = some { kind := 0x7, obj := 3, await := 5 } ∧
    (∃ y, y ∈ (only waitingFor).me.mcmds ∧ y.no = 5) ∧ (only waitingFor).me.mcmds ≠ [] ∧ nameOf (only waitingFor) 3 = 6 := by unfold Ready; decide +kernel
/-- A loaded object with one tensor, and the unit of that object. -/
theorem witness_MatrixTypes : let s : State := { only typed with objs := [{ (default : LoadedObj) with handle := 0, tensors := [7] }] }
    s.me.unit = some someUnit ∧ s.objs.find? (fun (x : LoadedObj) => decide (x.handle = someUnit.handle)) = some { (default : LoadedObj) with handle := 0, tensors := [7] } ∧
      ({ (default : LoadedObj) with handle := 0, tensors := [7] } : LoadedObj).tensors[(0 : BitVec 8).toNat]? = some 7 := by decide +kernel

theorem witness_CommandStarts : MayStart 0 .m (startable (.mlnt mh 0 1 2 3)) (only { running with mcmds := [startable (.mlnt mh 0 1 2 3)] }) ∧
    MayStart 0 .m (startable (.msel mh 1 1)) (only { running with mcmds := [startable (.msel mh 1 1)] }) := by
  unfold MayStart; refine ⟨?_, ?_⟩ <;> exact ⟨by decide +kernel, by decide +kernel, rfl, rfl, rfl, by decide +kernel, fun n h => nomatch h⟩
theorem witness_CopyStarts : MayStart 0 .k (startable (.kexp kh)) (only { running with kcmds := [startable (.kexp kh)] }) ∧ isMark (startable (.kexp kh)).i = false := by
  unfold MayStart; exact ⟨⟨by decide +kernel, by decide +kernel, rfl, rfl, rfl, by decide +kernel, fun n h => nomatch h⟩, by decide +kernel⟩
theorem witness_CommandCompletes : let x := { startable (.mlnt mh 0 1 2 3) with allSent := true }
    ((only { running with mcmds := [x] }).core 0).mcmds = [x] ∧ x.allSent = true ∧ NotEnding 0 (only { running with mcmds := [x] }) := by
  unfold NotEnding; decide +kernel
theorem witness_LastCommand : let x := { startable (.mlnt mh 0 1 2 3) with allSent := true }
    let c : Core := { running with mcmds := [x], streams := [(2, { atFour with ending := some [] })] }
    ((only c).core 0).mcmds = [x] ∧ (((only c).core 0).stream .m).ending = some [] ∧ ((only c).core 0).stopped = false := by decide +kernel
/-- The turn of a started command of M or K, at its first row or line or its last. -/
def advancing (e : Eng) (c : Core) : State := { only c with sched := [(0, .advance 0 e 1)] }
theorem witness_AdvanceOf (e : Eng) (c : Core) : AdvanceOf 0 e 1 (advancing e c) (passTime 0 { advancing e c with sched := [] }) := ⟨0, [], rfl, rfl, rfl⟩
theorem witness_RowsOfCommands : ∀ i ∈ [Instr.mzero mh 0 2 0 0, .mlda mh 0 2 0 0x1E000, .msta mh 0 1 0 0x1E000, .mdrain mh 0 2 0 0x1E000], ∀ row ∈ [0, 63],
    let x : Cmd := { startable i with started := some 0, sent := row }
    let s := passTime 0 { advancing .m { running with mcmds := [x] } with sched := [] }
    (s.core 0).runs = true ∧ (s.core 0).mcmds = [x] ∧ x.started ≠ none ∧ x.allSent = false ∧ x.sent < 64 ∧ bankOpen s 0 2 = true ∧ mh.ta = 63 ∧ mh.tb = 63 := by
  decide +kernel
/-- The commands of M with an effect of their own in a turn: an MGO with its sums known, a MORB with every orbit summed, a MORB and an
MSRES with a word at hand, a MARRB at an object of two arrivals, an MSUPD at its first pair. -/
def symType : BitVec 640 := typeWord 0x10 1 8 8 (1 + 2 ^ 5) 0x10000 1 0
def goRow : GoRow := { qs := [], blocks := [], fl := 0, pass := 512, sums := List.replicate 512 (-3), tuples := [], again := false, restored := false }
def acting (i : Instr) : Cmd := { startable i with started := some 0, ta := symType, prof := 1, bound := 0 }
theorem witness_ActingCommands : ∀ x ∈ [{ acting (.mgo mh 0 1 0) with arr := some goRow },
      { acting (.morb (mt 1 1 1) 1 0x1FFFF) with ta := typeWord 0x01 1 8 8 (1 + 2 ^ 5) 0x10000 1 0, tb := typeWord 0x01 1 8 8 (1 + 2 ^ 5) 0x20000 1 0, sent := 2 },
      { acting (.morb (mt 1 1 1) 0 0) with ready := true, nums := [5] }, { acting (.msres mh 255 1) with nums := [5] },
      acting (.marrb mh 1 0 0), acting (.msupd (mt 3 63 0) 1 0x1FFFF)],
    let s := passTime 0 { advancing .m { running with mcmds := [x], bobj := [(1, 0x0000000000020201)] } with sched := [] }
    (s.core 0).runs = true ∧ (s.core 0).mcmds = [x] ∧ x.started ≠ none ∧ x.allSent = false ∧ bankOpen s 0 2 = true ∧ ((s.core 0).queue 3).length < 16 := by decide +kernel
theorem witness_ProductEnds : (profileOf 1).planes.length * nsegOf 1 ≤ goRow.pass ∧ goRow.tuples = [] ∧ (nestAt (acting (.mgo mh 0 1 0)).nest 0).1.toNat < 64 := by decide +kernel
theorem witness_OrbitsSummed : let t := ttypeOf (typeWord 0x01 1 8 8 (1 + 2 ^ 5) 0x10000 1 0)
    t.fmt.isFloat = false ∧ (jointOrbits t t).length ≤ 32 * 2 := by decide +kernel
theorem witness_ArrivalTurns : let c : Core := { running with bobj := [(1, 0x0000000000020201)] }
    bMode (c.barrier 1) = 1 ∧ bFlt (c.barrier 1) = false ∧ 2 ≤ bNeed (c.barrier 1) ∧ c.laterArrived .m 1 = false := by decide +kernel
/-- An MSUPD whose one pair, in the last bytes of the scratchpad, names the element of row 7 and column 2. -/
theorem witness_ElementUpdates : let t := ttypeOf symType
    let c : Core := { running with sp := Tbl.setRun 0 [] (2 ^ 23 - 64) (natLE 8 (7 + 2 ^ 16 * 2 + 2 ^ 32 * 9)) }
    let v := numAt c.sp (64 * (0x1FFFF : BitVec 17).toNat + 8 * 0) 8
    solverType t = true ∧ v % 2 ^ 16 = 7 ∧ v / 2 ^ 16 % 2 ^ 16 = 2 ∧ idx t.ext 0 = 8 ∧ c.spPoison = [] ∧
      0 ≤ (elemAddr t (locate t [7, 2]).off).1 ∧ (elemAddr t (locate t [7, 2]).off).1 + 4 ≤ 2 ^ 23 := by decide +kernel
theorem witness_MatrixStarts : ∀ i ∈ [Instr.mldb mh 3 0x1FFFF, .msres mh 0 4], let x := { startable i with prof := 1 }
    MayStart 0 .m x (only { running with mcmds := [x] }) ∧ mh.ta = 63 ∧ running.spillBad .m 0 4 = none := by
  intro i h
  unfold MayStart
  fin_cases h <;> exact ⟨⟨by decide +kernel, by decide +kernel, rfl, rfl, rfl, by decide +kernel, fun n h => nomatch h⟩, rfl, by decide +kernel⟩
theorem witness_RowClean : RowClean running 0x1E000 2 63 ∧ RowClean { running with spPoison := [0x1E000 * 8 + 2048] } 0x1E000 1 0 := by unfold RowClean; decide +kernel
/-- A conjugate gradient on ty3 that has run since cycle 1 with a deadline of 15: in an iteration, or closing with status 2. -/
def solving (st : SolveStage) (read : Nat) : Cmd :=
  { startable (.msolvCg (mt 3 63 0) 0 0x1FE80 15) with started := some 1, sent := 1, allSent := false, ta := typeWord 0x10 1 8 8 (1 + 2 ^ 5) 0x10000 1 0,
                                                       solve := { (default : Solve) with stage := st, log := List.replicate read 9 } }
theorem witness_SolverDeadlines : ∀ st ∈ [SolveStage.run, .keep], let x := solving st 0
    let s : State := { only { running with mcmds := [x] } with now := 16 }
    (s.core 0).runs = true ∧ (s.core 0).mcmds = [x] ∧ x.i = .msolvCg (mt 3 63 0) 0 0x1FE80 15 ∧ x.started = some 1 ∧ x.allSent = false ∧ x.solve.stage = st ∧
      1 + (15 : BitVec 32).toNat ≤ s.now ∧ idx (ttypeOf x.ta).ext 0 ≤ 1024 ∧ 64 * (0x1FE80 : BitVec 17).toNat + 0x6000 = 2 ^ 23 := by decide +kernel
/-- The first and the last element, read and written, and the record. -/
theorem witness_SolverCloses : ∀ k ∈ [0, 1, 14, 15, 16], let x := solving (.close 2) k
    let s := passTime 0 { advancing .m { running with mcmds := [x] } with sched := [] }
    (s.core 0).mcmds = [x] ∧ bankOpen s 0 2 = true ∧ x.solve.stage = .close 2 ∧ x.solve.log.length = k ∧ idx (ttypeOf x.ta).ext 0 = 8 ∧ (s.core 0).spPoison = [] := by
  decide +kernel

/-- Header of a K command with its token entry, and AQ entries of L, D and W addresses. -/
def kt : CmdHdr := { plain 0x81 0 8 with tk := 1 }
def slotted (v : List Word) : State := { teamed with cores := [(0, { tokened with unit := some teamUnit, queues := [(0, v.map entryOf)], kcmds := [] }), (7, running)] }
theorem witness_CopyCommands : Ready .k 1 (slotted []) ∧ ((slotted []).me.kcmds.filter (fun x => !isMark x.i)).length < 64 := by unfold Ready; decide +kernel
/-- The slots of every such state are its queue. -/
theorem witness_Slots (v : List Word) (h : ∀ x ∈ v.map entryOf, entryPoppable (slotted v) 0 0 x = true) : Slots 0 0 v (slotted v) := by
  unfold Slots
  rw [if_neg (by decide)]
  exact ⟨v.map entryOf, [], (List.append_nil _).symm, by simp [entryOf, Function.comp_def], h⟩
theorem witness_SpillSlots : Slots 2 254 [0, 0] (slotted []) ∧ (slotted []).me.spillBad .k 254 2 = none := by unfold Slots; rw [if_pos rfl]; decide +kernel
theorem witness_SlotsPoppable : ∀ x ∈ [(0x2000000000000000 : Word), 0x5000, 1].map entryOf, entryPoppable (slotted [0x2000000000000000, 0x5000, 1]) 0 0 x = true := by decide +kernel
theorem witness_KCopies : kAllowed (slotted []) [0x2000000000000000, 0x2000000000100000, 0] (.kcpy kt 0 0 2 128 4 1) ∧ kAllowed (slotted []) [0x5000, 0x2000000000000000, 0x5000] (.kgth kt 0 0 2 0 1) ∧
    kAllowed (slotted []) [0x5000, 0x2000000000000000, 0x5000] (.ksct kt 0 0 2 0 1) ∧
    kAllowed (slotted []) [0x5000, 0x2000000000000000] (.kexp kt) ∧ kAllowed (slotted []) [0x2000000000000000, 0x5000] (.kred kt 0 0 2 1) := by unfold kAllowed; decide +kernel
theorem witness_KQuantise : kAllowed (slotted []) [0x5000, 0x5000, 0x5000] (.kqnt kt 0 0 0x10 0 1) := by
  intro q h; obtain rfl : q = 0x5000 := by simpa using h
  decide +kernel
theorem witness_KMulticast : qSpc (0x2000000000000000 : Word) ∈ [0, 1, 2] ∧ qSpc (0x6000000040800000 : Word) = 3 ∧
    wMembers (slotted []).me.placeOf 0 (qMask 0x6000000040800000) = some [0, 7] := by decide +kernel
/-- Bank 0 holds FP32, bank 1 A-packed lines. -/
def banked : State := only { typed with bf := [(0, 0x10), (1, 0x2FF)] }
theorem witness_KForms : kAllowed banked [0x2000000000000000] (.kxfTranspose kt 0 0 0 0 512) ∧ kAllowed banked [0x2000000000000000] (.kxfRequantise kt 0 0 0x01 0 1) ∧
    kAllowed banked [0x2000000000000000] (.kxfZeroFill kt 0 0 0 0 1024) := by unfold kAllowed InOneBank clearOfScales; decide +kernel
theorem witness_KOrbits : kAllowed banked [0x2000000000010000] (.kxfOrbitPack { kt with ta := 3 } 0 0 0 0 0) ∧ kAllowed banked [0x2000000000010000] (.kxfOrbitUnpack { kt with ta := 3 } 0 0 0 0 0) := by
  unfold kAllowed InOneBank clearOfScales; decide +kernel
theorem witness_KExpandTuples : kAllowed banked [0x2000000000080000, 0x5000, 1] (.kexpt kt) := by unfold kAllowed; decide +kernel

/- The rest of the copy engine, memory and the fabric. -/

/-- AQ with one offset, BK with one checked outcome, object 1 local. -/
def copying : Core := { tokened with queues := [(0, [entryOf 100]), (6, [entryOf 1])], bobj := [(1, 0x101)] }
theorem witness_CopySingleWords : Ready .k 1 (only copying) ∧ (only copying).me.queue 0 = entryOf 100 :: [] ∧ entryPoppable (only copying) 0 0 (entryOf 100) = true ∧
    bMode ((only copying).me.barrier 1) ≠ 0 ∧ bFlt ((only copying).me.barrier 1) = false ∧ (only copying).me.kbind = none ∧
    (only copying).me.queue 6 = entryOf 1 :: [] ∧ (entryOf 1).due ≤ 0 ∧ (entryOf 1).checked = true ∧ (only copying).me.kcmds = [] := by unfold Ready; decide +kernel

/-- A copy whose one line has been performed; one whose lines are all answered; one that a fault has stopped. -/
def performed : Cmd := { startable (.kexp kh) with started := some 0, sent := 1, fly := [{ n := 0, phase := .done, src := 0, dst := 0, len := 64, data := [] }] }
def answered : Cmd := { startable (.kexp kh) with started := some 0, sent := 1, allSent := true, nfy := true }
def halting : Cmd := { startable (.kexp kh) with started := some 0, sent := 1, stop := some { code := 6, src := 3, pc := 4, addr := 0 } }
/-- A copy of 130 bytes from 0x100 to the last bytes of the scratchpad, at its start and at its last line. -/
def lineCopying (off : Nat) : Cmd := { startable (.kcpy kh 0 0 1 130 1 1) with started := some 0, off := off, slots := [0x2000000000000100, 0x20000000007FFF7E] }
theorem witness_CopiedLines : ∀ off ∈ [0, 66], let x := lineCopying off
    let s := passTime 0 { advancing .k { running with kcmds := [x] } with sched := [] }
    (s.core 0).kcmds = [x] ∧ x.bind = none ∧ (s.core 0).runs = true ∧ x.started ≠ none ∧ x.allSent = false ∧ x.stop = none ∧ x.fly = [] ∧ x.part = [] ∧ x.run = 0 ∧
      x.off < 130 ∧ qSpc (0x2000000000000100 : Word) = 1 ∧ qSpc (0x20000000007FFF7E : Word) = 1 ∧ formFault 0x2000000000000100 = none ∧
      formFault 0x20000000007FFF7E = none ∧ (s.core 0).bf = [] ∧ bankOpen s 0 4 = true ∧ 0x7FFF7E + 130 = 2 ^ 23 ∧ (s.core 0).spPoison = [] := by decide +kernel
theorem witness_CopiedBanks (n : Nat) : bfOf (running : Core) n = 0xFF := by
  unfold bfOf; rfl
/-- A zero fill up to the end of the scratchpad, and the first and the last line of a multicast to cores 0 and 7. -/
def filling : Cmd := { startable (.kxfZeroFill kh 0 0 0 0 2) with started := some 0, slots := [0x20000000007FFC00] }
def casting (off : Nat) : Cmd := { startable (.kmc kh 0 0 130) with started := some 0, off := off, slots := [0x2000000000000100, 0x6000000040800100] }
def castState (x : Cmd) : State := { teamed with cores := [(0, { running with unit := some teamUnit, kcmds := [x] }), (7, running)] }
theorem witness_FilledAndCast : ∀ x ∈ [filling, casting 0, casting 128], let s := castState x
    (s.core 0).kcmds = [x] ∧ x.bind = none ∧ (s.core 0).runs = true ∧ x.started ≠ none ∧ x.allSent = false ∧ x.stop = none ∧ x.fly = [] ∧ x.part = [] ∧ x.run = 0 ∧
      (s.core 0).bf = [] ∧ bankOpen s 0 1 = true ∧ bankOpen s 0 4 = true ∧ x.off < 130 ∧ (s.core 0).spPoison = [] := by decide +kernel
theorem witness_Filled : filling.slots = [0x20000000007FFC00] ∧ qAddr (0x20000000007FFC00 : Word) + 512 * 2 = 2 ^ 23 := by decide +kernel
theorem witness_Cast : let s := castState (casting 0)
    qSpc (0x2000000000000100 : Word) = 1 ∧ qSpc (0x6000000040800100 : Word) = 3 ∧ formFault 0x2000000000000100 = none ∧ formFault 0x6000000040800100 = none ∧
      wMembers (s.core 0).placeOf 0 (qMask 0x6000000040800100) = some [0, 7] ∧ wRefused s 0 [0, 7] = false ∧ qAddr (0x6000000040800100 : Word) % 64 = 0 := by
  decide +kernel
theorem witness_CopyLineResponse : ((only { running with kcmds := [performed] }).core 0).kcmds = [performed] ∧ performed.bind = none ∧
    performed.fly = { n := 0, phase := .done, src := 0, dst := 0, len := 64, data := [] } :: [] ∧ performed.stop = none := by decide +kernel
theorem witness_CopyCompletion : let s := only { running with kcmds := [answered], notifyQ := List.replicate 15 0 }
    NotEnding 0 s ∧ (s.core 0).uiact = false ∧ (s.core 0).kcmds = [answered] ∧ answered.bind = none ∧ isMark answered.i = false ∧ answered.started ≠ none ∧ answered.fly = [] ∧ answered.ahead = false ∧
      answered.stop = none ∧ answered.allSent = true ∧ (s.core 0).notifyQ.length < 16 := by unfold NotEnding; decide +kernel
theorem witness_CopyFault : ((only { running with kcmds := [halting] }).core 0).kcmds = [halting] ∧ halting.bind = none ∧ isMark halting.i = false ∧ halting.started ≠ none ∧
    halting.fly = [] ∧ halting.ahead = false ∧ halting.stop = some { code := 6, src := 3, pc := 4, addr := 0 } ∧ halting.nfy = false ∧
    (only { running with kcmds := [halting] }).bank (.core 0) = Bank.reset := by decide +kernel

/-- Two integers for the last words of core 1's scratchpad, from a command of core 0. -/
def reducing : RedFlight := { g := 0, cmd := 1, line := 0, core := some 1, runs := [(2 ^ 23 - 8, 8)], rop := 0, data := [1, 0, 0, 0, 0xFF, 0xFF, 0xFF, 0xFF], va := 0, since := 0 }
theorem witness_ReducePackets : let s : State := { only { running with kcmds := [performed] } with redFlight := [reducing] }
    s.redFlight = reducing :: [] ∧ reducing.core = some 1 ∧ reducing.rop = 0 ∧ reducing.runs = [(2 ^ 23 - 8, reducing.data.length)] ∧ reducing.data.length % 4 = 0 ∧
      (s.core 1).spPoison = [] ∧ (s.core reducing.g).kcmds = [performed] ∧ performed.no = reducing.cmd ∧ performed.bind = none ∧ coreDie 1 = coreDie reducing.g := by decide +kernel

/-- Tables that map the first GiB of D space to itself, with all rights; the queue table at 0x10000. -/
def entryWord (lo : Nat) : List Byte := natLE 8 (lo + 2 ^ 56 * secCheck (BitVec.ofNat 64 lo))
def mapped : List Host.Cell := putBytes (putBytes (putBytes [] 0x1000 (entryWord 0x2001)) 0x2000 (entryWord 0x3001)) 0x3000 (entryWord 0xF)
def withPages (s : State) : State := { s with plat := { platNone with root := 0x1000, qbase := 0x10000, device := 5 }, dram := mapped }
/-- The page that a walk of it finds. -/
def firstPage : TlbEntry := { va := 0, pa := 0, size := 2 ^ 30, wr := true }

/-- A W store of core 0 for itself and core 1, at the end of their scratchpads. -/
def landing : WFlight := { g := 0, e := .s, idx := 0, due := 3, members := [0, 1], addr := 2 ^ 23 - 2, data := [1, 2], mask := 0xFFFF }
theorem witness_Landings : let s : State := { only running with wFlight := [landing], now := 3 }
    s.wFlight = [landing] ∧ landing.due ≤ s.now ∧ landing.e ≠ .k ∧ landing.mask = 0xFFFF ∧ landing.pois = [] ∧ s.sevFlight = [] ∧ Idle s landing.g ∧
      nextIsW (s.core landing.g) .s = false ∧ nextIsW (s.core landing.g) .v = false := by unfold Idle NotEnding; decide +kernel
/-- Core 0 stands before a load of 0x5000; its page is in no table, or in the walker's as the one miss. -/
def missing (misses : List Miss) : State :=
  { withPages (only { running with lq := [(0, [{ accessOf .load 8 [] with pieces := onePiece 0x5000 8 [] }])] }) with misses := [(walkerOf 0 0x5000, misses)] }
theorem witness_Misses : let s := missing []
    (∀ m ∈ s.missTable (walkerOf (coreDie 0) 0x5000), m.page ≠ 0) ∧ needsPage s 0 0 = true ∧ (s.missTable (walkerOf (coreDie 0) 0x5000)).length < 512 := by decide +kernel
theorem witness_Walks : let s := missing [{ page := 0, cores := [0] }]
    let w := walkAt s (coreDie 0) 0 false false
    s.missTable (walkerOf (coreDie 0) 0x5000) = [{ page := 0, cores := [0] }] ∧ (match w.res with | .ok t => decide (t = firstPage) | _ => false) = true ∧
      w.corrected = [] ∧ w.bad = none := by decide +kernel
theorem witness_Priority : let a := { accessOf .store 4 [1, 2, 3, 4] with since := 0 }
    let s := accessing false true a
    nextAccess (s.core 0) .s true = some a ∧ a.since + 256 ≤ 256 ∧ 255 < a.since + 256 := by decide +kernel

/-- Object 2 is a domain barrier of a team of two, cores 0 and 1; core 0 has arrived, and core 1 is the last. -/
def pairUnit : WorkUnit := { someUnit with place := { px := 0, py := 0, pw := 2, ph := 1, ndies := 1, die0 := 0 } }
def zenithPhase : ZPhase :=
  { id := 1, mode := 2, b := 2, launch := 0, unit := some pairUnit, inst := domainInst 1 2, arrived := [0], released := [], group := false, dam := false, flt := false, complete := false,
    closed := false, first := none, teams := [], dies := [], up := false, owes := [] }
def atBarrier (z : ZPhase) : State :=
  { State.reset with cores := [(0, { running with unit := some pairUnit }),
                               (1, { running with unit := some pairUnit, bobj := [(2, 0x2)], arrived := [(2, { streams := 1, dam := false, flt := false, mode := 2, atNode := false, fltAt := false, unit := some pairUnit })] })],
                     zenith := [z] }
theorem witness_DomainBarriers : let s := atBarrier zenithPhase
    let w := (s.core 1).barrier 2
    let a := Tbl.get Arrived.none (s.core 1).arrived 2
    s.zenith = [] ++ zenithPhase :: [] ∧ zenithPhase.mode = bMode w ∧ zenithPhase.b = 2 ∧ zenithPhase.launch = unitLaunch ((s.core 1).senderOf 2) ∧ zenithPhase.inst = domainInst 1 (bMode w) ∧
      zenithPhase.dam = false ∧ zenithPhase.flt = false ∧ 2 ≤ bMode w ∧ a.streams ≠ 0 ∧ a.atNode = false ∧ a.dam = false ∧ a.flt = false ∧ a.mode = bMode w ∧ bMode w ≠ 5 ∧ zenithPhase.complete = false ∧
      1 ∉ zenithPhase.arrived ∧ 1 ∉ zenithPhase.released ∧
      (∀ m ∈ 1 :: domainMembers (unitPlace zenithPhase.unit) 1 (bMode w), m < 256 ∧ s.memberKey m 2 = m) ∧
      ∀ m ∈ domainMembers (unitPlace zenithPhase.unit) 1 (bMode w), m = 1 ∨ m ∈ zenithPhase.arrived := by decide +kernel
theorem witness_DomainBarriersWait : let z := { zenithPhase with arrived := [] }
    let s := atBarrier z
    ∃ m ∈ domainMembers (unitPlace z.unit) 1 (bMode ((s.core 1).barrier 2)), m ≠ 1 ∧ m ∉ z.arrived := by decide +kernel
/-- Object 2 as a barrier of the fabric group, at which this device's cores have arrived. -/
def groupPhase : ZPhase := { zenithPhase with mode := 5, inst := domainInst 1 5, arrived := [0, 1], up := true }
theorem witness_GroupArrival : let s : State := { atBarrier groupPhase with cores := [(0, { running with unit := some pairUnit }), (1, { running with unit := some pairUnit, bobj := [(2, 0x5)] })] }
    let w := (s.core 1).barrier 2
    s.zenith = [] ++ groupPhase :: [] ∧ groupPhase.mode = bMode w ∧ groupPhase.launch = unitLaunch ((s.core 1).senderOf 2) ∧ groupPhase.inst = domainInst 1 (bMode w) ∧ bMode w = 5 ∧
      groupPhase.complete = false ∧ groupPhase.group = false ∧ groupPhase.up = true ∧ (Tbl.get Arrived.none (s.core 1).arrived 2).streams = 0 ∧
      (∀ m ∈ 1 :: domainMembers (unitPlace groupPhase.unit) 1 5, m < 256 ∧ s.memberKey m 2 = m) ∧ ∀ m ∈ domainMembers (unitPlace groupPhase.unit) 1 5, m ∈ groupPhase.arrived := by decide +kernel
/-- Object 2 as a barrier of the die, complete. -/
def diePhase : ZPhase := { zenithPhase with mode := 3, inst := domainInst 1 3, arrived := [0, 1], complete := true, closed := true }
def released : State :=
  { atBarrier diePhase with cores := [(0, { running with unit := some pairUnit }), (1, { running with unit := some pairUnit, bobj := [(2, 0x3)] })] }
theorem witness_DomainRelease : released.zenith = [] ++ diePhase :: [] ∧ diePhase.mode = bMode ((released.core 1).barrier 2) ∧
    diePhase.launch = unitLaunch ((released.core 1).senderOf 2) ∧ diePhase.inst = domainInst 1 3 ∧ diePhase.complete = true ∧ diePhase.closed = true ∧ 1 ∉ diePhase.released ∧
    3 ≤ bMode ((released.core 1).barrier 2) ∧ 1 ∈ domainMembers (unitPlace diePhase.unit) 1 3 ∧ (domainMembers (unitPlace diePhase.unit) 1 3).Nodup ∧
    (∀ m ∈ 1 :: domainMembers (unitPlace diePhase.unit) 1 3, m < 256 ∧ released.memberKey m 2 = m) ∧ (released.core 1).tagNow = some (tagOf diePhase.unit) ∧
    ∀ m ∈ domainMembers (unitPlace diePhase.unit) 1 3, Idle released m := by unfold Idle NotEnding; decide +kernel

/-- An update of tag 7 on its way; a close of that tag for a phase of core 0, with a holding entry of two keys. -/
def updating : Update := { pa := 0x5000, va := 0x5000, width := 4, fp := false, tag := 7, key := 3, val := 9, g := 0, e := .s, ord := 0, since := 0 }
def holdEntry : HoldEntry := { pa := 0x5000, tag := 7, width := 8, fp := false, wide := false, pairs := [(3, partialOf false 8 (2 ^ 64 - 1)), (5, partialOf false 8 2)] }
theorem witness_Updates : let s : State := { State.reset with updFlight := [updating], holding := List.replicate 255 { holdEntry with tag := 8 } }
    s.updFlight = updating :: [] ∧ (∀ h ∈ s.holding, ¬ (h.pa = updating.pa ∧ h.tag = updating.tag)) ∧
      ((s.holding ++ s.closing).filter (fun h => decide (sliceOf h.pa = sliceOf updating.pa) && !h.wide)).length < 256 ∧ cutOff s (coreDie updating.g) updating.pa = false ∧ Idle s updating.g := by unfold Idle NotEnding; decide +kernel
/-- A close of tag 7 for object 1 of core 0. -/
def closing (reached : List Nat) (left : List HoldEntry) : CloseRun :=
  { id := 1, tag := 7, why := .localPhase 0 1 [false], reached := reached, left := left, die := 0, send := [], away := [] }
theorem witness_CloseReaches : let s : State := { only running with closes := [closing [] []], holding := [holdEntry] }
    let k := sliceOf 0x5000
    s.closes = [closing [] []] ∧ k ∉ (closing [] []).reached ∧ (closing [] []).left.filter (fun h => decide (sliceOf h.pa = k)) = [] ∧ (7, k) ∉ s.accepted ∧
      (∃ h ∈ s.holding, h.tag = 7 ∧ sliceOf h.pa = k) := by decide +kernel
theorem witness_Closes : let x := closing [sliceOf 0x5000] [holdEntry]
    let s : State := { only running with closes := [x], holding := [{ holdEntry with tag := 8 }] }
    s.closes = [x] ∧ x.left = [holdEntry] ∧ (∀ y ∈ s.holding, y.tag = x.tag → sliceOf y.pa ∈ x.reached) ∧ holdEntry.fp = false ∧ holdEntry.pairs ≠ [] ∧
      (0 : Int) ≤ (holdEntry.pairs.map (fun p => p.2.sum)).sum ∧ holdEntry.width = 8 := by decide +kernel

/-- Core 0's slot 3 submitted with one slot of core 64. -/
def submitting : Core :=
  { running with subs := [(3, 0, 4, [], [])],
                 ofs := [(3, { OfSlot.reset with st := .submitting, gen := 1, ranges := [{ space := 1, core := 64, first := 2047, count := 1, write := true }] })] }
theorem witness_Acceptance : let s : State := { only submitting with now := 4 }
    let r : OfRange := { space := 1, core := 64, first := 2047, count := 1, write := true }
    (s.core 0).subs = [(3, 0, 4, [], [])] ∧ 0 + 4 ≤ s.now ∧ ((s.core 0).ofSlot 3).ranges = [r] ∧ r.space = 1 ∧ NotEnding 0 s ∧ (∀ z ∈ s.meridian.txs, ∀ z' ∈ s.meridian.txs, z.id = z'.id → z = z') := by
  unfold NotEnding; decide +kernel
/-- Of two OFSUBs accepted in one cycle the lower core's stands first (21 R388). -/
theorem test_one_cycle_by_core : let x : OfTx := { id := 0, g := 5, slot := 0, die := 0, units := [], arrived := [], beat := none, released := false }
    let s : State := { only submitting with now := 4, meridian := { Meridian.reset with nextTx := 1, txs := [x], pending := [(0, [(0, 4)])] } }
    Tbl.get [] (acceptSub 0 3 s).meridian.pending 0 = [(1, 4), (0, 4)] := by decide +kernel
/-- The transaction of that slot, once sequenced. -/
def ofTx : OfTx := { id := 1, g := 0, slot := 3, die := 0, units := [(.slot 64 2047, true)], arrived := [], beat := none, released := false }
theorem witness_BeatEnd : let s : State := { only submitting with now := 600, meridian := { Meridian.reset with pending := [(3, List.replicate 64 (1, 599))], txs := [ofTx] } }
    fencedDie s 3 = false ∧ 600 * (Tbl.get 0 s.meridian.beats 3 + 1) ≤ s.now ∧ (∀ x ∈ Tbl.get [] s.meridian.pending 3, x.2 < 600 * (Tbl.get 0 s.meridian.beats 3 + 1)) ∧
      (Tbl.get [] s.meridian.pending 3).length ≤ 64 := by decide +kernel
def batchOf (src : Nat) : OfBatch := { dst := 2, src := src, beat := 0, txs := [src + 1] }
theorem witness_BatchArrival : let m : Meridian := { Meridian.reset with sent := [batchOf 3], got := [batchOf 0, batchOf 1, batchOf 2] }
    m.sent.find? (fun y => decide (y.dst = 2) && decide (y.src = 3)) = some (batchOf 3) ∧
      (m.got ++ [batchOf 3]).filter (fun y => decide (y.dst = 2)) = [batchOf 0, batchOf 1, batchOf 2, batchOf 3] ∧
      (batchOf 0).src = 0 ∧ (batchOf 1).src = 1 ∧ (batchOf 2).src = 2 ∧ (batchOf 3).src = 3 ∧
      (∀ y ∈ [batchOf 0, batchOf 1, batchOf 2, batchOf 3], y.beat = Tbl.get 0 m.merged 2) ∧ ∀ y ∈ m.order, y.1 ≠ Tbl.get 0 m.merged 2 := by decide +kernel
theorem witness_QueueTake : let m : Meridian := { Meridian.reset with merged := [(0, 1), (1, 1), (2, 1), (3, 1)], order := [(0, 1)], txs := [ofTx] }
    let s : State := { only submitting with now := 1080, meridian := m }
    600 * (Tbl.get 0 m.taken 1 + 1) + 480 ≤ s.now ∧ (∀ d, d < 4 → Tbl.get 0 m.taken 1 < Tbl.get 0 m.merged d) ∧ (0, 1) ∈ m.order ∧
      m.txs.find? (fun y => decide (y.id = 1)) = some ofTx ∧ ofTx.released = false ∧ (OfUnit.slot 64 2047, true) ∈ ofTx.units ∧
      unitDie (queueUnit (.slot 64 2047)) = 1 := by decide +kernel
theorem witness_GrantArrival : let g : OfGrant := { tx := 1, unit := .slot 64 2047, due := 5 }
    let s : State := { only { running with ofs := [(3, { OfSlot.reset with st := .submitted, tx := 1 })] } with
                       now := 5, meridian := { Meridian.reset with grants := [g], txs := [ofTx] } }
    s.meridian.grants[0]? = some g ∧ g.due ≤ s.now ∧ s.meridian.txs.find? (fun y => decide (y.id = g.tx)) = some ofTx ∧ ofTx.g < 0x10000 ∧
      (∀ u ∈ ofTx.units, queueUnit u.1 = g.unit ∨ queueUnit u.1 ∈ ofTx.arrived) ∧ ((s.core 0).ofSlot 3).tx = ofTx.id ∧ ((s.core 0).ofSlot 3).st = .submitted := by decide +kernel

/-- A packet of device 9 that writes two bytes at the end of the first GiB, the stream's next and its last. -/
def writing (seq : BitVec 24) : Packet :=
  { sdev := 9, sdie := 1, ddev := 5, cls := 0, seq := seq, afl := seq, tag := 0, op := .write, va := 0x3FFFFFFE, len := 2, payload := [1, 2], marks := [] }
theorem witness_Packets : let s := withPages State.reset
    (writing 0).ddev = s.plat.device ∧ fencedDie s 1 = false ∧ (writing 0).op = .write ∧ (recvWin s (writing 0)).held = [] ∧ (writing 0).seq = (recvWin s (writing 0)).next ∧
      remoteSegments 9 1 0x3FFFFFFE 2 true 0 s = (.ok [(0x3FFFFFFE, 2)], s) ∧ s.closes = [] ∧ seqBefore (writing 0xFFFFFF).seq (recvWin s (writing 0xFFFFFF)).next = true ∧
      (recvWin s (writing 0xFFFFFF)).stored = [] :=
  ⟨rfl, rfl, rfl, rfl, rfl, by decide +kernel, rfl, by decide +kernel, by decide +kernel⟩

/-- A write of 65 bytes that crosses a line, received, at its first line and at its last. -/
def longWrite : Packet := { writing 0 with va := 0x3FFFFF80, len := 65, payload := List.replicate 65 7, marks := [] }
theorem witness_LongPackets : let s := withPages State.reset
    longPacket longWrite = true ∧ longPacket (writing 0) = false ∧ longWrite.ddev = s.plat.device ∧ fencedDie s 1 = false ∧ longWrite.op = .write ∧
      (recvWin s longWrite).held = [] ∧ longWrite.seq = (recvWin s longWrite).next ∧ s.longs = [] := by decide +kernel
theorem witness_LongTurns : ∀ at_ ∈ [0, 64], let x : LongPacket := { p := longWrite, at_ := at_, data := [], due := 0, again := false }
    let s : State := { (match execPacketReceive longWrite (withPages State.reset) with | .next t => t | _ => State.reset) with longs := [x] }
    at_ < 65 ∧ remoteSegments 9 1 0x3FFFFF80 65 true 0 s = (.ok [(0x3FFFFF80, 65)], s) ∧
      remoteSegments 9 1 (0x3FFFFF80 + at_) (min (64 - (0x3FFFFF80 + at_) % 64) (65 - at_)) true 0 s = (.ok [(0x3FFFFF80 + at_, min 64 (65 - at_))], s) ∧
      (recvWin s longWrite).next = longWrite.seq ∧ (recvWin s longWrite).held = [longWrite] := by decide +kernel

/-- Core 0's load of eight bytes of device 6, which has left as a packet, and one that has not. -/
def farPiece : Piece := { lane := 0, qa := BitVec.ofNat 64 (4 * 2 ^ 61 + 2 ^ 48 + 0x100), n := 8, data := [] }
def farLoad (sent : Bool) : Access :=
  { accessOf .load 8 [] with pieces := if sent then [] else [farPiece], out := if sent then [farPiece] else [], begun := true }
def request : Packet :=
  { sdev := 5, sdie := 0, ddev := 6, cls := 0, seq := 3, afl := 3, tag := 0, op := .read, va := 0x100, len := 8, payload := [], marks := [] }
def response : Response := { sdev := 5, sdie := 0, ddev := 6, cls := 0, seq := 3, code := 0, data := [1, 2, 3, 4, 5, 6, 7, 8], marks := [false] }
def routed (s : State) : State := { s with plat := { platNone with device := 5, routes := [{ die := 0, dev := 6, path := 1, port := 3 }, { die := 0, dev := 6, path := 2, port := 4 }] } }
theorem witness_Responses : let a := farLoad true
    let x : Retry := { die := 0, pkt := request, owner := .access 0 .s a.ord farPiece.lane, sentAt := 0 }
    let s : State := { routed (accessing true false a) with retry := [x] }
    s.retry.find? (answers response) = some x ∧ (s.core 0).loads .s = [a] ∧ (s.core 0).stores .s = [] ∧ nextIsW (s.core 0) .v = false ∧ a.begun = true ∧ a.pieces = [] ∧ a.out = [farPiece] ∧ a.kind = .load ∧ a.got = [] ∧ a.places = [] ∧
      a.dst ≠ 0 ∧ Idle s 0 ∧ response.code = 0 ∧ (∀ k ∈ response.marks, k = false) := by unfold Idle NotEnding; decide +kernel
theorem witness_RetryBufferRoom : let a := farLoad false
    let q := farPiece
    let s := routed (accessing true false a)
    (s.core 0).loads .s = [a] ∧ a.kind = .load ∧ a.obs = 0 ∧ a.begun = true ∧ a.out = [] ∧ a.pieces = [q] ∧ s.closes = [] ∧ qSpc q.qa = 4 ∧ qByte q.qa % q.n = 0 ∧
      (s.core 0).stores .s = [] ∧ s.wFlight = [] ∧ (s.plat.device.toNat : Int) + qDev q.qa = 6 ∧ pathUp s 0 6 = true ∧ retryBytes s 0 + 64 ≤ 8 * 2 ^ 20 ∧
      ∀ k, k < 64 → (k ≠ 0 → (s.core k).loads .s = []) ∧ (s.core k).loads .v = [] ∧ (s.core k).stores .s = [] ∧ (s.core k).stores .v = [] ∧ (s.core k).kcmds = [] := by
  decide +kernel
theorem witness_PathsDown : let s : State := { routed State.reset with retry := [{ die := 0, pkt := request, owner := .none, sentAt := 0 }], now := 262144 }
    (0, 6, 1) ∉ s.pathDown ∧ currentPath s 0 6 = some 1 ∧ pathUp { s with pathDown := s.pathDown ++ [(0, 6, 1)] } 0 6 = true ∧
      (∃ r ∈ s.retry, r.die = 0 ∧ r.pkt.ddev.toNat = 6 ∧ r.sentAt + 262144 ≤ s.now) ∧ silent s 3 = true ∧
      routeOf s 0 6 1 = some { die := 0, dev := 6, path := 1, port := 3 } ∧
      s.plat.routes.filter (fun x => decide (x.port = 3)) = [{ die := 0, dev := 6, path := 1, port := 3 }] ∧
      8 ≤ ({ s with links := [(3, { fails := 8, okAt := 0 })] }.link 3).fails := by decide +kernel
theorem witness_PathUp : let s : State := { routed State.reset with pathDown := [(0, 6, 1), (0, 6, 2)], used := [sendKey 0 6 0] }
    pathUp s 0 6 = false ∧ pathUp { s with pathDown := s.pathDown.erase (0, 6, 1) } 0 6 = true ∧ sendKey 0 6 0 ∈ s.used ∧
      routeOf s 0 6 1 = some { die := 0, dev := 6, path := 1, port := 3 } ∧ routeOf s 0 6 3 = none := by decide +kernel

/- Collectives. -/

/-- Words of a descriptor: two members, this one of rank 0, which add two elements. -/
def collWords (fmt cflags : Nat) : List Word :=
  [0x7000, 0x8000, 0x6000, BitVec.ofNat 64 (2 + 2 ^ 32 * 2), BitVec.ofNat 64 (2 ^ 8 * fmt + 2 ^ 24 * cflags), 0xABCDEF000000000, 0, 0]
/-- The membership table: die 0 of devices 5 and 9. -/
def tableBytes : List Byte := [5, 0, 0, 0, 9, 0, 0, 0]
def collOf (fmt cflags : Nat) : CollRun := { no := 0, d := { g := 0, words := collWords fmt cflags, det := true }, members := [0, 1], chunk := 0, shrunk := false, out := [], at_ := 0, tab := tableBytes, got := [], sent := 0 }
/-- The membership table names die 0 of devices 5 and 9; the elements are 1 and -1. -/
def collState (r : CollRun) : State :=
  let s := withPages (only running)
  { s with collRun := [(0, some r)],
           dram := putBytes (putBytes s.dram 0x6000 [5, 0, 0, 0, 9, 0, 0, 0]) 0x7000 [1, 0, 0, 0, 0xFF, 0xFF, 0xFF, 0xFF] }
theorem witness_CollectiveGo : let s : State := { only { running with stg := Tbl.setRun 0 [] 0 ((collWords 3 0).take 7) } with collIn := [(0, List.replicate 15 default)] }
    (Tbl.get [] s.collIn 0).length < 16 ∧ (collDesc ((List.range 7).map (fun i => Tbl.get 0 (s.core 0).stg i) ++ [0])).legal = true := by decide +kernel
theorem witness_CollectiveStatus : let s := only { running with outQ := [7] }
    (s.core 0).outQ = 7 :: [] ∧ s.collWait = [] := by decide +kernel
/-- Bytes without marks. -/
def clean_ (bs : List Byte) : List MByte := bs.map (fun b => (b, false))
/-- The membership table's line is read: it names this member, another, or does not end with the line. -/
theorem witness_Tables : ∀ p ∈ [(2, tableBytes, true), (2, [6, 0, 0, 0, 9, 0, 0, 0], false), (17, tableBytes ++ List.replicate 56 0, true)],
    let r : CollRun := { collOf 3 0 with d := { (collOf 3 0).d with words := (collWords 3 0).set 3 (BitVec.ofNat 64 (2 + 2 ^ 32 * p.1)) }, tab := [] }
    let s : State := { collState r with dram := putBytes (collState r).dram 0x6000 p.2.1 }
    let x := collDesc r.d.words
    Tbl.get none s.collRun 0 = some r ∧ fencedDie s 0 = false ∧ r.d.g = 0 ∧ x.rank < x.n ∧ x.n = p.1 ∧ 0 < 4 * x.n ∧
      engRead (x.mtab + 0) (min (64 - (x.mtab + 0) % 64) (4 * x.n - 0)) x.tag s = (.ok (clean_ p.2.1), s) ∧
      (4 * x.n ≤ p.2.1.length ↔ p.1 = 2) ∧ (memberAt p.2.1 x.rank = (s.plat.device.toNat, 0, 0) ↔ p.2.2 = true) ∧
      (s.core 0).outQ.length < 16 ∧ s.collWait = [] := by decide +kernel
/-- The two elements of this member, and what it has put into the chunk. -/
def mine_ : List MByte := clean_ [1, 0, 0, 0, 0xFF, 0xFF, 0xFF, 0xFF]
def partOf (r : CollRun) : CollPart := { rank := 0, no := r.no, words := r.d.words, chunk := 0, first := 0, data := mine_, left := [0] }
def withRoutes (s : State) : State :=
  { s with plat := { s.plat with routes := [{ die := 0, dev := 9, path := 1, port := 3 }, { die := 0, dev := 9, path := 2, port := 4 }] } }
theorem witness_Chunks : ∀ fmt ∈ [0x03, 0x10], let r := collOf fmt 0
    let s := collState r
    let x := collDesc r.d.words
    Tbl.get none s.collRun 0 = some r ∧ fencedDie s 0 = false ∧ r.d.g = 0 ∧ r.members = [0, 1] ∧ r.out = [] ∧ r.chunk = 0 ∧ r.d.det = true ∧ x.n = 2 ∧ x.rank = 0 ∧
      x.op = 0 ∧ x.rop = 0 ∧ x.fmt = fmt ∧ 1 ≤ x.cnt ∧ x.cnt ≤ x.chunkElems ∧ x.cnt ≤ 1024 := by decide +kernel
theorem witness_ChunkReads : ∀ fmt ∈ [0x03, 0x10], let r := collOf fmt 0
    let s := collState r
    let x := collDesc r.d.words
    4 * x.n ≤ r.tab.length ∧ s.collParts = [] ∧
      memberAt r.tab 0 = (s.plat.device.toNat, 0, 0) ∧ (memberAt r.tab 1).1 ≠ s.plat.device.toNat ∧ mine_.length = 4 * x.cnt ∧
      engRead (x.src + 0) (min (64 - (x.src + 0) % 64) (4 * x.cnt - 0)) x.tag s = (.ok mine_, s) ∧ ∀ y ∈ mine_, y.2 = false := by decide +kernel
theorem witness_ChunkPut (r : CollRun) : ({ r with got := [(0, mine_)] } : CollRun).read 0 = mine_ ∧ ({ r with got := [] } : CollRun).read 0 = [] := ⟨rfl, rfl⟩
theorem witness_ChunkParts : let r := collOf 3 0
    let s := withRoutes { collState r with collParts := [partOf r] }
    let theirs := clean_ [2, 0, 0, 0, 2, 0, 0, 0]
    s.collParts = [partOf r] ∧ (partOf r).data.length = 4 * (collDesc r.d.words).cnt ∧ r.sent = 0 ∧ (memberAt r.tab 1).1 = 9 ∧ pathUp s 0 9 = true ∧
      retryBytes s 0 + 64 + 64 * ((8 + 63) / 64) ≤ 8 * 2 ^ 20 ∧ ({ r with sent := 1 } : CollRun).sent = 1 ∧ theirs.length = 4 * (collDesc r.d.words).cnt ∧
      ∀ y ∈ (partOf r).data ++ theirs, y.2 = false := by decide +kernel
/-- A complete chunk of which more than a line stands still to be written, and one of which a line does, with more chunks and with none. -/
def chunked (cnt left : Nat) : CollRun :=
  let ws := collWords 3 0
  { collOf 3 0 with d := { g := 0, words := ws.set 3 (BitVec.ofNat 64 (cnt + 2 ^ 32 * 2)), det := true }, out := List.replicate left (7, false) }
theorem witness_ChunkLines : ∀ p ∈ [(1024, 65), (2 ^ 18, 64), (1024, 64)], let r := chunked p.1 p.2
    let s := withRoutes (collState r)
    let x := collDesc r.d.words
    Tbl.get none s.collRun 0 = some r ∧ fencedDie s 0 = false ∧ 4 * x.n ≤ r.tab.length ∧ r.out ≠ [] ∧ 64 - (x.dst + r.at_) % 64 = 64 ∧ (64 < r.out.length ↔ p.2 = 65) ∧
      ((r.chunk + 1) * x.chunkElems < x.cnt ↔ p.1 = 2 ^ 18) ∧ r.d.g = 0 ∧ x.rank < x.n ∧
      (let w := engWrite (x.dst + r.at_) (r.out.take 64) s
       w.1 = .ok () ∧ (w.2.core 0).outQ.length < 16 ∧ w.2.collWait = [] ∧ otherDevices w.2 r = [9] ∧ pathUp w.2 0 9 = true ∧ retryBytes w.2 0 + 64 ≤ 8 * 2 ^ 20) := by
  decide +kernel
theorem witness_CollectiveFailure : ∀ cflags ∈ [0, 1], let r := collOf 3 cflags
    let s : State := { withRoutes (collState r) with pathDown := [(0, 9, 1)] }
    let x := collDesc r.d.words
    Tbl.get none s.collRun 0 = some r ∧ s.collRun = [(0, some r)] ∧ r.d.g = 0 ∧ 1 ∈ r.members ∧ 1 ≠ x.rank ∧ 4 * x.n ≤ r.tab.length ∧
      (memberAt r.tab 1).1 = 9 ∧ s.plat.device.toNat = 5 ∧ (0, 9, 1) ∈ s.pathDown ∧ pathUp s 0 9 = true ∧ (s.core 0).outQ.length < 16 ∧ s.collWait = [] ∧ x.elastic = decide (cflags = 1) := by decide +kernel

/- The Dispatchers. -/

/-- A module that is ready, with queue 3 running under 4 tickets; and with more bytes. -/
def ready_ (s : State) : State := { s with disp := { s.disp with ready := true } }
def withQueue (s : State) (more : List (Nat × List Byte)) : State :=
  let s := ready_ (withPages s)
  { s with dram := (more ++ [(0x10070, [4, 0])]).foldl (fun (m : List Host.Cell) (x : Nat × List Byte) => putBytes m x.1 x.2) s.dram }
/-- A record of queue 3: its kind, its next record, and further fields. -/
def recordOf (kind next : Nat) (more : List (Nat × List Byte)) : List Byte :=
  bytesAt (([(0, natLE 8 next), (8, [BitVec.ofNat 8 kind, 0, 7, 0, 0, 3, 0xFF, 0])] ++ more).foldl (fun (m : List Host.Cell) (x : Nat × List Byte) => putBytes m x.1 x.2) []) 0 256
/-- Its completion word at 0x9000; of a load the image, of an unload the handle. -/
def loadRecord (src len : Nat) : List Byte := recordOf 2 0xA000 [(0x20, natLE 8 0x9000), (0x68, natLE 8 src), (0x70, natLE 8 len)]
def unloadRecord : List Byte := recordOf 3 0xA000 [(0x20, natLE 8 0x9000), (0x10, natLE 4 1)]
/-- A launch of six units on cores 0 and 1, with a budget of 100 cycles. -/
def launchRecord : List Byte :=
  recordOf 1 0xA000 [(0x10, natLE 4 1), (0x14, [2, 1, 0, 0, 1, 0]), (0x20, natLE 8 0x9000), (0x38, natLE 8 100),
    (0x40, [0, 0x10, 0x20, 0x30, 0x40, 0x50].zipIdx.flatMap (fun (x : Nat × Nat) => natLE 4 (x.1 * 2 ^ 16 + if x.2 = 0 then 6 else 1)))]
def currentOf (bytes : List Byte) : Current := { (default : Current) with q := 3, addr := 0x5000, bytes := bytes, refused := decide ((lrec bytes).kind ≠ 1) }
def holding_ (s : State) (c : Current) : State := { s with disp := { s.disp with cur := [c] } }

theorem witness_KicksOfStoppedQueues : let s := withQueue State.reset [(0x10800, natLE 8 1)]
    let u := writeD (kickAt s) 8 0 s
    dispOk s = true ∧ readD (kickAt s) 8 s = (.ok 1, s) ∧
      ∀ k, k < 64 → (s.disp.kicked ||| BitVec.ofNat 64 1).getLsbD k = true → queueRuns k { u with disp := { s.disp with kicked := s.disp.kicked ||| BitVec.ofNat 64 1 } } = false := by
  decide +kernel
/-- KICK with queue 3's bit; its head is the record at 0x5000. -/
def kicked_ : State := withQueue State.reset [(0x10800, natLE 8 8), (0x10060, natLE 8 0x5000), (0x5000, unloadRecord)]
theorem witness_Kicks : let s := kicked_
    let u := writeD (kickAt s) 8 0 s
    let kicked := s.disp.kicked ||| BitVec.ofNat 64 8
    let w : State := { u with disp := { s.disp with kicked := 0 } }
    readD (kickAt s) 8 s = (.ok 8, s) ∧ kicked = (1 : BitVec 64) <<< 3 ∧ s.disp.cur = [] ∧ s.disp.links = [] ∧
      queueRuns 3 { u with disp := { s.disp with kicked := kicked } } = true ∧ queueRuns 3 w = true ∧ readD (queueAt w 3) 8 w = (.ok 0x5000, w) ∧
      ownRead 0x5000 256 w = (.ok unloadRecord, w) ∧ (lrec unloadRecord).next ≠ 0 := by decide +kernel
theorem witness_LateLinks : let s : State := { kicked_ with disp := { kicked_.disp with links := [(3, 0x5000)] } }
    dispOk s = true ∧ s.disp.cur = [] ∧ s.disp.links = [(3, 0x5000)] ∧ ownRead 0x5000 256 s = (.ok unloadRecord, s) ∧ (lrec unloadRecord).next ≠ 0 := by decide +kernel
theorem witness_ShortImages : let c := currentOf (loadRecord 0x20000 63)
    Holds (holding_ (ready_ State.reset) c) c ∧ c.q = 3 ∧ c.post = none ∧ c.lrec.kind = 2 ∧ c.lrec.len < 64 := by unfold Holds; decide +kernel
theorem witness_Unloads : let c := currentOf unloadRecord
    let o : LoadedObj := { (default : LoadedObj) with handle := 1 }
    Holds (holding_ (ready_ State.reset) c) c ∧ c.post = none ∧ c.lrec.kind = 3 ∧ o.handle = c.lrec.handle ∧ o.unload = none ∧ c.refused = true := by unfold Holds; decide +kernel
theorem witness_Budgets : let c : Current := { currentOf launchRecord with ready := true, units := 2, firstOut := some 0 }
    let s : State := { holding_ (ready_ State.reset) c with now := 100 }
    Holds s c ∧ c.post = none ∧ c.refused = false ∧ c.out = 0 ∧ c.faulted = none ∧ c.lrec.budget ≠ 0 ∧ 0 + c.lrec.budget ≤ s.now := by unfold Holds; decide +kernel
/-- A record that has ended, of a queue that has been stopped; its word can be written, or its page is in no table. -/
theorem witness_Postings : ∀ pages ∈ [true, false], let c : Current := { currentOf unloadRecord with post := some (loadWord 0 1) }
    let s := holding_ (ready_ (if pages then withPages State.reset else State.reset)) c
    let w := ownWrite c.lrec.cword (natLE 8 (loadWord 0 1).toNat) (forgetWord c.lrec.cword
      (journal 4 3 0 0 c.addr (loadWord 0 1) { s with disp := { s.disp with copies := s.disp.copies ++ [(s.disp.jseq, c.bytes)] } }))
    let u := w.2
    let v := if pages then u else logDisp c.lrec.tag cTRANSLATE c.lrec.cword { u with disp := { u.disp with unwritten := u.disp.unwritten ++ [(c.lrec.cword, loadWord 0 1)] } }
    Holds s c ∧ pendingReports s = [] ∧ c.refused = true ∧ c.lrec.cword ≠ 0 ∧ c.lrec.cword % 8 = 0 ∧ c.lrec.ckq.testBit 7 = false ∧ s.closes = [] ∧
      (match w.1 with | .ok () => pages | .error e => !pages && decide (e = cTRANSLATE)) = true ∧
      queueRuns 3 { v with disp := { v.disp with cur := [] } } = false ∧ u.disp.cur = [c] ∧ u.disp.links = [] := by unfold Holds; decide +kernel

/-- A record of a later cycle behind a report that a Dispatcher has still to acknowledge. -/
theorem witness_PostingWaits : let r : Report := { unit := { someUnit with launch := 1 }, whole := true, fstk := 1, at_ := 0 }
    let c : Current := { currentOf unloadRecord with post := some (loadWord 0 1), doneAt := 1 }
    let s : State := holding_ (ready_ (only { Core.reset with reports := [r] })) c
    r ∈ pendingReports s ∧ r.before c.doneAt 3 = true ∧ Holds s c := by unfold Holds; decide +kernel

/-- A signed image: one S text of ADDI and END, its .sync section and its signature by the owner key of this SHA-512. -/
def imageBytes : List Byte :=
  natBE 32 0x41584f3140000100030020004000000040020000000000000000000000000000 ++
  natBE 32 0x0000000000000000000000000000000000000000000000000000000000000000 ++
  natBE 32 0x0100020000000000a0000000000000000c000000000000000000000000000000 ++
  natBE 32 0x1000000000000000b00000000000000068000000000000000000000000000000 ++
  natBE 32 0x7f00000000000000200100000000000020010000000000000000000000000000 ++
  natBE 32 0x396c02fe28e04042000000fc0000000001000000000000000000000000000000 ++
  natBE 32 0x0000000000000000000000000000000000000000000000004040404040404040 ++
  natBE 32 0x4040404000000000000000000000000000000000000000000000000000000000 ++
  natBE 32 0x0000000000000000000000000000000000000000000000000000000000000000 ++
  natBE 32 0x0100000001000000010000000000000004011da9fadac1d03c5fb35dd7d84562 ++
  natBE 32 0x1933a72c9713a3711bcf414a4d817ab2125aaff2a94a0e83adf6a6cbc50b07ce ++
  natBE 32 0xeba7f8f255e9d7ac2c88b2a7d4b2ba6459158101c9a7924475eeca2aff432c45 ++
  natBE 32 0x96d234b33c126e338b0c717ea940522e96677a83c79a94d3a59cf74fcd89f29f ++
  natBE 32 0x3799e21c81f9cec446ec478d05489d9cf6f80d8552000000015ab46808a114bb ++
  natBE 32 0x5125a362ea5f32bc4fadabf8da36e005d42dc7982e712a5003893310383624c2 ++
  natBE 32 0x26f01d8482f9e201658de61b7b1a3439a03e5930b3bc2e9b62ba00e405ff092f ++
  natBE 32 0x90e621642eb98c20a54a9f6eecc3f58b62a36568174288cdc32d432b128e9925 ++
  natBE 32 0xb877b50d374450c986fda2aca439e13f7995cd1dfae9f8fc580972bc00000000
def ownerHash_ : List Byte := natBE 64 0x2fddaeb06d284ef0228674844c7c8c04cfd9c7394c3969b81c186cbc4af6567734ba2488315a99a7aff72278a95669790643e4c0329805a0dd7f0a0c13a73065
def imagePlace : Placement := { room := true, text := [0x30000, 0, 0, 0], rodata := 0, data := 0, launch := 0 }
/-- A load record for it in hand, its bytes at 0x20000. -/
def loading : State :=
  let s := withPages State.reset
  holding_ { ready_ s with dram := s.dram ++ (imageBytes.zipIdx 0x20000).filterMap (fun (x : Byte × Nat) => if x.1 = 0 then none else some (x.2, x.1)), plat := { s.plat with ownerHash := ownerHash_ } } (currentOf (loadRecord 0x20000 576))
theorem witness_LoadRecords : let c := currentOf (loadRecord 0x20000 576)
    Holds loading c ∧ c.q = 3 ∧ c.post = none ∧ c.lrec.kind = 2 ∧ 64 ≤ c.lrec.len ∧ c.lrec.len ≤ 2 ^ 32 ∧ ownRead c.lrec.src c.lrec.len loading = (.ok imageBytes, loading) ∧
      placementOk imageBytes imagePlace loading = true := by unfold Holds; decide +kernel
theorem witness_Loads_ : (match loadImage imageBytes imagePlace loading with | .ok (h, _, u) => h == 1 && decide (u.disp.cur = loading.disp.cur) | _ => false) = true := by
  decide +kernel

/-- A launch whose units may be handed out, its object, and a core that is free. -/
def launching : Current := { currentOf launchRecord with id := 1, ready := true }
def anObject : LoadedObj := { (default : LoadedObj) with handle := 1, tks := [1, 2, 3, 4], text := [(0, 256)] }
def eligible_ : State := { holding_ (withQueue State.reset []) launching with objs := [anObject] }
theorem witness_HandOuts : let s := eligible_
    let u := noteEligible s
    let q := launching
    dispOk s = true ∧ coreFree s 1 = true ∧ choose u 1 = some q ∧ resumeOn u { q with owns := q.owns || q.lrec.gang } 1 = none ∧
      firstOrd u { q with owns := q.owns || q.lrec.gang } 1 q.lrec.total 0 = some 0 ∧ u.disp.cur = [q] := by decide +kernel
def handedOut : Handed := { unit := { someUnit with handle := 1, tag := 7 }, idx := [0, 1, 2, 3, 4, 5], consts := List.replicate 16 9, resume := none }
def given (c : Core) : State := { only { c with next := some handedOut } with objs := [anObject], now := 8192 }
theorem witness_UnitStarts : ∀ c ∈ [{ Core.reset with lastTag := some 7 }, { Core.reset with lastTag := some 6 }, { Core.reset with unit := some handedOut.unit, zeroing := some 8192 }],
    ((given c).core 0).next = some handedOut ∧ handedOut.resume = none ∧ handedOut.idx.length = 6 ∧ handedOut.consts.length = 16 ∧
      (given c).objOf handedOut.unit.handle = some anObject ∧ fencedDie (given c) (coreDie 0) = false ∧ ((given c).core 0).stopped = false ∧
      ((given c).core 0).lastTag = c.lastTag ∧ ((given c).core 0).unit = c.unit ∧ ((given c).core 0).zeroing = c.zeroing := by decide +kernel
/-- The same launch for core 1 only; a unit of queue 5, which is of tier 1, runs there. -/
def narrowRecord : List Byte := bytesAt (putBytes (putBytes [] 0 launchRecord) 0x14 [1, 1, 1, 0, 1, 0]) 0 256
def preEmpting : State :=
  let c : Current := { currentOf narrowRecord with id := 1, ready := true }
  { holding_ (withQueue State.reset [(0x100B0, [1, 0, 1])]) c with cores := [(1, { running with unit := some { someUnit with queue := 5, launch := 2 } })] }
theorem witness_PreEmption : let s := preEmpting
    let x : Current := { currentOf narrowRecord with id := 1, ready := true }
    let u : WorkUnit := { someUnit with queue := 5, launch := 2 }
    s.curOf 3 = some x ∧ dispOk s = true ∧ queueEligible s x = true ∧ queueTier 3 s = 0 ∧ placeCores x.lrec.place = [1] ∧ (s.core 1).unit = some u ∧ u.gang = false ∧
      queueTier u.queue s = 1 ∧ (s.core 1).stopped = false ∧ (s.core 1).haltReq = none ∧ x.id ∉ s.disp.elig ∧ s.disp.cur = [x] ∧ queueTier u.queue (newlyEligible s) = 1 ∧ freeSlotsOf (newlyEligible s) (coreDie 1) ≠ 0 := by decide +kernel
theorem witness_Halts : let s := only { running with haltReq := some 0 }
    (s.core 0).haltReq ≠ none ∧ (s.core 0).runs = true ∧ atRest s 0 = true ∧ ((s.core 0).stream .s).ended = false ∧ (s.core 0).uiact = false := by decide +kernel
theorem witness_HandlerHalts : ∀ bound ∈ [true, false], let s := only { running with haltReq := some 0, uiact := true, uiBound := bound }
    (s.core 0).haltReq ≠ none ∧ (s.core 0).runs = true ∧ atRest s 0 = true ∧ ((s.core 0).stream .s).ended = false ∧ (s.core 0).uiact = true ∧ (s.core 0).uiBound = bound := by
  decide +kernel
theorem witness_Saves : let s := only { running with haltReq := some 0, halted := true }
    (s.core 0).unit = some someUnit ∧ (s.core 0).halted = true ∧ (s.core 0).stopped = false ∧ ∀ x ∈ s.disp.saved, x.die = coreDie 0 → x.slot ≠ 127 := by
  decide +kernel
theorem witness_Ends : let s := only { running with streams := [] }
    (s.core 0).unit = some someUnit ∧ (s.core 0).reports = [] ∧ unitOver s 0 = true := by decide +kernel
theorem witness_Reports : let r : Report := { unit := { someUnit with launch := 1 }, whole := true, fstk := 1, at_ := 0 }
    let s : State := { holding_ (ready_ (only { Core.reset with reports := [r] })) launching with now := 1 }
    (s.core 0).reports = [r] ∧ pendingReports s = [r] ∧ r.at_ < s.now ∧ Holds s launching ∧ launching.id = r.unit.launch ∧ launching.refused = false ∧ r.whole = true := by unfold Holds; decide +kernel

/-- A purge of tag 7, under which core 0 runs; its holding entry and one of another tag. -/
def purging : State :=
  { only { running with unit := some { someUnit with tag := 7 }, stopped := true } with
    purges := [{ tag := 7, code := 6, since := 0, first := 0 }], holding := [holdEntry, { holdEntry with tag := 8 }] }
theorem witness_Purges : purgeHeld purging 7 = false ∧ purging.purges = [{ tag := 7, code := 6, since := 0, first := 0 }] ∧ purging.disp.cur = [] ∧ purging.disp.saved = [] ∧ purging.closes = [] ∧ purging.collRun = [] ∧
    purging.collIn = [] ∧ (∀ g, (purging.core g).next = none) ∧ (purging.core 0).unit = some { someUnit with tag := 7 } ∧ (purging.core 1).unit = none :=
  ⟨by decide +kernel, rfl, rfl, rfl, rfl, rfl, rfl, fun g => by
    show (Tbl.get Core.reset [(0, { running with unit := some { someUnit with tag := 7 }, stopped := true })] g).next = none
    unfold Tbl.get; split <;> rfl, rfl, rfl⟩
/-- A core whose unit of tag 7 ended after it had arrived. -/
theorem witness_EndedUnits : let s : State := { purging with cores := [(2, { Core.reset with lastTag := some 7, arrived := [(1, { streams := 1, dam := false, flt := false, mode := 2, atNode := true, fltAt := false, unit := none })] })] }
    (s.core 2).unit = none ∧ (s.core 2).lastTag = some 7 ∧ purgeHeld s 7 = false := by decide +kernel
/-- A purge of tag 7 while an access before one that failed its declaration stands, and while a W store of its core flies. -/
theorem witness_HeldPurges : purgeHeld { purging with cores := [(0, { running with unit := some { someUnit with tag := 7 }, undeclared := some default })] } 7 = true ∧
    purgeHeld { purging with wFlight := [landing] } 7 = true := by decide +kernel
theorem witness_TakeOver : (ready_ State.reset).disp.takeover = none ∧ (ready_ State.reset).disp.ready = true ∧ (ready_ State.reset).disp.failed = 0 ∧
    (ready_ State.reset).disp.active < 2 := by decide +kernel
theorem witness_Management : let s : State := { State.reset with counter := 4 }
    1200 ≤ s.clock ∧ s.clock ≤ 2400 ∧ 1350 ≤ s.clock ∧ s.counter.toNat < (5 : BitVec 32).toNat ∧ (4 : BitVec 32).toNat ≤ s.counter.toNat ∧
      { s with clock := 1200 }.clock ≤ 2250 ∧ 1 ≠ s.plat.station.toNat := by decide +kernel

/-- What clears the queue table after a reset: it succeeds where its page is mapped, and fails where no page is. -/
def cleared (s : State) : Except Nat Unit × State :=
  ownWrite (s.platNext.getD s.plat).qbase.toNat (List.replicate 0x808 0) { afterReset s with plat := s.platNext.getD s.plat, platNext := none }
theorem witness_Resets : (cleared (withPages State.reset)).1 = .ok () := by decide +kernel
theorem witness_FailedResets : (match (cleared State.reset).1 with | .error _ => true | .ok _ => false) = true := by decide +kernel
/-- A chain from the root key verifies; one that is not sound does not. -/
theorem witness_Verifies : let k : Chain := { root := Config.rootKey, sound := true }
    let bad : Chain := { k with sound := false }
    (k.sound = true ∧ sha512 k.root = romHash) ∧ ¬ (bad.sound = true ∧ sha512 bad.root = romHash) :=
  ⟨⟨rfl, rfl⟩, fun h => nomatch h.1⟩
/-- 22 R396, R397: a stopped module is ready again after a reset that verifies. -/
theorem test_reset_runs : let t := clearQueues { afterReset { withPages State.reset with stopped := true } with plat := (withPages State.reset).plat }
    t.stopped = false ∧ t.disp.ready = true := by decide +kernel

/- The whole machine. -/

theorem witness_TurnOf (e : Eng) (c : Core) : TurnOf 0 e { only c with sched := [(0, .issue 0 e)] } (onTurn e { only c with sched := [(0, .issue 0 e)] }) := ⟨0, [], rfl, rfl, rfl⟩
theorem witness_StepEnters : let s := onTurn .s { only { running with uien := true, notifyQ := [0x81] } with sched := [(0, .issue 0 .s)] }
    entryDue 0 s.me = some (.userInterruptEntry 0) ∧ s.me.mayIssue .s s.now = true := by decide +kernel
/-- ADDI s8, s7, 5 at offset 4, no word of S, and a SIG word that no check has covered. -/
def standing (w : Nat) (hi : Nat) : Core := { running with streams := [(0, { atFour with hi := hi, buf := Tbl.setRun 0 [] 4 (natLE 4 w) })] }
theorem witness_StepRuns : let s := onTurn .s { only (standing 0x4240E028 256) with sched := [(0, .issue 0 .s)] }
    entryDue 0 s.me = none ∧ WordsAtHand .s 1 s ∧ 1 = instrWords .s ((s.me.stream .s).word (s.me.stream .s).pc) ∧ decodeList .s (wordsAtPc .s 1 s) = .ok (.addi 8 7 5 0, []) := by
  unfold WordsAtHand Turns; decide +kernel
theorem witness_StepRefuses : let s := onTurn .s { only (standing 0 256) with sched := [(0, .issue 0 .s)] }
    entryDue 0 s.me = none ∧ WordsAtHand .s 1 s ∧ 1 = instrWords .s ((s.me.stream .s).word (s.me.stream .s).pc) ∧
      (match decodeList .s (wordsAtPc .s 1 s) with | .error _ => true | .ok _ => false) = true := by unfold WordsAtHand Turns; decide +kernel
theorem witness_StepChecks : let s := onTurn .s { only (standing 0xFE022BEA 0) with sched := [(0, .issue 0 .s)] }
    entryDue 0 s.me = none ∧ s.me.mayIssue .s s.now = true ∧ Turns .s s ∧ (s.me.stream .s).pc < (s.me.text .s).2 ∧ ¬ ((s.me.stream .s).lo ≤ (s.me.stream .s).pc ∧ (s.me.stream .s).pc < (s.me.stream .s).hi) ∧
      (s.me.stream .s).holds (s.me.stream .s).pc = true ∧ ((s.me.stream .s).word (s.me.stream .s).pc).extractLsb' 25 7 = 0x7F := by unfold Turns; decide +kernel
theorem witness_StepIdles : (onTurn .s { only Core.reset with sched := [(0, .issue 0 .s)] }).me.mayIssue .s 0 = false := by decide +kernel
theorem witness_Encodings : (Instr.addi 8 7 5 1).wf = true ∧ encode (.addi 8 7 5 1) ≠ [] ∧ (match decodeWords .s 0x4240E029 0 0 0 with | .ok _ => true | _ => false) = true := by
  decide +kernel
theorem witness_Steps : let s := only (standing 0x4240E028 256)
    Safety.memWf { withPages s with sched := [(0, .issue 0 .s)] } = true ∧
      (match step { withPages s with sched := [(0, .issue 0 .s)] } with | .next _ => true | _ => false) = true := by decide +kernel

end Sys2Proof.Tests
end

section
/-!
SUPPORT. The values of the scalar stream's integer forms as the rules write them: arithmetic, counts, extensions, addresses and relations.
-/
namespace Sys2Proof.Laws
open Sys2Proof.Machine Sys2Proof.Claims

/- The values of the register forms (09 R184, R185). -/

theorem add_value (a b : Word) : a + b = BitVec.ofInt 64 (a.toInt + b.toInt) := by
  rw [BitVec.ofInt_add, BitVec.ofInt_toInt, BitVec.ofInt_toInt]
theorem sub_value (a b : Word) : a - b = BitVec.ofInt 64 (a.toInt - b.toInt) := by
  rw [Int.sub_eq_add_neg, BitVec.ofInt_add, BitVec.ofInt_neg, BitVec.ofInt_toInt, BitVec.ofInt_toInt, BitVec.sub_eq_add_neg]
theorem mul_value (a b : Word) : a * b = BitVec.ofInt 64 (a.toInt * b.toInt) := by
  rw [BitVec.ofInt_mul, BitVec.ofInt_toInt, BitVec.ofInt_toInt]
theorem mulh_value (a b : Word) : mulHigh a.toInt b.toInt = BitVec.ofInt 64 (a.toInt * b.toInt / 2 ^ 64) := rfl
theorem mulhn_value (a b : Word) : mulHigh a.toNat b.toNat = BitVec.ofNat 64 (a.toNat * b.toNat / 2 ^ 64) := by
  rw [← BitVec.ofInt_natCast]
  unfold mulHigh
  norm_cast

/-- The one quotient that overflows wraps to the dividend, as two's complement division does. -/
theorem sDivs_eq (a b : Word) : sDivs a b = if b = 0 then BitVec.allOnes 64 else a.sdiv b := by
  unfold sDivs
  split
  · rfl
  · split
    · rename_i h
      obtain ⟨ha, hb⟩ : a.toInt = -2 ^ 63 ∧ b.toInt = -1 := by simpa using h
      apply BitVec.eq_of_toInt_eq
      rw [BitVec.toInt_sdiv, ha, hb]; rfl
    · apply BitVec.eq_of_toInt_eq
      rw [BitVec.toInt_sdiv, BitVec.toInt_ofInt]

theorem sRems_eq (a b : Word) : sRems a b = if b = 0 then a else a.srem b := by
  unfold sRems
  split
  · rfl
  · apply BitVec.eq_of_toInt_eq
    rw [BitVec.toInt_srem]
    split
    · rename_i h
      obtain ⟨ha, hb⟩ : a.toInt = -2 ^ 63 ∧ b.toInt = -1 := by simpa using h
      rw [ha, hb]; rfl
    · rw [← Int.tmod_def, ← BitVec.toInt_srem, BitVec.ofInt_toInt]

theorem sDivn_eq (a b : Word) : sDivn a b = if b = 0 then BitVec.allOnes 64 else a / b := by
  rw [sDivn, ← BitVec.udiv_def]

theorem sRemn_eq (a b : Word) : sRemn a b = if b = 0 then a else a % b := by
  rw [sRemn, ← BitVec.umod_def]

theorem shl_value (a : Word) (n : Nat) : a <<< n = BitVec.ofNat 64 (a.toNat * 2 ^ n) := by
  apply BitVec.eq_of_toNat_eq
  rw [BitVec.toNat_shiftLeft, Nat.shiftLeft_eq, BitVec.toNat_ofNat]
theorem shrl_value (a : Word) (n : Nat) : a >>> n = BitVec.ofNat 64 (a.toNat / 2 ^ n) := by
  rw [← Nat.shiftRight_eq_div_pow, ← BitVec.toNat_ushiftRight, BitVec.ofNat_toNat, BitVec.setWidth_eq]
theorem shra_value (a : Word) (n : Nat) : a.sshiftRight n = BitVec.ofInt 64 (a.toInt / 2 ^ n) := by
  rw [← BitVec.ofInt_toInt (x := a.sshiftRight n), BitVec.toInt_sshiftRight, Int.shiftRight_eq_div_pow]; norm_cast

theorem rotl_value (a b : Word) : a.rotateLeft (shCount b) = a <<< (b.toNat % 64) ||| a >>> (64 - b.toNat % 64) := by
  rw [BitVec.rotateLeft_def, shCount, Nat.mod_mod]

theorem min_value (a b : Word) : (if a.toInt ≤ b.toInt then a else b) = BitVec.ofInt 64 (min a.toInt b.toInt) := by
  rw [min_def, apply_ite (BitVec.ofInt 64), BitVec.ofInt_toInt, BitVec.ofInt_toInt]
theorem max_value (a b : Word) : (if a.toInt ≤ b.toInt then b else a) = BitVec.ofInt 64 (max a.toInt b.toInt) := by
  rw [max_def, apply_ite (BitVec.ofInt 64), BitVec.ofInt_toInt, BitVec.ofInt_toInt]
theorem minn_value (a b : Word) : (if a.toNat ≤ b.toNat then a else b) = BitVec.ofNat 64 (min a.toNat b.toNat) := by
  rw [min_def, apply_ite (BitVec.ofNat 64), BitVec.ofNat_toNat, BitVec.ofNat_toNat, BitVec.setWidth_eq, BitVec.setWidth_eq]
theorem maxn_value (a b : Word) : (if a.toNat ≤ b.toNat then b else a) = BitVec.ofNat 64 (max a.toNat b.toNat) := by
  rw [max_def, apply_ite (BitVec.ofNat 64), BitVec.ofNat_toNat, BitVec.ofNat_toNat, BitVec.setWidth_eq, BitVec.setWidth_eq]

/- Counts and extensions (09 R186). -/

theorem leadZeros_word (a : Word) : leadZeros a = if a = 0 then 64 else 63 - Nat.log2 a.toNat := by
  unfold leadZeros natBits
  by_cases h : a = 0
  · simp [h]
  · have : a.toNat ≠ 0 := fun k => h (BitVec.eq_of_toNat_eq k)
    rw [if_neg this, if_neg h]
    omega

theorem foldl_count {α : Type} (p : α → Bool) (l : List α) (k : Nat) :
    l.foldl (fun k i => if p i then k + 1 else k) k = k + l.countP p := by
  induction l generalizing k with
  | nil => simp
  | cons x l ih => rw [List.foldl_cons, ih, List.countP_cons]; split <;> omega

theorem popCount_word (a : Word) : popCount a = (List.range 64).countP (fun i => a.getLsbD i) := by
  rw [popCount, foldl_count, Nat.zero_add]

/-- The bits that the mask of SEXT and ZEXT selects: those above bit n. -/
theorem highMask_getLsbD (n i : Nat) : (BitVec.allOnes 64 <<< (n + 1)).getLsbD i = (decide (i < 64) && decide (n < i)) := by
  rw [BitVec.getLsbD_shiftLeft, BitVec.getLsbD_allOnes]
  grind

theorem zextFrom_eq (a : Word) (n : Nat) : zextFrom a n = (a.extractLsb' 0 (n + 1)).zeroExtend 64 := by
  refine BitVec.eq_of_getLsbD_eq fun i h => ?_
  unfold zextFrom
  rw [BitVec.getLsbD_and, BitVec.getLsbD_not, highMask_getLsbD, BitVec.getLsbD_setWidth, BitVec.getLsbD_extractLsb', Nat.zero_add]
  grind

theorem sextFrom_eq (a : Word) (n : Nat) : sextFrom a n = (a.extractLsb' 0 (n + 1)).signExtend 64 := by
  refine BitVec.eq_of_getLsbD_eq fun i h => ?_
  unfold sextFrom
  have hm : (a.extractLsb' 0 (n + 1)).msb = a.getLsbD n := by
    rw [BitVec.msb_eq_getLsbD_last, BitVec.getLsbD_extractLsb']; simp
  rw [BitVec.getLsbD_signExtend, hm, BitVec.getLsbD_extractLsb', Nat.zero_add]
  split
  · rw [BitVec.getLsbD_or, highMask_getLsbD]; grind
  · rw [BitVec.getLsbD_and, BitVec.getLsbD_not, highMask_getLsbD]; grind

/- Addresses and constants (09 R187 to R189). -/

/-- Concatenation as a number. -/
theorem toNat_append_add {m n : Nat} (x : BitVec m) (y : BitVec n) : (x ++ y).toNat = x.toNat * 2 ^ n + y.toNat := by
  rw [BitVec.toNat_append, ← Nat.shiftLeft_add_eq_or_of_lt y.isLt, Nat.shiftLeft_eq]

/-- Advancing the low n bits of an address, its high bits kept, as a number. -/
theorem toNat_append_advance {m n : Nat} (q : BitVec (m + n)) (k : Int) :
    (q.extractLsb' n m ++ (q.extractLsb' 0 n + BitVec.ofInt n k)).toNat =
      q.toNat / 2 ^ n * 2 ^ n + (((q.toNat % 2 ^ n : Nat) + k) % (2 ^ n : Nat)).toNat := by
  have hi : (q.extractLsb' n m).toNat = q.toNat / 2 ^ n := by
    rw [BitVec.extractLsb'_toNat, Nat.shiftRight_eq_div_pow, Nat.mod_eq_of_lt]
    exact Nat.div_lt_of_lt_mul (by rw [← pow_add, Nat.add_comm n m]; exact q.isLt)
  have lo : (q.extractLsb' 0 n + BitVec.ofInt n k).toNat = (((q.toNat % 2 ^ n : Nat) + k) % (2 ^ n : Nat)).toNat := by
    rw [← BitVec.toNat_ofInt, BitVec.ofInt_add, BitVec.ofInt_natCast]
    congr 2
    apply BitVec.eq_of_toNat_eq
    simp
  rw [toNat_append_add, hi, lo]

theorem word_eq_ofNat {x : Word} {n : Nat} (h : x.toNat = n) : x = BitVec.ofNat 64 n := by
  rw [← h, BitVec.ofNat_toNat, BitVec.setWidth_eq]

/-- An address whose low n bits have moved on by eight times the immediate and wrapped, every other bit kept (09 R189). -/
def movedField (a : Word) (imm : BitVec 10) (n : Nat) : Word :=
  BitVec.ofNat 64 (a.toNat / 2 ^ n * 2 ^ n + (((a.toNat % 2 ^ n : Nat) + 8 * imm.toInt) % (2 ^ n : Nat)).toNat)

theorem leaValue_d {a : Word} (h : qSpc a = 0) (imm : BitVec 10) : leaValue a imm = movedField a imm 57 := by
  simp only [leaValue, h, movedField]
theorem leaValue_f {a : Word} (h : qSpc a = 4) (imm : BitVec 10) : leaValue a imm = movedField a imm 48 := by
  simp only [leaValue, h, movedField]
theorem leaValue_core {a : Word} (h : qSpc a = 1 ∨ qSpc a = 2 ∨ qSpc a = 3) (imm : BitVec 10) : leaValue a imm = movedField a imm 23 := by
  rcases h with h | h | h <;> simp only [leaValue, h, movedField]
theorem leaValue_other {a : Word} (h : 5 ≤ qSpc a) (imm : BitVec 10) : leaValue a imm = a := by
  unfold leaValue
  split
  case h_6 => rfl
  all_goals omega

theorem qAdvance_d {a : Word} (h : qSpc a = 0) (imm : BitVec 10) : qAdvance a (8 * imm.toInt) = movedField a imm 57 := by
  simp only [qAdvance, h]
  exact word_eq_ofNat (toNat_append_advance (m := 7) (n := 57) a _)
theorem qAdvance_f {a : Word} (h : qSpc a = 4) (imm : BitVec 10) : qAdvance a (8 * imm.toInt) = movedField a imm 48 := by
  simp only [qAdvance, h]
  exact word_eq_ofNat (toNat_append_advance (m := 16) (n := 48) a _)
theorem qAdvance_core {a : Word} (h : qSpc a = 1 ∨ qSpc a = 2 ∨ qSpc a = 3) (imm : BitVec 10) :
    qAdvance a (8 * imm.toInt) = movedField a imm 23 := by
  rcases h with h | h | h <;> simp only [qAdvance, h] <;> exact word_eq_ofNat (toNat_append_advance (m := 41) (n := 23) a _)
theorem qAdvance_other {a : Word} (h : 5 ≤ qSpc a) (k : Int) : qAdvance a k = a := by
  unfold qAdvance
  split
  case h_6 => rfl
  all_goals omega

theorem qAdvance_eq_leaValue (a : Word) (imm : BitVec 10) : qAdvance a (imm.toInt * 8) = leaValue a imm := by
  rw [Int.mul_comm]
  obtain d | f | core | other : qSpc a = 0 ∨ qSpc a = 4 ∨ (qSpc a = 1 ∨ qSpc a = 2 ∨ qSpc a = 3) ∨ 5 ≤ qSpc a := by omega
  · rw [qAdvance_d d, leaValue_d d]
  · rw [qAdvance_f f, leaValue_f f]
  · rw [qAdvance_core core, leaValue_core core]
  · rw [qAdvance_other other, leaValue_other other]

theorem ldhi_value (a : Word) (k : BitVec 16) : (a <<< 16) ||| k.zeroExtend 64 = a.extractLsb' 0 48 ++ k := by
  refine BitVec.eq_of_getLsbD_eq fun i h => ?_
  rw [BitVec.getLsbD_or, BitVec.getLsbD_shiftLeft, BitVec.getLsbD_setWidth, BitVec.getLsbD_append, BitVec.getLsbD_extractLsb']
  by_cases l : i < 16
  · simp [h, l]
  · have : k.getLsbD i = false := BitVec.getLsbD_of_ge _ _ (by omega)
    have : i - 16 < 48 := by omega
    simp_all

theorem placeAddr_value (a : Word) (dx dy : BitVec 4) (dd : BitVec 2) : placeAddr a dx dy dd =
    BitVec.ofNat 64 (2 * 2 ^ 61 + dd.toNat * 2 ^ 31 + dy.toNat * 2 ^ 27 + dx.toNat * 2 ^ 23 + a.toNat % 2 ^ 23) := by
  apply word_eq_ofNat
  unfold placeAddr
  change ((2#3 : BitVec 3) ++ (0 : BitVec 28) ++ dd ++ dy ++ dx ++ a.extractLsb' 0 23 : BitVec (3 + 28 + 2 + 4 + 4 + 23)).toNat = _
  simp only [toNat_append_add, BitVec.extractLsb'_toNat, Nat.shiftRight_zero, BitVec.ofNat_eq_ofNat, BitVec.toNat_ofNat]
  omega

theorem addi_value (a : Word) (imm : BitVec 10) : a + sext64 imm = BitVec.ofInt 64 (a.toInt + imm.toInt) := by
  rw [BitVec.ofInt_add, BitVec.ofInt_toInt]; rfl

/- Relations and bits (09 R190, R191). -/

theorem lowBit_value {val : BitVec 6} (h : val.toNat ≤ 1) : val.getLsbD 0 = decide (val.toNat = 1) := by
  rw [BitVec.getLsbD, Nat.testBit_zero, Nat.mod_eq_of_lt (by omega)]

theorem relLt_eq (a b : Word) : relLt a b = a.slt b := rfl
theorem relLe_eq (a b : Word) : relLe a b = a.sle b := rfl
theorem relLtn_eq (a b : Word) : relLtn a b = a.ult b := rfl
theorem relLen_eq (a b : Word) : relLen a b = a.ule b := rfl
theorem relEq_eq (a b : Word) : relEq a b = (a == b) := rfl
theorem relNe_eq (a b : Word) : relNe a b = (a != b) := by
  rw [relNe, Bool.eq_iff_iff, decide_eq_true_eq, bne_iff_ne]

end Sys2Proof.Laws
end

section
/-!
SUPPORT. What the scalar stream's shared instruction forms do in the terms of the statements, taking a fault at issue, and the
return from the user-level handler.
-/
namespace Sys2Proof.Laws
open Sys2Proof.Machine Sys2Proof.Claims

variable {i : Instr} {tk : BitVec 3} {pg pd : BitVec 4} {sd sa sb : BitVec 6} {srcs : List (BitVec 6)}

/-- An instruction that is a register result of the value `v` (06 R117, 09 R181). -/
theorem sResult_says {f : Core → Word} {v : State → Word} (hi : ∀ s, exec i s = sResult tk pg sd srcs f s)
    (hv : ∀ (s : State) st tok res cy, f { s.me with streams := st, tokens := tok, reserved := res, cyc := cy } = v s) :
    SResult i tk pg sd srcs v := by
  intro s ⟨ready, undecl, free⟩
  obtain ⟨t, ht, done, regs, keys, rest⟩ := sResult_next (pg := pg) ready undecl free (hv s)
  refine ⟨t, (hi s).trans ht, done, ⟨fun r => ?_, keys⟩, rest⟩
  rw [regs r]
  by_cases hp : s.me.getP pg = true
  · simp only [hp, true_and, if_true]
  · rw [if_neg (fun h => hp h.1), if_neg hp]
    split
    · rename_i h; rw [h.1]
    · rfl

/-- An instruction that is a predicate result of the value `b`. -/
theorem pResult_says {f : Core → Bool} {b : State → Bool} (hi : ∀ s, exec i s = pResult tk pg pd srcs f s)
    (hb : ∀ (s : State) st tok res cy, f { s.me with streams := st, tokens := tok, reserved := res, cyc := cy } = b s) :
    PResult i tk pg pd srcs b := by
  intro s ⟨ready, undecl, free⟩
  obtain ⟨t, ht, done, preds, rest⟩ := pResult_next (pg := pg) ready undecl free (hb s)
  exact ⟨t, (hi s).trans ht, done, preds, rest⟩

/-- A two-source register form of the list, named by its constructor and its value (09 R184). -/
def RegisterForm (x : (BitVec 6 → BitVec 6 → BitVec 6 → BitVec 4 → BitVec 3 → Instr) × (Word → Word → Word)) : Prop :=
  ∀ sd sa sb pg tk, SResult (x.1 sd sa sb pg tk) tk pg sd [sa, sb] (fun s => x.2 (s.me.getS sa) (s.me.getS sb))

/-- A register form has value `v` where the operation that the model gives it computes `v`. -/
theorem sReg2_says {mk : BitVec 6 → BitVec 6 → BitVec 6 → BitVec 4 → BitVec 3 → Instr} (op : Word → Word → Word) {v : Word → Word → Word}
    (hv : ∀ a b, op a b = v a b) (hi : ∀ sd sa sb pg tk s, exec (mk sd sa sb pg tk) s = sReg2 op sd sa sb pg tk s := by intros; rfl) :
    RegisterForm (mk, v) :=
  fun sd sa sb pg tk => sResult_says (hi sd sa sb pg tk) (fun _ _ _ _ _ => hv _ _)

/-- A compare of two registers, by the relation that the model gives it (09 R190). -/
theorem sCmp_says {mk : BitVec 4 → BitVec 6 → BitVec 6 → BitVec 4 → BitVec 3 → Instr} {rel v : Word → Word → Bool}
    (hv : ∀ a b, rel a b = v a b) (hi : ∀ pd sa sb pg tk s, exec (mk pd sa sb pg tk) s = sCmp rel pd sa sb pg tk s := by intros; rfl)
    (pd sa sb pg tk) : PResult (mk pd sa sb pg tk) tk pg pd [sa, sb] (fun s => v (s.me.getS sa) (s.me.getS sb)) :=
  pResult_says (hi pd sa sb pg tk) (fun _ _ _ _ _ => hv _ _)

/-- A compare with an immediate, not predicated. -/
theorem sCmpI_says {mk : BitVec 4 → BitVec 6 → BitVec 10 → BitVec 3 → Instr} {rel v : Word → Word → Bool}
    (hv : ∀ a b, rel a b = v a b) (hi : ∀ pd sa imm tk s, exec (mk pd sa imm tk) s = sCmpI rel pd sa imm tk s := by intros; rfl)
    (pd sa) (imm : BitVec 10) (tk) : PResult (mk pd sa imm tk) tk 0 pd [sa] (fun s => v (s.me.getS sa) (imm.signExtend 64)) :=
  pResult_says (hi pd sa imm tk) (fun _ _ _ _ _ => hv _ _)

/- The spill memory's read. -/

theorem nameCorrected_only (seq pc : Nat) (old s : State) : { nameCorrected seq pc old s with banks := s.banks } = s := by
  unfold nameCorrected; split <;> rfl

theorem correctSlots_only (g : Nat) (e : Eng) (seq a n : Nat) (s : State) :
    { correctSlots g e seq a n s with flips := s.flips, banks := s.banks } = s := by
  have named := nameCorrected_only seq ((s.core g).stream e).pc s (correctSpill g e a n s)
  have spilled := correctIn_only (flipSpill g e) (fun _ => .core g) a n (s.core g).unitTag s
  exact (congrArg (fun u : State => { u with flips := s.flips, banks := s.banks }) named).trans spilled

@[simp] theorem correctSlots_me (g : Nat) (e : Eng) (seq a n : Nat) (s : State) : (correctSlots g e seq a n s).me = s.me := by
  have me := congrArg State.me (correctSlots_only g e seq a n s)
  exact me

theorem execSpl_clean {s : State} {off : BitVec 10} (h : s.me.spillBad .s off.toNat 1 = none) :
    exec (.spl sd off tk) s =
      sResult tk 0 sd [] (fun c => Tbl.get 0 c.spillS off.toNat) (correctSlots s.cur .s 0 (8 * off.toNat) 8 s) := by
  show execSpl sd off tk s = _
  unfold execSpl
  rw [h]

theorem spl_clean {s : State} {off : BitVec 10} (ready : SReady tk [sd] s) (clean : s.me.spillBad .s off.toNat 1 = none) :
    ∃ t, exec (.spl sd off tk) s = .next t ∧ Completes .s tk 1 (correctSlots s.cur .s 0 (8 * off.toNat) 8 s) t ∧
      SReg sd (Tbl.get 0 s.me.spillS off.toNat) s t ∧
      { t.me with s := s.me.s, streams := s.me.streams, tokens := s.me.tokens, reserved := s.me.reserved, cyc := s.me.cyc } = s.me := by
  obtain ⟨moved, undecl, free⟩ := ready
  have same := correctSlots_me s.cur .s 0 (8 * off.toNat) 8 s
  obtain ⟨t, ht, done, regs, keys, rest⟩ := sResult_next (s := correctSlots s.cur .s 0 (8 * off.toNat) 8 s) (tk := tk) (pg := 0) (sd := sd) (srcs := [])
    (f := fun c => Tbl.get 0 c.spillS off.toNat) (v := Tbl.get 0 s.me.spillS off.toNat)
    (by unfold Ready; rw [same]; exact moved) (by rw [same]; exact undecl) (by rw [same]; exact free) (fun _ _ _ _ => by rw [same])
  rw [same] at regs keys rest
  refine ⟨t, (execSpl_clean clean).trans ht, done, ⟨fun r => ?_, keys⟩, rest⟩
  rw [regs r]
  simp [Core.getP]

/- Taking a fault at issue, and the return from the handler. -/

/-- What withDdev completes of a record is its XTRA field. -/
theorem withDdev_shape (s : State) (f : FaultInfo) : ∃ x, withDdev s f = { f with xtra := x } := by
  unfold withDdev
  dsimp only
  split
  · exact ⟨_, rfl⟩
  · exact ⟨f.xtra, rfl⟩

/-- The fields of EBC (20 R374). -/
theorem ebc_pc (spc : BitVec 3) (xtra : BitVec 13) (pc : BitVec 32) (tag : BitVec 16) :
    (spc ++ xtra ++ pc ++ tag : BitVec 64).extractLsb' 16 32 = pc := by
  refine BitVec.eq_of_getLsbD_eq fun i h => ?_
  rw [BitVec.getLsbD_extractLsb', BitVec.getLsbD_append, BitVec.getLsbD_append]
  simp [h]
theorem ebc_tag (spc : BitVec 3) (xtra : BitVec 13) (pc : BitVec 32) (tag : BitVec 16) :
    (spc ++ xtra ++ pc ++ tag : BitVec 64).extractLsb' 0 16 = tag := by
  refine BitVec.eq_of_getLsbD_eq fun i h => ?_
  rw [BitVec.getLsbD_extractLsb', BitVec.getLsbD_append]
  simp [h]

/-- A unit's fault is taken as 20 R374 to R377 say. -/
theorem unitFault_tookFault (g : Nat) (f : FaultInfo) (s : State) : TookFault g f.code f.src f.pc f.addr f.ebx s (unitFault g f s) := by
  refine ⟨unitFault_core g f s, fun h n => unitFault_core_other f s (Ne.symm n), unitFault_sameMemory g f s, unitFault_purges g f s, fun free => ?_⟩
  have free : ((s.bank (.core g)).valid && (s.bank (.core g)).uc) = false := by simpa [Bank.valid, Bank.uc] using free
  obtain ⟨x, hx⟩ := withDdev_shape s f
  rw [unitFault_bank (.inr free), uncorrectable_first free, hx]
  exact ⟨ebsOf_valid .., ebsOf_uc .., ebsOf_code .., ebsOf_src .., rfl, rfl, ebc_pc .., ebc_tag ..⟩

/-- An S instruction that faults at issue: nothing of it but the fault. -/
theorem sIssue_fault {s : State} {regs : List (BitVec 6)} {f : FaultInfo} {k : State → State} (ready : SReady tk regs s) :
    issue (sNeed s tk regs) (some f) s k = .next (unitFault s.cur f s) := by
  obtain ⟨moved, undecl, free⟩ := ready
  exact issue_fault (sNeed_ready free) (fun _ => undecl) (sNeed_clear moved).1

/-- The S stream after the return: at the handler's entry block, nothing of it checked, EPC to be gone on at (06 R134). -/
theorem leaveHandler_stream_s (c : Core) (now : Nat) : (leaveHandler c now).stream .s =
    { c.stream .s with
      pc := c.uiBlk, lo := 0, hi := 0, ready := now + 4, resume := some (c.uiepc.toNat % 2 ^ 32),
      lines := (c.stream .s).lines.filter (fun l => decide (l < c.uiBlk / 256) || decide (c.uiBlk / 256 + 8 < l) || c.hLine l) } := by
  unfold leaveHandler Core.goto
  simp only [stream_setStream_same]
  rfl

theorem leaveHandler_stream_other (c : Core) (now : Nat) {e : Eng} (n : e ≠ .s) : (leaveHandler c now).stream e = c.stream e := by
  unfold leaveHandler Core.goto
  rw [stream_setStream_other _ _ (Ne.symm n), stream_setStream_other _ _ (Ne.symm n)]
  rfl

theorem leaveHandler_line_gone {c : Core} {now : Nat} (h : c.hLine (c.uiBlk / 256) = false) :
    c.uiBlk / 256 ∉ ((leaveHandler c now).stream .s).lines := by
  rw [leaveHandler_stream_s]
  simp [List.mem_filter, h]

/-- Core c is that of state s but for the fields that issuing and completing move. -/
def IssueShape (s : State) (c : Core) : Prop := ∃ st tok res cy, c = { s.me with streams := st, tokens := tok, reserved := res, cyc := cy }

theorem still_of_issueShape {s : State} {c : Core} (h : IssueShape s c) : still s c = s.me := by
  obtain ⟨st, tok, res, cy, rfl⟩ := h
  rfl

/-- A return after an instruction leaves the core as it was but for the handler's marks. -/
theorem still_leaveHandler {s : State} {c : Core} (h : IssueShape s c) (now : Nat) :
    still s { leaveHandler c now with uiact := s.me.uiact, uiBound := s.me.uiBound } = s.me := by
  obtain ⟨st, tok, res, cy, rfl⟩ := h
  rfl

theorem uiret_off {s : State} (ready : SReady tk [] s) (hp : s.me.getP pg = false) :
    ∃ t, exec (.uiret pg tk) s = .next t ∧ Completes .s tk 1 s t ∧ still s t.me = s.me := by
  obtain ⟨moved, undecl, free⟩ := ready
  obtain ⟨done, shape⟩ := completes_id (s := s) (nd := sNeed s tk []) 1
  refine ⟨complete .s tk (beginIssue s (sNeed s tk [])), ?_, done, still_of_issueShape shape⟩
  show execUiret pg tk s = _
  unfold execUiret
  simp only [hp, Bool.false_and, Bool.false_eq_true, if_false, sIssue_next moved undecl free, beginIssue_getP]

theorem uiret_returns {s : State} (ready : SReady tk [] s) (hp : s.me.getP pg = true) (act : s.me.uiact = true) :
    ∃ u, exec (.uiret pg tk) s = .next (u.onMe (fun c => leaveHandler c s.now)) ∧ Completes .s tk 1 s u ∧ IssueShape s u.me := by
  obtain ⟨moved, undecl, free⟩ := ready
  obtain ⟨done, shape⟩ := completes_id (s := s) (nd := sNeed s tk []) 1
  refine ⟨complete .s tk (beginIssue s (sNeed s tk [])), ?_, done, shape⟩
  show execUiret pg tk s = _
  unfold execUiret
  simp only [hp, act, Bool.not_true, Bool.and_false, Bool.false_eq_true, if_false, sIssue_next moved undecl free, beginIssue_getP, if_true]
  rfl

theorem uiret_faults {s : State} (ready : SReady tk [] s) (hp : s.me.getP pg = true) (act : s.me.uiact = false) :
    exec (.uiret pg tk) s = .next (unitFault s.cur (s.me.faultHere .s cILLEGAL) s) := by
  show execUiret pg tk s = _
  unfold execUiret
  simp only [hp, act, Bool.not_false, Bool.and_true, if_true]
  exact sIssue_fault ready

/-- The return moves no token and no place, and keeps what has reached the S stream. -/
theorem leaveHandler_tokensMoved {s u : State} (now : Nat) (moved : TokensMoved .s tk s u) :
    TokensMoved .s tk s (u.onMe (fun c => leaveHandler c now)) := by
  obtain ⟨fifos, places⟩ := moved
  refine ⟨fun f => ?_, fun f => ?_⟩ <;> rw [me_onMe]
  · rw [leaveHandler_stream_s]; exact fifos f
  · exact places f

end Sys2Proof.Laws
end

section
/-!
PROOFS. The statements of 09 about integer instructions, constants, compares, predicates and the return from the handler.
-/
namespace Sys2Proof.Proofs
open Sys2Proof.Machine Sys2Proof.Claims Sys2Proof.Laws

/-- Settles O1: each form issues with its operation, and the operation is the stated value, form by form. -/
theorem integerRegisterForms : Obligations.IntegerRegisterForms := by
  show ∀ x ∈ twoSource, RegisterForm x
  simp only [twoSource, List.forall_mem_cons]
  exact ⟨
    sReg2_says _ add_value, sReg2_says _ sub_value, sReg2_says _ mul_value, sReg2_says _ mulh_value, sReg2_says _ mulhn_value,
    sReg2_says _ sDivs_eq, sReg2_says _ sDivn_eq, sReg2_says _ sRems_eq, sReg2_says _ sRemn_eq,
    sReg2_says (fun a b => a &&& b) (fun _ _ => rfl), sReg2_says (fun a b => a ||| b) (fun _ _ => rfl),
    sReg2_says (fun a b => a ^^^ b) (fun _ _ => rfl), sReg2_says (fun a b => a &&& ~~~b) (fun _ _ => rfl),
    sReg2_says _ (fun a b => shl_value a (shCount b)), sReg2_says _ (fun a b => shrl_value a (shCount b)),
    sReg2_says _ (fun a b => shra_value a (shCount b)), sReg2_says _ rotl_value,
    sReg2_says _ min_value, sReg2_says _ max_value, sReg2_says _ minn_value, sReg2_says _ maxn_value,
    List.forall_mem_nil _⟩

/-- Settles O2: the counts agree with the logarithm and the number of one bits, the extensions bit by bit. -/
theorem countAndExtendForms : Obligations.CountAndExtendForms := fun _ _ n _ _ =>
  ⟨sResult_says (fun _ => rfl) (fun _ _ _ _ _ => congrArg (BitVec.ofNat 64) (leadZeros_word _)),
   sResult_says (fun _ => rfl) (fun _ _ _ _ _ => congrArg (BitVec.ofNat 64) (popCount_word _)),
   sResult_says (fun _ => rfl) (fun _ _ _ _ _ => sextFrom_eq _ n.toNat),
   sResult_says (fun _ => rfl) (fun _ _ _ _ _ => zextFrom_eq _ n.toNat)⟩

/-- Settles O3: the forms are register results with no predicate; SPL's correction of single-bit errors leaves the core alone. -/
theorem immediateAndConstantForms : Obligations.ImmediateAndConstantForms := by
  intro sd sa sb imm off k dx dy dd ps tk
  refine ⟨?addi, ?andi, ?ori, ?xori, fun short => ⟨?shli, ?shrli, ?shrai⟩, ?ldi, ?ldhi, ?lea, ?plc, ?sel, fun s => spl_clean⟩
  case addi => exact sResult_says (fun _ => rfl) (fun _ _ _ _ _ => addi_value _ imm)
  case andi | ori | xori | ldi | sel => exact sResult_says (fun _ => rfl) (fun _ _ _ _ _ => rfl)
  case shli => exact sResult_says (fun _ => rfl) (fun _ _ _ _ _ => (shl_value _ _).trans (by rw [Nat.mod_eq_of_lt short]; rfl))
  case shrli => exact sResult_says (fun _ => rfl) (fun _ _ _ _ _ => (shrl_value _ _).trans (by rw [Nat.mod_eq_of_lt short]; rfl))
  case shrai => exact sResult_says (fun _ => rfl) (fun _ _ _ _ _ => (shra_value _ _).trans (by rw [Nat.mod_eq_of_lt short]; rfl))
  case ldhi => exact sResult_says (fun _ => rfl) (fun _ _ _ _ _ => ldhi_value _ k)
  case lea => exact sResult_says (fun _ => rfl) (fun _ _ _ _ _ => qAdvance_eq_leaValue _ imm)
  case plc => exact sResult_says (fun _ => rfl) (fun _ _ _ _ _ => placeAddr_value _ dx dy dd)

/-- Settles O4: each compare issues with its relation, and the relation is the stated one. -/
theorem comparesAndPredicates : Obligations.ComparesAndPredicates := by
  unfold Obligations.ComparesAndPredicates relations
  simp only [List.forall_mem_cons]
  refine ⟨
    ⟨sCmp_says relEq_eq, sCmp_says relNe_eq, sCmp_says relLt_eq, sCmp_says relLe_eq, sCmp_says relLtn_eq, sCmp_says relLen_eq,
      List.forall_mem_nil _⟩,
    ⟨sCmpI_says relEq_eq, sCmpI_says relNe_eq, sCmpI_says relLt_eq, sCmpI_says relLe_eq, sCmpI_says relLtn_eq, sCmpI_says relLen_eq,
      List.forall_mem_nil _⟩,
    fun pd pa pb pg tk val => ⟨?pand, ?por, ?pxor, ?pnot, ?pmov, fun bit => ?pset⟩⟩
  case pand | por | pxor | pnot | pmov => exact pResult_says (fun _ => rfl) (fun _ _ _ _ _ => rfl)
  case pset => exact pResult_says (fun _ => rfl) (fun _ _ _ _ _ => lowBit_value bit)

/-- Settles O12: UIRET completes and then leaves the handler; outside one its fault at issue is taken. -/
theorem returnFromHandler : Obligations.ReturnFromHandler := by
  intro s tk pg ready
  refine ⟨uiret_off ready, fun hp act => ?returns, fun hp act => ⟨_, uiret_faults ready hp act, unitFault_tookFault s.cur _ s⟩⟩
  case returns =>
    obtain ⟨u, hu, ⟨only, -, moved, -, others⟩, shape⟩ := uiret_returns ready hp act
    have only' := onMe_onlyMe (fun c => leaveHandler c s.now) only
    refine ⟨_, hu, only', onlyMe_sameMemory only' ?_, leaveHandler_tokensMoved _ moved, ?_⟩
    · obtain ⟨st, tok, res, cy, core⟩ := shape
      rw [me_onMe, core]; rfl
    · rw [me_onMe]
      refine ⟨still_leaveHandler shape _, rfl, fun e n => (leaveHandler_stream_other _ _ n).trans (others e n), ?_⟩
      obtain ⟨st, tok, res, cy, core⟩ := shape
      rw [core]
      refine ⟨?pc, ?ready, ?unchecked, ?resumes, fun own => leaveHandler_line_gone own⟩ <;> rw [leaveHandler_stream_s]
      case resumes => rfl

end Sys2Proof.Proofs
end

section
/-!
SUPPORT. The values of the vector stream's integer forms as the rules write them: two's complement codes, shifts, extremes and counts
on elements of w bits.
-/
namespace Sys2Proof.Laws
open Sys2Proof.Machine Sys2Proof.Claims

/- Codes of w bits (11 R252): what the model computes with and what the statements are written in. -/

theorem intOfCode_eq_signed (w a : Nat) : intOfCode w a = Claims.signed w a := by
  unfold intOfCode Claims.signed
  push_cast
  rfl

theorem codeOfInt_eq_wrapped (w : Nat) (x : Int) : codeOfInt w x = wrapped w x := by
  unfold codeOfInt wrapped
  push_cast
  rfl

theorem wrapped_natCast (w n : Nat) : wrapped w n = n % 2 ^ w := by
  unfold wrapped
  norm_cast

theorem wrapped_add_modulus (w : Nat) (x : Int) : wrapped w (x + 2 ^ w) = wrapped w x := by
  unfold wrapped
  rw [Int.add_emod_right]

/- The values of the forms of two sources, in the order of the rule's table. -/

theorem viadd_value (w a b : Nat) : (a + b) % 2 ^ w = wrapped w (a + b) := by
  rw [← wrapped_natCast]; push_cast; rfl

/-- The modulus that the model adds keeps the difference a natural number, and wraps away. -/
theorem visub_value {w b : Nat} (a : Nat) (hb : b < 2 ^ w) : (a + 2 ^ w - b) % 2 ^ w = wrapped w ((a : Int) - b) := by
  have lifted : ((a + 2 ^ w - b : Nat) : Int) = (a : Int) - b + 2 ^ w := by
    rw [Int.natCast_sub (by omega)]; push_cast; ring
  rw [← wrapped_natCast, lifted, wrapped_add_modulus]

theorem vimul_value (w a b : Nat) : a * b % 2 ^ w = wrapped w (a * b) := by
  rw [← wrapped_natCast]; push_cast; rfl

theorem vimulh_value (w a b : Nat) : iMulh w a b = wrapped w (Claims.signed w a * Claims.signed w b / 2 ^ w) := by
  rw [iMulh, codeOfInt_eq_wrapped, intOfCode_eq_signed, intOfCode_eq_signed]; push_cast; rfl

theorem vshl_value (w a b : Nat) : a * 2 ^ (b % w) % 2 ^ w = wrapped w (a * 2 ^ (b % w)) := by
  rw [← wrapped_natCast]; push_cast; rfl

theorem vshra_value (w a b : Nat) : iShra w a b = wrapped w (Claims.signed w a / 2 ^ (b % w)) := by
  rw [iShra, codeOfInt_eq_wrapped, intOfCode_eq_signed]; push_cast; rfl

theorem vimin_value (w a b : Nat) : iMin w a b = if Claims.signed w a ≤ Claims.signed w b then a else b := by
  rw [iMin, intOfCode_eq_signed, intOfCode_eq_signed]

theorem vimax_value (w a b : Nat) : iMax w a b = if Claims.signed w a ≤ Claims.signed w b then b else a := by
  rw [iMax, intOfCode_eq_signed, intOfCode_eq_signed]

/- The counts. -/

/-- Adding a number's bit counts it where it is one. -/
theorem add_bit_eq_ite_testBit (a i k : Nat) : k + a / 2 ^ i % 2 = if a.testBit i then k + 1 else k := by
  rw [Nat.testBit_eq_decide_div_mod_eq]
  obtain zero | one : a / 2 ^ i % 2 = 0 ∨ a / 2 ^ i % 2 = 1 := Nat.mod_two_eq_zero_or_one _
  · simp [zero]
  · simp [one]

theorem vpopc_value (w a : Nat) : iPopc w a = (List.range w).countP (fun i => a.testBit i) := by
  unfold iPopc
  simp only [add_bit_eq_ite_testBit]
  rw [foldl_count, Nat.zero_add]

theorem vclz_value (w a : Nat) : iClz w a = if a = 0 then w else w - 1 - Nat.log2 a := by
  unfold iClz natBits
  split
  · rfl
  · omega

end Sys2Proof.Laws
end

section
/-!
SUPPORT. What the vector stream's shared instruction forms do in the terms of the statements: register results, predicate results,
compares and predicate operations.
-/
namespace Sys2Proof.Laws
open Sys2Proof.Machine Sys2Proof.Claims

variable {i : Instr} {tk : BitVec 3} {pg pd : BitVec 4} {vd : BitVec 6} {srcs : List (BitVec 6)} {may : State → Prop}

/-- What is read of a core depends on no field that issuing moves. -/
def ReadsPastIssue {α : Type} (f : Core → α) : Prop :=
  ∀ (c : Core) st tok res cy, f { c with streams := st, tokens := tok, reserved := res, cyc := cy } = f c

/- Register results. -/

/-- An instruction that is a register result of the values `g` (11 R242, R244). -/
theorem vResult_says {lone : Bool} {flt : State → Option FaultInfo} {w : Core → Nat} {f : Core → Nat → Nat × Flags} {g : State → Nat → Nat × Flags}
    (hi : ∀ s, exec i s = vResult lone (flt s) tk pg vd srcs w f s) (hflt : ∀ s, may s → flt s = none)
    (hw : ReadsPastIssue w) (hf : ReadsPastIssue f) (hg : ∀ s, f s.me = g s) :
    VResult i tk pg vd srcs may (fun s => w s.me) g := by
  intro s ⟨ready, free, whole, loop⟩ ok
  obtain ⟨t, ht, done, elems, others, flags, rest⟩ :=
    vResult_next (lone := lone) (pg := pg) ready free (hflt s ok) whole loop (hw s.me) (hf s.me)
  rw [hg s] at elems flags
  exact ⟨t, (hi s).trans ht, done, elems, others, flags, rest⟩

/-- An integer form of two sources, named by its constructor and its value on w bits (11 R252). -/
def IntegerForm (x : Reg3 × (Nat → Nat → Nat → Nat)) : Prop :=
  ∀ vd va vb pg tk, VResult (x.1 vd va vb pg tk) tk pg vd [va, vb] (fun _ => True) (fun s => s.me.vw)
    (fun s j => (x.2 s.me.vw (elemOf s va j) (elemOf s vb j), flNone))

theorem elemOf_lt (s : State) (n : BitVec 6) (j : Nat) : elemOf s n j < 2 ^ s.me.vw := vElem_lt ..

/-- An integer form has value `v` where the operation that the model gives it computes `v` of elements of w bits. -/
theorem vInt2_says {mk : Reg3} (op : Nat → Nat → Nat → Nat) {v : Nat → Nat → Nat → Nat} (hv : ∀ w a b, b < 2 ^ w → op w a b = v w a b)
    (hi : ∀ vd va vb pg tk s, exec (mk vd va vb pg tk) s = vInt2 op vd va vb pg tk s := by intros; rfl) : IntegerForm (mk, v) :=
  fun vd va vb pg tk => vResult_says (hi vd va vb pg tk) (fun _ _ => rfl) (fun _ _ _ _ _ => rfl) (fun _ _ _ _ _ => rfl)
    (fun s => funext fun j => congrArg (·, flNone) (hv _ _ _ (elemOf_lt s vb j)))

/-- A count of one source's bits. -/
theorem vInt1_says {mk : BitVec 6 → BitVec 6 → BitVec 4 → BitVec 3 → Instr} {op v : Nat → Nat → Nat} (hv : ∀ w a, op w a = v w a)
    (vd va pg tk) (hi : ∀ s, exec (mk vd va pg tk) s = vInt1 op vd va pg tk s := by intros; rfl) :
    VResult (mk vd va pg tk) tk pg vd [va] (fun _ => True) (fun s => s.me.vw) (fun s j => (v s.me.vw (elemOf s va j), flNone)) :=
  vResult_says hi (fun _ _ => rfl) (fun _ _ _ _ _ => rfl) (fun _ _ _ _ _ => rfl)
    (fun _ => funext fun _ => congrArg (·, flNone) (hv _ _))

/- Predicates after a write (11 R242). -/

theorem getVp_setVp_other (c : Core) {n r : BitVec 4} (mask x : VPred) (h : r ≠ n) : (c.setVp n mask x).getVp r = c.getVp r := by
  unfold Core.setVp
  split
  · rfl
  · have apart : n.toNat ≠ r.toNat := fun e => h (BitVec.eq_of_toNat_eq e.symm)
    unfold Core.getVp
    split
    · rfl
    · exact tbl_get_set_other _ _ apart _

/-- The masked bits of the predicate written are the new ones, the others stay; p0 discards both. -/
theorem getVp_setVp_bit (c : Core) (n : BitVec 4) (mask x : VPred) (k : Nat) :
    ((c.setVp n mask x).getVp n).getLsbD k = if n ≠ 0 ∧ mask.getLsbD k = true then x.getLsbD k else (c.getVp n).getLsbD k := by
  by_cases discard : n = 0
  · rw [if_neg (fun h => h.1 discard), Core.setVp, if_pos discard]
  · have read : (c.setVp n mask x).getVp n = (c.getVp n &&& ~~~mask) ||| (x &&& mask) := by
      rw [Core.setVp, if_neg discard, Core.getVp, Core.getVp, if_neg discard, if_neg discard]
      exact tbl_get_set_same _ _ _ _
    rw [read, BitVec.getLsbD_or, BitVec.getLsbD_and, BitVec.getLsbD_and, BitVec.getLsbD_not]
    by_cases on : mask.getLsbD k = true
    · rw [if_pos ⟨discard, on⟩, on]
      simp
    · rw [if_neg (fun h => on h.2), Bool.eq_false_iff.2 on]
      by_cases inside : k < 1024
      · simp [inside]
      · simp [BitVec.getLsbD_of_ge (c.getVp n) k (by omega)]

/- Predicate results. -/

/-- A V instruction that writes the enabled bits of a predicate: it completes, those bits are the new ones, and nothing else of the core
differs (11 R253, R254). -/
theorem vPredicate_next {s : State} {lone : Bool} {flt : Option FaultInfo} {f : Core → VPred} (ready : VReady tk srcs s) (fl : flt = none)
    (hf : ReadsPastIssue f) :
    ∃ t, vIssue (vNeed s tk srcs) lone flt s (fun s => complete .v tk (s.onMe (fun c => c.setVp pd (c.vMask pg) (f c)))) = .next t ∧
      Completes .v tk 1 s t ∧
      (∀ k, (t.me.getVp pd).getLsbD k = if pd ≠ 0 ∧ (s.me.vMask pg).getLsbD k = true then (f s.me).getLsbD k else (s.me.getVp pd).getLsbD k) ∧
      (∀ r, r ≠ pd → t.me.getVp r = s.me.getVp r) ∧ still s { t.me with vp := s.me.vp } = s.me := by
  obtain ⟨tokens, free, whole, loop⟩ := ready
  obtain ⟨t, ht, done, st, tok, res, cy, st', tok', res', cy', me⟩ :=
    vIssue_completes (s := s) (nd := vNeed s tk srcs) (lone := lone) (f := fun c => c.setVp pd (c.vMask pg) (f c)) rfl (vNeed_ready free)
      (vNeed_clear tokens).1 (vNeed_clear tokens).2 fl whole loop (fun c => by simp) (fun c => by simp)
  refine ⟨t, ht, done, ?_⟩
  simp only [hf s.me st tok res cy] at me
  rw [me]
  refine ⟨getVp_setVp_bit _ pd _ _, fun r other => getVp_setVp_other _ _ _ other, ?_⟩
  unfold Core.setVp
  split <;> rfl

/-- An instruction that writes the bits `b` into a predicate. -/
theorem vPredicate_says {lone : Bool} {flt : State → Option FaultInfo} {f : Core → VPred} {b : State → Nat → Bool}
    (hi : ∀ s, exec i s = vIssue (vNeed s tk srcs) lone (flt s) s (fun s => complete .v tk (s.onMe (fun c => c.setVp pd (c.vMask pg) (f c)))))
    (hflt : ∀ s, may s → flt s = none) (hf : ReadsPastIssue f) (hb : ∀ s k, k < 1024 → (f s.me).getLsbD k = b s k) :
    VpResult i tk pg pd srcs may b := by
  intro s ready ok
  obtain ⟨t, ht, done, bits, others, rest⟩ := vPredicate_next (lone := lone) (pg := pg) (pd := pd) ready (hflt s ok) hf
  refine ⟨t, (hi s).trans ht, done, fun k hk => ?_, others, rest⟩
  rw [bits k, hb s k hk]

/-- Floating-point instructions are refused in mode 3 only (11 R243). -/
theorem vFpFault_none {s : State} (h : s.me.vmode.toNat ≠ 3) : vFpFault s = none := by
  have other : s.me.vmode ≠ 3 := fun e => h (by rw [e]; rfl)
  rw [vFpFault, vIllegal, decide_eq_false other, if_neg Bool.false_ne_true]

/-- A compare, named by its constructor, whether it refuses mode 3, and its relation of two elements (11 R253). -/
def CompareForm (x : (BitVec 4 → BitVec 6 → BitVec 6 → BitVec 4 → BitVec 3 → Instr) × Bool × (State → Nat → Nat → Bool)) : Prop :=
  ∀ pd va vb pg tk, VpResult (x.1 pd va vb pg tk) tk pg pd [va, vb] (fun s => x.2.1 = true → s.me.vmode.toNat ≠ 3)
    (fun s k => (List.range (32 / s.me.vw)).all (fun i =>
      x.2.2 s (elemOf s va (32 / s.me.vw * k + i)) (elemOf s vb (32 / s.me.vw * k + i))))

/-- A compare is by relation `v` where the relation that the model gives it is `v` of the issuing core. -/
theorem vCmp_says {mk : BitVec 4 → BitVec 6 → BitVec 6 → BitVec 4 → BitVec 3 → Instr} {fp : Bool} (rel : Core → Nat → Nat → Bool)
    {v : State → Nat → Nat → Bool} (hr : ReadsPastIssue rel) (hv : ∀ s a b, rel s.me a b = v s a b)
    (hi : ∀ pd va vb pg tk s, exec (mk pd va vb pg tk) s = vCmp fp rel pd va vb pg tk s := by intros; rfl) : CompareForm (mk, fp, v) := by
  intro pd va vb pg tk
  refine vPredicate_says (hi pd va vb pg tk) (fun s ok => ?_) (fun c st tok res cy => ?_) (fun s k hk => ?_)
  · cases fp
    · rfl
    · exact vFpFault_none (ok rfl)
  · rw [hr c st tok res cy]; rfl
  · rw [vpOf_bit _ hk, vCompare, funext₂ (hv s)]; rfl

/-- The floating-point relation that holds where the order of two elements, flushed under FPCTL, is one that `ok` admits. -/
def orderRelation (ok : Ordering → Bool) (c : Core) : Nat → Nat → Bool := fRel ok c.fpctl c.vf

/-- A floating-point compare is by its orders, and refuses mode 3. -/
theorem vFCmp_says {mk : BitVec 4 → BitVec 6 → BitVec 6 → BitVec 4 → BitVec 3 → Instr} (ok : Ordering → Bool) {ok' : Ordering → Bool}
    (same : ∀ o, ok o = ok' o)
    (hi : ∀ pd va vb pg tk s, exec (mk pd va vb pg tk) s = vCmp true (orderRelation ok) pd va vb pg tk s := by intros; rfl) :
    CompareForm (mk, true, fun s => orderRelation ok' s.me) :=
  vCmp_says (orderRelation ok) (fun _ _ _ _ _ => rfl) (fun _ _ _ => by rw [funext same]) hi

/-- A predicate operation, bit by bit (11 R254). -/
theorem vPred_says {f : Core → VPred} {b : State → Nat → Bool} (hi : ∀ s, exec i s = vPred f pd pg tk s)
    (hf : ReadsPastIssue f) (hb : ∀ s k, k < 1024 → (f s.me).getLsbD k = b s k) : VpResult i tk pg pd [] (fun _ => True) b :=
  vPredicate_says hi (fun _ _ => rfl) hf hb

end Sys2Proof.Laws
end

section
/-!
PROOFS. The statements of 11 about integer instructions, compares and predicate operations.
-/
namespace Sys2Proof.Proofs
open Sys2Proof.Machine Sys2Proof.Claims Sys2Proof.Laws

/-- Settles O20: each form issues with its operation, and the operation is the stated value of elements of the width in force. -/
theorem vectorIntegers : Obligations.VectorIntegers := by
  have forms : ∀ x ∈ vInteger, IntegerForm x := by
    unfold vInteger
    simp only [List.forall_mem_cons]
    exact ⟨
      vInt2_says _ (fun w a b _ => viadd_value w a b), vInt2_says _ (fun _ a _ hb => visub_value a hb),
      vInt2_says _ (fun w a b _ => vimul_value w a b), vInt2_says iMulh (fun w a b _ => vimulh_value w a b),
      vInt2_says (fun _ a b => a &&& b) (fun _ _ _ _ => rfl), vInt2_says (fun _ a b => a ||| b) (fun _ _ _ _ => rfl),
      vInt2_says (fun _ a b => a ^^^ b) (fun _ _ _ _ => rfl),
      vInt2_says _ (fun w a b _ => vshl_value w a b), vInt2_says (fun w a b => a / 2 ^ (b % w)) (fun _ _ _ _ => rfl),
      vInt2_says iShra (fun w a b _ => vshra_value w a b), vInt2_says iMin (fun w a b _ => vimin_value w a b),
      vInt2_says iMax (fun w a b _ => vimax_value w a b), List.forall_mem_nil _⟩
  exact ⟨forms, fun vd va pg tk => ⟨vInt1_says vpopc_value vd va pg tk, vInt1_says vclz_value vd va pg tk⟩⟩

/-- Settles O21: each compare writes the bits of its relation, the predicate operations those of the bitwise operation. -/
theorem vectorComparesAndPredicates : Obligations.VectorComparesAndPredicates := by
  have forms : ∀ x ∈ vRelations, CompareForm x := by
    unfold vRelations
    simp only [List.forall_mem_cons]
    refine ⟨vCmp_says (fun _ a b => decide (a = b)) (fun _ _ _ _ _ => rfl) (fun _ _ _ => rfl),
      vCmp_says (fun c a b => decide (intOfCode c.vw a < intOfCode c.vw b)) (fun _ _ _ _ _ => rfl) (fun s a b => ?lt),
      vCmp_says (fun c a b => decide (intOfCode c.vw a ≤ intOfCode c.vw b)) (fun _ _ _ _ _ => rfl) (fun s a b => ?le),
      vFCmp_says (fun o => decide (o = .eq)) ?isEq, vFCmp_says (fun o => decide (o = .lt)) ?isLt,
      vFCmp_says (fun o => decide (o ≠ .gt)) ?isLe, List.forall_mem_nil _⟩
    case lt | le => rw [intOfCode_eq_signed, intOfCode_eq_signed]
    case isEq | isLt | isLe => exact fun o => by cases o <;> rfl
  refine ⟨forms, fun pd pa pb pg tk => ⟨?vpand, ?vpor, ?vpnot⟩⟩
  case vpand => exact vPred_says (fun _ => rfl) (fun _ _ _ _ _ => rfl) (fun _ _ _ => BitVec.getLsbD_and)
  case vpor => exact vPred_says (fun _ => rfl) (fun _ _ _ _ _ => rfl) (fun _ _ _ => BitVec.getLsbD_or)
  case vpnot => exact vPred_says (fun _ => rfl) (fun _ _ _ _ _ => rfl) (fun _ k hk => by rw [BitVec.getLsbD_not, decide_eq_true hk, Bool.true_and])

end Sys2Proof.Proofs
end
